-- ==== Sys2Proof/Word.lean ====
section
/-! DEFINITION. The machine's number types: bytes, 16-bit fields, 32-bit words (00_scope.md R9). -/

namespace Sys2Proof

/-- One byte of the shared region, of a payload or of a header (u8). -/
abbrev Byte := BitVec 8

/-- A 16-bit quantity: a header field (30_encoding.md R100) or a mailbox status word (R110). -/
abbrev Half := BitVec 16

/-- A 32-bit word of the shared region (20_memory.md R62). -/
abbrev Word := BitVec 32

end Sys2Proof
end

