-- ==== Sys2Proof/Syntax.lean ====
section
/-! DEFINITION. The operations of the engine, one constructor for each row of spec/opcode_table.json,
and the carriers on which an operation with a bit pattern is presented (00_scope.md R3; 30_encoding.md R125). -/

namespace Sys2Proof

/-- The direction of a ring, seen from the AP (00_scope.md R12). -/
inductive Dir
  | tx
  | rx
deriving DecidableEq, Repr

/-- A ring of the engine: `TX(c)` or `RX(c)` (20_memory.md R72). -/
structure RingId where
  dir : Dir
  c : Nat
deriving DecidableEq, Repr

/-- The TX ring of channel `c`. -/
abbrev txRing (c : Nat) : RingId := ⟨.tx, c⟩

/-- The RX ring of channel `c`. -/
abbrev rxRing (c : Nat) : RingId := ⟨.rx, c⟩

/-- The seven fields of a frame header, in their order (30_encoding.md R100). -/
structure Header where
  startMagic : Half
  frameSeq : Half
  fragCfg : Half
  totalLen : Half
  channelId : Byte
  channelSeq : Byte
  reserved : Half
deriving DecidableEq, Repr

/-- The causes carried on the CRASH port (30_encoding.md R122). -/
inductive CrashCause
  | crashCmd
  | ringCorruptTx
  | ringCorruptRx
  | peerNotReady
deriving DecidableEq, Repr

/-- The operations, named as spec/opcode_table.json names them. -/
inductive Instr
  /-- `LD.STATUS` (43_link_device.md R228). -/
  | ldStatus
  /-- `LD.START` (R211). -/
  | ldStart
  /-- `CH.SEND` (42_channel.md R182). -/
  | chSend (c : Nat) (chid : Byte) (payload : List Byte)
  /-- `LD.SAVE` (R226). -/
  | ldSave
  /-- `CMD.PHONE_START`, received (R220). -/
  | cmdPhoneStart
  /-- `CMD.CRASH_EXIT`, received (R222). -/
  | cmdCrashExit
  /-- `CMD.OTHER`, any other received command code (R223). -/
  | cmdOther (code : Half)
  /-- `DB.NONCMD`, a received doorbell-mask word (R218). -/
  | dbNoncmd (w : Half)
  /-- `DB.INVALID`, a received word without the valid marker (R217). -/
  | dbInvalid (w : Half)
  /-- `CMD.INIT_END`, sent (R221). -/
  | cmdInitEnd
  /-- `DB.SEND`, sent after each frame (R188). -/
  | dbSend (c : Nat)
  /-- `DB.RES_ACK`, sent by `CH.ACK_REQ` (R194). -/
  | dbResAck (c : Nat)
  /-- `FRAME.TX`, a frame written to the TX ring of channel `c` (R163, R165, R187). -/
  | frameTx (c : Nat) (chid cseq : Byte) (fseq : Half) (payload : List Byte)
  /-- `FRAME.RX`, a frame taken from the RX ring of channel `c`, whose validated header is `d` (R166, R191). -/
  | frameRx (c : Nat) (d : Header)
  /-- `LD.ON_DOORBELL`, the interrupt entry (R212). -/
  | ldOnDoorbell
  /-- `RQ.SPACE` (40_ring_queue.md R143). -/
  | rqSpace (r : RingId)
  /-- `RQ.AVAIL` (R144). -/
  | rqAvail (r : RingId)
  /-- `RQ.WRITE` (R145). -/
  | rqWrite (r : RingId) (src : List Byte)
  /-- `RQ.READ` (R146). -/
  | rqRead (r : RingId) (len : Nat)
  /-- `RQ.PEEK` (R147). -/
  | rqPeek (r : RingId) (off len : Nat)
  /-- `RQ.INIT` (R148). -/
  | rqInit (r : RingId)
  /-- `FH.PAD` (41_frame_codec.md R161). -/
  | fhPad (n : Nat)
  /-- `FH.FRAME_SIZE` (R162). -/
  | fhFrameSize (totalLen : Nat)
  /-- `FH.ENCODE` (R163). -/
  | fhEncode (chid cseq : Byte) (fseq : Half) (payloadLen : Nat)
  /-- `FH.TAIL_BYTES` (R164). -/
  | fhTailBytes (payload : List Byte) (pad : Nat)
  /-- `FH.DECODE` (R166), whose operand is 12 bytes. -/
  | fhDecode (b : Vector Byte 12)
  /-- `CH.INIT` (R181). -/
  | chInit (c : Nat)
  /-- `CH.RECV_PENDING` (R191). -/
  | chRecvPending (c : Nat)
  /-- `CH.ACK_REQ` (R194). -/
  | chAckReq (c : Nat) (w : Half)
  /-- `CH.RES_ACK` (R195). -/
  | chResAck (c : Nat) (w : Half)
  /-- `LD.WORK` (R216). -/
  | ldWork
  /-- `LD.CHECK_READY` (R214). -/
  | ldCheckReady
  /-- `LD.CRASH` (R224, R266). -/
  | ldCrash (cause : CrashCause) (c : Nat)
  /-- `DW.STEP` (44_dispatch.md R251). -/
  | dwStep
deriving DecidableEq, Repr

/-- A request on the REQ port: the 4-bit opcode, the channel select, the `chid` byte and the payload
byte stream, whose length is the request's `len` (30_encoding.md R120). -/
structure Request where
  op : BitVec 4
  c : Nat
  chid : Byte
  payload : List Byte
deriving DecidableEq, Repr

/-- Where an operation with a bit pattern is presented, and its bits (30_encoding.md R120, R110, R100):
a request on the REQ port, a status word of either direction, the bytes of a frame at the head of a
TX ring or at the tail of an RX ring. -/
inductive Fetch
  | req (r : Request)
  | mbxIn (w : Half)
  | mbxOut (w : Half)
  | txFrame (c : Nat) (bytes : List Byte)
  | rxFrame (c : Nat) (bytes : List Byte)
deriving DecidableEq, Repr

end Sys2Proof
end

