-- ==== Sys2Proof/Config.lean ====
section
/-! DEFINITION. The implementation parameters `Cfg` (00_scope.md R7), the constraints every rule assumes
(R8) and the reference configuration REF. A configuration is carried in the state and no step writes
it, so that a statement about every state is one about every configuration (log 2). -/

namespace Sys2Proof

/-- The parameters of one channel (00_scope.md R7; 10_state.md R29). -/
structure ChanCfg where
  capTx : Nat
  capRx : Nat
  maskSend : Half
  maskReqAck : Half
  maskResAck : Half
deriving DecidableEq, Repr

/-- The configuration record of 00_scope.md R7. `N_CH` is the length of `chans`. -/
structure Cfg where
  chans : List ChanCfg
  rsvdLen : Nat
  startMagic : Half
  ipcMagic : Word
  saveMagic : Word
  fragSingle : Half
  fragMultiStart : Half
  fragMultiLast : Half
  stValid : Half
  stCmd : Half
  stCodeMask : Half
  codePhoneStart : Half
  codeInitEnd : Half
  codeCrashExit : Half
  irqOut : Nat
  irqIn : Nat
  wqDepth : Nat
  rxqDepth : Nat
  sinks : List Byte
deriving DecidableEq, Repr

/-- `HEADER_SIZE = 12`, a constant and no parameter (30_encoding.md R101). -/
def headerSize : Nat := 12

/-- `N_CH`. -/
def Cfg.nCh (cfg : Cfg) : Nat := cfg.chans.length

/-- The parameters of channel `c`; a channel the engine does not have has none of its own. -/
def Cfg.chan (cfg : Cfg) (c : Nat) : ChanCfg :=
  cfg.chans.getD c ⟨0, 0, 0, 0, 0⟩

/-- A single set bit, for the markers and masks of 00_scope.md R8 (e) and (f). -/
def oneBit (w : Half) : Bool := w != 0 && (w &&& (w - 1)) == 0

/-- The masks of one channel: `MASK_SEND`, `MASK_REQ_ACK`, `MASK_RES_ACK`. -/
def ChanCfg.masks (k : ChanCfg) : List Half := [k.maskSend, k.maskReqAck, k.maskResAck]

/-- All `3 * N_CH` masks. -/
def Cfg.masks (cfg : Cfg) : List Half := cfg.chans.flatMap ChanCfg.masks

/-- A capacity is a multiple of 4, at least 16 and below 2^31 (00_scope.md R8 (a)). -/
def capOk (cap : Nat) : Bool := cap % 4 == 0 && 16 ≤ cap && cap < 2 ^ 31

/-- The constraints of 00_scope.md R8 (a) to (f), with the ranges that R7 gives `N_CH` and the depths. -/
def Cfg.wf (cfg : Cfg) : Bool :=
  1 ≤ cfg.nCh
  && cfg.chans.all (fun k => capOk k.capTx && capOk k.capRx)
  && cfg.rsvdLen % 4 == 0
  && cfg.saveMagic != cfg.ipcMagic
  && decide ([cfg.codePhoneStart, cfg.codeInitEnd, cfg.codeCrashExit].Nodup)
  && [cfg.codePhoneStart, cfg.codeInitEnd, cfg.codeCrashExit].all (fun k => k &&& cfg.stCodeMask == k)
  && cfg.masks.all oneBit
  && decide (cfg.masks.Nodup)
  && cfg.masks.all (fun m => m != cfg.stValid && m != cfg.stCmd)
  && oneBit cfg.stValid && oneBit cfg.stCmd && cfg.stValid != cfg.stCmd
  && cfg.stValid &&& cfg.stCodeMask == 0 && cfg.stCmd &&& cfg.stCodeMask == 0
  && 1 ≤ cfg.wqDepth && 1 ≤ cfg.rxqDepth

/-- The reference configuration REF (00_scope.md R7). Its values are the spec's reference values, used by
the test vectors and by the state after reset only (log 2). -/
def Cfg.ref : Cfg where
  chans := [⟨64, 64, 0x0002, 0x0020, 0x0008⟩, ⟨64, 64, 0x0001, 0x0010, 0x0004⟩]
  rsvdLen := 24
  startMagic := 0xABCD
  ipcMagic := 0x000000AA
  saveMagic := 0x4E565356
  fragSingle := 0xC000
  fragMultiStart := 0x8000
  fragMultiLast := 0x4000
  stValid := 0x0080
  stCmd := 0x0040
  stCodeMask := 0x000F
  codePhoneStart := 0x8
  codeInitEnd := 0x2
  codeCrashExit := 0xC
  irqOut := 0
  irqIn := 0
  wqDepth := 8
  rxqDepth := 8
  sinks := [0x01, 0x02]

end Sys2Proof
end

