-- ==== Sys2Proof/WellFormed.lean ====
section
/-! DEFINITION. When an operation's operands are ones the spec gives it a meaning for: the channel exists,
a ring primitive is used on the ring the engine uses it on (40_ring_queue.md R151), lengths and fields
are in range. -/

namespace Sys2Proof

/-- The capacity of a ring. -/
def Cfg.capOf (cfg : Cfg) (r : RingId) : Nat :=
  match r.dir with
  | .tx => (cfg.chan r.c).capTx
  | .rx => (cfg.chan r.c).capRx

/-- The longest payload of a single-frame header (30_encoding.md R106, R121 `TooLong`). -/
def lenFits (len : Nat) : Bool := headerSize + len ≤ 65535

/-- Well-formedness of an operation under a configuration. -/
def Instr.wf (cfg : Cfg) : Instr → Bool
  | .ldStatus => true
  | .ldStart => true
  | .chSend c _ payload => c < cfg.nCh && lenFits payload.length
  | .ldSave => true
  | .cmdPhoneStart => true
  | .cmdCrashExit => true
  | .cmdOther code =>
      code &&& cfg.stCodeMask == code && code != cfg.codePhoneStart && code != cfg.codeCrashExit
  | .dbNoncmd w => w &&& cfg.stValid != 0 && w &&& cfg.stCmd == 0
  | .dbInvalid w => w &&& cfg.stValid == 0
  | .cmdInitEnd => true
  | .dbSend c => c < cfg.nCh
  | .dbResAck c => c < cfg.nCh
  | .frameTx c _ _ _ payload => c < cfg.nCh && lenFits payload.length
  | .frameRx c d => c < cfg.nCh && d.startMagic == cfg.startMagic && headerSize ≤ d.totalLen.toNat
  | .ldOnDoorbell => true
  | .rqSpace r => r.dir == .tx && r.c < cfg.nCh
  | .rqAvail r => r.dir == .rx && r.c < cfg.nCh
  | .rqWrite r src => r.dir == .tx && r.c < cfg.nCh && src.length < cfg.capOf r
  | .rqRead r len => r.dir == .rx && r.c < cfg.nCh && len < cfg.capOf r
  | .rqPeek r off len => r.dir == .rx && r.c < cfg.nCh && off + len < cfg.capOf r
  | .rqInit r => r.c < cfg.nCh
  | .fhPad _ => true
  | .fhFrameSize n => headerSize ≤ n && n ≤ 65535
  | .fhEncode _ _ _ len => lenFits len
  | .fhTailBytes payload pad => pad < 4 && (payload.length + pad) % 4 == 0
  | .fhDecode _ => true
  | .chInit c => c < cfg.nCh
  | .chRecvPending c => c < cfg.nCh
  | .chAckReq c w => c < cfg.nCh && w &&& cfg.stValid != 0 && w &&& cfg.stCmd == 0
  | .chResAck c w => c < cfg.nCh && w &&& cfg.stValid != 0 && w &&& cfg.stCmd == 0
  | .ldWork => true
  | .ldCheckReady => true
  | .ldCrash _ c => c < cfg.nCh
  | .dwStep => true

end Sys2Proof
end

