-- ==== Sys2Proof/Decode.lean ====
section
/-! DEFINITION. The encodings of 30_encoding.md and the pure codec of 41_frame_codec.md: frame header and
wire frame, status words, request opcodes; the decoder, total, which rejects by name; the encoder. -/

namespace Sys2Proof

/-! ### Bytes and 16-bit fields (R60, R102) -/

/-- `f[7:0]`. -/
def loByte (f : Half) : Byte := f.setWidth 8

/-- `f[15:8]`. -/
def hiByte (f : Half) : Byte := (f >>> 8).setWidth 8

/-- `hi ++ lo`, a 16-bit field from its two bytes (R102). -/
def mkHalf (lo hi : Byte) : Half := hi ++ lo

/-! ### The frame codec -/

/-- `FH.PAD(n)` (41_frame_codec.md R161). -/
def fhPad (n : Nat) : Nat := (4 - n % 4) % 4

/-- `FH.FRAME_SIZE(total_len)` (R162). -/
def fhFrameSize (totalLen : Nat) : Nat := totalLen + fhPad totalLen

/-- The 12 header bytes of `FH.ENCODE` (R163). -/
def encodeHeader (cfg : Cfg) (chid cseq : Byte) (fseq : Half) (payloadLen : Nat) : List Byte :=
  let totalLen : Half := BitVec.ofNat 16 (headerSize + payloadLen)
  [loByte cfg.startMagic, hiByte cfg.startMagic,
   loByte fseq, hiByte fseq,
   loByte cfg.fragSingle, hiByte cfg.fragSingle,
   loByte totalLen, hiByte totalLen,
   chid, cseq, 0, 0]

/-- `FH.TAIL_BYTES(payload, padding_len)` (R164). -/
def tailBytes (payload : List Byte) (pad : Nat) : List Byte := payload ++ List.replicate pad 0

/-- The whole frame image (R165). -/
def frameImage (cfg : Cfg) (chid cseq : Byte) (fseq : Half) (payload : List Byte) : List Byte :=
  encodeHeader cfg chid cseq fseq payload.length
    ++ tailBytes payload (fhPad (headerSize + payload.length))

/-- The result of `FH.DECODE` (R166); `notTwelve` marks an operand that is no header at all. -/
inductive HeaderResult
  | ok (h : Header)
  | badMagic
  | badLength
  | notTwelve
deriving DecidableEq, Repr

/-- `FH.DECODE(b)`: the magic is tested before the length (R166, R272). -/
def decodeHeader (cfg : Cfg) : List Byte → HeaderResult
  | [b0, b1, b2, b3, b4, b5, b6, b7, b8, b9, b10, b11] =>
      let h : Header :=
        { startMagic := mkHalf b0 b1, frameSeq := mkHalf b2 b3, fragCfg := mkHalf b4 b5,
          totalLen := mkHalf b6 b7, channelId := b8, channelSeq := b9, reserved := mkHalf b10 b11 }
      if h.startMagic ≠ cfg.startMagic then .badMagic
      else if h.totalLen.toNat < headerSize then .badLength
      else .ok h
  | _ => .notTwelve

/-- The 12 bytes of a header with every field free, the inverse of the field assembly of R102. -/
def headerBytes (h : Header) : List Byte :=
  [loByte h.startMagic, hiByte h.startMagic, loByte h.frameSeq, hiByte h.frameSeq,
   loByte h.fragCfg, hiByte h.fragCfg, loByte h.totalLen, hiByte h.totalLen,
   h.channelId, h.channelSeq, loByte h.reserved, hiByte h.reserved]

/-! ### Status words (30_encoding.md R110 to R114) -/

/-- `INT_CMD(code) = ST_VALID | ST_CMD | code` (R114). -/
def intCmd (cfg : Cfg) (code : Half) : Half := cfg.stValid ||| cfg.stCmd ||| code

/-- `INT_NON_CMD(mask) = ST_VALID | mask` (R114). -/
def intNonCmd (cfg : Cfg) (mask : Half) : Half := cfg.stValid ||| mask

/-- The word `DB.SEND` sends for channel `c` (R113, R188). -/
def sendWord (cfg : Cfg) (c : Nat) : Half := intNonCmd cfg (cfg.chan c).maskSend

/-- The word `DB.RES_ACK` sends for channel `c` (R113, R194). -/
def resAckWord (cfg : Cfg) (c : Nat) : Half := intNonCmd cfg (cfg.chan c).maskResAck

/-- The word `CMD.INIT_END` sends (R112, R221). -/
def initEndWord (cfg : Cfg) : Half := intCmd cfg cfg.codeInitEnd

/-- `handle_command(code)` (43_link_device.md R216, R219). -/
def decodeCommand (cfg : Cfg) (code : Half) : Instr :=
  if code = cfg.codePhoneStart then .cmdPhoneStart
  else if code = cfg.codeCrashExit then .cmdCrashExit
  else .cmdOther code

/-- Classification of a received status word, the first case that applies (R111). Total: nothing in a
status word can fault (R115). -/
def decodeStatus (cfg : Cfg) (w : Half) : Instr :=
  if w &&& cfg.stValid = 0 then .dbInvalid w
  else if w &&& cfg.stCmd ≠ 0 then decodeCommand cfg (w &&& cfg.stCodeMask)
  else .dbNoncmd w

/-! ### The decoder and the encoder -/

/-- Why a presented pattern is no operation. -/
inductive DecodeError
  /-- A reserved `req_op` (R120): the REQ port answers `BadRequest`. -/
  | badRequest
  /-- Header bytes whose magic differs (R116). -/
  | badMagic
  /-- Header bytes with `total_len < 12`, or fewer than 12 bytes (R116). -/
  | badLength
  /-- A status word or frame the engine never sends (R114, R116). -/
  | notSent
deriving DecidableEq, Repr

/-- What the decoder answers. -/
inductive Decoded
  | instr (i : Instr)
  | reject (e : DecodeError)
deriving DecidableEq, Repr

/-- The REQ port's opcodes (30_encoding.md R120). -/
def decodeRequest (r : Request) : Decoded :=
  if r.op = 0 then .instr .ldStatus
  else if r.op = 1 then .instr .ldStart
  else if r.op = 2 then .instr (.chSend r.c r.chid r.payload)
  else if r.op = 3 then .instr .ldSave
  else .reject .badRequest

/-- A status word as the engine sends it: exactly one code or one mask bit (R114). -/
def decodeSent (cfg : Cfg) (w : Half) : Decoded :=
  if w = initEndWord cfg then .instr .cmdInitEnd
  else
    match (List.range cfg.nCh).find? (fun c => w == sendWord cfg c) with
    | some c => .instr (.dbSend c)
    | none =>
      match (List.range cfg.nCh).find? (fun c => w == resAckWord cfg c) with
      | some c => .instr (.dbResAck c)
      | none => .reject .notSent

/-- A whole frame as the engine transmits it: it must be the very image that its own fields give (R165). -/
def decodeTxFrame (cfg : Cfg) (c : Nat) (bytes : List Byte) : Decoded :=
  match decodeHeader cfg (bytes.take headerSize) with
  | .ok h =>
      let payload := (bytes.drop headerSize).take (h.totalLen.toNat - headerSize)
      if bytes = frameImage cfg h.channelId h.channelSeq h.frameSeq payload then
        .instr (.frameTx c h.channelId h.channelSeq h.frameSeq payload)
      else .reject .notSent
  | .badMagic => .reject .badMagic
  | .badLength => .reject .badLength
  | .notTwelve => .reject .badLength

/-- The header at the tail of an RX ring (R116, R166). -/
def decodeRxFrame (cfg : Cfg) (c : Nat) (bytes : List Byte) : Decoded :=
  match decodeHeader cfg (bytes.take headerSize) with
  | .ok h => .instr (.frameRx c h)
  | .badMagic => .reject .badMagic
  | .badLength => .reject .badLength
  | .notTwelve => .reject .badLength

/-- The decoder: total, one operation or a rejection by name. -/
def decode (cfg : Cfg) : Fetch → Decoded
  | .req r => decodeRequest r
  | .mbxIn w => .instr (decodeStatus cfg w)
  | .mbxOut w => decodeSent cfg w
  | .txFrame c bytes => decodeTxFrame cfg c bytes
  | .rxFrame c bytes => decodeRxFrame cfg c bytes

/-- The encoder: the pattern of an operation that has one (R125: the internal operations have none). -/
def encode (cfg : Cfg) : Instr → Option Fetch
  | .ldStatus => some (.req ⟨0, 0, 0, []⟩)
  | .ldStart => some (.req ⟨1, 0, 0, []⟩)
  | .chSend c chid payload => some (.req ⟨2, c, chid, payload⟩)
  | .ldSave => some (.req ⟨3, 0, 0, []⟩)
  | .cmdPhoneStart => some (.mbxIn (intCmd cfg cfg.codePhoneStart))
  | .cmdCrashExit => some (.mbxIn (intCmd cfg cfg.codeCrashExit))
  | .cmdOther code => some (.mbxIn (intCmd cfg code))
  | .dbNoncmd w => some (.mbxIn w)
  | .dbInvalid w => some (.mbxIn w)
  | .cmdInitEnd => some (.mbxOut (initEndWord cfg))
  | .dbSend c => some (.mbxOut (sendWord cfg c))
  | .dbResAck c => some (.mbxOut (resAckWord cfg c))
  | .frameTx c chid cseq fseq payload => some (.txFrame c (frameImage cfg chid cseq fseq payload))
  | .frameRx c d => some (.rxFrame c (headerBytes d))
  | .ldOnDoorbell => none
  | .rqSpace _ => none
  | .rqAvail _ => none
  | .rqWrite _ _ => none
  | .rqRead _ _ => none
  | .rqPeek _ _ _ => none
  | .rqInit _ => none
  | .fhPad _ => none
  | .fhFrameSize _ => none
  | .fhEncode _ _ _ _ => none
  | .fhTailBytes _ _ => none
  | .fhDecode _ => none
  | .chInit _ => none
  | .chRecvPending _ => none
  | .chAckReq _ _ => none
  | .chResAck _ _ => none
  | .ldWork => none
  | .ldCheckReady => none
  | .ldCrash _ _ => none
  | .dwStep => none

/-! ### Words numbered as spec/opcode_table.json numbers them (log 11) -/

/-- `n` bytes of a number, least significant first. -/
def numberBytes : Nat → Nat → List Byte
  | 0, _ => []
  | n + 1, w => BitVec.ofNat 8 w :: numberBytes n (w / 256)

/-- The carrier a table row's word is presented on: a number of at most one byte below 16 is a `req_op`;
up to 16 bits it is a status word, a sent one where the engine sends that very word (R126: the named rows
come first) and a received one otherwise; anything longer is a frame header followed by zero bytes, a
transmitted frame where its fields are the ones the engine transmits and a received one otherwise. A frame row's word
names no physical channel: it is presented on the ring of channel 0 (DESIGN CHOICE, log 11). -/
def tableFetch (cfg : Cfg) (nbits w : Nat) : Fetch :=
  if nbits ≤ 8 ∧ w < 16 then .req ⟨BitVec.ofNat 4 w, 0, 0, []⟩
  else if nbits ≤ 16 then
    match decodeSent cfg (BitVec.ofNat 16 w) with
    | .instr _ => .mbxOut (BitVec.ofNat 16 w)
    | .reject _ => .mbxIn (BitVec.ofNat 16 w)
  else
    let hdr := numberBytes headerSize w
    let totalLen := (mkHalf (hdr.getD 6 0) (hdr.getD 7 0)).toNat
    let image := hdr ++ List.replicate (fhFrameSize totalLen - headerSize) 0
    match decodeTxFrame cfg 0 image with
    | .instr _ => .txFrame 0 image
    | .reject _ => .rxFrame 0 hdr

/-- The operation the decoder reads from a word of the opcode table, under REF, whose values the table
holds (30_encoding.md R126). -/
def decodeTableWord (nbits w : Nat) : Option Instr :=
  match decode Cfg.ref (tableFetch Cfg.ref nbits w) with
  | .instr i => some i
  | .reject _ => none

end Sys2Proof
end

