-- ==== Sys2Proof/Machine/State.lean ====
section
/-! DEFINITION. Everything the machine holds (10_state.md R20 to R52), as plain data: shared state, private
state, mailbox state, the phase of each agent, and the model's own fields; its faults and refusals; the
state after reset. -/

namespace Sys2Proof.Machine

/-- The link state (R31). -/
inductive LinkState
  | offline
  | online
  | nvSave
deriving DecidableEq, Repr

/-- A transmit lock (R28): `FREE` or `HELD(k)`. -/
inductive Lock
  | free
  | held (k : Nat)
deriving DecidableEq, Repr

/-- The private registers of one channel (R25 to R28). `pendingAck` is the `i32` as its 32 bits. -/
structure ChanRegs where
  fseq : Half
  cseq : Byte
  pendingAck : BitVec 32
  txlock : Lock
deriving DecidableEq, Repr

/-- The registers of a channel after hardware reset (R50). -/
def ChanRegs.reset : ChanRegs := ⟨0, 0, 0, .free⟩

/-- A decoded frame in `RXQ` (R41). -/
structure Frame where
  chid : Byte
  payload : List Byte
deriving DecidableEq, Repr

/-- The agents (00_scope.md R11). `PEER` and the request side of `HOST` act through `Choice`; `call` is the
model's own agent, the caller of an operation that the host's interface places on its own: no other way leads to
it (log 3). -/
inductive Agent
  | isr
  | lw
  | dw
  | host
  | snd (k : Nat)
  | call
deriving DecidableEq, Repr

/-- The response codes of the REQ port (30_encoding.md R121). -/
inductive RespCode
  | ok
  | notStarted
  | halted
  | linkDown
  | tooLong
  | badChannel
  | ringCorrupt
  | badRequest
  | peerNotReady
  | badState
deriving DecidableEq, Repr

/-- What an operation hands back to the operation that invoked it. -/
inductive Value
  | unit
  | int (v : Int)
  | nat (n : Nat)
  | bool (b : Bool)
  | bytes (bs : List Byte)
  | header (r : HeaderResult)
  | encoded (hdr : List Byte) (pad : Nat)
  | code (c : RespCode)
deriving DecidableEq, Repr

/-- One line of an operation still to be run, with the local variables it needs (R30). Each is one step of
the agent that runs it (00_scope.md R11, log 10). The letters are those of the spec's pseudocode. -/
inductive Line
  /-- One byte read of SHM, added to the bytes read so far. -/
  | load8 (off : Nat)
  /-- One byte written to SHM. -/
  | store8 (off : Nat) (b : Byte)
  /-- `MemWrite(off, 4, v)`. -/
  | store32 (off : Nat) (v : Word)
  /-- An ordering point (20_memory.md R80). -/
  | fence
  /-- `DoorbellOut(w)` (60_exceptions.md R282). -/
  | doorbell (w : Half)
  /-- `RQ.SPACE`, the read of the head (R143). -/
  | spaceHead (r : RingId)
  /-- `RQ.SPACE`, the read of the tail and the result. -/
  | spaceTail (r : RingId) (h : Word)
  /-- `RQ.AVAIL`, the read of the head (R144). -/
  | availHead (r : RingId)
  /-- `RQ.AVAIL`, the read of the tail and the result. -/
  | availTail (r : RingId) (h : Word)
  /-- `RQ.WRITE`, the read of the head (R145). -/
  | rqWrite (r : RingId) (src : List Byte)
  /-- `RQ.READ`, the read of the tail (R146). -/
  | rqRead (r : RingId) (len : Nat)
  /-- `RQ.PEEK`, the read of the tail (R147). -/
  | rqPeek (r : RingId) (off len : Nat)
  /-- `raise RingCorrupt(r)`, the line after the read of an index word that is corrupt (R145 to R147). -/
  | ringCorrupt (r : RingId)
  /-- `LD.CHECK_READY`, the read of `magic` (R214). -/
  | readyMagic
  /-- `LD.CHECK_READY`, the read of `access` and the result. -/
  | readyAccess (m : Word)
  /-- `CH.SEND` L1 (R182). -/
  | sendLock (c : Nat) (chid : Byte) (payload : List Byte)
  /-- `CH.SEND` L2, after the readiness check. -/
  | sendReady (c : Nat) (chid : Byte) (payload : List Byte)
  /-- `CH.SEND` P2, after `RQ.SPACE`. -/
  | sendTest (c : Nat) (chid : Byte) (payload : List Byte)
  /-- `CH.SEND` P3. -/
  | sendFit (c : Nat) (chid : Byte) (payload : List Byte)
  /-- `CH.SEND` parked at P3, about to poll again (R185). -/
  | sendPark (c : Nat) (chid : Byte) (payload : List Byte)
  /-- `CH.SEND` C1. -/
  | sendCommit (c : Nat) (chid : Byte) (payload : List Byte)
  /-- `CH.SEND` C2. -/
  | sendEncode (c : Nat) (chid : Byte) (payload : List Byte)
  /-- `CH.SEND` U1. -/
  | sendUnlock (c : Nat) (len : Nat)
  /-- `CH.SEND`, the return. -/
  | sendReturn (c : Nat) (len : Nat)
  /-- `CH.RECV_PENDING` V2, after `RQ.AVAIL` (R191). -/
  | recvAvail (c : Nat)
  /-- The head of the frame loop and V3: `a` bytes left, `n` frames pushed. -/
  | recvLoop (c : Nat) (a n : Nat)
  /-- V5, after the peek. -/
  | recvDecode (c : Nat) (a n : Nat)
  /-- V6. -/
  | recvMagic (c : Nat) (a n : Nat)
  /-- V7. -/
  | recvLength (c : Nat) (a n : Nat)
  /-- V8, for the header `d`. -/
  | recvSize (c : Nat) (d : Header) (a n : Nat)
  /-- V9, the hold while `RXQ` is full. -/
  | recvHold
  /-- V11, after the read. -/
  | recvPush (d : Header)
  /-- `FRAME.RX`: V2, after `RQ.AVAIL`. -/
  | frameRxTest (c : Nat) (d : Header)
  /-- `FRAME.RX`: V8 for the header `d`. -/
  | frameRxSize (c : Nat) (d : Header)
  /-- `CH.RES_ACK` (R195). -/
  | resAck (c : Nat) (w : Half)
  /-- `CH.ACK_REQ`, its test (R194). -/
  | ackReq (c : Nat) (w : Half)
  /-- `CH.ACK_REQ`, the decrement. -/
  | ackDec (c : Nat)
  /-- `LD.WORK`, the pop and the classification (R216). -/
  | work
  /-- `DB.NONCMD` N1 (R218). -/
  | noncmd (w : Half)
  /-- `DB.NONCMD` N2, after the readiness check, and the channel loop. -/
  | noncmdReady (w : Half)
  /-- `CMD.PHONE_START`, its test and the channel loop (R220). -/
  | phoneStart
  /-- `CMD.PHONE_START`, `lstate <- ONLINE`. -/
  | setOnline
  /-- `CMD.PHONE_START`, the doorbell of its `CMD.INIT_END` (R221). -/
  | phoneRing
  /-- `CMD.CRASH_EXIT`, its test (R222). -/
  | crashExit
  /-- `CMD.CRASH_EXIT`, the flag and the crash path. -/
  | crashAct
  /-- `LD.CRASH` (R266). -/
  | crash (cause : CrashCause) (c : Nat)
  /-- `LD.ON_DOORBELL` I1 (R212). -/
  | isrClear
  /-- `LD.ON_DOORBELL` I2. -/
  | isrGet
  /-- `LD.ON_DOORBELL` I3. -/
  | isrPush (w : Half)
  /-- `LD.START` S5 (R211). -/
  | startDone
  /-- `LD.START`, the response. -/
  | startReturn
  /-- `LD.SAVE`, the response (R226). -/
  | saveDone
deriving DecidableEq, Repr

/-- The phase of an agent (R30): the value its last line handed back and the lines still to run, in program
order. An agent with no line left is idle. -/
structure Thread where
  acc : Value
  todo : List Line
deriving DecidableEq, Repr

/-- No operation in progress. -/
def Thread.idle : Thread := ⟨.unit, []⟩

/-- What `LD.STATUS` tells of one channel (43_link_device.md R228). -/
structure ChanStatus where
  fseq : Half
  cseq : Byte
  pendingAck : BitVec 32
  locked : Bool
deriving DecidableEq, Repr

/-- The status record of R228. -/
structure StatusRecord where
  lstate : BitVec 2
  started : Bool
  halted : Bool
  errstat : BitVec 8
  wqLen : Nat
  rxqLen : Nat
  chans : List ChanStatus
deriving DecidableEq, Repr

/-- The value that goes with a response code. -/
inductive RespValue
  | num (n : Nat)
  | status (r : StatusRecord)
deriving DecidableEq, Repr

/-- A step of `PEER` (60_exceptions.md R286 E1 to E5). -/
inductive PeerAct
  | read8 (off : Nat)
  | read32 (off : Nat)
  | write8 (off : Nat) (b : Byte)
  | write32 (off : Nat) (v : Word)
  | setStatus (w : Half)
  | raiseIrq
  | takeDoorbell
deriving DecidableEq, Repr

/-- An output event (R20, R43). The last three are `PEER`'s own: what it observed (R286 E1, E5) and what it did
(E2 to E4); `peerTook` says whether its pending bit was set when it took it. -/
inductive Event
  /-- The response to a request; `k` is the sender context of a `CH.SEND` that was admitted. -/
  | response (k : Option Nat) (op : BitVec 4) (code : RespCode) (value : RespValue)
  | doorbellOut (w : Half)
  | crashNotify (cause : CrashCause) (c : Nat)
  | deliver (chid : Byte) (payload : List Byte)
  | peerRead (off n : Nat) (v : Word)
  | peerTook (pending : Bool) (w : Half)
  | peerDid (p : PeerAct)
deriving DecidableEq, Repr

/-- One choice of the environment and the scheduler (log 1). From outside come the four requests, the steps of
`PEER` and hardware reset, and nothing else (60_exceptions.md R270, R279). -/
inductive Choice
  /-- A request put on the REQ port, decoded and run until it returns or holds. -/
  | request (r : Request)
  /-- A request put on the REQ port: tested and, if admitted, begun; no line of it is run. -/
  | submit (r : Request)
  /-- One step of an agent. -/
  | line (a : Agent)
  /-- An agent runs one operation, until it returns or holds. -/
  | op (a : Agent)
  /-- An agent runs until it has no enabled step (30_encoding.md R123). -/
  | run (a : Agent)
  /-- One step of `PEER`. -/
  | peer (p : PeerAct)
  /-- Hardware reset (70_reset_and_hazards.md R300). -/
  | reset
deriving DecidableEq, Repr

/-- The machine's state. `cfg` is the configuration, which no step writes (log 2); `call`, `ret`, `nextSnd`,
`events`, `placed` and `sched` are the model's own (logs 1, 3, 5, 6); all else is the spec's. -/
structure State where
  cfg : Cfg
  /-- SHM, the shared region (R20 (a), R39), in the canonical form `memWf` of Machine/Ops.lean. -/
  mem : List Host.Cell
  lstate : LinkState
  started : Bool
  halted : Bool
  /-- `ERRSTAT` (R37). -/
  errstat : BitVec 8
  /-- The private registers of each channel, by channel index. -/
  chans : List ChanRegs
  /-- `WQ` (R40), oldest first. -/
  wq : List Half
  /-- `RXQ` (R41), oldest first. -/
  rxq : List Frame
  /-- `MBX_IN` (R36). -/
  mbxIn : Half
  /-- `MBX_OUT` (R36). -/
  mbxOut : Half
  /-- `irq_in_pending` (R42). -/
  irqInPending : Bool
  /-- The pending bit of `IRQ_OUT`, which `DoorbellOut` sets and `PEER` takes (R20 (c), R280). -/
  irqOutPending : Bool
  /-- The phases (R30). -/
  isr : Thread
  lw : Thread
  host : Thread
  /-- The senders in progress, each under its context number, in the order of admission (R44). -/
  snds : List (Nat × Thread)
  call : Thread
  ret : Value
  nextSnd : Nat
  events : List Event
  /-- A pattern that the host's interface has placed for the next step; no step places one (logs 1, 3). -/
  placed : Option Fetch
  sched : List Choice
deriving DecidableEq, Repr

/-- Why the machine stops with a fault. -/
inductive Fault
  /-- `PEER` reaches for a byte offset outside the shared region (20_memory.md R74: there is none). Raised by
  `peerStep`. Safe: the spec describes no such access. -/
  | outsideShm (off : Nat)
deriving DecidableEq, Repr

/-- Why a step is refused. -/
inductive Refusal
  /-- The instruction has no meaning yet. Raised by `exec`'s arm. Safe. -/
  | notModelled (mnemonic : String)
  /-- A primitive called outside its contract (40_ring_queue.md R150: "it refuses them (they are not steps of
  the machine)"; the `require` lines of R145 to R147; 92_eei_decisions.md D43; 93_implementation_defined.md U9).
  Raised by `exec` of `RQ.WRITE`, `RQ.READ`, `RQ.PEEK` and `FRAME.TX`. Safe. -/
  | outsideContract (mnemonic : String)
  /-- An operand names a ring or channel the engine does not have (20_memory.md R72: it has `2 * N_CH`
  rings). Raised by `exec` of an operation with a ring or channel operand. Safe. -/
  | noSuchRing (c : Nat)
  /-- A status word or frame that the engine never sends (30_encoding.md R114, R116). Raised by `step`.
  Safe. -/
  | notSent
  /-- A 32-bit access of `PEER` that is not aligned (60_exceptions.md R286: not among its steps). Raised by
  `peerStep`. Safe. -/
  | notAPeerStep
deriving DecidableEq, Repr

/-- The launch state for a configuration and a content of the shared region and the mailbox: every private
register at its reset value, SHM and the mailbox as given, since hardware reset leaves them unspecified
(R50; 70_reset_and_hazards.md R301). -/
def State.launch (cfg : Cfg) (mem : List Host.Cell) (mbxIn mbxOut : Half) (irqIn irqOut : Bool) : State where
  cfg := cfg
  mem := mem
  lstate := .offline
  started := false
  halted := false
  errstat := 0
  chans := List.replicate cfg.nCh ChanRegs.reset
  wq := []
  rxq := []
  mbxIn := mbxIn
  mbxOut := mbxOut
  irqInPending := irqIn
  irqOutPending := irqOut
  isr := .idle
  lw := .idle
  host := .idle
  snds := []
  call := .idle
  ret := .unit
  nextSnd := 0
  events := []
  placed := none
  sched := []

/-- The machine right after reset: the launch state of REF with nothing listed in SHM and the mailbox at zero
(DESIGN CHOICE, logs 2 and 4: the spec leaves both open). -/
def State.reset : State := State.launch Cfg.ref [] 0 0 false false

end Sys2Proof.Machine
end

