-- ==== Sys2Proof/Machine/Flags.lean ====
section
/-! DEFINITION. The conditions of 60_exceptions.md R261 and their bits of `ERRSTAT` (10_state.md R37). -/

namespace Sys2Proof.Machine

/-- The error conditions and flagged events (R261). -/
inductive Condition
  | ringCorrupt (r : RingId)
  | badMagic (c : Nat)
  | badLength (c : Nat)
  | peerNotReady (c : Nat)
  | txNoSpace (c : Nat)
  | wqOverflow
  | noSink
  | crashCmd
deriving DecidableEq, Repr

/-- The sticky bit a condition sets (R37); `TxNoSpace` has none (R265). -/
def Condition.bit : Condition → Option Nat
  | .ringCorrupt _ => some 0
  | .badMagic _ => some 1
  | .badLength _ => some 2
  | .peerNotReady _ => some 3
  | .wqOverflow => some 4
  | .noSink => some 5
  | .crashCmd => some 6
  | .txNoSpace _ => none

/-- The crash path's cause and channel, for the conditions whose entry takes it (R261). -/
def Condition.crash : Condition → Option (CrashCause × Nat)
  | .ringCorrupt r =>
      match r.dir with
      | .tx => some (.ringCorruptTx, r.c)
      | .rx => some (.ringCorruptRx, r.c)
  | .peerNotReady c => some (.peerNotReady, c)
  | .crashCmd => some (.crashCmd, 0)
  | .badMagic _ => none
  | .badLength _ => none
  | .txNoSpace _ => none
  | .wqOverflow => none
  | .noSink => none

/-- The conditions after which the engine halts (R264). -/
def Condition.halts : Condition → Bool
  | .peerNotReady _ => true
  | _ => false

/-- `ERRSTAT` with a condition's bit set. -/
def setFlag (e : BitVec 8) (k : Condition) : BitVec 8 :=
  match k.bit with
  | some n => e ||| (1#8 <<< n)
  | none => e

/-- One bit of `ERRSTAT`. -/
def flagSet (e : BitVec 8) (n : Nat) : Bool := e.getLsbD n

/-- The numeric codes of the responses (30_encoding.md R121). -/
def RespCode.toNat : RespCode → Nat
  | .ok => 0
  | .notStarted => 1
  | .halted => 2
  | .linkDown => 3
  | .tooLong => 4
  | .badChannel => 5
  | .ringCorrupt => 6
  | .badRequest => 7
  | .peerNotReady => 8
  | .badState => 9

/-- The numeric codes of the crash causes (30_encoding.md R122). -/
def causeCode : CrashCause → Nat
  | .crashCmd => 1
  | .ringCorruptTx => 2
  | .ringCorruptRx => 3
  | .peerNotReady => 4

/-- `lstate` as `LD.STATUS` shows it (R31, R122). -/
def LinkState.code : LinkState → BitVec 2
  | .offline => 0
  | .online => 1
  | .nvSave => 2

end Sys2Proof.Machine
end

