-- ==== Sys2Proof/Machine/Operands.lean ====
section
/-! DEFINITION. The SHM layout (20_memory.md R70), ring descriptors (R72), index arithmetic
(40_ring_queue.md R141) and the spans of a ring access (20_memory.md R68). -/

namespace Sys2Proof

/-- `OFF_MAGIC`. -/
def offMagic : Nat := 0

/-- `OFF_ACCESS`. -/
def offAccess : Nat := 4

/-- `OFF_TXH(c)`. -/
def offTxh (c : Nat) : Nat := 8 + 16 * c

/-- `OFF_TXT(c)`. -/
def offTxt (c : Nat) : Nat := 12 + 16 * c

/-- `OFF_RXH(c)`. -/
def offRxh (c : Nat) : Nat := 16 + 16 * c

/-- `OFF_RXT(c)`. -/
def offRxt (c : Nat) : Nat := 20 + 16 * c

/-- `OFF_RSVD`. -/
def Cfg.offRsvd (cfg : Cfg) : Nat := 8 + 16 * cfg.nCh

/-- `BUF_BASE`. -/
def Cfg.bufBase (cfg : Cfg) : Nat := cfg.offRsvd + cfg.rsvdLen

/-- The bytes the buffers of a list of channels take. -/
def bufBytes (ks : List ChanCfg) : Nat := (ks.map (fun k => k.capTx + k.capRx)).sum

/-- `BASE_TX(c)`: channel by channel, TX before RX. -/
def Cfg.baseTx (cfg : Cfg) (c : Nat) : Nat := cfg.bufBase + bufBytes (cfg.chans.take c)

/-- `BASE_RX(c)`. -/
def Cfg.baseRx (cfg : Cfg) (c : Nat) : Nat := cfg.baseTx c + (cfg.chan c).capTx

/-- `SHM_SIZE`. -/
def Cfg.shmSize (cfg : Cfg) : Nat := cfg.bufBase + bufBytes cfg.chans

namespace Machine

/-- A ring descriptor `(base, cap, OFF_H, OFF_T)` (R72). -/
structure Ring where
  base : Nat
  cap : Nat
  offH : Nat
  offT : Nat
deriving DecidableEq, Repr

/-- The descriptors `TX(c)` and `RX(c)`. -/
def ringOf (cfg : Cfg) (r : RingId) : Ring :=
  match r.dir with
  | .tx => ⟨cfg.baseTx r.c, cfg.capOf r, offTxh r.c, offTxt r.c⟩
  | .rx => ⟨cfg.baseRx r.c, cfg.capOf r, offRxh r.c, offRxt r.c⟩

/-- `CORRUPT = -1` (30_encoding.md R122, 40_ring_queue.md R143). -/
def corrupt : Int := -1

/-- An index word is corrupt iff it is `>= cap`, read unsigned (10_state.md R22). -/
def indexCorrupt (cap : Nat) (w : Word) : Bool := cap ≤ w.toNat

/-- `space(h, t) = (t - h - 1) mod cap`, on unbounded integers (R141). -/
def spaceOf (cap : Nat) (h t : Nat) : Int := ((t : Int) - (h : Int) - 1) % (cap : Int)

/-- `avail(h, t) = (h - t) mod cap` (R141). -/
def availOf (cap : Nat) (h t : Nat) : Int := ((h : Int) - (t : Int)) % (cap : Int)

/-- `advance(i, n) = (i + n) mod cap` (R141), as the index word that is stored. -/
def advance (cap : Nat) (i n : Nat) : Word := BitVec.ofNat 32 ((i + n) % cap)

/-- What `RQ.SPACE` answers for a head and a tail word (R143). -/
def spaceResult (cap : Nat) (h t : Word) : Int :=
  if indexCorrupt cap h || indexCorrupt cap t then corrupt else spaceOf cap h.toNat t.toNat

/-- What `RQ.AVAIL` answers for a head and a tail word (R144). -/
def availResult (cap : Nat) (h t : Word) : Int :=
  if indexCorrupt cap h || indexCorrupt cap t then corrupt else availOf cap h.toNat t.toNat

/-- The length of the first contiguous span of an access of `len` bytes at index `i` (R68). -/
def firstSpan (cap i len : Nat) : Nat := min len (cap - i)

/-- The steps that write `bs` at ascending offsets from `off`. -/
def storeLines : Nat → List Byte → List Line
  | _, [] => []
  | off, b :: bs => .store8 off b :: storeLines (off + 1) bs

/-- The steps that read `n` bytes at ascending offsets from `off`. -/
def loadLines : Nat → Nat → List Line
  | _, 0 => []
  | off, n + 1 => .load8 off :: loadLines (off + 1) n

/-- The steps that write `src` into a ring at index `i`: first span, then second (R68). -/
def ringStoreLines (g : Ring) (i : Nat) (src : List Byte) : List Line :=
  storeLines (g.base + i) (src.take (firstSpan g.cap i src.length))
    ++ storeLines g.base (src.drop (firstSpan g.cap i src.length))

/-- The steps that read `len` bytes of a ring from index `i`. -/
def ringLoadLines (g : Ring) (i len : Nat) : List Line :=
  loadLines (g.base + i) (firstSpan g.cap i len)
    ++ loadLines g.base (len - firstSpan g.cap i len)

/-- `need`, the ring bytes a payload of `len` bytes takes (42_channel.md R182, R184). -/
def needOf (len : Nat) : Nat := headerSize + len + fhPad (headerSize + len)

end Machine

end Sys2Proof
end

