-- ==== Sys2Proof/Machine/Ops.lean ====
section
/-! DEFINITION. The shared operations: SHM bytes and words (20_memory.md), the private registers, the
mailbox, events and responses, and raising a condition (60_exceptions.md R262 to R268), which is the one
place where an error's entry actions are written. There is no return from an error (R275). -/

namespace Sys2Proof.Machine

/-! ### SHM -/

/-- What an SHM byte that nothing has written reads as (DESIGN CHOICE, log 4: the spec leaves it open). -/
def unlistedByte : Byte := 0

/-- The byte at offset `a`. -/
def memRead : List Host.Cell → Nat → Byte
  | [], _ => unlistedByte
  | (x, y) :: t, a => if a < x then unlistedByte else if a = x then y else memRead t a

/-- The memory with byte `b` at offset `a`, in canonical form. -/
def memWrite : List Host.Cell → Nat → Byte → List Host.Cell
  | [], a, b => if b = unlistedByte then [] else [(a, b)]
  | (x, y) :: t, a, b =>
      if a < x then (if b = unlistedByte then (x, y) :: t else (a, b) :: (x, y) :: t)
      else if a = x then (if b = unlistedByte then t else (a, b) :: t)
      else (x, y) :: memWrite t a b

/-- Bytes at ascending offsets. -/
def memWriteBytes : List Host.Cell → Nat → List Byte → List Host.Cell
  | m, _, [] => m
  | m, off, b :: bs => memWriteBytes (memWrite m off b) (off + 1) bs

/-- `n` bytes at ascending offsets. -/
def memReadBytes (m : List Host.Cell) : Nat → Nat → List Byte
  | _, 0 => []
  | off, n + 1 => memRead m off :: memReadBytes m (off + 1) n

/-- Byte `k` of a 32-bit word: `w[8k+7:8k]` (R61). -/
def wordByte (w : Word) (k : Nat) : Byte := (w >>> (8 * k)).setWidth 8

/-- `MemWrite(off, 4, w)`: little-endian (R60). -/
def memWrite32 (m : List Host.Cell) (off : Nat) (w : Word) : List Host.Cell :=
  memWriteBytes m off [wordByte w 0, wordByte w 1, wordByte w 2, wordByte w 3]

/-- `MemRead(off, 4)`: little-endian (R60). -/
def memRead32 (m : List Host.Cell) (off : Nat) : Word :=
  memRead m (off + 3) ++ memRead m (off + 2) ++ memRead m (off + 1) ++ memRead m off

/-- The canonical form: offsets strictly rising, and no entry equal to what an unlisted offset reads as. -/
def memWf : List Host.Cell → Bool
  | [] => true
  | (x, y) :: t => y != unlistedByte && t.all (fun p => decide (x < p.1)) && memWf t

/-- The byte at an SHM offset. -/
def State.load8 (s : State) (off : Nat) : Byte := memRead s.mem off

/-- The word at an SHM offset. -/
def State.load32 (s : State) (off : Nat) : Word := memRead32 s.mem off

/-- A byte store. -/
def State.store8 (s : State) (off : Nat) (b : Byte) : State := { s with mem := memWrite s.mem off b }

/-- A word store. -/
def State.store32 (s : State) (off : Nat) (w : Word) : State := { s with mem := memWrite32 s.mem off w }

/-- The head word of a ring. -/
def State.head (s : State) (r : RingId) : Word := s.load32 (ringOf s.cfg r).offH

/-- The tail word of a ring. -/
def State.tail (s : State) (r : RingId) : Word := s.load32 (ringOf s.cfg r).offT

/-- What `RQ.SPACE` would answer now. -/
def State.space (s : State) (r : RingId) : Int := spaceResult (s.cfg.capOf r) (s.head r) (s.tail r)

/-- What `RQ.AVAIL` would answer now. -/
def State.avail (s : State) (r : RingId) : Int := availResult (s.cfg.capOf r) (s.head r) (s.tail r)

/-- What `LD.CHECK_READY` tests of the two sentinel words (30_encoding.md R117). -/
def readyWords (cfg : Cfg) (magic access : Word) : Bool := magic == cfg.ipcMagic && access == 1

/-- What `LD.CHECK_READY` would answer now. -/
def State.ready (s : State) : Bool := readyWords s.cfg (s.load32 offMagic) (s.load32 offAccess)

/-! ### Channel registers -/

/-- The registers of channel `c`. -/
def State.chan (s : State) (c : Nat) : ChanRegs := s.chans.getD c .reset

/-- Writes the registers of channel `c`; a channel the engine does not have has none. -/
def State.setChan (s : State) (c : Nat) (k : ChanRegs) : State := { s with chans := s.chans.set c k }

/-- `txlock[c] <- l` (10_state.md R28). -/
def State.setLock (s : State) (c : Nat) (l : Lock) : State := s.setChan c { s.chan c with txlock := l }

/-! ### Events, responses, the mailbox -/

/-- `emit` (00_scope.md R10). -/
def State.emit (s : State) (e : Event) : State := { s with events := s.events ++ [e] }

/-- A response on the REQ port. -/
def State.respond (s : State) (k : Option Nat) (op : BitVec 4) (code : RespCode) (v : RespValue) : State :=
  s.emit (.response k op code v)

/-- `MbxSet(w)` (60_exceptions.md R280). -/
def mbxSet (s : State) (w : Half) : State := { s with mbxOut := w }

/-- `MbxGet()`: no side effect (R280). -/
def mbxGet (s : State) : Half := s.mbxIn

/-- `MbxRaise(IRQ_OUT)`: the peer's pending bit (R280). -/
def mbxRaise (s : State) : State := { s with irqOutPending := true }

/-- `DoorbellOut(w)`, one indivisible action recorded as one event (R282). -/
def doorbellOut (s : State) (w : Half) : State := (mbxRaise (mbxSet s w)).emit (.doorbellOut w)

/-! ### Taking an error condition -/

/-- The crash path `LD.CRASH(cause, c)`, one indivisible step; `NV_SAVE` is kept (60_exceptions.md R266). -/
def crashPath (s : State) (cause : CrashCause) (c : Nat) : State :=
  let kept := match s.lstate with
    | .nvSave => .nvSave
    | .online => .offline
    | .offline => .offline
  ({ s with lstate := kept } : State).emit (.crashNotify cause c)

/-- `raise E`: the entry actions of a condition, all of them and nothing else (R262 to R268, R273): its sticky
bit, then `halted` for the condition that halts, then the crash path for the conditions that take it. -/
def raise (s : State) (k : Condition) : State :=
  let s1 : State := { s with errstat := setFlag s.errstat k, halted := s.halted || k.halts }
  match k.crash with
  | some (cause, c) => crashPath s1 cause c
  | none => s1

/-! ### The phases -/

/-- The phase of an agent; `DW` has none, its operation is one step (44_dispatch.md R251). -/
def State.thread (s : State) : Agent → Thread
  | .isr => s.isr
  | .lw => s.lw
  | .host => s.host
  | .call => s.call
  | .dw => .idle
  | .snd k => (s.snds.lookup k).getD .idle

/-- The senders in progress with the phase of sender `k` replaced; one without a line left is gone. -/
def setSender : List (Nat × Thread) → Nat → Thread → List (Nat × Thread)
  | [], k, th => if th.todo = [] then [] else [(k, th)]
  | p :: ps, k, th =>
      if p.1 = k then (if th.todo = [] then ps else (k, th) :: ps) else p :: setSender ps k th

/-- Writes the phase of an agent. -/
def State.setThread (s : State) (a : Agent) (th : Thread) : State :=
  match a with
  | .isr => { s with isr := th }
  | .lw => { s with lw := th }
  | .host => { s with host := th }
  | .call => { s with call := th }
  | .dw => s
  | .snd k => { s with snds := setSender s.snds k th }

/-- Which agents may take a step at all: while `started = 0` only `HOST` (and `DW`, whose queue is empty);
while `halted = 1` only `DW` (10_state.md R32, R33; 60_exceptions.md R274). -/
def agentLive (s : State) : Agent → Bool
  | .isr => s.started && !s.halted
  | .lw => s.started && !s.halted
  | .snd _ => s.started && !s.halted
  | .call => s.started && !s.halted
  | .host => !s.halted
  | .dw => true

/-! ### Hardware reset -/

/-- Hardware reset: every private register and phase at its reset value, SHM and the mailbox untouched, no
response to what was in progress (70_reset_and_hazards.md R300, R301). The event record and the choices
still to come are not the engine's and stay. -/
def hwReset (s : State) : State :=
  { State.launch s.cfg s.mem s.mbxIn s.mbxOut s.irqInPending s.irqOutPending with
    events := s.events, sched := s.sched }

end Sys2Proof.Machine
end

