-- ==== Sys2Proof/Machine/LinesRing.lean ====
section
/-! DEFINITION. What each line of a ring primitive does (40_ring_queue.md R143 to R148), and how an operation
ends when a primitive raises `RingCorrupt` inside it (42_channel.md R182, R190, R191; 60_exceptions.md R262). -/

namespace Sys2Proof.Machine

/-- What one line of an agent leaves: the state, the value handed back, the lines still to run. -/
structure Out where
  st : State
  acc : Value
  todo : List Line
deriving DecidableEq, Repr

/-- The bytes read so far. -/
def Value.bytesOf : Value → List Byte
  | .bytes bs => bs
  | _ => []

/-- The context number of a sender. -/
def Agent.sender : Agent → Nat
  | .snd k => k
  | _ => 0

/-- A send that ends in an error after L1: the lock is released, the condition raised, the response given with
value 0 (R189, R190). -/
def sendAbort (s : State) (a : Agent) (c : Nat) (k : Condition) (code : RespCode) : Out :=
  ⟨(raise (s.setLock c .free) k).respond (some a.sender) 2 code (.num 0), .unit, []⟩

/-- A drain pass that ends at a corrupt index inside `RQ.PEEK` or `RQ.READ`: it hands back the count of the
frames pushed so far, which the next line of the pass holds (R191). -/
def passExit : List Line → Value × List Line
  | .recvDecode _ _ n :: k => (.nat n, k)
  | .recvPush _ :: .recvLoop _ _ m :: k => (.nat (m - 1), k)
  | .recvPush _ :: k => (.unit, k)
  | k => (.unit, k)

/-- The line `raise RingCorrupt(r)` of a primitive, and what becomes of the operation that called it (R262). -/
def ringCorruptExit (a : Agent) (r : RingId) (k : List Line) (s : State) : Out :=
  match a with
  | .snd _ => sendAbort s a r.c (.ringCorrupt r) .ringCorrupt
  | .lw => ⟨raise s (.ringCorrupt r), (passExit k).1, (passExit k).2⟩
  | .isr => ⟨raise s (.ringCorrupt r), .unit, []⟩
  | .dw => ⟨raise s (.ringCorrupt r), .unit, []⟩
  | .host => ⟨raise s (.ringCorrupt r), .unit, []⟩
  | .call => ⟨raise s (.ringCorrupt r), .unit, []⟩

/-- One byte of a copy out of SHM. -/
def lineLoad8 (off : Nat) (acc : Value) (k : List Line) (s : State) : Out :=
  ⟨s, .bytes (acc.bytesOf ++ [s.load8 off]), k⟩

/-- One byte of a copy into SHM. -/
def lineStore8 (off : Nat) (b : Byte) (acc : Value) (k : List Line) (s : State) : Out :=
  ⟨s.store8 off b, acc, k⟩

/-- One word store. -/
def lineStore32 (off : Nat) (v : Word) (acc : Value) (k : List Line) (s : State) : Out :=
  ⟨s.store32 off v, acc, k⟩

/-- `RQ.SPACE`: the head is read first (R143). -/
def lineSpaceHead (r : RingId) (k : List Line) (s : State) : Out :=
  ⟨s, .unit, .spaceTail r (s.head r) :: k⟩

/-- `RQ.SPACE`: the tail is read and the answer formed. -/
def lineSpaceTail (r : RingId) (h : Word) (k : List Line) (s : State) : Out :=
  ⟨s, .int (spaceResult (s.cfg.capOf r) h (s.tail r)), k⟩

/-- `RQ.AVAIL`: the head is read first (R144). -/
def lineAvailHead (r : RingId) (k : List Line) (s : State) : Out :=
  ⟨s, .unit, .availTail r (s.head r) :: k⟩

/-- `RQ.AVAIL`: the tail is read and the answer formed. -/
def lineAvailTail (r : RingId) (h : Word) (k : List Line) (s : State) : Out :=
  ⟨s, .int (availResult (s.cfg.capOf r) h (s.tail r)), k⟩

/-- `RQ.WRITE`: nothing for a length of 0; otherwise the head is read, and the raise of a corrupt one, or the byte
stores, the `fence` O1 and the store of the new head, follow (R145). -/
def lineRqWrite (r : RingId) (src : List Byte) (k : List Line) (s : State) : Out :=
  if src = [] then ⟨s, .unit, k⟩
  else
    let g := ringOf s.cfg r
    let h := s.head r
    if indexCorrupt g.cap h then ⟨s, .unit, .ringCorrupt r :: k⟩
    else
      ⟨s, .unit,
        ringStoreLines g h.toNat src
          ++ .fence :: .store32 g.offH (advance g.cap h.toNat src.length) :: k⟩

/-- `RQ.READ`: the mirror of `RQ.WRITE` on the tail, with the `fence` O3 before the tail store (R146). -/
def lineRqRead (r : RingId) (len : Nat) (k : List Line) (s : State) : Out :=
  if len = 0 then ⟨s, .bytes [], k⟩
  else
    let g := ringOf s.cfg r
    let t := s.tail r
    if indexCorrupt g.cap t then ⟨s, .unit, .ringCorrupt r :: k⟩
    else
      ⟨s, .bytes [],
        ringLoadLines g t.toNat len
          ++ .fence :: .store32 g.offT (advance g.cap t.toNat len) :: k⟩

/-- `RQ.PEEK`: reads from `off` bytes past the tail and stores nothing (R147). -/
def lineRqPeek (r : RingId) (off len : Nat) (k : List Line) (s : State) : Out :=
  let g := ringOf s.cfg r
  let t := s.tail r
  if indexCorrupt g.cap t then ⟨s, .unit, .ringCorrupt r :: k⟩
  else ⟨s, .bytes [], ringLoadLines g ((t.toNat + off) % g.cap) len ++ k⟩

/-- The stores of `RQ.INIT`: head first (R148). -/
def rqInitLines (cfg : Cfg) (r : RingId) : List Line :=
  [.store32 (ringOf cfg r).offH 0, .store32 (ringOf cfg r).offT 0]

end Sys2Proof.Machine
end

