-- ==== Sys2Proof/Machine/LinesChannel.lean ====
section
/-! DEFINITION. What each line of a channel operation does (42_channel.md R181 to R195). -/

namespace Sys2Proof.Machine

/-- The stores of `CH.INIT(c)`: `TXH`, `TXT`, `RXH`, `RXT` (R181). -/
def chInitLines (cfg : Cfg) (c : Nat) : List Line :=
  rqInitLines cfg (txRing c) ++ rqInitLines cfg (rxRing c)

/-! ### CH.SEND -/

/-- L1: the lock is taken and the readiness check begun (R183, R184). -/
def lineSendLock (a : Agent) (c : Nat) (chid : Byte) (payload : List Byte) (k : List Line) (s : State) : Out :=
  ⟨s.setLock c (.held a.sender), .unit, .readyMagic :: .sendReady c chid payload :: k⟩

/-- L2: not ready ends the send with `PeerNotReady`; ready goes on to P1 (R184). -/
def lineSendReady (a : Agent) (c : Nat) (chid : Byte) (payload : List Byte) (acc : Value) (k : List Line)
    (s : State) : Out :=
  if acc = .bool true then ⟨s, .unit, .spaceHead (txRing c) :: .sendTest c chid payload :: k⟩
  else sendAbort s a c (.peerNotReady c) .peerNotReady

/-- P2: `CORRUPT` ends the send with `RingCorrupt` (R184). -/
def lineSendTest (a : Agent) (c : Nat) (chid : Byte) (payload : List Byte) (acc : Value) (k : List Line)
    (s : State) : Out :=
  if acc = .int corrupt then sendAbort s a c (.ringCorrupt (txRing c)) .ringCorrupt
  else ⟨s, acc, .sendFit c chid payload :: k⟩

/-- P3: too little space parks the send, the lock still held (`TxNoSpace`, R185, R265); otherwise it commits. -/
def lineSendFit (c : Nat) (chid : Byte) (payload : List Byte) (acc : Value) (k : List Line) (s : State) : Out :=
  match acc with
  | .int v =>
      if v < (needOf payload.length : Int) then ⟨raise s (.txNoSpace c), .unit, .sendPark c chid payload :: k⟩
      else ⟨s, .unit, .sendCommit c chid payload :: k⟩
  | _ => ⟨s, .unit, .sendPark c chid payload :: k⟩

/-- The parked sender polls again: back to P1 (R185). -/
def lineSendPark (c : Nat) (chid : Byte) (payload : List Byte) (k : List Line) (s : State) : Out :=
  ⟨s, .unit, .spaceHead (txRing c) :: .sendTest c chid payload :: k⟩

/-- C1: both sequence registers advance, each wrapping at its width (R186). -/
def lineSendCommit (c : Nat) (chid : Byte) (payload : List Byte) (k : List Line) (s : State) : Out :=
  let q := s.chan c
  ⟨s.setChan c { q with fseq := q.fseq + 1, cseq := q.cseq + 1 }, .unit, .sendEncode c chid payload :: k⟩

/-- C2: the header is encoded with the new values; the two ring writes, the `fence` O2, the doorbell and the release
follow (R186 to R188). -/
def lineSendEncode (c : Nat) (chid : Byte) (payload : List Byte) (k : List Line) (s : State) : Out :=
  let q := s.chan c
  ⟨s, .unit,
    .rqWrite (txRing c) (encodeHeader s.cfg chid q.cseq q.fseq payload.length)
      :: .rqWrite (txRing c) (tailBytes payload (fhPad (headerSize + payload.length)))
      :: .fence :: .doorbell (sendWord s.cfg c) :: .sendUnlock c payload.length :: k⟩

/-- U1: the lock is released (R189). -/
def lineSendUnlock (c : Nat) (len : Nat) (k : List Line) (s : State) : Out :=
  ⟨s.setLock c .free, .unit, .sendReturn c len :: k⟩

/-- The return: the payload length is handed back (R189). -/
def lineSendReturn (a : Agent) (len : Nat) (k : List Line) (s : State) : Out :=
  ⟨s.respond (some a.sender) 2 .ok (.num len), .nat len, k⟩

/-! ### CH.RECV_PENDING -/

/-- V2: a corrupt index ends the pass (R191). -/
def lineRecvAvail (c : Nat) (acc : Value) (k : List Line) (s : State) : Out :=
  match acc with
  | .int v =>
      if v = corrupt then ⟨raise s (.ringCorrupt (rxRing c)), .nat 0, k⟩
      else ⟨s, .unit, .recvLoop c v.toNat 0 :: k⟩
  | _ => ⟨s, .nat 0, k⟩

/-- The frame loop and V3: fewer than 12 bytes left cannot hold a header (R192 (b)). -/
def lineRecvLoop (c : Nat) (a n : Nat) (k : List Line) (s : State) : Out :=
  if a = 0 then ⟨s, .nat n, k⟩
  else if a < headerSize then ⟨raise s (.badLength c), .nat n, k⟩
  else ⟨s, .unit, .rqPeek (rxRing c) 0 headerSize :: .recvDecode c a n :: k⟩

/-- V5: the peeked bytes are decoded (R191). -/
def lineRecvDecode (c : Nat) (a n : Nat) (acc : Value) (k : List Line) (s : State) : Out :=
  ⟨s, .header (decodeHeader s.cfg acc.bytesOf), .recvMagic c a n :: k⟩

/-- V6: a bad magic ends the pass (R193). -/
def lineRecvMagic (c : Nat) (a n : Nat) (acc : Value) (k : List Line) (s : State) : Out :=
  if acc = .header .badMagic then ⟨raise s (.badMagic c), .nat n, k⟩ else ⟨s, acc, .recvLength c a n :: k⟩

/-- V7: a bad length ends the pass (R193). -/
def lineRecvLength (c : Nat) (a n : Nat) (acc : Value) (k : List Line) (s : State) : Out :=
  match acc with
  | .header (.ok d) => ⟨s, .unit, .recvSize c d a n :: k⟩
  | _ => ⟨raise s (.badLength c), .nat n, k⟩

/-- V8: a frame larger than what is available ends the pass; a good one is consumed and the loop goes on with what is
left (R191). -/
def lineRecvSize (c : Nat) (d : Header) (a n : Nat) (k : List Line) (s : State) : Out :=
  let fs := fhFrameSize d.totalLen.toNat
  if a < fs then ⟨raise s (.badLength c), .nat n, k⟩
  else ⟨s, .unit, .recvHold :: .rqRead (rxRing c) fs :: .recvPush d :: .recvLoop c (a - fs) (n + 1) :: k⟩

/-- V11: the tag and the length come from the peeked header, the payload from the bytes read; the padding is
dropped unseen (R192 (c)). -/
def lineRecvPush (d : Header) (acc : Value) (k : List Line) (s : State) : Out :=
  let payload := (acc.bytesOf.take d.totalLen.toNat).drop headerSize
  ⟨{ s with rxq := s.rxq ++ [⟨d.channelId, payload⟩] }, .unit, k⟩

/-- `FRAME.RX`: V2 (R191). -/
def lineFrameRxTest (c : Nat) (d : Header) (acc : Value) (k : List Line) (s : State) : Out :=
  if acc = .int corrupt then ⟨raise s (.ringCorrupt (rxRing c)), .unit, k⟩ else ⟨s, acc, .frameRxSize c d :: k⟩

/-- `FRAME.RX`: V8 for one frame whose header was peeked, then V9 to V11 (R191). -/
def lineFrameRxSize (c : Nat) (d : Header) (acc : Value) (k : List Line) (s : State) : Out :=
  match acc with
  | .int v =>
      let fs := fhFrameSize d.totalLen.toNat
      if v < (fs : Int) then ⟨raise s (.badLength c), .unit, k⟩
      else ⟨s, .unit, .recvHold :: .rqRead (rxRing c) fs :: .recvPush d :: k⟩
  | _ => ⟨s, .unit, k⟩

/-! ### The handshake -/

/-- `CH.RES_ACK`: the bit is observed and nothing changes (R195). -/
def lineResAck (k : List Line) (s : State) : Out := ⟨s, .unit, k⟩

/-- `CH.ACK_REQ`: a request-ack bit is answered with the response-ack doorbell and the counter decremented (R194). -/
def lineAckReq (c : Nat) (w : Half) (k : List Line) (s : State) : Out :=
  if w &&& (s.cfg.chan c).maskReqAck = 0 then ⟨s, .unit, k⟩
  else ⟨s, .unit, .fence :: .doorbell (resAckWord s.cfg c) :: .ackDec c :: k⟩

/-- `pending_ack[c] <- pending_ack[c] - 1`, wrapping in two's complement (R194; 10_state.md R27). -/
def lineAckDec (c : Nat) (k : List Line) (s : State) : Out :=
  let q := s.chan c
  ⟨s.setChan c { q with pendingAck := q.pendingAck - 1 }, .unit, k⟩

end Sys2Proof.Machine
end

