-- ==== Sys2Proof/Machine/LinesLink.lean ====
section
/-! DEFINITION. What each line of a link operation does (43_link_device.md R211 to R226), and the one step of
the dispatch worker (44_dispatch.md R251). -/

namespace Sys2Proof.Machine

/-! ### LD.CHECK_READY -/

/-- `magic` is read first (R214). -/
def lineReadyMagic (k : List Line) (s : State) : Out :=
  ⟨s, .unit, .readyAccess (s.load32 offMagic) :: k⟩

/-- `access` is read and the answer formed. -/
def lineReadyAccess (m : Word) (k : List Line) (s : State) : Out :=
  ⟨s, .bool (readyWords s.cfg m (s.load32 offAccess)), k⟩

/-! ### LD.START and LD.SAVE -/

/-- S2 of `LD.START` and V3 of `LD.SAVE`: every index word, then the reserved block and every buffer, are zeroed;
the order inside is free and the model's is ascending (R211, R226; log 7). -/
def zeroLines (cfg : Cfg) : List Line :=
  (List.range cfg.nCh).flatMap (chInitLines cfg)
    ++ storeLines cfg.offRsvd (List.replicate (cfg.shmSize - cfg.offRsvd) 0)

/-- The four phases of initialisation (20_memory.md R79) with the magic they end in, and the last line. -/
def regionLines (cfg : Cfg) (magic : Word) (last : Line) : List Line :=
  .store32 offAccess 0 :: .fence ::
    (zeroLines cfg ++ [.fence, .store32 offMagic magic, .fence, .store32 offAccess 1, last])

/-- S1 to S5 (R211). -/
def startLines (cfg : Cfg) : List Line := regionLines cfg cfg.ipcMagic .startDone

/-- V2 to V5 (R226); V1 is part of the admission (log 9). -/
def saveLines (cfg : Cfg) : List Line := regionLines cfg cfg.saveMagic .saveDone

/-- S5: the handler is registered (R280). -/
def lineStartDone (k : List Line) (s : State) : Out := ⟨{ s with started := true }, .unit, .startReturn :: k⟩

/-- The response of `LD.START`. -/
def lineStartReturn (k : List Line) (s : State) : Out :=
  ⟨s.respond none 1 .ok (.num 0), .unit, k⟩

/-- The response of `LD.SAVE`. -/
def lineSaveDone (k : List Line) (s : State) : Out :=
  ⟨s.respond none 3 .ok (.num 0), .unit, k⟩

/-! ### LD.ON_DOORBELL -/

/-- I1 (R212). -/
def lineIsrClear (k : List Line) (s : State) : Out := ⟨{ s with irqInPending := false }, .unit, k⟩

/-- I2: the word is captured by value. -/
def lineIsrGet (k : List Line) (s : State) : Out := ⟨s, .unit, .isrPush (mbxGet s) :: k⟩

/-- I3: a push on a full queue drops the word and sets the flag (R212, R268). -/
def lineIsrPush (w : Half) (k : List Line) (s : State) : Out :=
  if s.wq.length < s.cfg.wqDepth then ⟨{ s with wq := s.wq ++ [w] }, .unit, k⟩
  else ⟨raise s .wqOverflow, .unit, k⟩

/-! ### LD.WORK and what it runs -/

/-- The lines that a received status word's operation begins with: a doorbell-mask word and the two commands
that act; every other word is dropped (R217, R223). -/
def statusLines : Instr → List Line
  | .dbNoncmd w => [.noncmd w]
  | .cmdPhoneStart => [.phoneStart]
  | .cmdCrashExit => [.crashExit]
  | .ldStatus => []
  | .ldStart => []
  | .chSend _ _ _ => []
  | .ldSave => []
  | .cmdOther _ => []
  | .dbInvalid _ => []
  | .cmdInitEnd => []
  | .dbSend _ => []
  | .dbResAck _ => []
  | .frameTx _ _ _ _ _ => []
  | .frameRx _ _ => []
  | .ldOnDoorbell => []
  | .rqSpace _ => []
  | .rqAvail _ => []
  | .rqWrite _ _ => []
  | .rqRead _ _ => []
  | .rqPeek _ _ _ => []
  | .rqInit _ => []
  | .fhPad _ => []
  | .fhFrameSize _ => []
  | .fhEncode _ _ _ _ => []
  | .fhTailBytes _ _ => []
  | .fhDecode _ => []
  | .chInit _ => []
  | .chRecvPending _ => []
  | .chAckReq _ _ => []
  | .chResAck _ _ => []
  | .ldWork => []
  | .ldCheckReady => []
  | .ldCrash _ _ => []
  | .dwStep => []

/-- The pop, the classification and the dispatch (R216). -/
def lineWork (k : List Line) (s : State) : Out :=
  match s.wq with
  | [] => ⟨s, .unit, k⟩
  | w :: q => ⟨{ s with wq := q }, .unit, statusLines (decodeStatus s.cfg w) ++ k⟩

/-- N1: a doorbell-mask word acts only while `ONLINE` (R218). -/
def lineNoncmd (w : Half) (k : List Line) (s : State) : Out :=
  if s.lstate = .online then ⟨s, .unit, .readyMagic :: .noncmdReady w :: k⟩ else ⟨s, .unit, k⟩

/-- N3 to N5 of one channel (R218): `CH.RES_ACK`, `CH.ACK_REQ`, `CH.RECV_PENDING`. `lstate` is tested at N1 only:
a save that lands after it stops none of them, the doorbell of R194 included (R324; DEDUCED, log 9). -/
def visitLines (w : Half) (c : Nat) : List Line :=
  [.resAck c w, .ackReq c w, .availHead (rxRing c), .recvAvail c]

/-- N3 to N5 for every channel in index order, whatever the mask bits say (R218). -/
def channelLines (cfg : Cfg) (w : Half) : List Line := (List.range cfg.nCh).flatMap (visitLines w)

/-- N2: not ready raises `PeerNotReady(0)` and abandons the word (R218, R264). -/
def lineNoncmdReady (w : Half) (acc : Value) (k : List Line) (s : State) : Out :=
  if acc = .bool true then ⟨s, .unit, channelLines s.cfg w ++ k⟩
  else ⟨raise s (.peerNotReady 0), .unit, k⟩

/-- `CMD.PHONE_START`: nothing in `NV_SAVE`; otherwise every channel is re-initialised (R220). -/
def linePhoneStart (k : List Line) (s : State) : Out :=
  if s.lstate = .nvSave then ⟨s, .unit, k⟩
  else ⟨s, .unit, (List.range s.cfg.nCh).flatMap (chInitLines s.cfg) ++ .setOnline :: k⟩

/-- `lstate <- ONLINE` and then `CMD.INIT_END` (R220, R221). The test of the first line is made again here, so that
`NV_SAVE` is left by hardware reset only (R227; DEDUCED, log 9). -/
def lineSetOnline (k : List Line) (s : State) : Out :=
  if s.lstate = .nvSave then ⟨s, .unit, k⟩
  else ⟨{ s with lstate := .online }, .unit, .fence :: .phoneRing :: k⟩

/-- The doorbell of the `CMD.INIT_END` that ends `CMD.PHONE_START` (R220, R221). In `NV_SAVE`, entered since
`lstate <- ONLINE`, none is sent (R227; DEDUCED, log 9). -/
def linePhoneRing (k : List Line) (s : State) : Out :=
  if s.lstate = .nvSave then ⟨s, .unit, k⟩ else ⟨doorbellOut s (initEndWord s.cfg), .unit, k⟩

/-- `CMD.CRASH_EXIT`: nothing in `NV_SAVE` (R222). -/
def lineCrashExit (k : List Line) (s : State) : Out :=
  if s.lstate = .nvSave then ⟨s, .unit, k⟩ else ⟨s, .unit, .crashAct :: k⟩

/-- Its flag and the crash path, which keeps an `NV_SAVE` entered meanwhile (R222, R266); that a save entered meanwhile
does not stop them is the model's choice (DESIGN CHOICE, log 9). -/
def lineCrashAct (k : List Line) (s : State) : Out := ⟨raise s .crashCmd, .unit, k⟩

/-- `LD.CRASH(cause, c)` (R224). -/
def lineCrash (cause : CrashCause) (c : Nat) (k : List Line) (s : State) : Out :=
  ⟨crashPath s cause c, .unit, k⟩

/-! ### DW.STEP -/

/-- One frame, oldest first, is delivered to its sink or discarded; the pop and the delivery are one step
(44_dispatch.md R251, R252). With `RXQ` empty the worker holds. -/
def dispatchFrame (s : State) : State :=
  match s.rxq with
  | [] => s
  | f :: q =>
      let s1 : State := { s with rxq := q }
      if f.chid ∈ s.cfg.sinks then s1.emit (.deliver f.chid f.payload) else raise s1 .noSink

end Sys2Proof.Machine
end

