-- ==== Sys2Proof/Machine/Run.lean ====
section
/-! DEFINITION. One line of an agent, when it is enabled, and running an agent until it returns or holds
(00_scope.md R11; 10_state.md R30; 60_exceptions.md R274). -/

namespace Sys2Proof.Machine

/-- What a line does, by the operation it belongs to: `k` are the lines after it, `acc` the value handed back
before it. -/
def lineStep (a : Agent) (l : Line) (acc : Value) (k : List Line) (s : State) : Out :=
  match l with
  | .load8 off => lineLoad8 off acc k s
  | .store8 off b => lineStore8 off b acc k s
  | .store32 off v => lineStore32 off v acc k s
  | .fence => ⟨s, acc, k⟩
  | .doorbell w => ⟨doorbellOut s w, acc, k⟩
  | .spaceHead r => lineSpaceHead r k s
  | .spaceTail r h => lineSpaceTail r h k s
  | .availHead r => lineAvailHead r k s
  | .availTail r h => lineAvailTail r h k s
  | .rqWrite r src => lineRqWrite r src k s
  | .rqRead r len => lineRqRead r len k s
  | .rqPeek r off len => lineRqPeek r off len k s
  | .ringCorrupt r => ringCorruptExit a r k s
  | .readyMagic => lineReadyMagic k s
  | .readyAccess m => lineReadyAccess m k s
  | .sendLock c chid payload => lineSendLock a c chid payload k s
  | .sendReady c chid payload => lineSendReady a c chid payload acc k s
  | .sendTest c chid payload => lineSendTest a c chid payload acc k s
  | .sendFit c chid payload => lineSendFit c chid payload acc k s
  | .sendPark c chid payload => lineSendPark c chid payload k s
  | .sendCommit c chid payload => lineSendCommit c chid payload k s
  | .sendEncode c chid payload => lineSendEncode c chid payload k s
  | .sendUnlock c len => lineSendUnlock c len k s
  | .sendReturn _ len => lineSendReturn a len k s
  | .recvAvail c => lineRecvAvail c acc k s
  | .recvLoop c m n => lineRecvLoop c m n k s
  | .recvDecode c m n => lineRecvDecode c m n acc k s
  | .recvMagic c m n => lineRecvMagic c m n acc k s
  | .recvLength c m n => lineRecvLength c m n acc k s
  | .recvSize c d m n => lineRecvSize c d m n k s
  | .recvHold => ⟨s, .unit, k⟩
  | .recvPush d => lineRecvPush d acc k s
  | .frameRxTest c d => lineFrameRxTest c d acc k s
  | .frameRxSize c d => lineFrameRxSize c d acc k s
  | .resAck _ _ => lineResAck k s
  | .ackReq c w => lineAckReq c w k s
  | .ackDec c => lineAckDec c k s
  | .work => lineWork k s
  | .noncmd w => lineNoncmd w k s
  | .noncmdReady w => lineNoncmdReady w acc k s
  | .phoneStart => linePhoneStart k s
  | .setOnline => lineSetOnline k s
  | .phoneRing => linePhoneRing k s
  | .crashExit => lineCrashExit k s
  | .crashAct => lineCrashAct k s
  | .crash cause c => lineCrash cause c k s
  | .isrClear => lineIsrClear k s
  | .isrGet => lineIsrGet k s
  | .isrPush w => lineIsrPush w k s
  | .startDone => lineStartDone k s
  | .startReturn => lineStartReturn k s
  | .saveDone => lineSaveDone k s

/-- The holds written in the operations (R274) and the `require` lines of the ring primitives, which make an
access longer than the ring no step of the machine (40_ring_queue.md R150). -/
def lineEnabled (l : Line) (s : State) : Bool :=
  match l with
  | .sendLock c _ _ => (s.chan c).txlock == .free
  | .sendPark c _ payload =>
      s.space (txRing c) == corrupt || decide ((needOf payload.length : Int) ≤ s.space (txRing c))
  | .recvHold => decide (s.rxq.length < s.cfg.rxqDepth)
  | .rqWrite r src => decide (src.length < s.cfg.capOf r)
  | .rqRead r len => decide (len < s.cfg.capOf r)
  | .rqPeek r off len => decide (off + len < s.cfg.capOf r)
  | _ => true

/-- Whether an agent's next line is a step it can take now. -/
def lineReady (a : Agent) (l : Line) (s : State) : Bool := agentLive s a && lineEnabled l s

/-- At most `n` lines of an agent, ending early where it returns or holds. -/
def runLines : Nat → Agent → Out → Out
  | 0, _, o => o
  | n + 1, a, o =>
      match o.todo with
      | [] => o
      | l :: k => if lineReady a l o.st then runLines n a (lineStep a l o.acc k o.st) else o

/-- The agent's phase is put back: idle, with the value handed back, if nothing is left to run. -/
def settle (a : Agent) (o : Out) : State :=
  match o.todo with
  | [] => { o.st.setThread a .idle with ret := o.acc }
  | l :: k => o.st.setThread a ⟨o.acc, l :: k⟩

/-- The lines an idle agent begins with when it is enabled: the interrupt context on a pending doorbell
(43_link_device.md R212), the link worker on a queued word (R216). -/
def wakeLines (s : State) : Agent → List Line
  | .isr => if s.irqInPending then [.isrClear, .isrGet] else []
  | .lw => if s.wq = [] then [] else [.work]
  | .dw => []
  | .host => []
  | .snd _ => []
  | .call => []

/-- Up to `n` lines of an agent that has something to run: what it is in the middle of, or else what it wakes
for. `DW`'s operation is one step. -/
def advanceAgent (n : Nat) (a : Agent) (s : State) : State :=
  match a with
  | .dw => dispatchFrame s
  | .isr => go
  | .lw => go
  | .host => go
  | .snd _ => go
  | .call => go
where
  /-- A woken agent that is not live stays idle. -/
  go : State :=
    match (s.thread a).todo with
    | l :: k => settle a (runLines n a ⟨s, (s.thread a).acc, l :: k⟩)
    | [] =>
        match wakeLines s a with
        | [] => s
        | l :: k => if agentLive s a then settle a (runLines n a ⟨s, .unit, l :: k⟩) else s

/-- Enough lines for whatever an agent can be in the middle of. -/
def longRun (s : State) (a : Agent) : Nat :=
  (s.thread a).todo.length + 4 * s.cfg.shmSize + 32 * s.cfg.nCh + 64

/-- `ISR: run`, `LW: run`, `DW: run`, `SND: run` (30_encoding.md R123): the agent runs until it has no enabled
step, at most `n` operations. -/
def runAgent : Nat → Agent → State → State
  | 0, _, s => s
  | n + 1, a, s => runAgent n a (advanceAgent (longRun s a) a s)

/-- An agent that is idle and may step runs an operation, at most `fuel` lines of it; an agent that is not, waits. -/
def invoke (a : Agent) (fuel : Nat) (prog : List Line) (s : State) : State :=
  if agentLive s a && (s.thread a).todo.isEmpty then settle a (runLines fuel a ⟨s, .unit, prog⟩) else s

end Sys2Proof.Machine
end

