-- ==== Sys2Proof/Machine/Request.lean ====
section
/-! DEFINITION. The REQ port (30_encoding.md R120, R121; 60_exceptions.md R267): the tests of each request in
their order, and the requests themselves, run for at most `fuel` lines. -/

namespace Sys2Proof.Machine

/-- The tests of `LD.START`: (4) and (5) of R267. -/
def refuseStart (s : State) : Option RespCode :=
  if s.halted then some .halted
  else if s.started then some .badState
  else none

/-- The tests of `LD.SAVE`: (3), (4) and (6) of R267. -/
def refuseSave (s : State) : Option RespCode :=
  if !s.started then some .notStarted
  else if s.halted then some .halted
  else if s.lstate ≠ .online then some .badState
  else none

/-- The tests of `CH.SEND`: (3), (4), (7), (8) and (9) of R267, which are A1 to A5 of R182. -/
def refuseSend (s : State) (c len : Nat) : Option RespCode :=
  if !s.started then some .notStarted
  else if s.halted then some .halted
  else if s.cfg.nCh ≤ c then some .badChannel
  else if !lenFits len then some .tooLong
  else if s.lstate ≠ .online then some .linkDown
  else none

/-- What `LD.STATUS` shows of the private state, as one snapshot (43_link_device.md R228). -/
def statusRecord (s : State) : StatusRecord where
  lstate := s.lstate.code
  started := s.started
  halted := s.halted
  errstat := s.errstat
  wqLen := s.wq.length
  rxqLen := s.rxq.length
  chans := s.chans.map (fun q => ⟨q.fseq, q.cseq, q.pendingAck, q.txlock != .free⟩)

/-- `LD.STATUS`: never refused, changes nothing (R228). -/
def requestStatus (s : State) : State := s.respond none 0 .ok (.status (statusRecord s))

/-- `LD.START`: refused with a response, or begun by `HOST`; while `HOST` is in the middle of a request it waits
(log 10). -/
def requestStart (fuel : Nat) (s : State) : State :=
  match refuseStart s with
  | some code => s.respond none 1 code (.num 0)
  | none => invoke .host fuel (startLines s.cfg) s

/-- `LD.SAVE`: refused, or begun by `HOST` with `lstate <- NV_SAVE` (V1) at the instant its tests pass (R226;
log 9). -/
def requestSave (fuel : Nat) (s : State) : State :=
  match refuseSave s with
  | some code => s.respond none 3 code (.num 0)
  | none =>
      if s.host.todo = [] then invoke .host fuel (saveLines s.cfg) { s with lstate := .nvSave } else s

/-- `CH.SEND`: refused, or begun by a fresh sender context (R182, R183; log 5). -/
def requestSend (fuel : Nat) (c : Nat) (chid : Byte) (payload : List Byte) (s : State) : State :=
  match refuseSend s c payload.length with
  | some code => s.respond none 2 code (.num 0)
  | none =>
      invoke (.snd s.nextSnd) fuel [.sendLock c chid payload] { s with nextSnd := s.nextSnd + 1 }

/-- Lines enough for `LD.START` and `LD.SAVE`, which have no hold. -/
def regionFuel (cfg : Cfg) : Nat := 4 * cfg.nCh + (cfg.shmSize - cfg.offRsvd) + 8

/-- Lines enough for a send that does not hold. -/
def sendFuel (len : Nat) : Nat := len + 64

/-- A request put on the REQ port without running a line of it; a reserved opcode is refused. -/
def submitRequest (r : Request) (s : State) : State :=
  if r.op = 0 then requestStatus s
  else if r.op = 1 then requestStart 0 s
  else if r.op = 2 then requestSend 0 r.c r.chid r.payload s
  else if r.op = 3 then requestSave 0 s
  else s.respond none r.op .badRequest (.num 0)

end Sys2Proof.Machine
end

