-- ==== Sys2Proof/Machine/Channel.lean ====
section
/-! DEFINITION. The meanings of the channel operations (42_channel.md R181 to R195) and of the two doorbell-mask
words the engine sends (30_encoding.md R113, R114). -/

namespace Sys2Proof.Machine

/-- `CH.INIT(c)` (R181). -/
def execChInit (c : Nat) (s : State) : Host.Outcome State Fault Refusal :=
  if s.cfg.nCh ≤ c then .refused (.noSuchRing c)
  else .next (invoke .lw 4 (chInitLines s.cfg c) s)

/-- `CH.SEND(c, chid, payload)` (R182): the whole operation, until it returns or holds. -/
def execChSend (c : Nat) (chid : Byte) (payload : List Byte) (s : State) :
    Host.Outcome State Fault Refusal :=
  .next (requestSend (sendFuel payload.length) c chid payload s)

/-- Lines enough for a drain pass over a ring of capacity `cap`: fewer than 24 lines beside the bytes read for
every 12 bytes. -/
def recvFuel (cap : Nat) : Nat := 4 * cap + 24

/-- `CH.RECV_PENDING(c)` (R191): one drain pass, until it ends or holds at a full `RXQ`. -/
def execChRecvPending (c : Nat) (s : State) : Host.Outcome State Fault Refusal :=
  if s.cfg.nCh ≤ c then .refused (.noSuchRing c)
  else
    .next (invoke .lw (recvFuel (s.cfg.capOf (rxRing c))) [.availHead (rxRing c), .recvAvail c] s)

/-- `CH.ACK_REQ(c, w)` (R194). -/
def execChAckReq (c : Nat) (w : Half) (s : State) : Host.Outcome State Fault Refusal :=
  if s.cfg.nCh ≤ c then .refused (.noSuchRing c)
  else .next (invoke .lw 4 [.ackReq c w] s)

/-- `CH.RES_ACK(c, w)` (R195). -/
def execChResAck (c : Nat) (w : Half) (s : State) : Host.Outcome State Fault Refusal :=
  if s.cfg.nCh ≤ c then .refused (.noSuchRing c)
  else .next (invoke .lw 1 [.resAck c w] s)

/-- `DB.SEND`: F1 and D1 of `CH.SEND` for channel `c` (R188). -/
def execDbSend (c : Nat) (s : State) : Host.Outcome State Fault Refusal :=
  if s.cfg.nCh ≤ c then .refused (.noSuchRing c)
  else .next (invoke .call 2 [.fence, .doorbell (sendWord s.cfg c)] s)

/-- `DB.RES_ACK`: the word `CH.ACK_REQ` sends for channel `c` (R194). -/
def execDbResAck (c : Nat) (s : State) : Host.Outcome State Fault Refusal :=
  if s.cfg.nCh ≤ c then .refused (.noSuchRing c)
  else .next (invoke .lw 2 [.fence, .doorbell (resAckWord s.cfg c)] s)

end Sys2Proof.Machine
end

