-- ==== Sys2Proof/Machine/Link.lean ====
section
/-! DEFINITION. The meanings of the link operations, of the received status words (43_link_device.md R211 to R228)
and of the dispatch step (44_dispatch.md R251). -/

namespace Sys2Proof.Machine

/-- `LD.STATUS` (R228). -/
def execLdStatus (s : State) : Host.Outcome State Fault Refusal := .next (requestStatus s)

/-- `LD.START` (R211). -/
def execLdStart (s : State) : Host.Outcome State Fault Refusal :=
  .next (requestStart (regionFuel s.cfg) s)

/-- `LD.SAVE` (R226). -/
def execLdSave (s : State) : Host.Outcome State Fault Refusal :=
  .next (requestSave (regionFuel s.cfg) s)

/-- `LD.ON_DOORBELL` (R212): one interrupt service; with no doorbell pending the context has no step. -/
def execLdOnDoorbell (s : State) : Host.Outcome State Fault Refusal :=
  .next (if s.irqInPending then invoke .isr 3 [.isrClear, .isrGet] s else s)

/-- Lines enough for a doorbell-mask word: the readiness check, and for every channel the handshake and a pass. -/
def noncmdFuel (cfg : Cfg) : Nat :=
  8 + (cfg.chans.map (fun k => 8 + recvFuel k.capRx)).sum

/-- Lines enough for `CMD.PHONE_START`. -/
def phoneStartFuel (cfg : Cfg) : Nat := 4 * cfg.nCh + 4

/-- Lines enough for any status word. -/
def workFuel (cfg : Cfg) : Nat := 1 + noncmdFuel cfg + phoneStartFuel cfg

/-- `LD.WORK` (R216): one queued word, to its end or to a hold; with `WQ` empty the worker holds. -/
def execLdWork (s : State) : Host.Outcome State Fault Refusal :=
  .next (if s.wq = [] then s else invoke .lw (workFuel s.cfg) [.work] s)

/-- `LD.CHECK_READY` (R214). -/
def execLdCheckReady (s : State) : Host.Outcome State Fault Refusal :=
  .next (invoke .call 2 [.readyMagic] s)

/-- `LD.CRASH(cause, c)` (R224, R266). -/
def execLdCrash (cause : CrashCause) (c : Nat) (s : State) : Host.Outcome State Fault Refusal :=
  if s.cfg.nCh ≤ c then .refused (.noSuchRing c)
  else .next (invoke .call 1 [.crash cause c] s)

/-- `DB.INVALID(w)` (R217): dropped. -/
def execDbInvalid (w : Half) (s : State) : Host.Outcome State Fault Refusal :=
  .next (invoke .lw 1 (statusLines (.dbInvalid w)) s)

/-- `DB.NONCMD(w)` (R218). -/
def execDbNoncmd (w : Half) (s : State) : Host.Outcome State Fault Refusal :=
  .next (invoke .lw (noncmdFuel s.cfg) (statusLines (.dbNoncmd w)) s)

/-- `CMD.PHONE_START` (R220). -/
def execCmdPhoneStart (s : State) : Host.Outcome State Fault Refusal :=
  .next (invoke .lw (phoneStartFuel s.cfg) (statusLines .cmdPhoneStart) s)

/-- `CMD.INIT_END` (R221), run on its own; the one that ends `CMD.PHONE_START` is `linePhoneRing`. -/
def execCmdInitEnd (s : State) : Host.Outcome State Fault Refusal :=
  .next (invoke .lw 2 [.fence, .doorbell (initEndWord s.cfg)] s)

/-- `CMD.CRASH_EXIT` (R222). -/
def execCmdCrashExit (s : State) : Host.Outcome State Fault Refusal :=
  .next (invoke .lw 2 (statusLines .cmdCrashExit) s)

/-- `CMD.OTHER(code)` (R223): dropped. -/
def execCmdOther (code : Half) (s : State) : Host.Outcome State Fault Refusal :=
  .next (invoke .lw 1 (statusLines (.cmdOther code)) s)

/-- `DW.STEP` (44_dispatch.md R251). -/
def execDwStep (s : State) : Host.Outcome State Fault Refusal := .next (dispatchFrame s)

end Sys2Proof.Machine
end

