-- ==== Sys2Proof/Machine/Codec.lean ====
section
/-! DEFINITION. The meanings of the codec functions (41_frame_codec.md R161 to R166). They are pure: the answer is
handed back and nothing else changes. -/

namespace Sys2Proof.Machine

/-- A pure function's answer is handed back. -/
def handBack (v : Value) (s : State) : State := { s with ret := v }

/-- `FH.PAD(n)` (R161). -/
def execFhPad (n : Nat) (s : State) : Host.Outcome State Fault Refusal :=
  .next (handBack (.nat (fhPad n)) s)

/-- `FH.FRAME_SIZE(total_len)` (R162). -/
def execFhFrameSize (totalLen : Nat) (s : State) : Host.Outcome State Fault Refusal :=
  .next (handBack (.nat (fhFrameSize totalLen)) s)

/-- `FH.ENCODE(chid, cseq, fseq, payload_len)` (R163): `TooLong` where its `require` line fails, handed back as the
answer, since no codec function raises anything (60_exceptions.md R290; DEDUCED, log 12). -/
def execFhEncode (chid cseq : Byte) (fseq : Half) (payloadLen : Nat) (s : State) :
    Host.Outcome State Fault Refusal :=
  .next (handBack
    (if lenFits payloadLen then
      .encoded (encodeHeader s.cfg chid cseq fseq payloadLen) (fhPad (headerSize + payloadLen))
    else .code .tooLong) s)

/-- `FH.TAIL_BYTES(payload, padding_len)` (R164). -/
def execFhTailBytes (payload : List Byte) (pad : Nat) (s : State) : Host.Outcome State Fault Refusal :=
  .next (handBack (.bytes (tailBytes payload pad)) s)

/-- `FH.DECODE(b)` (R166): its errors are answers, not conditions (60_exceptions.md R290). -/
def execFhDecode (b : Vector Byte 12) (s : State) : Host.Outcome State Fault Refusal :=
  .next (handBack (.header (decodeHeader s.cfg b.toList)) s)

end Sys2Proof.Machine
end

