-- ==== Sys2Proof/Machine/RingQueue.lean ====
section
/-! DEFINITION. The meanings of the ring primitives run on their own (40_ring_queue.md R143 to R150) and of the
frame patterns (41_frame_codec.md R165; 42_channel.md R187, R191). -/

namespace Sys2Proof.Machine

/-- Who runs a primitive of a ring on its own: the producer's caller on a TX ring, the link worker on an RX ring (R140,
R151; 60_exceptions.md R270). R151 says which primitives the engine calls on which ring; that the others, too, are run
when they stand alone, and are not refused, is the model's choice (DESIGN CHOICE, log 3): `RQ.WRITE` and `RQ.SPACE` on an
RX ring by the link worker, `RQ.READ`, `RQ.PEEK` and `RQ.AVAIL` on a TX ring by `call`. -/
def ringAgent (r : RingId) : Agent :=
  match r.dir with
  | .tx => .call
  | .rx => .lw

/-- `len <= RQ.SPACE(r)`, the contract of `RQ.WRITE` (R145, R150). A corrupt head is no breach: it is raised. With a
valid head and a corrupt tail `RQ.SPACE` is `CORRUPT`, -1, which no length meets: that the write is then refused, though
R145 does not read the tail, is the model's choice (DESIGN CHOICE, log 12). -/
def writeContract (s : State) (r : RingId) (len : Nat) : Bool :=
  len == 0 || (len < s.cfg.capOf r
    && (indexCorrupt (s.cfg.capOf r) (s.head r) || decide ((len : Int) ≤ s.space r)))

/-- `len <= RQ.AVAIL(r)`, the contract of `RQ.READ` and `RQ.PEEK` (R146, R147, R150). A corrupt tail is no breach: it is
raised. With a valid tail and a corrupt head `RQ.AVAIL` is `CORRUPT`, -1, which no length meets, not even the 0 of a peek:
that the access is then refused, though R146 and R147 do not read the head, is the model's choice (DESIGN CHOICE,
log 12). -/
def readContract (s : State) (r : RingId) (len : Nat) : Bool :=
  len < s.cfg.capOf r
    && (indexCorrupt (s.cfg.capOf r) (s.tail r) || decide ((len : Int) ≤ s.avail r))

/-- `RQ.SPACE(r)` (R143). -/
def execRqSpace (r : RingId) (s : State) : Host.Outcome State Fault Refusal :=
  if s.cfg.nCh ≤ r.c then .refused (.noSuchRing r.c)
  else .next (invoke (ringAgent r) 2 [.spaceHead r] s)

/-- `RQ.AVAIL(r)` (R144). -/
def execRqAvail (r : RingId) (s : State) : Host.Outcome State Fault Refusal :=
  if s.cfg.nCh ≤ r.c then .refused (.noSuchRing r.c)
  else .next (invoke (ringAgent r) 2 [.availHead r] s)

/-- `RQ.WRITE(r, src, len)` (R145). On an RX ring, where the engine never calls it (R151), the link worker runs it and so
stores `RXH`: the model's choice (DESIGN CHOICE, log 3). -/
def execRqWrite (r : RingId) (src : List Byte) (s : State) : Host.Outcome State Fault Refusal :=
  if s.cfg.nCh ≤ r.c then .refused (.noSuchRing r.c)
  else if writeContract s r src.length then
    .next (invoke (ringAgent r) (src.length + 3) [.rqWrite r src] s)
  else .refused (.outsideContract "RQ.WRITE")

/-- `RQ.READ(r, len)` (R146); a length of 0 reads nothing whatever the indices hold. On a TX ring, where the engine never
calls it (R151), `call` runs it and so stores `TXT`: the model's choice (DESIGN CHOICE, log 3). -/
def execRqRead (r : RingId) (len : Nat) (s : State) : Host.Outcome State Fault Refusal :=
  if s.cfg.nCh ≤ r.c then .refused (.noSuchRing r.c)
  else if len == 0 || readContract s r len then
    .next (invoke (ringAgent r) (len + 3) [.rqRead r len] s)
  else .refused (.outsideContract "RQ.READ")

/-- `RQ.PEEK(r, off, len)` (R147). -/
def execRqPeek (r : RingId) (off len : Nat) (s : State) : Host.Outcome State Fault Refusal :=
  if s.cfg.nCh ≤ r.c then .refused (.noSuchRing r.c)
  else if readContract s r (off + len) then
    .next (invoke (ringAgent r) (len + 2) [.rqPeek r off len] s)
  else .refused (.outsideContract "RQ.PEEK")

/-- `RQ.INIT(r)` (R148), run by the link worker (60_exceptions.md R270). -/
def execRqInit (r : RingId) (s : State) : Host.Outcome State Fault Refusal :=
  if s.cfg.nCh ≤ r.c then .refused (.noSuchRing r.c)
  else .next (invoke .lw 2 (rqInitLines s.cfg r) s)

/-- `FRAME.TX`: the frame image of R165 written to the TX ring of channel `c` as its two units, header, then
payload and padding (R187); a payload that `FH.ENCODE` finds too long ends as it ends there. -/
def execFrameTx (c : Nat) (chid cseq : Byte) (fseq : Half) (payload : List Byte) (s : State) :
    Host.Outcome State Fault Refusal :=
  if s.cfg.nCh ≤ c then .refused (.noSuchRing c)
  else if !lenFits payload.length then .next (handBack (.code .tooLong) s)
  else if writeContract s (txRing c) (needOf payload.length) then
    .next (invoke .call (needOf payload.length + 6)
      [.rqWrite (txRing c) (encodeHeader s.cfg chid cseq fseq payload.length),
       .rqWrite (txRing c) (tailBytes payload (fhPad (headerSize + payload.length)))] s)
  else .refused (.outsideContract "FRAME.TX")

/-- `FRAME.RX`: the frame at the tail of the RX ring of channel `c`, whose validated header is `d`, is checked
against what is available, read, and pushed to `RXQ`: V8 to V11 of R191 for one frame. -/
def execFrameRx (c : Nat) (d : Header) (s : State) : Host.Outcome State Fault Refusal :=
  if s.cfg.nCh ≤ c then .refused (.noSuchRing c)
  else
    .next (invoke .lw (fhFrameSize d.totalLen.toNat + 9) [.availHead (rxRing c), .frameRxTest c d] s)

end Sys2Proof.Machine
end

