-- ==== Sys2Proof/Machine/Dispatch.lean ====
section
/-! DEFINITION. One arm per operation. -/

namespace Sys2Proof.Machine

def exec (i : Instr) (s : State) : Host.Outcome State Fault Refusal :=
  match i with
  | .ldStatus => Sys2Proof.Machine.execLdStatus s
  | .ldStart => Sys2Proof.Machine.execLdStart s
  | .chSend c chid payload => Sys2Proof.Machine.execChSend c chid payload s
  | .ldSave => Sys2Proof.Machine.execLdSave s
  | .cmdPhoneStart => Sys2Proof.Machine.execCmdPhoneStart s
  | .cmdCrashExit => Sys2Proof.Machine.execCmdCrashExit s
  | .cmdOther code => Sys2Proof.Machine.execCmdOther code s
  | .dbNoncmd w => Sys2Proof.Machine.execDbNoncmd w s
  | .dbInvalid w => Sys2Proof.Machine.execDbInvalid w s
  | .cmdInitEnd => Sys2Proof.Machine.execCmdInitEnd s
  | .dbSend c => Sys2Proof.Machine.execDbSend c s
  | .dbResAck c => Sys2Proof.Machine.execDbResAck c s
  | .frameTx c chid cseq fseq payload => Sys2Proof.Machine.execFrameTx c chid cseq fseq payload s
  | .frameRx c d => Sys2Proof.Machine.execFrameRx c d s
  | .ldOnDoorbell => Sys2Proof.Machine.execLdOnDoorbell s
  | .rqSpace r => Sys2Proof.Machine.execRqSpace r s
  | .rqAvail r => Sys2Proof.Machine.execRqAvail r s
  | .rqWrite r src => Sys2Proof.Machine.execRqWrite r src s
  | .rqRead r len => Sys2Proof.Machine.execRqRead r len s
  | .rqPeek r off len => Sys2Proof.Machine.execRqPeek r off len s
  | .rqInit r => Sys2Proof.Machine.execRqInit r s
  | .fhPad n => Sys2Proof.Machine.execFhPad n s
  | .fhFrameSize totalLen => Sys2Proof.Machine.execFhFrameSize totalLen s
  | .fhEncode chid cseq fseq payloadLen => Sys2Proof.Machine.execFhEncode chid cseq fseq payloadLen s
  | .fhTailBytes payload pad => Sys2Proof.Machine.execFhTailBytes payload pad s
  | .fhDecode b => Sys2Proof.Machine.execFhDecode b s
  | .chInit c => Sys2Proof.Machine.execChInit c s
  | .chRecvPending c => Sys2Proof.Machine.execChRecvPending c s
  | .chAckReq c w => Sys2Proof.Machine.execChAckReq c w s
  | .chResAck c w => Sys2Proof.Machine.execChResAck c w s
  | .ldWork => Sys2Proof.Machine.execLdWork s
  | .ldCheckReady => Sys2Proof.Machine.execLdCheckReady s
  | .ldCrash cause c => Sys2Proof.Machine.execLdCrash cause c s
  | .dwStep => Sys2Proof.Machine.execDwStep s

end Sys2Proof.Machine
end

