-- ==== Sys2Proof/Machine/Peer.lean ====
section
/-! DEFINITION. The steps of `PEER` (60_exceptions.md R286) and the pseudo-operations of the test programs, which
expand into them (30_encoding.md R124). -/

namespace Sys2Proof.Machine

/-- A 32-bit access of `PEER` is aligned and inside the region (R286 E1, E2; 20_memory.md R74). -/
def peerWord (s : State) (off : Nat) (s' : State) : Host.Outcome State Fault Refusal :=
  if off % 4 ≠ 0 then .refused .notAPeerStep
  else if off + 4 ≤ s.cfg.shmSize then .next s'
  else .fault (.outsideShm off)

/-- A byte access of `PEER` is inside the region. -/
def peerByte (s : State) (off : Nat) (s' : State) : Host.Outcome State Fault Refusal :=
  if off < s.cfg.shmSize then .next s' else .fault (.outsideShm off)

/-- E1 to E5. A raise while the bit is already set leaves it set (10_state.md R42). What `PEER` reads and does is
recorded as an event of its own (log 6), for the discipline of R286; a read changes nothing else. -/
def peerStep (p : PeerAct) (s : State) : Host.Outcome State Fault Refusal :=
  match p with
  | .read8 off => peerByte s off (s.emit (.peerRead off 1 ((s.load8 off).setWidth 32)))
  | .read32 off => peerWord s off (s.emit (.peerRead off 4 (s.load32 off)))
  | .write8 off b => peerByte s off ((s.store8 off b).emit (.peerDid p))
  | .write32 off v => peerWord s off ((s.store32 off v).emit (.peerDid p))
  | .setStatus w => .next (({ s with mbxIn := w } : State).emit (.peerDid p))
  | .raiseIrq => .next (({ s with irqInPending := true } : State).emit (.peerDid p))
  | .takeDoorbell => .next (({ s with irqOutPending := false } : State).emit (.peerTook s.irqOutPending s.mbxOut))

/-- `PEER: DOORBELL w`. -/
def peerDoorbell (w : Half) : List Choice := [.peer (.setStatus w), .peer .raiseIrq]

/-- `PEER: CMD name`, with the code of the command. -/
def peerCmd (cfg : Cfg) (code : Half) : List Choice := peerDoorbell (intCmd cfg code)

/-- `PEER: WR32 off, v`. -/
def peerWr32 (off : Nat) (v : Word) : List Choice := [.peer (.write32 off v)]

/-- `PEER: WRBYTES off, [..]`, in ascending order. -/
def peerWrBytes : Nat → List Byte → List Choice
  | _, [] => []
  | off, b :: bs => .peer (.write8 off b) :: peerWrBytes (off + 1) bs

/-- `PEER: CONSUME c, n`, from the tail it sees. -/
def peerConsume (s : State) (c n : Nat) : List Choice :=
  let g := ringOf s.cfg (txRing c)
  peerWr32 g.offT (advance g.cap (s.tail (txRing c)).toNat n)

/-- `PEER: PRODUCE c, [..]`: the bytes with wrap, then the head. -/
def peerProduce (s : State) (c : Nat) (bs : List Byte) : List Choice :=
  let g := ringOf s.cfg (rxRing c)
  let h := (s.head (rxRing c)).toNat
  let k := firstSpan g.cap h bs.length
  peerWrBytes (g.base + h) (bs.take k) ++ peerWrBytes g.base (bs.drop k)
    ++ peerWr32 g.offH (advance g.cap h bs.length)

/-- `PEER: FRAME c, chid, fseq, cseq, [payload]`, as the peer's own codec would make it. -/
def peerFrame (s : State) (c : Nat) (chid : Byte) (fseq : Half) (cseq : Byte) (payload : List Byte) :
    List Choice :=
  peerProduce s c (frameImage s.cfg chid cseq fseq payload)

end Sys2Proof.Machine
end

