-- ==== Sys2Proof/Machine/Choices.lean ====
section
/-! DEFINITION. What each choice of the environment and the scheduler does (log 1): a request, a line, an operation
or a run of an agent, a step of `PEER`, hardware reset; and a pattern placed by the host's interface. -/

namespace Sys2Proof.Machine

/-- A bad header at the tail of an RX ring, presented on its own, raises its condition in the link worker, which waits
if it has no step; with no byte at all nothing is there to raise it, and a channel the engine does not have has no
ring. That such a pattern raises in the worker, as the pass that meets it does, is the model's choice (DESIGN CHOICE,
log 3; 42_channel.md R191). -/
def rejectHeader (k : Condition) (c : Nat) (bytes : List Byte) (s : State) : Host.Outcome State Fault Refusal :=
  if s.cfg.nCh ≤ c then .refused (.noSuchRing c)
  else if bytes = [] then .next s
  else .next (if agentLive s .lw && s.lw.todo.isEmpty then raise s k else s)

/-- A presented pattern that is no operation: a reserved `req_op` is answered `BadRequest` (30_encoding.md R120); a
bad header at the tail of an RX ring raises its condition (R116); a word or frame the engine never sends is no step
of it (R114). -/
def rejectFetch (f : Fetch) (e : DecodeError) (s : State) : Host.Outcome State Fault Refusal :=
  match f, e with
  | .req r, .badRequest => .next (s.respond none r.op .badRequest (.num 0))
  | .rxFrame c bytes, .badMagic => rejectHeader (.badMagic c) c bytes s
  | .rxFrame c bytes, .badLength => rejectHeader (.badLength c) c bytes s
  | _, _ => .refused .notSent

/-- Fetch, decode, run. -/
def runWord (f : Fetch) (s : State) : Host.Outcome State Fault Refusal :=
  match decode s.cfg f with
  | .instr i => exec i s
  | .reject e => rejectFetch f e s

/-- An agent runs one operation until it returns or holds: an idle interrupt context `LD.ON_DOORBELL`, an idle link
worker `LD.WORK`, the dispatch worker `DW.STEP`, any other agent what it is in the middle of. -/
def runOp (a : Agent) (s : State) : Host.Outcome State Fault Refusal :=
  match a with
  | .isr => if s.isr.todo = [] then exec .ldOnDoorbell s else .next (advanceAgent (longRun s .isr) .isr s)
  | .lw => if s.lw.todo = [] then exec .ldWork s else .next (advanceAgent (longRun s .lw) .lw s)
  | .dw => exec .dwStep s
  | .host => .next (advanceAgent (longRun s .host) .host s)
  | .snd k => .next (advanceAgent (longRun s (.snd k)) (.snd k) s)
  | .call => .next (advanceAgent (longRun s .call) .call s)

/-- One choice. -/
def runChoice (ch : Choice) (s : State) : Host.Outcome State Fault Refusal :=
  match ch with
  | .request r => runWord (.req r) s
  | .submit r => .next (submitRequest r s)
  | .line a => .next (advanceAgent 1 a s)
  | .op a => runOp a s
  | .run a => .next (runAgent (s.wq.length + s.rxq.length + 1) a s)
  | .peer p => peerStep p s
  | .reset => .next (hwReset s)

/-- Whether presenting an operation on a carrier needs the engine to be started: all but the REQ port, whose
requests are tested for themselves (60_exceptions.md R267). -/
def fetchNeedsStart : Fetch → Bool
  | .req _ => false
  | .mbxIn _ => true
  | .mbxOut _ => true
  | .txFrame _ _ => true
  | .rxFrame _ _ => true

/-- A pattern placed for the next step, with what its agent needs to have a step: the engine started (10_state.md
R32). -/
def presentFetch (f : Fetch) (s : State) : State :=
  { s with placed := some f, started := s.started || fetchNeedsStart f }

end Sys2Proof.Machine
end

