-- ==== Sys2Proof/Machine/Step.lean ====
section
/-! DEFINITION. The step: a placed pattern is run; otherwise the next choice is taken from `sched` and carried out; with
none left nobody moves. -/

namespace Sys2Proof.Machine

/-- One step. A machine with nothing placed and no choice left stays as it is. No step places a pattern: that is the
host's interface alone (`State.withFetchWord`). -/
def step (s : State) : Host.Outcome State Fault Refusal :=
  match s.placed with
  | some f => runWord f { s with placed := none }
  | none =>
      match s.sched with
      | [] => .next s
      | ch :: rest => runChoice ch { s with sched := rest }

/-- The state with the instruction of a table word placed for the next step, on the carrier the table's numbering
gives it (log 11). -/
def State.withFetchWord (s : State) (nbits w : Nat) : State :=
  presentFetch (tableFetch Cfg.ref nbits w) s

end Sys2Proof.Machine
end

