-- ==== Sys2Proof/Safety.lean ====
section
/-! DEFINITION. The vocabulary of the claims: when an agent may begin an operation and what a completed one
leaves, ring positions, the rights of the agents, the invariants of the machine, the disciplined peer. -/

namespace Sys2Proof.Machine

/-! ### Beginning and completing an operation -/

/-- The agent may step and has no operation in progress (10_state.md R30, R32, R33). -/
def State.free (s : State) (a : Agent) : Bool := agentLive s a && (s.thread a).todo.isEmpty

/-- Agent `a` is idle and the operation it ran has handed back `v`; all else is as in `s`. -/
def State.done (s : State) (a : Agent) (v : Value) : State := { s.setThread a .idle with ret := v }

/-- The plain facts about the state's data that every step keeps and that most claims assume: the constraints of
00_scope.md R8, SHM in canonical form, registers for every channel, senders numbered in order of admission. -/
def State.sane (s : State) : Prop :=
  s.cfg.wf = true ∧ memWf s.mem = true ∧ s.chans.length = s.cfg.nCh ∧ ∀ p ∈ s.snds, p.1 < s.nextSnd

/-- The link state after the crash path (60_exceptions.md R266). -/
def LinkState.crashed (l : LinkState) : LinkState := if l = .nvSave then .nvSave else .offline

/-- The crash cause of a corrupt ring, by its direction (30_encoding.md R122). -/
def corruptCause : Dir → CrashCause
  | .tx => .ringCorruptTx
  | .rx => .ringCorruptRx

/-! ### Ring positions -/

/-- The SHM offset of the ring position `k` bytes after index `i`: `base + ((i + k) mod cap)` (20_memory.md
R68). -/
def ringAt (g : Ring) (i k : Nat) : Nat := g.base + (i + k) % g.cap

/-- The `len` bytes of ring `r` from index `i`, in ring order. -/
def State.ringBytes (s : State) (r : RingId) (i len : Nat) : List Byte :=
  (List.range len).map (fun k => s.load8 (ringAt (ringOf s.cfg r) i k))

/-- Offset `a` is one of the `len` positions of ring `g` from index `i`. -/
def inSpan (g : Ring) (i len a : Nat) : Prop := ∃ k, k < len ∧ a = ringAt g i k

/-- Offset `a` is one of the four bytes of the word at `off`. -/
def inWord (off a : Nat) : Prop := off ≤ a ∧ a < off + 4

/-- The index word `w` of a ring is valid (10_state.md R22). -/
def indexValid (s : State) (r : RingId) (w : Word) : Prop := w.toNat < s.cfg.capOf r

/-- Every index word of every ring is valid. -/
def State.indicesValid (s : State) : Prop :=
  ∀ r : RingId, r.c < s.cfg.nCh → indexValid s r (s.head r) ∧ indexValid s r (s.tail r)

/-- No listed byte of SHM lies outside the region (20_memory.md R74). -/
def State.memInside (s : State) : Prop := ∀ p ∈ s.mem, p.1 < s.cfg.shmSize

/-- The frame at the tail of an RX ring: its first 12 bytes, decoded. -/
def State.rxHeader (s : State) (c : Nat) : HeaderResult :=
  decodeHeader s.cfg (s.ringBytes (rxRing c) (s.tail (rxRing c)).toNat headerSize)

/-- `m` is SHM of `s` after the bytes of `image` were appended to ring `r`: byte `k` stands at ring position `k` from the
head, the head has advanced over them, every other byte is as it was (42_channel.md R187; 20_memory.md R68). -/
def State.appended (s : State) (r : RingId) (image : List Byte) (m : List Host.Cell) : Prop :=
  memWf m = true
  ∧ (memRead32 m (ringOf s.cfg r).offH).toNat = ((s.head r).toNat + image.length) % s.cfg.capOf r
  ∧ (∀ k, k < image.length → memRead m (ringAt (ringOf s.cfg r) (s.head r).toNat k) = image.getD k 0)
  ∧ (∀ a, ¬ inSpan (ringOf s.cfg r) (s.head r).toNat image.length a → ¬ inWord (ringOf s.cfg r).offH a →
      memRead m a = memRead s.mem a)

/-! ### The four words of a channel and the zeroed region -/

/-- SHM after `CH.INIT(c)`: the four index words of the channel are 0 (42_channel.md R181). -/
def initChannelMem (m : List Host.Cell) (c : Nat) : List Host.Cell :=
  memWrite32 (memWrite32 (memWrite32 (memWrite32 m (offTxh c) 0) (offTxt c) 0) (offRxh c) 0) (offRxt c) 0

/-- SHM after `CH.INIT` of channels `0 .. n-1`, in index order. -/
def initChannelsMem (m : List Host.Cell) (n : Nat) : List Host.Cell :=
  (List.range n).foldl initChannelMem m

/-! ### The rights of the agents (60_exceptions.md R270) -/

/-- A byte of some TX buffer. -/
def txByte (cfg : Cfg) (off : Nat) : Prop :=
  ∃ c, c < cfg.nCh ∧ cfg.baseTx c ≤ off ∧ off < cfg.baseTx c + (cfg.chan c).capTx

/-- A byte of some RX buffer. -/
def rxByte (cfg : Cfg) (off : Nat) : Prop :=
  ∃ c, c < cfg.nCh ∧ cfg.baseRx c ≤ off ∧ off < cfg.baseRx c + (cfg.chan c).capRx

/-- The offset of some index word. -/
def indexOffset (cfg : Cfg) (off : Nat) : Prop :=
  ∃ c, c < cfg.nCh ∧ (off = offTxh c ∨ off = offTxt c ∨ off = offRxh c ∨ off = offRxt c)

/-- The lines an agent may come to, with operands inside its column of the table of R270; every 32-bit access is at
a word offset, every byte access inside the buffer the agent owns (20_memory.md R62, R67, R74). The model's own agent
`call` is in no row of the table and has no line; a line that only an operation run on its own comes to is nobody's: the
link worker's doorbells are the answers of `CH.ACK_REQ` and, by `phoneRing`, the `INIT_END` of `CMD.PHONE_START`. -/
def lineOk (cfg : Cfg) (a : Agent) (l : Line) : Prop :=
  match l with
  | .load8 off => a = .lw ∧ rxByte cfg off
  | .store8 off b =>
      match a with
      | .host => cfg.offRsvd ≤ off ∧ off < cfg.shmSize ∧ b = 0
      | .snd _ => txByte cfg off
      | .call => False
      | .isr => False
      | .lw => False
      | .dw => False
  | .store32 off v =>
      match a with
      | .host => off = offMagic ∨ off = offAccess ∨ (indexOffset cfg off ∧ v = 0)
      | .snd _ => ∃ c, c < cfg.nCh ∧ off = offTxh c ∧ v.toNat < (cfg.chan c).capTx
      | .call => False
      | .lw => (∃ c, c < cfg.nCh ∧ off = offRxt c ∧ v.toNat < (cfg.chan c).capRx) ∨ (indexOffset cfg off ∧ v = 0)
      | .isr => False
      | .dw => False
  | .fence => a = .lw ∨ a = .host ∨ ∃ k, a = .snd k
  | .doorbell w => (∃ k, a = .snd k) ∨ (a = .lw ∧ ∃ c, c < cfg.nCh ∧ w = resAckWord cfg c)
  | .spaceHead r => (∃ k, a = .snd k) ∧ r.dir = .tx ∧ r.c < cfg.nCh
  | .spaceTail r _ => (∃ k, a = .snd k) ∧ r.dir = .tx ∧ r.c < cfg.nCh
  | .availHead r => a = .lw ∧ r.dir = .rx ∧ r.c < cfg.nCh
  | .availTail r _ => a = .lw ∧ r.dir = .rx ∧ r.c < cfg.nCh
  | .rqWrite r _ => (∃ k, a = .snd k) ∧ r.dir = .tx ∧ r.c < cfg.nCh
  | .rqRead r _ => a = .lw ∧ r.dir = .rx ∧ r.c < cfg.nCh
  | .rqPeek r _ _ => a = .lw ∧ r.dir = .rx ∧ r.c < cfg.nCh
  | .ringCorrupt r => r.c < cfg.nCh ∧ ((a = .lw ∧ r.dir = .rx) ∨ (∃ k, a = .snd k) ∧ r.dir = .tx)
  | .readyMagic => a = .lw ∨ ∃ k, a = .snd k
  | .readyAccess _ => a = .lw ∨ ∃ k, a = .snd k
  | .sendLock c _ _ => (∃ k, a = .snd k) ∧ c < cfg.nCh
  | .sendReady c _ _ => (∃ k, a = .snd k) ∧ c < cfg.nCh
  | .sendTest c _ _ => (∃ k, a = .snd k) ∧ c < cfg.nCh
  | .sendFit c _ _ => (∃ k, a = .snd k) ∧ c < cfg.nCh
  | .sendPark c _ _ => (∃ k, a = .snd k) ∧ c < cfg.nCh
  | .sendCommit c _ _ => (∃ k, a = .snd k) ∧ c < cfg.nCh
  | .sendEncode c _ _ => (∃ k, a = .snd k) ∧ c < cfg.nCh
  | .sendUnlock c _ => (∃ k, a = .snd k) ∧ c < cfg.nCh
  | .sendReturn c _ => (∃ k, a = .snd k) ∧ c < cfg.nCh
  | .recvAvail c => a = .lw ∧ c < cfg.nCh
  | .recvLoop c _ _ => a = .lw ∧ c < cfg.nCh
  | .recvDecode c _ _ => a = .lw ∧ c < cfg.nCh
  | .recvMagic c _ _ => a = .lw ∧ c < cfg.nCh
  | .recvLength c _ _ => a = .lw ∧ c < cfg.nCh
  | .recvSize c _ _ _ => a = .lw ∧ c < cfg.nCh
  | .recvHold => a = .lw
  | .recvPush _ => a = .lw
  | .frameRxTest c _ => a = .lw ∧ c < cfg.nCh
  | .frameRxSize c _ => a = .lw ∧ c < cfg.nCh
  | .resAck c _ => a = .lw ∧ c < cfg.nCh
  | .ackReq c _ => a = .lw ∧ c < cfg.nCh
  | .ackDec c => a = .lw ∧ c < cfg.nCh
  | .work => a = .lw
  | .noncmd _ => a = .lw
  | .noncmdReady _ => a = .lw
  | .phoneStart => a = .lw
  | .setOnline => a = .lw
  | .phoneRing => a = .lw
  | .crashExit => a = .lw
  | .crashAct => a = .lw
  | .crash _ _ => False
  | .isrClear => a = .isr
  | .isrGet => a = .isr
  | .isrPush _ => a = .isr
  | .startDone => a = .host
  | .startReturn => a = .host
  | .saveDone => a = .host

/-- The outputs in an agent's column, by kind: `SND(k)` and `LW` ring `IRQ_OUT` and notify on the CRASH port, `SND(k)`
answers its own request, `DW` delivers to the sinks, `HOST` answers `LD.START` and `LD.SAVE`, `ISR` has none (R270, R280,
R283; 44_dispatch.md R253). -/
def outputOk (a : Agent) (e : Event) : Prop :=
  match a with
  | .snd k => (∃ w, e = .doorbellOut w) ∨ (∃ cause c, e = .crashNotify cause c)
      ∨ ∃ code v, e = .response (some k) 2 code v
  | .lw => (∃ w, e = .doorbellOut w) ∨ ∃ cause c, e = .crashNotify cause c
  | .dw => ∃ chid payload, e = .deliver chid payload
  | .host => e = .response none 1 .ok (.num 0) ∨ e = .response none 3 .ok (.num 0)
  | .isr => False
  | .call => False

/-- From `s` to `t` nothing was recorded but outputs in the column of `a`. -/
def outputsOk (a : Agent) (s t : State) : Prop := ∃ es, t.events = s.events ++ es ∧ ∀ e ∈ es, outputOk a e

/-- Every line still to be run belongs to the agent that will run it, and nothing is placed from outside the agents and
the ports: no operation but the four requests has a way in (R270, R279). -/
def State.owned (s : State) : Prop :=
  s.cfg.wf = true
  ∧ s.placed = none
  ∧ (∀ l ∈ s.isr.todo, lineOk s.cfg .isr l)
  ∧ (∀ l ∈ s.lw.todo, lineOk s.cfg .lw l)
  ∧ (∀ l ∈ s.host.todo, lineOk s.cfg .host l)
  ∧ s.call.todo = []
  ∧ (∀ p ∈ s.snds, ∀ l ∈ p.2.todo, lineOk s.cfg (.snd p.1) l)

/-! ### The transmit locks (10_state.md R28; 60_exceptions.md R278) -/

/-- The channel of the line every sender's phase ends in, and whether that line lies between L1 and the release. -/
def sendMark : Line → Option (Nat × Bool)
  | .sendLock c _ _ => some (c, false)
  | .sendReady c _ _ => some (c, true)
  | .sendTest c _ _ => some (c, true)
  | .sendFit c _ _ => some (c, true)
  | .sendPark c _ _ => some (c, true)
  | .sendCommit c _ _ => some (c, true)
  | .sendEncode c _ _ => some (c, true)
  | .sendUnlock c _ => some (c, true)
  | .sendReturn c _ => some (c, false)
  | _ => none

/-- A line that may stand before a marked one: the steps of the primitives a sender of channel `c` invokes, which store
into `TXBUF[c]` and `TXH[c]` and nowhere else. -/
def sendInner (cfg : Cfg) (c : Nat) : Line → Bool
  | .readyMagic => true
  | .readyAccess _ => true
  | .spaceHead r => r == txRing c
  | .spaceTail r _ => r == txRing c
  | .rqWrite r _ => r == txRing c
  | .ringCorrupt r => r == txRing c
  | .store8 off _ => cfg.baseTx c ≤ off && off < cfg.baseTx c + (cfg.chan c).capTx
  | .store32 off _ => off == offTxh c
  | .fence => true
  | .doorbell _ => true
  | .availHead _ => false
  | .availTail _ _ => false
  | .rqRead _ _ => false
  | .rqPeek _ _ _ => false
  | .sendLock _ _ _ => false
  | .sendReady _ _ _ => false
  | .sendTest _ _ _ => false
  | .sendFit _ _ _ => false
  | .sendPark _ _ _ => false
  | .sendCommit _ _ _ => false
  | .sendEncode _ _ _ => false
  | .sendUnlock _ _ => false
  | .sendReturn _ _ => false
  | .recvAvail _ => false
  | .recvLoop _ _ _ => false
  | .recvDecode _ _ _ => false
  | .recvMagic _ _ _ => false
  | .recvLength _ _ _ => false
  | .recvSize _ _ _ _ => false
  | .recvHold => false
  | .recvPush _ => false
  | .frameRxTest _ _ => false
  | .frameRxSize _ _ => false
  | .resAck _ _ => false
  | .ackReq _ _ => false
  | .ackDec _ => false
  | .work => false
  | .noncmd _ => false
  | .noncmdReady _ => false
  | .phoneStart => false
  | .setOnline => false
  | .phoneRing => false
  | .crashExit => false
  | .crashAct => false
  | .crash _ _ => false
  | .isrClear => false
  | .isrGet => false
  | .isrPush _ => false
  | .startDone => false
  | .startReturn => false
  | .saveDone => false
  | .load8 _ => false

/-- The phase of a sender: inner lines and one marked line, the last. `past` says that it is between L1 and the
release; outside, only the marked line is left, so that every store of a sender lies between them. -/
def sendPhase (cfg : Cfg) (c : Nat) (past : Bool) (todo : List Line) : Prop :=
  ∃ pre l, todo = pre ++ [l] ∧ sendMark l = some (c, past) ∧ (∀ x ∈ pre, sendInner cfg c x = true)
    ∧ (past = false → pre = [])

/-- The discipline of the locks: each sender has its own number and is in some phase; a lock is `HELD(k)` exactly
while sender `k` is between L1 and its release, on that channel. -/
def State.locksOk (s : State) : Prop :=
  s.chans.length = s.cfg.nCh
  ∧ (s.snds.map Prod.fst).Nodup
  ∧ (∀ p ∈ s.snds, p.1 < s.nextSnd)
  ∧ (∀ p ∈ s.snds, ∃ c past, c < s.cfg.nCh ∧ sendPhase s.cfg c past p.2.todo)
  ∧ (∀ c k, c < s.cfg.nCh →
      ((s.chan c).txlock = .held k ↔ ∃ th, (k, th) ∈ s.snds ∧ sendPhase s.cfg c true th.todo))

/-! ### The queues (10_state.md R40, R41) -/

/-- In a phase of the link worker every push to `RXQ` comes after a hold of its own (42_channel.md R191 V9, V11):
`room` says whether there is room already. -/
def pushesHeld : Bool → List Line → Bool
  | _, [] => true
  | room, l :: k =>
      match l with
      | .recvHold => pushesHeld true k
      | .recvPush _ => room && pushesHeld false k
      | .load8 _ => pushesHeld room k
      | .fence => pushesHeld room k
      | .store32 _ _ => pushesHeld room k
      | .rqRead _ _ => pushesHeld room k
      | .ringCorrupt _ => pushesHeld room k
      | _ => pushesHeld false k

/-- Neither queue holds more than its depth, and no push in sight can make it so. -/
def State.queuesOk (s : State) : Prop :=
  s.wq.length ≤ s.cfg.wqDepth
  ∧ s.rxq.length ≤ s.cfg.rxqDepth
  ∧ pushesHeld (decide (s.rxq.length < s.cfg.rxqDepth)) s.lw.todo = true

/-! ### Before the start (10_state.md R32; 70_reset_and_hazards.md R302) -/

/-- While `started = 0` every private register is at its reset value and no agent but `HOST` has an operation in
progress. -/
def State.preStart (s : State) : Prop :=
  s.started = false →
    s.lstate = .offline ∧ s.halted = false ∧ s.errstat = 0 ∧ s.wq = [] ∧ s.rxq = []
    ∧ s.chans = List.replicate s.cfg.nCh ChanRegs.reset ∧ s.snds = []
    ∧ s.isr.todo = [] ∧ s.lw.todo = [] ∧ s.call.todo = []

/-! ### The save (43_link_device.md R227; 70_reset_and_hazards.md R324) -/

/-- A line of the link worker from which a response-ack doorbell may still come: `DB.NONCMD` past N1, up to the doorbell of
its last `CH.ACK_REQ`. -/
def Line.mayAnswer : Line → Bool
  | .noncmdReady _ => true
  | .ackReq _ _ => true
  | .doorbell _ => true
  | _ => false

/-- The link worker is not in the middle of a doorbell-mask word that it has still to answer. -/
def State.noAnswerDue (s : State) : Prop := ∀ l ∈ s.lw.todo, l.mayAnswer = false

/-! ### The choices -/

/-- A sender, which no save stops once it is past A5 (70_reset_and_hazards.md R322, R324). -/
def Agent.sends : Agent → Bool
  | .snd _ => true
  | .isr => false
  | .lw => false
  | .dw => false
  | .host => false
  | .call => false

/-- The agent a choice gives the move to; the other choices come from outside. -/
def Choice.mover : Choice → Option Agent
  | .line a => some a
  | .op a => some a
  | .run a => some a
  | .request _ => none
  | .submit _ => none
  | .peer _ => none
  | .reset => none

/-! ### The environment (60_exceptions.md R286) -/

/-- What the disciplined peer goes by, gathered from its own events and the doorbells it was sent. -/
structure PeerView where
  /-- Each word as `PEER` last read it or, its own stores read back, last stored it; the latest first. -/
  words : List (Nat × Word)
  /-- The bytes it has stored to, those of a buffer since it last stored its head; none since it sent `PHONE_START`. -/
  fresh : List Nat
  /-- The word it set with no raise after it yet (E3 without its E4). -/
  owed : Option Half
  /-- `PHONE_START` has been sent and no `INIT_END` observed since. -/
  quiet : Bool
  /-- An `INIT_END` doorbell has been sent to it since its last `PHONE_START`. -/
  answered : Bool
deriving DecidableEq, Repr

/-- `PEER` has seen and done nothing. -/
def PeerView.start : PeerView := ⟨[], [], none, false, false⟩

/-- The word at an offset as `PEER` last saw it. -/
def PeerView.seen (v : PeerView) (off : Nat) : Option Word := v.words.lookup off

/-- The offset of the head word of some RX ring. -/
def rxHead (cfg : Cfg) (off : Nat) : Bool := (List.range cfg.nCh).any (fun c => off == offRxh c)

/-- The bytes of the RX buffer of channel `c`. -/
def inRxBuf (cfg : Cfg) (c off : Nat) : Bool := cfg.baseRx c ≤ off && off < cfg.baseRx c + (cfg.chan c).capRx

/-- What one event tells `PEER`. A store to `RXH[c]` makes the bytes of `RXBUF[c]` old. It observes the `INIT_END` doorbell
when it takes its pending bit, set, with that word in `MBX_OUT`, after one was sent: a word left there from before is
none. -/
def PeerView.after (cfg : Cfg) (v : PeerView) : Event → PeerView
  | .peerRead off n x => if n = 4 then { v with words := (off, x) :: v.words } else v
  | .peerTook pending w =>
      if pending = true ∧ v.answered = true ∧ w = initEndWord cfg then { v with quiet := false } else v
  | .peerDid (.write8 off _) => { v with fresh := off :: v.fresh }
  | .peerDid (.write32 off x) =>
      if rxHead cfg off then
        { v with
          words := (off, x) :: v.words
          fresh := v.fresh.filter (fun a => !(List.range cfg.nCh).any (fun c => off == offRxh c && inRxBuf cfg c a)) }
      else { v with words := (off, x) :: v.words, fresh := [off, off + 1, off + 2, off + 3] ++ v.fresh }
  | .peerDid (.setStatus w) =>
      if decodeStatus cfg w = .cmdPhoneStart then
        { v with owed := some w, quiet := true, answered := false, fresh := [] }
      else { v with owed := some w }
  | .peerDid .raiseIrq => { v with owed := none }
  | .peerDid (.read8 _) => v
  | .peerDid (.read32 _) => v
  | .peerDid .takeDoorbell => v
  | .response _ _ _ _ => v
  | .doorbellOut w => if w = initEndWord cfg then { v with answered := true } else v
  | .crashNotify _ _ => v
  | .deliver _ _ => v

/-- What `PEER` goes by in a state. -/
def State.peerView (s : State) : PeerView := s.events.foldl (PeerView.after s.cfg) .start

/-- A byte of some ring: an index word or a buffer. -/
def ringByte (cfg : Cfg) (off : Nat) : Prop := (offTxh 0 ≤ off ∧ off < cfg.offRsvd) ∨ cfg.bufBase ≤ off

/-- One frame as it stands in a ring (30_encoding.md R109): a header that decodes, then the payload and the padding it
tells of. -/
def wholeFrame (cfg : Cfg) (bs : List Byte) : Prop :=
  ∃ h, decodeHeader cfg (bs.take headerSize) = .ok h ∧ bs.length = fhFrameSize h.totalLen.toNat

/-- The bytes begin whole frames: some that are still to come make them whole. -/
def framesBegun (cfg : Cfg) (bs : List Byte) : Prop :=
  ∃ (rest : List Byte) (fs : List (List Byte)), bs ++ rest = fs.flatten ∧ ∀ f ∈ fs, wholeFrame cfg f

/-- R286 (c): a position of `RXBUF[c]` in `[RXH[c], RXH[c] + space)`. -/
def rxRoom (s : State) (c off : Nat) : Prop :=
  ∃ k : Nat, (k : Int) < s.space (rxRing c)
    ∧ off = ringAt (ringOf s.cfg (rxRing c)) (s.head (rxRing c)).toNat k

/-- R286 (b), (d): `TXT[c]` is advanced over bytes that were there when `PEER` last read the two indices. -/
def peerConsumes (s : State) (c : Nat) (v : Word) : Prop :=
  ∃ h t, s.peerView.seen (offTxh c) = some h ∧ s.peerView.seen (offTxt c) = some t
    ∧ (∃ n : Nat, n % 4 = 0 ∧ (n : Int) ≤ availOf (s.cfg.chan c).capTx h.toNat t.toNat
        ∧ v = advance (s.cfg.chan c).capTx t.toNat n)
    ∧ v.toNat < (s.cfg.chan c).capTx

/-- R286 (c), (d), (e): `RXH[c]` is advanced by the bytes written to `RXBUF[c]` since its last advance, no more and no
less, a multiple of 4 of them; what then stands unread in the ring begins whole frames, so that a frame may be published
in parts, data before index (95_test_vectors.md P4). -/
def peerProduces (s : State) (c : Nat) (v : Word) : Prop :=
  let r := rxRing c
  let cap := (s.cfg.chan c).capRx
  (∃ n : Nat, n % 4 = 0 ∧ (n : Int) ≤ s.space r ∧ v = advance cap (s.head r).toNat n
      ∧ (∀ off, inRxBuf s.cfg c off = true →
          (off ∈ s.peerView.fresh ↔ inSpan (ringOf s.cfg r) (s.head r).toNat n off)))
  ∧ framesBegun s.cfg (s.ringBytes r (s.tail r).toNat (availOf cap v.toNat (s.tail r).toNat).toNat)
  ∧ v.toNat < cap

/-- `PEER_OK`, step by step: whether R286 (a) to (g) allow the disciplined peer to take this step in state `s`, by what
stands in SHM and what it has read and done so far (log 8). -/
def peerOk (s : State) : PeerAct → Prop
  | .read8 off => s.peerView.quiet = true → ¬ ringByte s.cfg off
  | .read32 off => s.peerView.quiet = true → ¬ ringByte s.cfg off
  | .write8 off _ => s.peerView.quiet = false ∧ ∃ c, c < s.cfg.nCh ∧ rxRoom s c off
  | .write32 off v =>
      s.peerView.quiet = false ∧ ∃ c, c < s.cfg.nCh ∧
        ((off = offTxt c ∧ peerConsumes s c v) ∨ (off = offRxh c ∧ peerProduces s c v)
          ∨ (off % 4 = 0 ∧ ∀ i, i < 4 → rxRoom s c (off + i)))
  | .setStatus _ => s.peerView.owed = none
  | .raiseIrq => s.peerView.owed ≠ none
  | .takeDoorbell => True

/-- The next step, if it is a step of `PEER`, is one of a disciplined peer. -/
def nextPeerOk (s : State) : Prop :=
  s.placed = none → ∀ p rest, s.sched = .peer p :: rest → peerOk { s with sched := rest } p

/-! ### Operations that need their agent -/

/-- The operations that an agent begins only while it may step: all but the requests, which are answered, the codec,
which is pure, and `DW`'s. -/
def needsLiveAgent : Instr → Bool
  | .ldStatus => false
  | .ldStart => false
  | .chSend _ _ _ => false
  | .ldSave => false
  | .cmdPhoneStart => true
  | .cmdCrashExit => true
  | .cmdOther _ => true
  | .dbNoncmd _ => true
  | .dbInvalid _ => true
  | .cmdInitEnd => true
  | .dbSend _ => true
  | .dbResAck _ => true
  | .frameTx _ _ _ _ payload => lenFits payload.length
  | .frameRx _ _ => true
  | .ldOnDoorbell => true
  | .rqSpace _ => true
  | .rqAvail _ => true
  | .rqWrite _ _ => true
  | .rqRead _ _ => true
  | .rqPeek _ _ _ => true
  | .rqInit _ => true
  | .fhPad _ => false
  | .fhFrameSize _ => false
  | .fhEncode _ _ _ _ => false
  | .fhTailBytes _ _ => false
  | .fhDecode _ => false
  | .chInit _ => true
  | .chRecvPending _ => true
  | .chAckReq _ _ => true
  | .chResAck _ _ => true
  | .ldWork => true
  | .ldCheckReady => true
  | .ldCrash _ _ => true
  | .dwStep => false

/-! ### Runs of the link worker -/

/-- What `DB.NONCMD(w)` does for the channels of a list, one operation after the other (43_link_device.md R218
N3 to N5). -/
def visitChannels (w : Half) : List Nat → State → Host.Outcome State Fault Refusal
  | [], s => .next s
  | c :: cs, s =>
      match exec (.chResAck c w) s with
      | .next s1 =>
          match exec (.chAckReq c w) s1 with
          | .next s2 =>
              match exec (.chRecvPending c) s2 with
              | .next s3 => visitChannels w cs s3
              | o => o
          | o => o
      | o => o

end Sys2Proof.Machine
end

