-- ==== Sys2Proof/Certificates/Slice0/Obligations.lean ====
section
/-! DEFINITION. The statements for the provers, one definition each. Unless it says so, a statement speaks of every
configuration that meets 00_scope.md R8, every state and every content of SHM (PEER_ANY, 60_exceptions.md R286). -/

open Sys2Proof Sys2Proof.Machine

/-! ## Encodings -/

/-- Words of the opcode table decode to their operations (30_encoding.md R111, R112, R113, R120). Which carrier a word
of the table stands on is the model's choice (log 11): an 8-bit word below 16 is a request, 0x00C2, 0x0082 and 0x0084,
which the engine sends, are sent words, and 0x00A2 and 0x0002 are received ones. -/
def Obligations.TableWordsDecode : Prop :=
  decodeTableWord 8 0x0 = some .ldStatus
  ∧ decodeTableWord 8 0x1 = some .ldStart
  ∧ decodeTableWord 8 0x2 = some (.chSend 0 0 [])
  ∧ decodeTableWord 8 0x3 = some .ldSave
  ∧ decodeTableWord 8 0x4 = none
  ∧ decodeTableWord 16 0x00C8 = some .cmdPhoneStart
  ∧ decodeTableWord 16 0x00CC = some .cmdCrashExit
  ∧ decodeTableWord 16 0x00C2 = some .cmdInitEnd
  ∧ decodeTableWord 16 0x00C4 = some (.cmdOther 0x4)
  ∧ decodeTableWord 16 0x00A2 = some (.dbNoncmd 0x00A2)
  ∧ decodeTableWord 16 0x0002 = some (.dbInvalid 0x0002)
  ∧ decodeTableWord 16 0x0082 = some (.dbSend 0)
  ∧ decodeTableWord 16 0x0084 = some (.dbResAck 1)

/-- Decoding the encoding of a well-formed operation gives it back, with every operand. -/
def Obligations.DecodeEncodeAgree : Prop :=
  ∀ (cfg : Cfg) (i : Instr) (f : Fetch), cfg.wf = true → i.wf cfg = true → encode cfg i = some f →
    decode cfg f = .instr i

/-- In a received command word only the valid marker, the command marker and the code bits matter; the reserved
bits are ignored (30_encoding.md R110, R111; 43_link_device.md R219). -/
def Obligations.StatusReservedBits : Prop :=
  ∀ (cfg : Cfg) (w v : Half), w &&& cfg.stValid ≠ 0 → w &&& cfg.stCmd ≠ 0 →
    v &&& (cfg.stValid ||| cfg.stCmd ||| cfg.stCodeMask) = w &&& (cfg.stValid ||| cfg.stCmd ||| cfg.stCodeMask) →
    decode cfg (.mbxIn v) = decode cfg (.mbxIn w)

/-! ## The codec (41_frame_codec.md) -/

/-- `FH.PAD` gives the one number below 4 that pads to a multiple of 4, `FH.FRAME_SIZE` the padded length, the least
multiple of 4 not below its operand; neither changes anything but the value handed back (R161, R162). -/
def Obligations.PadAndFrameSize : Prop :=
  ∀ (s : State) (n : Nat),
    (∃ p, exec (.fhPad n) s = .next { s with ret := .nat p } ∧ p < 4 ∧ (n + p) % 4 = 0)
    ∧ (∃ z, exec (.fhFrameSize n) s = .next { s with ret := .nat z }
        ∧ z % 4 = 0 ∧ n ≤ z ∧ ∀ y, y % 4 = 0 → n ≤ y → z ≤ y)

/-- `FH.ENCODE` builds the 12 header bytes of R163, byte by byte, and hands back the padding; an oversized payload is
`TooLong`. That `TooLong` is handed back as the answer is the model's reading (log 12). -/
def Obligations.EncodeBuildsHeader : Prop :=
  ∀ (s : State) (chid cseq : Byte) (fseq : Half) (n : Nat),
    (12 + n ≤ 65535 → ∃ (tl : Half) (pad : Nat), tl.toNat = 12 + n ∧ pad < 4 ∧ (12 + n + pad) % 4 = 0
      ∧ exec (.fhEncode chid cseq fseq n) s = .next { s with
          ret := .encoded
            [s.cfg.startMagic.extractLsb' 0 8, s.cfg.startMagic.extractLsb' 8 8,
             fseq.extractLsb' 0 8, fseq.extractLsb' 8 8,
             s.cfg.fragSingle.extractLsb' 0 8, s.cfg.fragSingle.extractLsb' 8 8,
             tl.extractLsb' 0 8, tl.extractLsb' 8 8, chid, cseq, 0, 0] pad })
    ∧ (65535 < 12 + n → exec (.fhEncode chid cseq fseq n) s = .next { s with ret := .code .tooLong })

/-- `FH.TAIL_BYTES` appends zero bytes; with the header it makes a frame image whose length is the frame size, a
multiple of 4 (R164, R165). -/
def Obligations.TailAndFrameImage : Prop :=
  ∀ (s : State) (payload : List Byte) (pad : Nat),
    (∃ bs, exec (.fhTailBytes payload pad) s = .next { s with ret := .bytes bs }
      ∧ bs.length = payload.length + pad
      ∧ (∀ k, k < payload.length → bs.getD k 0 = payload.getD k 0)
      ∧ (∀ k, payload.length ≤ k → bs.getD k 0 = 0))
    ∧ (∀ (chid cseq : Byte) (fseq : Half),
        (frameImage s.cfg chid cseq fseq payload).length = fhFrameSize (12 + payload.length)
        ∧ (frameImage s.cfg chid cseq fseq payload).length % 4 = 0
        ∧ frameImage s.cfg chid cseq fseq payload
            = encodeHeader s.cfg chid cseq fseq payload.length
              ++ tailBytes payload (fhPad (12 + payload.length)))

/-- `FH.DECODE` tests the magic, then the length, and nothing else, and assembles the fields little-endian (R166;
30_encoding.md R102, R116). -/
def Obligations.DecodeHeaderCases : Prop :=
  ∀ (s : State) (b0 b1 b2 b3 b4 b5 b6 b7 b8 b9 b10 b11 : Byte),
    let e := exec (.fhDecode #v[b0, b1, b2, b3, b4, b5, b6, b7, b8, b9, b10, b11]) s
    (b0.toNat + 256 * b1.toNat ≠ s.cfg.startMagic.toNat → e = .next { s with ret := .header .badMagic })
    ∧ (b0.toNat + 256 * b1.toNat = s.cfg.startMagic.toNat → b6.toNat + 256 * b7.toNat < 12 →
        e = .next { s with ret := .header .badLength })
    ∧ (b0.toNat + 256 * b1.toNat = s.cfg.startMagic.toNat → 12 ≤ b6.toNat + 256 * b7.toNat →
        ∃ h : Header, e = .next { s with ret := .header (.ok h) }
          ∧ h.startMagic = s.cfg.startMagic ∧ h.frameSeq.toNat = b2.toNat + 256 * b3.toNat
          ∧ h.fragCfg.toNat = b4.toNat + 256 * b5.toNat ∧ h.totalLen.toNat = b6.toNat + 256 * b7.toNat
          ∧ h.channelId = b8 ∧ h.channelSeq = b9 ∧ h.reserved.toNat = b10.toNat + 256 * b11.toNat)

/-- What `FH.ENCODE` hands back, `FH.DECODE` accepts, with the same fields (R167 (a), (b)). -/
def Obligations.CodecRoundTrip : Prop :=
  ∀ (s : State) (chid cseq : Byte) (fseq : Half) (n : Nat), 12 + n ≤ 65535 →
    ∃ (hdr : Vector Byte 12) (pad : Nat) (h : Header),
      exec (.fhEncode chid cseq fseq n) s = .next { s with ret := .encoded hdr.toList pad }
      ∧ exec (.fhDecode hdr) s = .next { s with ret := .header (.ok h) }
      ∧ h.channelId = chid ∧ h.channelSeq = cseq ∧ h.frameSeq = fseq ∧ h.totalLen.toNat = 12 + n
      ∧ h.fragCfg = s.cfg.fragSingle ∧ h.reserved = 0

/-- A header whose magic has any one bit flipped is `BadMagic` (R166). -/
def Obligations.FlippedMagicRejected : Prop :=
  ∀ (s : State) (h : Header) (i : Nat) (b : Vector Byte 12), h.startMagic = s.cfg.startMagic → i < 16 →
    b.toList = headerBytes { h with startMagic := h.startMagic ^^^ (1#16 <<< i) } →
    exec (.fhDecode b) s = .next { s with ret := .header .badMagic }

/-! ## The ring queue (40_ring_queue.md) -/

/-- The laws of the index arithmetic for valid indices: `space` and `avail` lie in `0 .. cap - 1` and add up to
`cap - 1`; advancing both indices by what fits leaves `space` as it was; advancing the head moves bytes from `space`
to `avail` (R141, R149 (a), (b), (e)). -/
def Obligations.RingIndexLaws : Prop :=
  ∀ (cap h t k : Nat), h < cap → t < cap → cap < 2 ^ 31 →
    0 ≤ spaceOf cap h t ∧ spaceOf cap h t ≤ cap - 1
    ∧ 0 ≤ availOf cap h t ∧ availOf cap h t ≤ cap - 1
    ∧ spaceOf cap h t + availOf cap h t = cap - 1
    ∧ ((k : Int) ≤ spaceOf cap h t →
        spaceOf cap (advance cap h k).toNat (advance cap t k).toNat = spaceOf cap h t
        ∧ availOf cap (advance cap h k).toNat t = availOf cap h t + k
        ∧ spaceOf cap (advance cap h k).toNat t = spaceOf cap h t - k)
    ∧ ((k : Int) ≤ availOf cap h t → availOf cap h (advance cap t k).toNat = availOf cap h t - k)

/-- `RQ.SPACE`: `-1` for a corrupt index, else `(t - h - 1) mod cap`; nothing else changes (R143). Who
runs it on its own, `call` for a TX ring, the link worker for an RX ring, where the engine never calls it (R151), is the
model's choice (log 3). -/
def Obligations.SpaceAnswer : Prop :=
  ∀ (s : State) (r : RingId), s.cfg.wf = true → r.c < s.cfg.nCh → s.free (ringAgent r) = true →
    (s.cfg.capOf r ≤ (s.head r).toNat ∨ s.cfg.capOf r ≤ (s.tail r).toNat →
      exec (.rqSpace r) s = .next (s.done (ringAgent r) (.int (-1))))
    ∧ ((s.head r).toNat < s.cfg.capOf r → (s.tail r).toNat < s.cfg.capOf r →
      ∃ v q : Int, exec (.rqSpace r) s = .next (s.done (ringAgent r) (.int v))
        ∧ 0 ≤ v ∧ v < s.cfg.capOf r ∧ ((s.tail r).toNat : Int) - (s.head r).toNat - 1 = q * s.cfg.capOf r + v)

/-- `RQ.AVAIL`: `-1` for a corrupt index, else `(h - t) mod cap`; nothing else changes (R144). Who runs
it on its own, the link worker for an RX ring, `call` for a TX ring, where the engine never calls it (R151), is the model's
choice (log 3). -/
def Obligations.AvailAnswer : Prop :=
  ∀ (s : State) (r : RingId), s.cfg.wf = true → r.c < s.cfg.nCh → s.free (ringAgent r) = true →
    (s.cfg.capOf r ≤ (s.head r).toNat ∨ s.cfg.capOf r ≤ (s.tail r).toNat →
      exec (.rqAvail r) s = .next (s.done (ringAgent r) (.int (-1))))
    ∧ ((s.head r).toNat < s.cfg.capOf r → (s.tail r).toNat < s.cfg.capOf r →
      ∃ v q : Int, exec (.rqAvail r) s = .next (s.done (ringAgent r) (.int v))
        ∧ 0 ≤ v ∧ v < s.cfg.capOf r ∧ ((s.head r).toNat : Int) - (s.tail r).toNat = q * s.cfg.capOf r + v)

/-- `RQ.WRITE` within its contract stores byte `k` of `src` at ring position `h + k`, then advances the head, and
changes no other byte and nothing else; a length of 0 touches nothing (R145; 20_memory.md R68). That
`call` runs it on a TX ring, and that it is run on an RX ring, by the link worker, which then stores `RXH` as the engine
never does (R151), is the model's choice (log 3). -/
def Obligations.WriteStoresAndPublishes : Prop :=
  ∀ (s : State) (r : RingId) (src : List Byte), s.sane → r.c < s.cfg.nCh → s.free (ringAgent r) = true →
    (src = [] → exec (.rqWrite r src) s = .next (s.done (ringAgent r) .unit))
    ∧ (src ≠ [] → (src.length : Int) ≤ s.space r →
      ∃ m, exec (.rqWrite r src) s = .next (({ s with mem := m } : State).done (ringAgent r) .unit)
        ∧ s.appended r src m)

/-- `RQ.WRITE` appends: the unread bytes of the ring afterwards are those before followed by `src`; none of them is
overwritten; `avail` grows and `space` shrinks by the length (R149 (b), (c), (d)). That it is run on its own, on
either kind of ring, is the model's choice (log 3). -/
def Obligations.WriteAppends : Prop :=
  ∀ (s t : State) (r : RingId) (src : List Byte), s.sane → r.c < s.cfg.nCh → s.free (ringAgent r) = true →
    (src.length : Int) ≤ s.space r → exec (.rqWrite r src) s = .next t →
    t.ringBytes r (t.tail r).toNat (t.avail r).toNat
        = s.ringBytes r (s.tail r).toNat (s.avail r).toNat ++ src
    ∧ t.tail r = s.tail r
    ∧ t.avail r = s.avail r + src.length
    ∧ t.space r = s.space r - src.length

/-- `RQ.READ` within its contract hands back the oldest `len` unread bytes in order and advances the tail; no other
byte of SHM and nothing else changes (R146, R149 (c)). That it is run on a TX ring, by `call`, which then stores `TXT` as
the engine never does (R151), is the model's choice (log 3). -/
def Obligations.ReadTakesOldest : Prop :=
  ∀ (s : State) (r : RingId) (len : Nat), s.sane → r.c < s.cfg.nCh → s.free (ringAgent r) = true →
    exec (.rqRead r 0) s = .next (s.done (ringAgent r) (.bytes []))
    ∧ (len ≠ 0 → (len : Int) ≤ s.avail r →
      ∃ m, exec (.rqRead r len) s
            = .next (({ s with mem := m } : State).done (ringAgent r)
                (.bytes ((s.ringBytes r (s.tail r).toNat (s.avail r).toNat).take len)))
        ∧ memWf m = true
        ∧ (memRead32 m (ringOf s.cfg r).offT).toNat = ((s.tail r).toNat + len) % s.cfg.capOf r
        ∧ (∀ a, ¬ inWord (ringOf s.cfg r).offT a → memRead m a = memRead s.mem a))

/-- `RQ.PEEK` within its contract hands back `len` unread bytes from `off` on and changes nothing else: SHM, the tail
included, is as before (R147). That it is run on a TX ring, by `call`, where the engine never calls it (R151), is the
model's choice (log 3). -/
def Obligations.PeekLeavesTail : Prop :=
  ∀ (s : State) (r : RingId) (off len : Nat), s.cfg.wf = true → r.c < s.cfg.nCh → s.free (ringAgent r) = true →
    ((off + len : Nat) : Int) ≤ s.avail r →
    exec (.rqPeek r off len) s
      = .next (s.done (ringAgent r)
          (.bytes (((s.ringBytes r (s.tail r).toNat (s.avail r).toNat).drop off).take len)))

/-- `RQ.INIT` makes both index words of the ring 0 and `CH.INIT` the four of the channel, whatever they held; every
other byte of SHM, and everything else, is as before (R148; 42_channel.md R181). -/
def Obligations.InitZeroesIndices : Prop :=
  ∀ (s : State), s.sane → s.free .lw = true →
    (∀ r : RingId, r.c < s.cfg.nCh →
      ∃ m, exec (.rqInit r) s = .next (({ s with mem := m } : State).done .lw .unit)
        ∧ memWf m = true
        ∧ memRead32 m (ringOf s.cfg r).offH = 0 ∧ memRead32 m (ringOf s.cfg r).offT = 0
        ∧ (∀ a, ¬ inWord (ringOf s.cfg r).offH a → ¬ inWord (ringOf s.cfg r).offT a →
            memRead m a = memRead s.mem a))
    ∧ (∀ c, c < s.cfg.nCh →
      ∃ m, exec (.chInit c) s = .next (({ s with mem := m } : State).done .lw .unit)
        ∧ memWf m = true
        ∧ memRead32 m (offTxh c) = 0 ∧ memRead32 m (offTxt c) = 0
        ∧ memRead32 m (offRxh c) = 0 ∧ memRead32 m (offRxt c) = 0
        ∧ (∀ a, ¬ inWord (offTxh c) a → ¬ inWord (offTxt c) a → ¬ inWord (offRxh c) a → ¬ inWord (offRxt c) a →
            memRead m a = memRead s.mem a))

/-- `RQ.WRITE`, `RQ.READ` and `RQ.PEEK`, reading a corrupt index, raise `RingCorrupt` before they touch the buffer: flag
0, the crash path with the cause of the ring's direction, no byte of SHM changed, nothing else changed (R142;
60_exceptions.md R262, R266). That a primitive which ends so on its own hands back nothing is the model's reading
(log 13); that each is run on its own on either kind of ring, on a TX ring by `call`, is its choice (log 3). -/
def Obligations.CorruptIndexRaises : Prop :=
  ∀ (s : State) (r : RingId), s.cfg.wf = true → r.c < s.cfg.nCh → s.free (ringAgent r) = true →
    let t := ({ s with
        errstat := s.errstat ||| 0x01
        lstate := s.lstate.crashed
        events := s.events ++ [.crashNotify (corruptCause r.dir) r.c] } : State).done (ringAgent r) .unit
    (∀ src : List Byte, src ≠ [] → src.length < s.cfg.capOf r → s.cfg.capOf r ≤ (s.head r).toNat →
      exec (.rqWrite r src) s = .next t)
    ∧ (∀ len, len ≠ 0 → len < s.cfg.capOf r → s.cfg.capOf r ≤ (s.tail r).toNat →
      exec (.rqRead r len) s = .next t)
    ∧ (∀ off len, off + len < s.cfg.capOf r → s.cfg.capOf r ≤ (s.tail r).toNat →
      exec (.rqPeek r off len) s = .next t)

/-- A write longer than the space, a read or peek beyond what is available, and any length of the capacity or more
are refused: no step of the machine (R150); and so is a frame pattern whose two writes do not fit their ring. `CORRUPT` is
-1, which no length is within: that `RQ.WRITE` and `FRAME.TX` with a valid head and a corrupt tail, and `RQ.READ` and
`RQ.PEEK`, of 0 bytes too, with a valid tail and a corrupt head, are refused is the model's choice (log 12), for R145 to R147
do not read that other index. -/
def Obligations.MisuseRefused : Prop :=
  ∀ (s : State) (r : RingId), s.cfg.wf = true → r.c < s.cfg.nCh →
    (∀ src : List Byte, src ≠ [] →
      (s.cfg.capOf r ≤ src.length ∨ ((s.head r).toNat < s.cfg.capOf r ∧ s.space r < (src.length : Int))) →
      exec (.rqWrite r src) s = .refused (.outsideContract "RQ.WRITE"))
    ∧ (∀ len, len ≠ 0 →
      (s.cfg.capOf r ≤ len ∨ ((s.tail r).toNat < s.cfg.capOf r ∧ s.avail r < (len : Int))) →
      exec (.rqRead r len) s = .refused (.outsideContract "RQ.READ"))
    ∧ (∀ off len,
      (s.cfg.capOf r ≤ off + len ∨ ((s.tail r).toNat < s.cfg.capOf r ∧ s.avail r < ((off + len : Nat) : Int))) →
      exec (.rqPeek r off len) s = .refused (.outsideContract "RQ.PEEK"))
    ∧ (∀ (c : Nat) (chid cseq : Byte) (fseq : Half) (payload : List Byte), c < s.cfg.nCh → 12 + payload.length ≤ 65535 →
      let need := fhFrameSize (12 + payload.length)
      ((s.cfg.chan c).capTx ≤ need
        ∨ ((s.head (txRing c)).toNat < (s.cfg.chan c).capTx ∧ s.space (txRing c) < (need : Int))) →
      exec (.frameTx c chid cseq fseq payload) s = .refused (.outsideContract "FRAME.TX"))

/-! ## Frames and channels (41_frame_codec.md, 42_channel.md) -/

/-- `FRAME.TX` puts the whole frame image at the head of the TX ring and advances the head by its length; no other
byte and nothing else changes (41_frame_codec.md R165; 42_channel.md R187). That a frame pattern run on its own is the
two ring writes W1 and W2 is the model's choice (log 3). -/
def Obligations.FrameTxWritesImage : Prop :=
  ∀ (s : State) (c : Nat) (chid cseq : Byte) (fseq : Half) (payload : List Byte),
    s.sane → c < s.cfg.nCh → s.free .call = true → 12 + payload.length ≤ 65535 →
    (fhFrameSize (12 + payload.length) : Int) ≤ s.space (txRing c) →
    ∃ m, exec (.frameTx c chid cseq fseq payload) s = .next (({ s with mem := m } : State).done .call .unit)
      ∧ (frameImage s.cfg chid cseq fseq payload).length = fhFrameSize (12 + payload.length)
      ∧ s.appended (txRing c) (frameImage s.cfg chid cseq fseq payload) m

/-- `FRAME.RX` with the validated header `d`: a frame that is all there is consumed, padding included, and its
payload pushed with the header's channel id; one that is not all there is `BadLength` and leaves SHM alone; with `RXQ`
full the worker holds before it consumes; a corrupt index raises `RingCorrupt` (R191 V8 to V11, R192 (c), (d)). That a
frame pattern run on its own is these lines is the model's choice (log 3). -/
def Obligations.FrameRxTakesFrame : Prop :=
  ∀ (s : State) (c : Nat) (d : Header), s.sane → (Instr.frameRx c d).wf s.cfg = true → s.free .lw = true →
    let r := rxRing c
    let fs := fhFrameSize d.totalLen.toNat
    (s.avail r = -1 →
      exec (.frameRx c d) s = .next (({ s with
        errstat := s.errstat ||| 0x01
        lstate := s.lstate.crashed
        events := s.events ++ [.crashNotify .ringCorruptRx c] } : State).done .lw .unit))
    ∧ (0 ≤ s.avail r → s.avail r < (fs : Int) →
      exec (.frameRx c d) s = .next (({ s with errstat := s.errstat ||| 0x04 } : State).done .lw .unit))
    ∧ ((fs : Int) ≤ s.avail r → s.rxq.length < s.cfg.rxqDepth →
      ∃ m, exec (.frameRx c d) s = .next (({ s with
              mem := m
              rxq := s.rxq ++ [⟨d.channelId,
                ((s.ringBytes r (s.tail r).toNat fs).take d.totalLen.toNat).drop 12⟩] } : State).done .lw .unit)
        ∧ memWf m = true
        ∧ (memRead32 m (offRxt c)).toNat = ((s.tail r).toNat + fs) % (s.cfg.chan c).capRx
        ∧ (∀ a, ¬ inWord (offRxt c) a → memRead m a = memRead s.mem a))
    ∧ ((fs : Int) ≤ s.avail r → s.cfg.rxqDepth ≤ s.rxq.length →
      exec (.frameRx c d) s
        = .next { s with lw := ⟨.unit, [.recvHold, .rqRead r fs, .recvPush d]⟩ })

/-- A send that is admitted, finds the lock free, the link ready and space enough: the frame with the advanced
sequence numbers stands in the TX ring, the head covers it, the doorbell went out and after it the response, `OK` with
the payload's length, the lock is free; no other byte and nothing else changes (R182, R184, R186 to R190). -/
def Obligations.SendDelivers : Prop :=
  ∀ (s : State) (c : Nat) (chid : Byte) (payload : List Byte),
    s.sane → s.started = true → s.halted = false → c < s.cfg.nCh → 12 + payload.length ≤ 65535 →
    s.lstate = .online → (s.chan c).txlock = .free → s.ready = true →
    (fhFrameSize (12 + payload.length) : Int) ≤ s.space (txRing c) →
    let q := s.chan c
    let w := s.cfg.stValid ||| (s.cfg.chan c).maskSend
    ∃ m, exec (.chSend c chid payload) s = .next { s with
            mem := m
            chans := s.chans.set c { q with fseq := q.fseq + 1, cseq := q.cseq + 1 }
            mbxOut := w
            irqOutPending := true
            events := s.events ++ [.doorbellOut w, .response (some s.nextSnd) 2 .ok (.num payload.length)]
            nextSnd := s.nextSnd + 1
            ret := .nat payload.length }
      ∧ s.appended (txRing c) (frameImage s.cfg chid (q.cseq + 1) (q.fseq + 1) payload) m

/-- A send that is admitted waits at the lock while another sender holds it, and parks with the lock held while the
ring has too little space; a waiting or parked sender has no step and no effect until the hold is lifted. Once it is, a
parked sender, or one that finds the lock free, the link ready and space enough, delivers its frame, whatever `lstate`
has become (R183, R185; 60_exceptions.md R265, R274; 70_reset_and_hazards.md R322). -/
def Obligations.SendWaits : Prop :=
  ∀ (s : State) (c : Nat) (chid : Byte) (payload : List Byte), s.sane →
    (s.started = true → s.halted = false → c < s.cfg.nCh → 12 + payload.length ≤ 65535 → s.lstate = .online →
      (∀ j, (s.chan c).txlock = .held j →
        exec (.chSend c chid payload) s = .next { s with
          nextSnd := s.nextSnd + 1
          snds := s.snds ++ [(s.nextSnd, ⟨.unit, [.sendLock c chid payload]⟩)] })
      ∧ ((s.chan c).txlock = .free → s.ready = true → 0 ≤ s.space (txRing c) →
          s.space (txRing c) < (fhFrameSize (12 + payload.length) : Int) →
        exec (.chSend c chid payload) s = .next { s with
          chans := s.chans.set c { s.chan c with txlock := .held s.nextSnd }
          nextSnd := s.nextSnd + 1
          snds := s.snds ++ [(s.nextSnd, ⟨.unit, [.sendPark c chid payload]⟩)] }))
    ∧ (∀ (k n : Nat) (acc : Value) (rest : List Line),
        (s.thread (.snd k) = ⟨acc, .sendLock c chid payload :: rest⟩ → (s.chan c).txlock ≠ .free →
          advanceAgent n (.snd k) s = s)
        ∧ (s.thread (.snd k) = ⟨acc, .sendPark c chid payload :: rest⟩ → 0 ≤ s.space (txRing c) →
          s.space (txRing c) < (fhFrameSize (12 + payload.length) : Int) → advanceAgent n (.snd k) s = s))
    ∧ (∀ (k : Nat) (acc : Value), agentLive s (.snd k) = true → c < s.cfg.nCh → 12 + payload.length ≤ 65535 →
        (fhFrameSize (12 + payload.length) : Int) ≤ s.space (txRing c) →
        (s.thread (.snd k) = ⟨acc, [.sendPark c chid payload]⟩
          ∨ s.thread (.snd k) = ⟨acc, [.sendLock c chid payload]⟩ ∧ (s.chan c).txlock = .free ∧ s.ready = true) →
        let q := s.chan c
        let w := s.cfg.stValid ||| (s.cfg.chan c).maskSend
        ∃ m, advanceAgent (longRun s (.snd k)) (.snd k) s = { s with
                mem := m
                chans := s.chans.set c { q with fseq := q.fseq + 1, cseq := q.cseq + 1, txlock := .free }
                mbxOut := w
                irqOutPending := true
                events := s.events ++ [.doorbellOut w, .response (some k) 2 .ok (.num payload.length)]
                snds := setSender s.snds k .idle
                ret := .nat payload.length }
          ∧ s.appended (txRing c) (frameImage s.cfg chid (q.cseq + 1) (q.fseq + 1) payload) m)

/-- A send that finds the link not ready halts the engine; one that finds a corrupt index takes the crash path; in
both the lock is free again, no sequence number is used, SHM is untouched and the response carries the code and 0
(R184, R189, R190; 60_exceptions.md R262, R264, R276). -/
def Obligations.SendErrors : Prop :=
  ∀ (s : State) (c : Nat) (chid : Byte) (payload : List Byte),
    s.sane → s.started = true → s.halted = false → c < s.cfg.nCh → 12 + payload.length ≤ 65535 →
    s.lstate = .online → (s.chan c).txlock = .free →
    (s.ready = false →
      exec (.chSend c chid payload) s = .next { s with
        errstat := s.errstat ||| 0x08
        halted := true
        lstate := .offline
        events := s.events ++ [.crashNotify .peerNotReady c, .response (some s.nextSnd) 2 .peerNotReady (.num 0)]
        nextSnd := s.nextSnd + 1
        ret := .unit })
    ∧ (s.ready = true → s.space (txRing c) = -1 →
      exec (.chSend c chid payload) s = .next { s with
        errstat := s.errstat ||| 0x01
        lstate := .offline
        events := s.events ++ [.crashNotify .ringCorruptTx c, .response (some s.nextSnd) 2 .ringCorrupt (.num 0)]
        nextSnd := s.nextSnd + 1
        ret := .unit })

/-- The refusals of the REQ port, test by test in their order; a refused request changes nothing and gives its code;
`LD.STATUS` is never refused (60_exceptions.md R267; 30_encoding.md R121). -/
def Obligations.RequestRefusals : Prop :=
  ∀ (s : State),
    let refused (op : BitVec 4) (code : RespCode) : Host.Outcome State Fault Refusal :=
      .next { s with events := s.events ++ [.response none op code (.num 0)] }
    (∀ r : Request, 4 ≤ r.op.toNat → runWord (.req r) s = refused r.op .badRequest)
    ∧ (∃ rec, exec .ldStatus s = .next { s with events := s.events ++ [.response none 0 .ok (.status rec)] })
    ∧ (s.halted = true → exec .ldStart s = refused 1 .halted)
    ∧ (s.halted = false → s.started = true → exec .ldStart s = refused 1 .badState)
    ∧ (s.started = false → exec .ldSave s = refused 3 .notStarted)
    ∧ (s.started = true → s.halted = true → exec .ldSave s = refused 3 .halted)
    ∧ (s.started = true → s.halted = false → s.lstate ≠ .online → exec .ldSave s = refused 3 .badState)
    ∧ (∀ (c : Nat) (chid : Byte) (payload : List Byte),
        let e := exec (.chSend c chid payload) s
        (s.started = false → e = refused 2 .notStarted)
        ∧ (s.started = true → s.halted = true → e = refused 2 .halted)
        ∧ (s.started = true → s.halted = false →
            (s.cfg.nCh ≤ c → e = refused 2 .badChannel)
            ∧ (c < s.cfg.nCh → 65535 < 12 + payload.length → e = refused 2 .tooLong)
            ∧ (c < s.cfg.nCh → 12 + payload.length ≤ 65535 → s.lstate ≠ .online → e = refused 2 .linkDown)))

/-- Where a drain pass stops without consuming: a corrupt index raises `RingCorrupt`; an empty ring is no work; a
short remainder, a bad magic, a bad length or a frame larger than what is available set their flag. In every case SHM
is unchanged, so `RXT[c]` is bit-identical, and the count is 0 (R191 to R193; 60_exceptions.md R262, R263, R272). -/
def Obligations.DrainStopsClean : Prop :=
  ∀ (s : State) (c : Nat), s.cfg.wf = true → c < s.cfg.nCh → s.free .lw = true →
    let a := s.avail (rxRing c)
    let stop (flag : BitVec 8) : Host.Outcome State Fault Refusal :=
      .next (({ s with errstat := s.errstat ||| flag } : State).done .lw (.nat 0))
    (a = -1 →
      exec (.chRecvPending c) s = .next (({ s with
        errstat := s.errstat ||| 0x01
        lstate := s.lstate.crashed
        events := s.events ++ [.crashNotify .ringCorruptRx c] } : State).done .lw (.nat 0)))
    ∧ (a = 0 → exec (.chRecvPending c) s = .next (s.done .lw (.nat 0)))
    ∧ (0 < a → a < 12 → exec (.chRecvPending c) s = stop 0x04)
    ∧ (12 ≤ a → s.rxHeader c = .badMagic → exec (.chRecvPending c) s = stop 0x02)
    ∧ (12 ≤ a → s.rxHeader c = .badLength → exec (.chRecvPending c) s = stop 0x04)
    ∧ (∀ d, 12 ≤ a → s.rxHeader c = .ok d → a < (fhFrameSize d.totalLen.toNat : Int) →
        exec (.chRecvPending c) s = stop 0x04)

/-- A drain pass over a good frame: if nothing is left after it, the pass ends there with one frame pushed; otherwise
the pass is `FRAME.RX` followed by the pass over the rest: where that ends, the pass ends there with one more counted;
where it holds at a full `RXQ`, the pass holds there with one more counted so far (R191, R192 (a), (d), (e), (f)). That
`FRAME.RX` run on its own is one turn of the pass is the model's choice (log 3). -/
def Obligations.DrainTakesFrames : Prop :=
  ∀ (s : State) (c : Nat) (d : Header), s.sane → c < s.cfg.nCh → s.free .lw = true →
    12 ≤ s.avail (rxRing c) → s.rxHeader c = .ok d →
    (fhFrameSize d.totalLen.toNat : Int) ≤ s.avail (rxRing c) → s.rxq.length < s.cfg.rxqDepth →
    let r := rxRing c
    let fs := fhFrameSize d.totalLen.toNat
    (s.avail r = (fs : Int) →
      ∃ m, exec (.chRecvPending c) s = .next (({ s with
              mem := m
              rxq := s.rxq ++ [⟨d.channelId,
                ((s.ringBytes r (s.tail r).toNat fs).take d.totalLen.toNat).drop 12⟩] } : State).done .lw (.nat 1))
        ∧ (memRead32 m (offRxt c)).toNat = ((s.tail r).toNat + fs) % (s.cfg.chan c).capRx
        ∧ (∀ a, ¬ inWord (offRxt c) a → memRead m a = memRead s.mem a))
    ∧ (∃ s1 s2, exec (.frameRx c d) s = .next s1 ∧ exec (.chRecvPending c) s1 = .next s2
        ∧ (s2.lw.todo = [] →
            ∃ n, s2.ret = .nat n ∧ exec (.chRecvPending c) s = .next { s2 with ret := .nat (n + 1) })
        ∧ (s2.lw.todo ≠ [] → ∃ d' m n,
            s2.lw = ⟨.unit, [.recvHold, .rqRead r (fhFrameSize d'.totalLen.toNat), .recvPush d', .recvLoop c m n]⟩
            ∧ s2.cfg.rxqDepth ≤ s2.rxq.length ∧ s2.rxHeader c = .ok d'
            ∧ s2.avail r = ((fhFrameSize d'.totalLen.toNat + m : Nat) : Int)
            ∧ exec (.chRecvPending c) s = .next { s2 with
                ret := s.ret
                lw := ⟨.unit, [.recvHold, .rqRead r (fhFrameSize d'.totalLen.toNat), .recvPush d',
                  .recvLoop c m (n + 1)]⟩ }))

/-- A drain pass ends or holds at a full `RXQ`: with the queue full in front of a good frame it consumes nothing and
waits; whatever the rings hold it leaves the worker idle or the queue full; and after one `DW.STEP` the waiting pass
consumes its frame, pushes it and is at its next turn, with what is left to do (R192 (d), R232; 60_exceptions.md R274;
44_dispatch.md R251). -/
def Obligations.DrainEndsOrHolds : Prop :=
  ∀ (s : State) (c : Nat), s.sane → c < s.cfg.nCh →
    let r := rxRing c
    (s.free .lw = true →
      (∀ d, 12 ≤ s.avail r → s.rxHeader c = .ok d → (fhFrameSize d.totalLen.toNat : Int) ≤ s.avail r →
        s.cfg.rxqDepth ≤ s.rxq.length →
        exec (.chRecvPending c) s = .next { s with
          lw := ⟨.unit, [.recvHold, .rqRead r (fhFrameSize d.totalLen.toNat), .recvPush d,
            .recvLoop c ((s.avail r).toNat - fhFrameSize d.totalLen.toNat) 1]⟩ })
      ∧ (∃ t, exec (.chRecvPending c) s = .next t ∧ (t.lw.todo = [] ∨ t.cfg.rxqDepth ≤ t.rxq.length)))
    ∧ (∀ (d : Header) (acc : Value) (m n : Nat) (f : Frame) (q : List Frame),
        let fs := fhFrameSize d.totalLen.toNat
        agentLive s .lw = true → s.lw = ⟨acc, [.recvHold, .rqRead r fs, .recvPush d, .recvLoop c m n]⟩ →
        s.rxq = f :: q → s.rxq.length = s.cfg.rxqDepth → (fs : Int) ≤ s.avail r →
        ∃ s1 lines mem, exec .dwStep s = .next s1 ∧ s1.lw = s.lw ∧ s1.rxq = q ∧ lines ≤ fs + 5
          ∧ advanceAgent lines .lw s1 = { s1 with
              mem := mem
              rxq := q ++ [⟨d.channelId, ((s.ringBytes r (s.tail r).toNat fs).take d.totalLen.toNat).drop 12⟩]
              lw := ⟨.unit, [.recvLoop c m n]⟩ }
          ∧ (memRead32 mem (offRxt c)).toNat = ((s.tail r).toNat + fs) % (s.cfg.chan c).capRx
          ∧ (∀ a, ¬ inWord (offRxt c) a → memRead mem a = memRead s.mem a))

/-- `CH.ACK_REQ` answers an observed request-ack bit with the response-ack doorbell and decrements the counter, and
does nothing otherwise; `CH.RES_ACK` changes nothing (R194, R195). -/
def Obligations.Handshake : Prop :=
  ∀ (s : State) (c : Nat) (w : Half), s.sane → c < s.cfg.nCh → s.free .lw = true →
    (w &&& (s.cfg.chan c).maskReqAck = 0 → exec (.chAckReq c w) s = .next (s.done .lw .unit))
    ∧ (w &&& (s.cfg.chan c).maskReqAck ≠ 0 →
      exec (.chAckReq c w) s = .next (({ s with
        mbxOut := s.cfg.stValid ||| (s.cfg.chan c).maskResAck
        irqOutPending := true
        events := s.events ++ [.doorbellOut (s.cfg.stValid ||| (s.cfg.chan c).maskResAck)]
        chans := s.chans.set c { s.chan c with pendingAck := (s.chan c).pendingAck - 1 } } : State).done .lw .unit))
    ∧ exec (.chResAck c w) s = .next (s.done .lw .unit)

/-- The three words the engine sends: `DB.SEND`, `DB.RES_ACK` and `CMD.INIT_END` set `MBX_OUT` and the peer's pending
bit and are recorded; nothing else changes (30_encoding.md R114; 42_channel.md R188, R194; 43_link_device.md R221;
60_exceptions.md R282). That `DB.SEND` on its own is run by `call`, which takes no lock, and the other two by the link
worker, is the model's choice (log 3). -/
def Obligations.SentDoorbells : Prop :=
  ∀ (s : State),
    let sent (a : Agent) (w : Half) : Host.Outcome State Fault Refusal :=
      .next (({ s with mbxOut := w, irqOutPending := true, events := s.events ++ [.doorbellOut w] } : State).done a
        .unit)
    (∀ c, c < s.cfg.nCh → s.free .call = true →
      exec (.dbSend c) s = sent .call (s.cfg.stValid ||| (s.cfg.chan c).maskSend))
    ∧ (∀ c, c < s.cfg.nCh → s.free .lw = true →
      exec (.dbResAck c) s = sent .lw (s.cfg.stValid ||| (s.cfg.chan c).maskResAck))
    ∧ (s.free .lw = true →
      exec .cmdInitEnd s = sent .lw (s.cfg.stValid ||| s.cfg.stCmd ||| s.cfg.codeInitEnd))

/-! ## The link (43_link_device.md) -/

/-- `LD.START` in an engine neither started nor halted: `magic` is `IPC_MAGIC`, `access` 1, every other byte of the
region 0, `started` 1, response `OK`; nothing else changes (R211). -/
def Obligations.StartInitialises : Prop :=
  ∀ (s : State), s.sane → s.started = false → s.halted = false → s.host.todo = [] →
    ∃ m, exec .ldStart s = .next { s with
            mem := m
            started := true
            events := s.events ++ [.response none 1 .ok (.num 0)]
            host := .idle
            ret := .unit }
      ∧ memWf m = true
      ∧ memRead32 m 0 = s.cfg.ipcMagic ∧ memRead32 m 4 = 1
      ∧ (∀ a, 8 ≤ a → a < s.cfg.shmSize → memRead m a = 0)
      ∧ (∀ a, s.cfg.shmSize ≤ a → memRead m a = memRead s.mem a)

/-- `LD.SAVE` while `ONLINE`: `lstate` is `NV_SAVE`, `magic` is `SAVE_MAGIC`, `access` 1, every other byte of the
region 0, response `OK`; every other register is unchanged (R226; 10_state.md R51). -/
def Obligations.SaveRetags : Prop :=
  ∀ (s : State), s.sane → s.started = true → s.halted = false → s.lstate = .online → s.host.todo = [] →
    ∃ m, exec .ldSave s = .next { s with
            mem := m
            lstate := .nvSave
            events := s.events ++ [.response none 3 .ok (.num 0)]
            host := .idle
            ret := .unit }
      ∧ memWf m = true
      ∧ memRead32 m 0 = s.cfg.saveMagic ∧ memRead32 m 4 = 1
      ∧ (∀ a, 8 ≤ a → a < s.cfg.shmSize → memRead m a = 0)
      ∧ (∀ a, s.cfg.shmSize ≤ a → memRead m a = memRead s.mem a)

/-- `LD.STATUS` answers a snapshot of the private registers and changes nothing, in every state (R228). -/
def Obligations.StatusSnapshot : Prop :=
  ∀ (s : State), ∃ rec : StatusRecord,
    exec .ldStatus s = .next { s with events := s.events ++ [.response none 0 .ok (.status rec)] }
    ∧ (s.lstate = .offline → rec.lstate = 0) ∧ (s.lstate = .online → rec.lstate = 1)
    ∧ (s.lstate = .nvSave → rec.lstate = 2)
    ∧ rec.started = s.started ∧ rec.halted = s.halted ∧ rec.errstat = s.errstat
    ∧ rec.wqLen = s.wq.length ∧ rec.rxqLen = s.rxq.length ∧ rec.chans.length = s.chans.length
    ∧ (∀ (c : Nat) (h : c < s.chans.length), ∃ st : ChanStatus, rec.chans[c]? = some st
        ∧ st.fseq = s.chans[c].fseq ∧ st.cseq = s.chans[c].cseq ∧ st.pendingAck = s.chans[c].pendingAck
        ∧ (st.locked = true ↔ s.chans[c].txlock ≠ .free))

/-- `LD.ON_DOORBELL` clears the pending bit and queues the status word, or drops it and sets flag 4 on a full queue;
with no doorbell pending there is no step (R212, R213; 60_exceptions.md R268). -/
def Obligations.InterruptService : Prop :=
  ∀ (s : State), s.free .isr = true →
    (s.irqInPending = true → s.wq.length < s.cfg.wqDepth →
      exec .ldOnDoorbell s
        = .next (({ s with irqInPending := false, wq := s.wq ++ [s.mbxIn] } : State).done .isr .unit))
    ∧ (s.irqInPending = true → s.cfg.wqDepth ≤ s.wq.length →
      exec .ldOnDoorbell s
        = .next (({ s with irqInPending := false, errstat := s.errstat ||| 0x10 } : State).done .isr .unit))
    ∧ (s.irqInPending = false → exec .ldOnDoorbell s = .next s)

/-- `LD.WORK` pops the oldest word and runs the operation that word encodes, to its end or its hold; with `WQ` empty
there is no step (R216, R219). -/
def Obligations.WorkRunsItsWord : Prop :=
  ∀ (s : State), s.sane → s.free .lw = true →
    (s.wq = [] → exec .ldWork s = .next s)
    ∧ (∀ w q, s.wq = w :: q →
        ∃ i t, decode s.cfg (.mbxIn w) = .instr i ∧ exec i { s with wq := q } = .next t ∧ exec .ldWork s = .next t)

/-- `LD.CHECK_READY` answers whether `magic` is `IPC_MAGIC` and `access` is 1, and changes nothing (R214). -/
def Obligations.ReadinessCheck : Prop :=
  ∀ (s : State), s.free .call = true →
    ∃ b : Bool, exec .ldCheckReady s = .next (s.done .call (.bool b))
      ∧ (b = true ↔ memRead32 s.mem 0 = s.cfg.ipcMagic ∧ memRead32 s.mem 4 = 1)

/-- `LD.CRASH` notifies with its cause and channel and takes the link `OFFLINE` unless it is in `NV_SAVE`; nothing
else changes (60_exceptions.md R266). That the operation run on its own has a caller is the model's choice (log 3). -/
def Obligations.CrashPathActs : Prop :=
  ∀ (s : State) (cause : CrashCause) (c : Nat), c < s.cfg.nCh → s.free .call = true →
    exec (.ldCrash cause c) s = .next (({ s with
      lstate := if s.lstate = .nvSave then .nvSave else .offline
      events := s.events ++ [.crashNotify cause c] } : State).done .call .unit)

/-- Words that are dropped: an invalid word and any other command always (R217, R223); every word while the link is in
`NV_SAVE`, by the first lines of the three operations that act (R218 N1, R220, R222; R227, which the spec derives from
them). Nothing changes. -/
def Obligations.WordsDropped : Prop :=
  ∀ (s : State) (w : Half), s.free .lw = true →
    exec (.dbInvalid w) s = .next (s.done .lw .unit)
    ∧ exec (.cmdOther w) s = .next (s.done .lw .unit)
    ∧ (s.lstate = .nvSave → exec .cmdPhoneStart s = .next (s.done .lw .unit)
        ∧ exec .cmdCrashExit s = .next (s.done .lw .unit)
        ∧ exec (.dbNoncmd w) s = .next (s.done .lw .unit))

/-- The gates of a doorbell-mask word: not `ONLINE`, it is ignored; `ONLINE` and not ready, it raises `PeerNotReady(0)`,
halts the engine and visits no channel (R218 N1, N2; 60_exceptions.md R264). -/
def Obligations.NoncmdGates : Prop :=
  ∀ (s : State) (w : Half), s.free .lw = true →
    (s.lstate ≠ .online → exec (.dbNoncmd w) s = .next (s.done .lw .unit))
    ∧ (s.lstate = .online → s.ready = false →
      exec (.dbNoncmd w) s = .next (({ s with
        errstat := s.errstat ||| 0x08
        halted := true
        lstate := .offline
        events := s.events ++ [.crashNotify .peerNotReady 0] } : State).done .lw .unit))

/-- A doorbell-mask word, `ONLINE` and ready, visits every channel in index order, whatever its mask bits: response-ack,
request-ack, drain pass, and goes on past errors; where no pass holds it is those operations one after the other; with
every RX ring empty it completes (R218 N3 to N5). -/
def Obligations.NoncmdVisitsChannels : Prop :=
  ∀ (s : State) (w : Half), s.sane → s.free .lw = true → s.lstate = .online → s.ready = true →
    (∃ t, visitChannels w (List.range s.cfg.nCh) s = .next t
      ∧ (t.lw.todo = [] → exec (.dbNoncmd w) s = .next t))
    ∧ ((∀ c, c < s.cfg.nCh → s.avail (rxRing c) = 0) →
      ∃ t, exec (.dbNoncmd w) s = .next t ∧ t.lw.todo = [] ∧ t.mem = s.mem ∧ t.rxq = s.rxq
        ∧ t.errstat = s.errstat ∧ t.lstate = .online)

/-- `CMD.PHONE_START` outside `NV_SAVE`: every index word of every channel is 0, the link is `ONLINE`, one `INIT_END`
doorbell went out; nothing else changes (R220, R221, R231). -/
def Obligations.PhoneStartBringsUp : Prop :=
  ∀ (s : State), s.sane → s.free .lw = true → s.lstate ≠ .nvSave →
    let w := s.cfg.stValid ||| s.cfg.stCmd ||| s.cfg.codeInitEnd
    ∃ m, exec .cmdPhoneStart s = .next (({ s with
            mem := m
            lstate := .online
            mbxOut := w
            irqOutPending := true
            events := s.events ++ [.doorbellOut w] } : State).done .lw .unit)
      ∧ memWf m = true
      ∧ (∀ c, c < s.cfg.nCh → memRead32 m (offTxh c) = 0 ∧ memRead32 m (offTxt c) = 0
          ∧ memRead32 m (offRxh c) = 0 ∧ memRead32 m (offRxt c) = 0)
      ∧ (∀ a, a < offTxh 0 ∨ s.cfg.offRsvd ≤ a → memRead m a = memRead s.mem a)

/-- `CMD.CRASH_EXIT`: in `NV_SAVE` nothing; otherwise, `ONLINE` or `OFFLINE`, flag 6 and the crash path with
`CAUSE_CRASH_CMD` and channel 0; nothing else changes (R222). -/
def Obligations.CrashExitTakesDown : Prop :=
  ∀ (s : State), s.free .lw = true →
    (s.lstate = .nvSave → exec .cmdCrashExit s = .next (s.done .lw .unit))
    ∧ (s.lstate ≠ .nvSave →
      exec .cmdCrashExit s = .next (({ s with
        errstat := s.errstat ||| 0x40
        lstate := .offline
        events := s.events ++ [.crashNotify .crashCmd 0] } : State).done .lw .unit))

/-! ## The dispatch worker (44_dispatch.md) -/

/-- `DW.STEP` pops the oldest frame and delivers it to the sink of its channel id, or discards it and sets flag 5;
it does so whatever `started`, `halted` and `lstate` are, and touches nothing else (R250, R251, R252, R254). -/
def Obligations.DispatchDelivers : Prop :=
  ∀ (s : State),
    (s.rxq = [] → exec .dwStep s = .next s)
    ∧ (∀ f q, s.rxq = f :: q →
        (f.chid ∈ s.cfg.sinks →
          exec .dwStep s = .next { s with rxq := q, events := s.events ++ [.deliver f.chid f.payload] })
        ∧ (f.chid ∉ s.cfg.sinks → exec .dwStep s = .next { s with rxq := q, errstat := s.errstat ||| 0x20 }))

/-! ## Reset, the step, the environment -/

/-- Hardware reset puts every private register at its reset value, ends every operation without a response, and
touches neither SHM nor the mailbox (70_reset_and_hazards.md R300, R301; 10_state.md R50). -/
def Obligations.HardwareReset : Prop :=
  ∀ (s : State) (rest : List Choice), s.placed = none → s.sched = .reset :: rest →
    ∃ t, step s = .next t
      ∧ t.lstate = .offline ∧ t.started = false ∧ t.halted = false ∧ t.errstat = 0
      ∧ t.chans.length = s.cfg.nCh
      ∧ (∀ c, (t.chan c).fseq = 0 ∧ (t.chan c).cseq = 0 ∧ (t.chan c).pendingAck = 0 ∧ (t.chan c).txlock = .free)
      ∧ t.wq = [] ∧ t.rxq = [] ∧ (∀ a, t.thread a = .idle) ∧ t.snds = []
      ∧ t.mem = s.mem ∧ t.mbxIn = s.mbxIn ∧ t.mbxOut = s.mbxOut ∧ t.irqInPending = s.irqInPending
      ∧ t.irqOutPending = s.irqOutPending ∧ t.cfg = s.cfg ∧ t.events = s.events

/-- The state after reset: the values of 10_state.md R50 for the private registers; and, by the model's choice (logs 2
and 4), REF as the configuration, nothing listed in SHM, the mailbox at 0. -/
def Obligations.StateAfterReset : Prop :=
  State.reset.lstate = .offline ∧ State.reset.started = false ∧ State.reset.halted = false
  ∧ State.reset.errstat = 0 ∧ State.reset.wq = [] ∧ State.reset.rxq = []
  ∧ State.reset.chans = [ChanRegs.reset, ChanRegs.reset]
  ∧ State.reset.cfg = Cfg.ref ∧ (∀ a, State.reset.load8 a = 0)
  ∧ State.reset.mbxIn = 0 ∧ State.reset.mbxOut = 0 ∧ State.reset.irqInPending = false

/-- The state after reset meets every invariant stated below. That its index words are valid rests on what the model
chose an SHM byte nothing has written to read as (log 4), and its configuration is REF by choice (log 2). -/
def Obligations.ResetMeetsInvariants : Prop :=
  State.reset.sane ∧ State.reset.owned ∧ State.reset.locksOk ∧ State.reset.queuesOk ∧ State.reset.preStart
  ∧ State.reset.memInside ∧ State.reset.indicesValid

/-- A step runs what is due: a placed pattern that decodes to `i` is `exec i`, and so is a request, each taken off first;
an agent told to run an operation runs its own, the idle interrupt context `LD.ON_DOORBELL`, the idle link worker
`LD.WORK`, the dispatch worker `DW.STEP`, any other what it is in the middle of; an agent given the move runs one line, or
runs until it has no step; a request submitted is tested and begun; a step of `PEER` is that step, hardware reset that
reset; with nothing placed and no choice left nobody moves (the model's own form of a step, log 1). -/
def Obligations.StepRunsTheOperation : Prop :=
  ∀ (s : State) (rest : List Choice),
    (∀ f i, s.placed = some f → decode s.cfg f = .instr i → step s = exec i { s with placed := none })
    ∧ (s.placed = none →
      (∀ r i, s.sched = .request r :: rest → decode s.cfg (.req r) = .instr i →
        step s = exec i { s with sched := rest })
      ∧ (s.sched = .op .isr :: rest → s.isr.todo = [] → step s = exec .ldOnDoorbell { s with sched := rest })
      ∧ (s.sched = .op .lw :: rest → s.lw.todo = [] → step s = exec .ldWork { s with sched := rest })
      ∧ (s.sched = .op .dw :: rest → step s = exec .dwStep { s with sched := rest })
      ∧ (∀ a, s.sched = .op a :: rest → a ≠ .dw → (s.thread a).todo ≠ [] →
        step s = .next (advanceAgent (longRun s a) a { s with sched := rest }))
      ∧ (∀ a, s.sched = .line a :: rest → step s = .next (advanceAgent 1 a { s with sched := rest }))
      ∧ (∀ a, s.sched = .run a :: rest →
        step s = .next (runAgent (s.wq.length + s.rxq.length + 1) a { s with sched := rest }))
      ∧ (∀ r, s.sched = .submit r :: rest → step s = .next (submitRequest r { s with sched := rest }))
      ∧ (∀ p, s.sched = .peer p :: rest → step s = peerStep p { s with sched := rest })
      ∧ (s.sched = .reset :: rest → step s = .next (hwReset { s with sched := rest }))
      ∧ (s.sched = [] → step s = .next s))

/-- The steps of `PEER`: a byte or aligned word of the region is read, its value seen and nothing changed, or written
and nothing else is; `MBX_IN` is set; the pending bit is set and stays set; `MBX_OUT` is seen and the peer's own
pending bit taken (60_exceptions.md R286 E1 to E5; 20_memory.md R64, R65). That each of them is recorded in `events`, with
what it saw, is the model's choice (log 6); that an offset outside the region faults and a misaligned word access is
refused is its reading (log 12). -/
def Obligations.PeerSteps : Prop :=
  ∀ (s : State) (off : Nat) (b : Byte) (v : Word) (w : Half), s.sane →
    (off < s.cfg.shmSize →
      (∃ m, peerStep (.write8 off b) s
            = .next { s with mem := m, events := s.events ++ [.peerDid (.write8 off b)] }
          ∧ memRead m off = b ∧ ∀ a, a ≠ off → memRead m a = memRead s.mem a)
      ∧ peerStep (.read8 off) s
          = .next { s with events := s.events ++ [.peerRead off 1 ((memRead s.mem off).setWidth 32)] })
    ∧ (off + 4 ≤ s.cfg.shmSize → off % 4 = 0 →
      (∃ m, peerStep (.write32 off v) s
            = .next { s with mem := m, events := s.events ++ [.peerDid (.write32 off v)] }
          ∧ memRead32 m off = v ∧ ∀ a, ¬ inWord off a → memRead m a = memRead s.mem a)
      ∧ peerStep (.read32 off) s
          = .next { s with events := s.events ++ [.peerRead off 4 (memRead32 s.mem off)] })
    ∧ (s.cfg.shmSize ≤ off → peerStep (.write8 off b) s = .fault (.outsideShm off)
        ∧ peerStep (.read8 off) s = .fault (.outsideShm off))
    ∧ (s.cfg.shmSize < off + 4 → off % 4 = 0 → peerStep (.write32 off v) s = .fault (.outsideShm off)
        ∧ peerStep (.read32 off) s = .fault (.outsideShm off))
    ∧ (off % 4 ≠ 0 → peerStep (.write32 off v) s = .refused .notAPeerStep
        ∧ peerStep (.read32 off) s = .refused .notAPeerStep)
    ∧ peerStep (.setStatus w) s
        = .next { s with mbxIn := w, events := s.events ++ [.peerDid (.setStatus w)] }
    ∧ peerStep .raiseIrq s
        = .next { s with irqInPending := true, events := s.events ++ [.peerDid .raiseIrq] }
    ∧ peerStep .takeDoorbell s
        = .next { s with irqOutPending := false, events := s.events ++ [.peerTook s.irqOutPending s.mbxOut] }

/-- While `halted = 1` no agent but `DW` has a step, at whatever line it is, and no operation that needs its agent
begins: it waits, or names what the engine has not got (10_state.md R33; 60_exceptions.md R264, R274). -/
def Obligations.HaltFreezes : Prop :=
  ∀ (s : State), s.halted = true →
    (∀ (a : Agent) (n : Nat), a ≠ .dw → advanceAgent n a s = s ∧ runAgent n a s = s)
    ∧ (∀ i, needsLiveAgent i = true → exec i s = .next s ∨ ∃ r, exec i s = .refused r)
    ∧ exec .ldOnDoorbell s = .next s ∧ exec .ldWork s = .next s ∧ exec .cmdPhoneStart s = .next s
    ∧ (∀ w, exec (.dbNoncmd w) s = .next s)

/-- While `started = 0` no agent but `HOST` and `DW` has a step, and no operation that needs its agent begins; a
doorbell stays pending (10_state.md R32; 70_reset_and_hazards.md R302). -/
def Obligations.IdleBeforeStart : Prop :=
  ∀ (s : State), s.started = false →
    (∀ (a : Agent) (n : Nat), a ≠ .dw → a ≠ .host → advanceAgent n a s = s ∧ runAgent n a s = s)
    ∧ (∀ i, needsLiveAgent i = true → exec i s = .next s ∨ ∃ r, exec i s = .refused r)
    ∧ exec .ldOnDoorbell s = .next s ∧ exec .ldWork s = .next s ∧ exec .cmdPhoneStart s = .next s

/-- Running an agent for several lines is running it one line at a time (00_scope.md R11): after the first line, either
the operation has ended there, or the rest is the run from where it stands. What one line is, is the model's choice
where R11 leaves it open (log 10). That senders have numbers of their own is part of the discipline of the locks
below. -/
def Obligations.RunsLineByLine : Prop :=
  ∀ (s : State) (a : Agent) (n : Nat), a ≠ .dw → (s.snds.map Prod.fst).Nodup → (s.thread a).todo ≠ [] →
    (((advanceAgent 1 a s).thread a).todo = [] → advanceAgent (n + 1) a s = advanceAgent 1 a s)
    ∧ (((advanceAgent 1 a s).thread a).todo ≠ [] →
        advanceAgent (n + 1) a s = advanceAgent n a (advanceAgent 1 a s))

/-! ## Invariants of every step -/

/-- Every step keeps the plain facts: the configuration well-formed and unchanged, SHM in canonical form, registers for
every channel, sender numbers below the next one. -/
def Obligations.PlainFactsKept : Prop :=
  ∀ s t : State, s.sane → step s = .next t → t.sane ∧ t.cfg = s.cfg

/-- Every step keeps the rights: each agent only ever comes to lines of its own column of 60_exceptions.md R270, with
operands inside it, and no step lets anything but the agents, the four requests, `PEER` and hardware reset act. -/
def Obligations.RightsKept : Prop :=
  ∀ s t : State, s.owned → step s = .next t → t.owned

/-- What the rights bound (60_exceptions.md R270; 43_link_device.md R213; 44_dispatch.md R254): however long an agent
runs, it changes nothing outside its column of the table and puts out nothing of another's. The interrupt context pushes
to `WQ` and clears the pending bit; the dispatch worker pops `RXQ`; a sender changes no `pending_ack`, and in a phase of
channel `c` no register of another channel and no byte outside `TXBUF[c]` and `TXH[c]`; the link worker pops `WQ`, pushes
to `RXQ`, and changes no sequence number and no lock. R270 has `lstate` in the column of `HOST` for V1 of `LD.SAVE`: that no
line of `HOST` writes it here, V1 being one step with the admission, is the model's reading (log 9). -/
def Obligations.AgentsStayInColumn : Prop :=
  ∀ (s : State) (n : Nat), s.owned → memWf s.mem = true →
    (∀ t, t = advanceAgent n .isr s →
      t = { s with irqInPending := t.irqInPending, wq := t.wq, errstat := t.errstat, isr := t.isr, ret := t.ret }
      ∧ t.errstat &&& 0xEF = s.errstat &&& 0xEF
      ∧ s.wq <+: t.wq ∧ (t.irqInPending = true → s.irqInPending = true))
    ∧ (∀ t, t = advanceAgent n .dw s →
      t = { s with rxq := t.rxq, errstat := t.errstat, events := t.events }
      ∧ t.errstat &&& 0xDF = s.errstat &&& 0xDF
      ∧ t.rxq <:+ s.rxq ∧ outputsOk .dw s t)
    ∧ (∀ t k, t = advanceAgent n (.snd k) s →
      t = { s with mem := t.mem, lstate := t.lstate, halted := t.halted, errstat := t.errstat, chans := t.chans,
                   mbxOut := t.mbxOut, irqOutPending := t.irqOutPending, snds := t.snds, ret := t.ret,
                   events := t.events }
      ∧ t.errstat &&& 0xF6 = s.errstat &&& 0xF6
      ∧ outputsOk (.snd k) s t
      ∧ t.chans.length = s.chans.length ∧ (∀ c, (t.chan c).pendingAck = (s.chan c).pendingAck)
      ∧ (∀ a, ¬ txByte s.cfg a → (∀ c, c < s.cfg.nCh → ¬ inWord (offTxh c) a) → memRead t.mem a = memRead s.mem a)
      ∧ (∀ c past, sendPhase s.cfg c past (s.thread (.snd k)).todo →
          (∀ c', c' ≠ c → t.chan c' = s.chan c')
          ∧ (∀ a, (a < s.cfg.baseTx c ∨ s.cfg.baseTx c + (s.cfg.chan c).capTx ≤ a) → ¬ inWord (offTxh c) a →
              memRead t.mem a = memRead s.mem a)))
    ∧ (∀ t, t = advanceAgent n .lw s →
      t = { s with mem := t.mem, lstate := t.lstate, halted := t.halted, errstat := t.errstat, chans := t.chans,
                   wq := t.wq, rxq := t.rxq, mbxOut := t.mbxOut, irqOutPending := t.irqOutPending, lw := t.lw,
                   ret := t.ret, events := t.events }
      ∧ t.errstat &&& 0xB0 = s.errstat &&& 0xB0
      ∧ t.wq <:+ s.wq ∧ s.rxq <+: t.rxq ∧ outputsOk .lw s t
      ∧ t.chans.length = s.chans.length
      ∧ (∀ c, (t.chan c).fseq = (s.chan c).fseq ∧ (t.chan c).cseq = (s.chan c).cseq
          ∧ (t.chan c).txlock = (s.chan c).txlock)
      ∧ (∀ a, a < offTxh 0 ∨ s.cfg.offRsvd ≤ a → memRead t.mem a = memRead s.mem a))
    ∧ (∀ t, t = advanceAgent n .host s →
      t = { s with mem := t.mem, started := t.started, host := t.host, ret := t.ret, events := t.events }
      ∧ (s.started = true → t.started = true) ∧ outputsOk .host s t)

/-- Every step keeps the discipline of the transmit locks: at most one sender is between L1 and its release on a
channel, the lock is `HELD(k)` exactly while it is sender `k`, and only there does a sender have a store to `TXH[c]` or
`TXBUF[c]` to run (10_state.md R28; 60_exceptions.md R278). -/
def Obligations.LocksKept : Prop :=
  ∀ s t : State, s.owned → s.locksOk → step s = .next t → t.locksOk

/-- Every step keeps both queues within their depth (10_state.md R40, R41): no push finds its queue full. -/
def Obligations.QueuesKept : Prop :=
  ∀ s t : State, s.owned → s.queuesOk → step s = .next t → t.queuesOk

/-- Until it is started the engine stays as reset left it, so that `started = 0` implies `OFFLINE` and `halted = 1`
implies `started = 1` (70_reset_and_hazards.md R302; 60_exceptions.md R267; 43_link_device.md R230). -/
def Obligations.NothingBeforeStart : Prop :=
  ∀ s t : State, s.owned → s.preStart → step s = .next t → t.preStart ∧ (t.halted = true → t.started = true)

/-- No step stores outside the region, and with a disciplined peer every step keeps every index word valid: the engine's
own stores never corrupt one (20_memory.md R74; 10_state.md R22). The disciplined peer is R286's `PEER_OK` as log 8
reads it, one step at a time, by what `PEER` has read and done so far. -/
def Obligations.RegionRespected : Prop :=
  ∀ s t : State, s.owned → s.sane → step s = .next t →
    (s.memInside → t.memInside) ∧ (nextPeerOk s → s.indicesValid → t.indicesValid)

/-- `NV_SAVE` is left by hardware reset only, and entered only from `ONLINE` in a running engine. While the link is in it,
with every agent at lines of its own column and no sender past A5 to move, which no save stops, nothing rings but the
response-acks of a `DB.NONCMD` that the save found past N1; once none of those is due, and so for every word popped in
`NV_SAVE`, no doorbell is sent, and none comes to be due (43_link_device.md R218, R227, R230; 70_reset_and_hazards.md R322,
R324). It rests on readings of the model (log 9): `CMD.PHONE_START` tests for `NV_SAVE` again where it sets `ONLINE` and where
it rings, `LD.SAVE` enters `NV_SAVE` at the instant its tests pass, and R227's 'no doorbell is ever sent' does not stop a
`DB.NONCMD` under way. -/
def Obligations.NvSaveTerminal : Prop :=
  ∀ s t : State, step s = .next t →
    (s.lstate = .nvSave → (s.placed ≠ none ∨ s.sched.head? ≠ some .reset) → t.lstate = .nvSave)
    ∧ (t.lstate = .nvSave → s.lstate ≠ .nvSave → s.lstate = .online ∧ s.started = true ∧ s.halted = false)
    ∧ (s.lstate = .nvSave → s.owned →
      (∀ ch a, s.sched.head? = some ch → ch.mover = some a → a.sends = false) →
      ∃ es, t.events = s.events ++ es
        ∧ (∀ w, Event.doorbellOut w ∈ es → ∃ c, c < s.cfg.nCh ∧ w = resAckWord s.cfg c)
        ∧ (s.noAnswerDue →
          (∀ w, Event.doorbellOut w ∉ es) ∧ t.mbxOut = s.mbxOut
          ∧ (t.irqOutPending = true → s.irqOutPending = true) ∧ t.noAnswerDue))

/-- Flags are sticky: but for hardware reset no step clears a bit of `ERRSTAT`, `started` or `halted`; bit 7 of
`ERRSTAT` is never set (10_state.md R32, R33, R37). -/
def Obligations.FlagsSticky : Prop :=
  ∀ s t : State, step s = .next t →
    (s.placed ≠ none ∨ s.sched.head? ≠ some .reset →
      s.errstat &&& t.errstat = s.errstat ∧ (s.started = true → t.started = true)
      ∧ (s.halted = true → t.halted = true))
    ∧ (s.errstat.getLsbD 7 = false → t.errstat.getLsbD 7 = false)
end

