-- ==== Sys2Proof/Laws/Layout.lean ====
section
/-! SUPPORT. The consequences of the configuration's constraints (00_scope.md R8) and of the layout
(20_memory.md R70 to R72): capacities, order and disjointness of words and buffers, alignment. -/

namespace Sys2Proof

/-! ### The constraints of R8, one by one -/

/-- Everything `Cfg.wf` says. -/
theorem Cfg.wf_iff (cfg : Cfg) : cfg.wf = true ↔
    1 ≤ cfg.nCh ∧ (∀ k ∈ cfg.chans, capOk k.capTx = true ∧ capOk k.capRx = true) ∧ cfg.rsvdLen % 4 = 0
    ∧ cfg.saveMagic ≠ cfg.ipcMagic
    ∧ [cfg.codePhoneStart, cfg.codeInitEnd, cfg.codeCrashExit].Nodup
    ∧ (∀ k ∈ [cfg.codePhoneStart, cfg.codeInitEnd, cfg.codeCrashExit], k &&& cfg.stCodeMask = k)
    ∧ (∀ m ∈ cfg.masks, oneBit m = true) ∧ cfg.masks.Nodup
    ∧ (∀ m ∈ cfg.masks, m ≠ cfg.stValid ∧ m ≠ cfg.stCmd)
    ∧ oneBit cfg.stValid = true ∧ oneBit cfg.stCmd = true ∧ cfg.stValid ≠ cfg.stCmd
    ∧ cfg.stValid &&& cfg.stCodeMask = 0 ∧ cfg.stCmd &&& cfg.stCodeMask = 0
    ∧ 1 ≤ cfg.wqDepth ∧ 1 ≤ cfg.rxqDepth := by
  simp only [Cfg.wf, Bool.and_eq_true, decide_eq_true_eq, List.all_eq_true, beq_iff_eq, bne_iff_ne, ne_eq]
  tauto

theorem Cfg.chan_mem {cfg : Cfg} {c : Nat} (hc : c < cfg.nCh) : cfg.chan c ∈ cfg.chans := by
  rw [Cfg.chan, List.getD_eq_getElem _ _ hc]
  exact List.getElem_mem hc

theorem Cfg.nCh_pos {cfg : Cfg} (h : cfg.wf = true) : 1 ≤ cfg.nCh := ((Cfg.wf_iff cfg).1 h).1

theorem Cfg.wqDepth_pos {cfg : Cfg} (h : cfg.wf = true) : 1 ≤ cfg.wqDepth := by
  have := (Cfg.wf_iff cfg).1 h; tauto

theorem Cfg.rxqDepth_pos {cfg : Cfg} (h : cfg.wf = true) : 1 ≤ cfg.rxqDepth := by
  have := (Cfg.wf_iff cfg).1 h; tauto

theorem Cfg.saveMagic_ne {cfg : Cfg} (h : cfg.wf = true) : cfg.saveMagic ≠ cfg.ipcMagic := by
  have := (Cfg.wf_iff cfg).1 h; tauto

/-- What `capOk` says. -/
theorem capOk_iff (n : Nat) : capOk n = true ↔ n % 4 = 0 ∧ 16 ≤ n ∧ n < 2 ^ 31 := by
  simp [capOk, and_assoc]

theorem Cfg.capTx_ok {cfg : Cfg} (h : cfg.wf = true) {c : Nat} (hc : c < cfg.nCh) :
    (cfg.chan c).capTx % 4 = 0 ∧ 16 ≤ (cfg.chan c).capTx ∧ (cfg.chan c).capTx < 2 ^ 31 :=
  (capOk_iff _).1 (((Cfg.wf_iff cfg).1 h).2.1 _ (Cfg.chan_mem hc)).1

theorem Cfg.capRx_ok {cfg : Cfg} (h : cfg.wf = true) {c : Nat} (hc : c < cfg.nCh) :
    (cfg.chan c).capRx % 4 = 0 ∧ 16 ≤ (cfg.chan c).capRx ∧ (cfg.chan c).capRx < 2 ^ 31 :=
  (capOk_iff _).1 (((Cfg.wf_iff cfg).1 h).2.1 _ (Cfg.chan_mem hc)).2

/-- Every capacity is a multiple of 4, at least 16 and below 2^31. -/
theorem Cfg.capOf_ok {cfg : Cfg} (h : cfg.wf = true) {r : RingId} (hc : r.c < cfg.nCh) :
    cfg.capOf r % 4 = 0 ∧ 16 ≤ cfg.capOf r ∧ cfg.capOf r < 2 ^ 31 := by
  obtain ⟨d, c⟩ := r
  cases d
  · exact Cfg.capTx_ok h hc
  · exact Cfg.capRx_ok h hc

/-! ### The order of the buffers -/

@[simp] theorem bufBytes_nil : bufBytes [] = 0 := rfl

@[simp] theorem bufBytes_cons (k : ChanCfg) (ks : List ChanCfg) :
    bufBytes (k :: ks) = k.capTx + k.capRx + bufBytes ks := by simp [bufBytes]

theorem bufBytes_append (xs ys : List ChanCfg) : bufBytes (xs ++ ys) = bufBytes xs + bufBytes ys := by
  simp [bufBytes]

theorem Cfg.take_succ {cfg : Cfg} {c : Nat} (hc : c < cfg.nCh) :
    cfg.chans.take (c + 1) = cfg.chans.take c ++ [cfg.chan c] := by
  rw [List.take_succ_eq_append_getElem hc, Cfg.chan, List.getD_eq_getElem _ _ hc]

/-- The buffers of channel `c + 1` begin where those of channel `c` end. -/
theorem Cfg.baseTx_succ {cfg : Cfg} {c : Nat} (hc : c < cfg.nCh) :
    cfg.baseTx (c + 1) = cfg.baseRx c + (cfg.chan c).capRx := by
  simp only [Cfg.baseTx, Cfg.baseRx, Cfg.take_succ hc, bufBytes_append, bufBytes_cons, bufBytes_nil]
  omega

/-- The buffers of the last channel end where the region ends. -/
theorem Cfg.baseTx_nCh (cfg : Cfg) : cfg.baseTx cfg.nCh = cfg.shmSize := by
  simp [Cfg.baseTx, Cfg.shmSize, Cfg.nCh]

theorem Cfg.bufBase_le_baseTx (cfg : Cfg) (c : Nat) : cfg.bufBase ≤ cfg.baseTx c := Nat.le_add_right _ _

theorem Cfg.baseRx_eq (cfg : Cfg) (c : Nat) : cfg.baseRx c = cfg.baseTx c + (cfg.chan c).capTx := rfl

/-- Buffers lie in the order of their channels. -/
theorem Cfg.baseTx_le {cfg : Cfg} {c c' : Nat} (h : c < c') (h' : c' ≤ cfg.nCh) :
    cfg.baseRx c + (cfg.chan c).capRx ≤ cfg.baseTx c' := by
  induction c' with
  | zero => omega
  | succ n ih =>
    by_cases hn : c = n
    · subst hn
      rw [Cfg.baseTx_succ (by omega)]
    · have h1 := ih (by omega) (by omega)
      have h2 := Cfg.baseRx_eq cfg n
      rw [Cfg.baseTx_succ (by omega)]
      omega

/-- Every RX buffer ends inside the region. -/
theorem Cfg.baseRx_end {cfg : Cfg} {c : Nat} (hc : c < cfg.nCh) :
    cfg.baseRx c + (cfg.chan c).capRx ≤ cfg.shmSize := by
  have h := Cfg.baseTx_le hc (Nat.le_refl _)
  rwa [Cfg.baseTx_nCh] at h

theorem Cfg.bufBase_le_shmSize (cfg : Cfg) : cfg.bufBase ≤ cfg.shmSize := Nat.le_add_right _ _

theorem Cfg.offRsvd_le_bufBase (cfg : Cfg) : cfg.offRsvd ≤ cfg.bufBase := Nat.le_add_right _ _

namespace Machine

/-! ### Ring descriptors -/

@[simp] theorem ringOf_cap (cfg : Cfg) (r : RingId) : (ringOf cfg r).cap = cfg.capOf r := by
  unfold ringOf; cases r.dir <;> rfl

/-- The words of a ring lie below the reserved block, its buffer above it and inside the region. -/
theorem ringOf_bounds {cfg : Cfg} {r : RingId} (hc : r.c < cfg.nCh) :
    8 ≤ (ringOf cfg r).offH ∧ (ringOf cfg r).offH + 4 = (ringOf cfg r).offT
    ∧ (ringOf cfg r).offT + 4 ≤ cfg.offRsvd ∧ cfg.offRsvd ≤ cfg.bufBase ∧ cfg.bufBase ≤ (ringOf cfg r).base
    ∧ (ringOf cfg r).base + cfg.capOf r ≤ cfg.shmSize := by
  obtain ⟨d, c⟩ := r
  have hc' : c < cfg.nCh := hc
  have h1 := Cfg.bufBase_le_baseTx cfg c
  have h2 := Cfg.baseRx_end hc'
  have h3 := Cfg.baseRx_eq cfg c
  have h4 := Cfg.offRsvd_le_bufBase cfg
  cases d <;> simp only [ringOf, Cfg.capOf, offTxh, offTxt, offRxh, offRxt, Cfg.offRsvd] at * <;> omega

/-- The word offsets of a ring are multiples of 4 (20_memory.md R66). -/
theorem ringOf_aligned (cfg : Cfg) (r : RingId) : (ringOf cfg r).offH % 4 = 0 ∧ (ringOf cfg r).offT % 4 = 0 := by
  unfold ringOf
  cases r.dir <;> simp only [offTxh, offTxt, offRxh, offRxt] <;> omega

/-- The words of two rings are apart. -/
theorem ringOf_words_apart (cfg : Cfg) {r r' : RingId} (h : r ≠ r') :
    (ringOf cfg r).offT + 4 ≤ (ringOf cfg r').offH ∨ (ringOf cfg r').offT + 4 ≤ (ringOf cfg r).offH := by
  obtain ⟨d, c⟩ := r
  obtain ⟨d', c'⟩ := r'
  cases d <;> cases d' <;> simp only [ringOf, offTxh, offTxt, offRxh, offRxt] <;>
    (have hne : c ≠ c' ∨ c = c' := by omega) <;> rcases hne with h1 | h1 <;> first | omega | (subst h1; simp at h)

/-- The buffers of two rings are apart. -/
theorem ringOf_buffers_apart {cfg : Cfg} {r r' : RingId} (hc : r.c < cfg.nCh) (hc' : r'.c < cfg.nCh) (h : r ≠ r') :
    (ringOf cfg r).base + cfg.capOf r ≤ (ringOf cfg r').base
    ∨ (ringOf cfg r').base + cfg.capOf r' ≤ (ringOf cfg r).base := by
  obtain ⟨d, c⟩ := r
  obtain ⟨d', c'⟩ := r'
  have h1 : c < cfg.nCh := hc
  have h1' : c' < cfg.nCh := hc'
  have e := Cfg.baseRx_eq cfg c
  have e' := Cfg.baseRx_eq cfg c'
  rcases Nat.lt_trichotomy c c' with hlt | heq | hgt
  · have h2 := Cfg.baseTx_le hlt (Nat.le_of_lt h1')
    cases d <;> cases d' <;> simp only [ringOf, Cfg.capOf] <;> omega
  · subst heq
    cases d <;> cases d' <;> simp only [ringOf, Cfg.capOf] <;> first | omega | simp at h
  · have h2 := Cfg.baseTx_le hgt (Nat.le_of_lt h1)
    cases d <;> cases d' <;> simp only [ringOf, Cfg.capOf] <;> omega

/-! ### Ring positions -/

/-- A ring position lies inside the buffer of its ring. -/
theorem ringAt_bounds {g : Ring} (h : 0 < g.cap) (i k : Nat) : g.base ≤ ringAt g i k ∧ ringAt g i k < g.base + g.cap := by
  have := Nat.mod_lt (i + k) h
  unfold ringAt
  omega

/-- A position in the first span. -/
theorem ringAt_first {g : Ring} {i k : Nat} (h : i + k < g.cap) : ringAt g i k = g.base + i + k := by
  rw [ringAt, Nat.mod_eq_of_lt h]
  omega

/-- A position in the second span. -/
theorem ringAt_second {g : Ring} {i k : Nat} (h1 : g.cap ≤ i + k) (h2 : i + k < 2 * g.cap) :
    ringAt g i k = g.base + (i + k - g.cap) := by
  rw [ringAt, Nat.mod_eq_sub_mod h1, Nat.mod_eq_of_lt (by omega)]

/-- Different steps of one access touch different positions. -/
theorem ringAt_inj {g : Ring} {i k k' : Nat} (hk : k < g.cap) (hk' : k' < g.cap) (h : ringAt g i k = ringAt g i k') :
    k = k' := by
  have hpos : 0 < g.cap := by omega
  have h1 : (i + k) % g.cap = (i + k') % g.cap := by unfold ringAt at h; omega
  have h2 := Nat.ModEq.add_left_cancel' i h1
  unfold Nat.ModEq at h2
  rwa [Nat.mod_eq_of_lt hk, Nat.mod_eq_of_lt hk'] at h2

end Machine

end Sys2Proof
end

