-- ==== Sys2Proof/Laws/State.lean ====
section
/-! SUPPORT. One lemma per field per update of the state, so that no later proof unfolds a record update. -/

namespace Sys2Proof.Machine

/-! ### A byte store -/

@[simp] theorem store8_cfg (s : State) (off : Nat) (b : Byte) : (s.store8 off b).cfg = s.cfg := rfl
@[simp] theorem store8_lstate (s : State) (off : Nat) (b : Byte) : (s.store8 off b).lstate = s.lstate := rfl
@[simp] theorem store8_started (s : State) (off : Nat) (b : Byte) : (s.store8 off b).started = s.started := rfl
@[simp] theorem store8_halted (s : State) (off : Nat) (b : Byte) : (s.store8 off b).halted = s.halted := rfl
@[simp] theorem store8_errstat (s : State) (off : Nat) (b : Byte) : (s.store8 off b).errstat = s.errstat := rfl
@[simp] theorem store8_chans (s : State) (off : Nat) (b : Byte) : (s.store8 off b).chans = s.chans := rfl
@[simp] theorem store8_wq (s : State) (off : Nat) (b : Byte) : (s.store8 off b).wq = s.wq := rfl
@[simp] theorem store8_rxq (s : State) (off : Nat) (b : Byte) : (s.store8 off b).rxq = s.rxq := rfl
@[simp] theorem store8_mbxIn (s : State) (off : Nat) (b : Byte) : (s.store8 off b).mbxIn = s.mbxIn := rfl
@[simp] theorem store8_mbxOut (s : State) (off : Nat) (b : Byte) : (s.store8 off b).mbxOut = s.mbxOut := rfl
@[simp] theorem store8_irqInPending (s : State) (off : Nat) (b : Byte) : (s.store8 off b).irqInPending = s.irqInPending := rfl
@[simp] theorem store8_irqOutPending (s : State) (off : Nat) (b : Byte) : (s.store8 off b).irqOutPending = s.irqOutPending := rfl
@[simp] theorem store8_isr (s : State) (off : Nat) (b : Byte) : (s.store8 off b).isr = s.isr := rfl
@[simp] theorem store8_lw (s : State) (off : Nat) (b : Byte) : (s.store8 off b).lw = s.lw := rfl
@[simp] theorem store8_host (s : State) (off : Nat) (b : Byte) : (s.store8 off b).host = s.host := rfl
@[simp] theorem store8_snds (s : State) (off : Nat) (b : Byte) : (s.store8 off b).snds = s.snds := rfl
@[simp] theorem store8_call (s : State) (off : Nat) (b : Byte) : (s.store8 off b).call = s.call := rfl
@[simp] theorem store8_ret (s : State) (off : Nat) (b : Byte) : (s.store8 off b).ret = s.ret := rfl
@[simp] theorem store8_nextSnd (s : State) (off : Nat) (b : Byte) : (s.store8 off b).nextSnd = s.nextSnd := rfl
@[simp] theorem store8_events (s : State) (off : Nat) (b : Byte) : (s.store8 off b).events = s.events := rfl
@[simp] theorem store8_sched (s : State) (off : Nat) (b : Byte) : (s.store8 off b).sched = s.sched := rfl
@[simp] theorem store8_placed (s : State) (off : Nat) (b : Byte) : (s.store8 off b).placed = s.placed := rfl
@[simp] theorem store8_mem (s : State) (off : Nat) (b : Byte) : (s.store8 off b).mem = memWrite s.mem off b := rfl

/-! ### A word store -/

@[simp] theorem store32_cfg (s : State) (off : Nat) (w : Word) : (s.store32 off w).cfg = s.cfg := rfl
@[simp] theorem store32_lstate (s : State) (off : Nat) (w : Word) : (s.store32 off w).lstate = s.lstate := rfl
@[simp] theorem store32_started (s : State) (off : Nat) (w : Word) : (s.store32 off w).started = s.started := rfl
@[simp] theorem store32_halted (s : State) (off : Nat) (w : Word) : (s.store32 off w).halted = s.halted := rfl
@[simp] theorem store32_errstat (s : State) (off : Nat) (w : Word) : (s.store32 off w).errstat = s.errstat := rfl
@[simp] theorem store32_chans (s : State) (off : Nat) (w : Word) : (s.store32 off w).chans = s.chans := rfl
@[simp] theorem store32_wq (s : State) (off : Nat) (w : Word) : (s.store32 off w).wq = s.wq := rfl
@[simp] theorem store32_rxq (s : State) (off : Nat) (w : Word) : (s.store32 off w).rxq = s.rxq := rfl
@[simp] theorem store32_mbxIn (s : State) (off : Nat) (w : Word) : (s.store32 off w).mbxIn = s.mbxIn := rfl
@[simp] theorem store32_mbxOut (s : State) (off : Nat) (w : Word) : (s.store32 off w).mbxOut = s.mbxOut := rfl
@[simp] theorem store32_irqInPending (s : State) (off : Nat) (w : Word) : (s.store32 off w).irqInPending = s.irqInPending := rfl
@[simp] theorem store32_irqOutPending (s : State) (off : Nat) (w : Word) : (s.store32 off w).irqOutPending = s.irqOutPending := rfl
@[simp] theorem store32_isr (s : State) (off : Nat) (w : Word) : (s.store32 off w).isr = s.isr := rfl
@[simp] theorem store32_lw (s : State) (off : Nat) (w : Word) : (s.store32 off w).lw = s.lw := rfl
@[simp] theorem store32_host (s : State) (off : Nat) (w : Word) : (s.store32 off w).host = s.host := rfl
@[simp] theorem store32_snds (s : State) (off : Nat) (w : Word) : (s.store32 off w).snds = s.snds := rfl
@[simp] theorem store32_call (s : State) (off : Nat) (w : Word) : (s.store32 off w).call = s.call := rfl
@[simp] theorem store32_ret (s : State) (off : Nat) (w : Word) : (s.store32 off w).ret = s.ret := rfl
@[simp] theorem store32_nextSnd (s : State) (off : Nat) (w : Word) : (s.store32 off w).nextSnd = s.nextSnd := rfl
@[simp] theorem store32_events (s : State) (off : Nat) (w : Word) : (s.store32 off w).events = s.events := rfl
@[simp] theorem store32_sched (s : State) (off : Nat) (w : Word) : (s.store32 off w).sched = s.sched := rfl
@[simp] theorem store32_placed (s : State) (off : Nat) (w : Word) : (s.store32 off w).placed = s.placed := rfl
@[simp] theorem store32_mem (s : State) (off : Nat) (w : Word) : (s.store32 off w).mem = memWrite32 s.mem off w := rfl

/-! ### Channel registers -/

@[simp] theorem setChan_cfg (s : State) (c : Nat) (q : ChanRegs) : (s.setChan c q).cfg = s.cfg := rfl
@[simp] theorem setChan_mem (s : State) (c : Nat) (q : ChanRegs) : (s.setChan c q).mem = s.mem := rfl
@[simp] theorem setChan_lstate (s : State) (c : Nat) (q : ChanRegs) : (s.setChan c q).lstate = s.lstate := rfl
@[simp] theorem setChan_started (s : State) (c : Nat) (q : ChanRegs) : (s.setChan c q).started = s.started := rfl
@[simp] theorem setChan_halted (s : State) (c : Nat) (q : ChanRegs) : (s.setChan c q).halted = s.halted := rfl
@[simp] theorem setChan_errstat (s : State) (c : Nat) (q : ChanRegs) : (s.setChan c q).errstat = s.errstat := rfl
@[simp] theorem setChan_wq (s : State) (c : Nat) (q : ChanRegs) : (s.setChan c q).wq = s.wq := rfl
@[simp] theorem setChan_rxq (s : State) (c : Nat) (q : ChanRegs) : (s.setChan c q).rxq = s.rxq := rfl
@[simp] theorem setChan_mbxIn (s : State) (c : Nat) (q : ChanRegs) : (s.setChan c q).mbxIn = s.mbxIn := rfl
@[simp] theorem setChan_mbxOut (s : State) (c : Nat) (q : ChanRegs) : (s.setChan c q).mbxOut = s.mbxOut := rfl
@[simp] theorem setChan_irqInPending (s : State) (c : Nat) (q : ChanRegs) : (s.setChan c q).irqInPending = s.irqInPending := rfl
@[simp] theorem setChan_irqOutPending (s : State) (c : Nat) (q : ChanRegs) : (s.setChan c q).irqOutPending = s.irqOutPending := rfl
@[simp] theorem setChan_isr (s : State) (c : Nat) (q : ChanRegs) : (s.setChan c q).isr = s.isr := rfl
@[simp] theorem setChan_lw (s : State) (c : Nat) (q : ChanRegs) : (s.setChan c q).lw = s.lw := rfl
@[simp] theorem setChan_host (s : State) (c : Nat) (q : ChanRegs) : (s.setChan c q).host = s.host := rfl
@[simp] theorem setChan_snds (s : State) (c : Nat) (q : ChanRegs) : (s.setChan c q).snds = s.snds := rfl
@[simp] theorem setChan_call (s : State) (c : Nat) (q : ChanRegs) : (s.setChan c q).call = s.call := rfl
@[simp] theorem setChan_ret (s : State) (c : Nat) (q : ChanRegs) : (s.setChan c q).ret = s.ret := rfl
@[simp] theorem setChan_nextSnd (s : State) (c : Nat) (q : ChanRegs) : (s.setChan c q).nextSnd = s.nextSnd := rfl
@[simp] theorem setChan_events (s : State) (c : Nat) (q : ChanRegs) : (s.setChan c q).events = s.events := rfl
@[simp] theorem setChan_sched (s : State) (c : Nat) (q : ChanRegs) : (s.setChan c q).sched = s.sched := rfl
@[simp] theorem setChan_placed (s : State) (c : Nat) (q : ChanRegs) : (s.setChan c q).placed = s.placed := rfl
@[simp] theorem setChan_chans (s : State) (c : Nat) (q : ChanRegs) : (s.setChan c q).chans = s.chans.set c q := rfl

/-! ### The transmit lock -/

@[simp] theorem setLock_cfg (s : State) (c : Nat) (l : Lock) : (s.setLock c l).cfg = s.cfg := rfl
@[simp] theorem setLock_mem (s : State) (c : Nat) (l : Lock) : (s.setLock c l).mem = s.mem := rfl
@[simp] theorem setLock_lstate (s : State) (c : Nat) (l : Lock) : (s.setLock c l).lstate = s.lstate := rfl
@[simp] theorem setLock_started (s : State) (c : Nat) (l : Lock) : (s.setLock c l).started = s.started := rfl
@[simp] theorem setLock_halted (s : State) (c : Nat) (l : Lock) : (s.setLock c l).halted = s.halted := rfl
@[simp] theorem setLock_errstat (s : State) (c : Nat) (l : Lock) : (s.setLock c l).errstat = s.errstat := rfl
@[simp] theorem setLock_wq (s : State) (c : Nat) (l : Lock) : (s.setLock c l).wq = s.wq := rfl
@[simp] theorem setLock_rxq (s : State) (c : Nat) (l : Lock) : (s.setLock c l).rxq = s.rxq := rfl
@[simp] theorem setLock_mbxIn (s : State) (c : Nat) (l : Lock) : (s.setLock c l).mbxIn = s.mbxIn := rfl
@[simp] theorem setLock_mbxOut (s : State) (c : Nat) (l : Lock) : (s.setLock c l).mbxOut = s.mbxOut := rfl
@[simp] theorem setLock_irqInPending (s : State) (c : Nat) (l : Lock) : (s.setLock c l).irqInPending = s.irqInPending := rfl
@[simp] theorem setLock_irqOutPending (s : State) (c : Nat) (l : Lock) : (s.setLock c l).irqOutPending = s.irqOutPending := rfl
@[simp] theorem setLock_isr (s : State) (c : Nat) (l : Lock) : (s.setLock c l).isr = s.isr := rfl
@[simp] theorem setLock_lw (s : State) (c : Nat) (l : Lock) : (s.setLock c l).lw = s.lw := rfl
@[simp] theorem setLock_host (s : State) (c : Nat) (l : Lock) : (s.setLock c l).host = s.host := rfl
@[simp] theorem setLock_snds (s : State) (c : Nat) (l : Lock) : (s.setLock c l).snds = s.snds := rfl
@[simp] theorem setLock_call (s : State) (c : Nat) (l : Lock) : (s.setLock c l).call = s.call := rfl
@[simp] theorem setLock_ret (s : State) (c : Nat) (l : Lock) : (s.setLock c l).ret = s.ret := rfl
@[simp] theorem setLock_nextSnd (s : State) (c : Nat) (l : Lock) : (s.setLock c l).nextSnd = s.nextSnd := rfl
@[simp] theorem setLock_events (s : State) (c : Nat) (l : Lock) : (s.setLock c l).events = s.events := rfl
@[simp] theorem setLock_sched (s : State) (c : Nat) (l : Lock) : (s.setLock c l).sched = s.sched := rfl
@[simp] theorem setLock_placed (s : State) (c : Nat) (l : Lock) : (s.setLock c l).placed = s.placed := rfl
@[simp] theorem setLock_chans (s : State) (c : Nat) (l : Lock) : (s.setLock c l).chans = s.chans.set c { s.chan c with txlock := l } := rfl

/-! ### Events -/

@[simp] theorem emit_cfg (s : State) (e : Event) : (s.emit e).cfg = s.cfg := rfl
@[simp] theorem emit_mem (s : State) (e : Event) : (s.emit e).mem = s.mem := rfl
@[simp] theorem emit_lstate (s : State) (e : Event) : (s.emit e).lstate = s.lstate := rfl
@[simp] theorem emit_started (s : State) (e : Event) : (s.emit e).started = s.started := rfl
@[simp] theorem emit_halted (s : State) (e : Event) : (s.emit e).halted = s.halted := rfl
@[simp] theorem emit_errstat (s : State) (e : Event) : (s.emit e).errstat = s.errstat := rfl
@[simp] theorem emit_chans (s : State) (e : Event) : (s.emit e).chans = s.chans := rfl
@[simp] theorem emit_wq (s : State) (e : Event) : (s.emit e).wq = s.wq := rfl
@[simp] theorem emit_rxq (s : State) (e : Event) : (s.emit e).rxq = s.rxq := rfl
@[simp] theorem emit_mbxIn (s : State) (e : Event) : (s.emit e).mbxIn = s.mbxIn := rfl
@[simp] theorem emit_mbxOut (s : State) (e : Event) : (s.emit e).mbxOut = s.mbxOut := rfl
@[simp] theorem emit_irqInPending (s : State) (e : Event) : (s.emit e).irqInPending = s.irqInPending := rfl
@[simp] theorem emit_irqOutPending (s : State) (e : Event) : (s.emit e).irqOutPending = s.irqOutPending := rfl
@[simp] theorem emit_isr (s : State) (e : Event) : (s.emit e).isr = s.isr := rfl
@[simp] theorem emit_lw (s : State) (e : Event) : (s.emit e).lw = s.lw := rfl
@[simp] theorem emit_host (s : State) (e : Event) : (s.emit e).host = s.host := rfl
@[simp] theorem emit_snds (s : State) (e : Event) : (s.emit e).snds = s.snds := rfl
@[simp] theorem emit_call (s : State) (e : Event) : (s.emit e).call = s.call := rfl
@[simp] theorem emit_ret (s : State) (e : Event) : (s.emit e).ret = s.ret := rfl
@[simp] theorem emit_nextSnd (s : State) (e : Event) : (s.emit e).nextSnd = s.nextSnd := rfl
@[simp] theorem emit_sched (s : State) (e : Event) : (s.emit e).sched = s.sched := rfl
@[simp] theorem emit_placed (s : State) (e : Event) : (s.emit e).placed = s.placed := rfl
@[simp] theorem emit_events (s : State) (e : Event) : (s.emit e).events = s.events ++ [e] := rfl

/-! ### Responses -/

@[simp] theorem respond_cfg (s : State) (k : Option Nat) (op : BitVec 4) (code : RespCode) (v : RespValue) : (s.respond k op code v).cfg = s.cfg := rfl
@[simp] theorem respond_mem (s : State) (k : Option Nat) (op : BitVec 4) (code : RespCode) (v : RespValue) : (s.respond k op code v).mem = s.mem := rfl
@[simp] theorem respond_lstate (s : State) (k : Option Nat) (op : BitVec 4) (code : RespCode) (v : RespValue) : (s.respond k op code v).lstate = s.lstate := rfl
@[simp] theorem respond_started (s : State) (k : Option Nat) (op : BitVec 4) (code : RespCode) (v : RespValue) : (s.respond k op code v).started = s.started := rfl
@[simp] theorem respond_halted (s : State) (k : Option Nat) (op : BitVec 4) (code : RespCode) (v : RespValue) : (s.respond k op code v).halted = s.halted := rfl
@[simp] theorem respond_errstat (s : State) (k : Option Nat) (op : BitVec 4) (code : RespCode) (v : RespValue) : (s.respond k op code v).errstat = s.errstat := rfl
@[simp] theorem respond_chans (s : State) (k : Option Nat) (op : BitVec 4) (code : RespCode) (v : RespValue) : (s.respond k op code v).chans = s.chans := rfl
@[simp] theorem respond_wq (s : State) (k : Option Nat) (op : BitVec 4) (code : RespCode) (v : RespValue) : (s.respond k op code v).wq = s.wq := rfl
@[simp] theorem respond_rxq (s : State) (k : Option Nat) (op : BitVec 4) (code : RespCode) (v : RespValue) : (s.respond k op code v).rxq = s.rxq := rfl
@[simp] theorem respond_mbxIn (s : State) (k : Option Nat) (op : BitVec 4) (code : RespCode) (v : RespValue) : (s.respond k op code v).mbxIn = s.mbxIn := rfl
@[simp] theorem respond_mbxOut (s : State) (k : Option Nat) (op : BitVec 4) (code : RespCode) (v : RespValue) : (s.respond k op code v).mbxOut = s.mbxOut := rfl
@[simp] theorem respond_irqInPending (s : State) (k : Option Nat) (op : BitVec 4) (code : RespCode) (v : RespValue) : (s.respond k op code v).irqInPending = s.irqInPending := rfl
@[simp] theorem respond_irqOutPending (s : State) (k : Option Nat) (op : BitVec 4) (code : RespCode) (v : RespValue) : (s.respond k op code v).irqOutPending = s.irqOutPending := rfl
@[simp] theorem respond_isr (s : State) (k : Option Nat) (op : BitVec 4) (code : RespCode) (v : RespValue) : (s.respond k op code v).isr = s.isr := rfl
@[simp] theorem respond_lw (s : State) (k : Option Nat) (op : BitVec 4) (code : RespCode) (v : RespValue) : (s.respond k op code v).lw = s.lw := rfl
@[simp] theorem respond_host (s : State) (k : Option Nat) (op : BitVec 4) (code : RespCode) (v : RespValue) : (s.respond k op code v).host = s.host := rfl
@[simp] theorem respond_snds (s : State) (k : Option Nat) (op : BitVec 4) (code : RespCode) (v : RespValue) : (s.respond k op code v).snds = s.snds := rfl
@[simp] theorem respond_call (s : State) (k : Option Nat) (op : BitVec 4) (code : RespCode) (v : RespValue) : (s.respond k op code v).call = s.call := rfl
@[simp] theorem respond_ret (s : State) (k : Option Nat) (op : BitVec 4) (code : RespCode) (v : RespValue) : (s.respond k op code v).ret = s.ret := rfl
@[simp] theorem respond_nextSnd (s : State) (k : Option Nat) (op : BitVec 4) (code : RespCode) (v : RespValue) : (s.respond k op code v).nextSnd = s.nextSnd := rfl
@[simp] theorem respond_sched (s : State) (k : Option Nat) (op : BitVec 4) (code : RespCode) (v : RespValue) : (s.respond k op code v).sched = s.sched := rfl
@[simp] theorem respond_placed (s : State) (k : Option Nat) (op : BitVec 4) (code : RespCode) (v : RespValue) : (s.respond k op code v).placed = s.placed := rfl
@[simp] theorem respond_events (s : State) (k : Option Nat) (op : BitVec 4) (code : RespCode) (v : RespValue) : (s.respond k op code v).events = s.events ++ [.response k op code v] := rfl

/-! ### The outgoing doorbell -/

@[simp] theorem doorbellOut_cfg (s : State) (w : Half) : (doorbellOut s w).cfg = s.cfg := rfl
@[simp] theorem doorbellOut_mem (s : State) (w : Half) : (doorbellOut s w).mem = s.mem := rfl
@[simp] theorem doorbellOut_lstate (s : State) (w : Half) : (doorbellOut s w).lstate = s.lstate := rfl
@[simp] theorem doorbellOut_started (s : State) (w : Half) : (doorbellOut s w).started = s.started := rfl
@[simp] theorem doorbellOut_halted (s : State) (w : Half) : (doorbellOut s w).halted = s.halted := rfl
@[simp] theorem doorbellOut_errstat (s : State) (w : Half) : (doorbellOut s w).errstat = s.errstat := rfl
@[simp] theorem doorbellOut_chans (s : State) (w : Half) : (doorbellOut s w).chans = s.chans := rfl
@[simp] theorem doorbellOut_wq (s : State) (w : Half) : (doorbellOut s w).wq = s.wq := rfl
@[simp] theorem doorbellOut_rxq (s : State) (w : Half) : (doorbellOut s w).rxq = s.rxq := rfl
@[simp] theorem doorbellOut_mbxIn (s : State) (w : Half) : (doorbellOut s w).mbxIn = s.mbxIn := rfl
@[simp] theorem doorbellOut_irqInPending (s : State) (w : Half) : (doorbellOut s w).irqInPending = s.irqInPending := rfl
@[simp] theorem doorbellOut_isr (s : State) (w : Half) : (doorbellOut s w).isr = s.isr := rfl
@[simp] theorem doorbellOut_lw (s : State) (w : Half) : (doorbellOut s w).lw = s.lw := rfl
@[simp] theorem doorbellOut_host (s : State) (w : Half) : (doorbellOut s w).host = s.host := rfl
@[simp] theorem doorbellOut_snds (s : State) (w : Half) : (doorbellOut s w).snds = s.snds := rfl
@[simp] theorem doorbellOut_call (s : State) (w : Half) : (doorbellOut s w).call = s.call := rfl
@[simp] theorem doorbellOut_ret (s : State) (w : Half) : (doorbellOut s w).ret = s.ret := rfl
@[simp] theorem doorbellOut_nextSnd (s : State) (w : Half) : (doorbellOut s w).nextSnd = s.nextSnd := rfl
@[simp] theorem doorbellOut_sched (s : State) (w : Half) : (doorbellOut s w).sched = s.sched := rfl
@[simp] theorem doorbellOut_placed (s : State) (w : Half) : (doorbellOut s w).placed = s.placed := rfl
@[simp] theorem doorbellOut_mbxOut (s : State) (w : Half) : (doorbellOut s w).mbxOut = w := rfl
@[simp] theorem doorbellOut_irqOutPending (s : State) (w : Half) : (doorbellOut s w).irqOutPending = true := rfl
@[simp] theorem doorbellOut_events (s : State) (w : Half) : (doorbellOut s w).events = s.events ++ [.doorbellOut w] := rfl

/-! ### The value handed back -/

@[simp] theorem handBack_cfg (s : State) (v : Value) : (handBack v s).cfg = s.cfg := rfl
@[simp] theorem handBack_mem (s : State) (v : Value) : (handBack v s).mem = s.mem := rfl
@[simp] theorem handBack_lstate (s : State) (v : Value) : (handBack v s).lstate = s.lstate := rfl
@[simp] theorem handBack_started (s : State) (v : Value) : (handBack v s).started = s.started := rfl
@[simp] theorem handBack_halted (s : State) (v : Value) : (handBack v s).halted = s.halted := rfl
@[simp] theorem handBack_errstat (s : State) (v : Value) : (handBack v s).errstat = s.errstat := rfl
@[simp] theorem handBack_chans (s : State) (v : Value) : (handBack v s).chans = s.chans := rfl
@[simp] theorem handBack_wq (s : State) (v : Value) : (handBack v s).wq = s.wq := rfl
@[simp] theorem handBack_rxq (s : State) (v : Value) : (handBack v s).rxq = s.rxq := rfl
@[simp] theorem handBack_mbxIn (s : State) (v : Value) : (handBack v s).mbxIn = s.mbxIn := rfl
@[simp] theorem handBack_mbxOut (s : State) (v : Value) : (handBack v s).mbxOut = s.mbxOut := rfl
@[simp] theorem handBack_irqInPending (s : State) (v : Value) : (handBack v s).irqInPending = s.irqInPending := rfl
@[simp] theorem handBack_irqOutPending (s : State) (v : Value) : (handBack v s).irqOutPending = s.irqOutPending := rfl
@[simp] theorem handBack_isr (s : State) (v : Value) : (handBack v s).isr = s.isr := rfl
@[simp] theorem handBack_lw (s : State) (v : Value) : (handBack v s).lw = s.lw := rfl
@[simp] theorem handBack_host (s : State) (v : Value) : (handBack v s).host = s.host := rfl
@[simp] theorem handBack_snds (s : State) (v : Value) : (handBack v s).snds = s.snds := rfl
@[simp] theorem handBack_call (s : State) (v : Value) : (handBack v s).call = s.call := rfl
@[simp] theorem handBack_nextSnd (s : State) (v : Value) : (handBack v s).nextSnd = s.nextSnd := rfl
@[simp] theorem handBack_events (s : State) (v : Value) : (handBack v s).events = s.events := rfl
@[simp] theorem handBack_sched (s : State) (v : Value) : (handBack v s).sched = s.sched := rfl
@[simp] theorem handBack_placed (s : State) (v : Value) : (handBack v s).placed = s.placed := rfl
@[simp] theorem handBack_ret (s : State) (v : Value) : (handBack v s).ret = v := rfl

/-! ### The crash path -/

@[simp] theorem crashPath_cfg (s : State) (cause : CrashCause) (c : Nat) : (crashPath s cause c).cfg = s.cfg := rfl
@[simp] theorem crashPath_mem (s : State) (cause : CrashCause) (c : Nat) : (crashPath s cause c).mem = s.mem := rfl
@[simp] theorem crashPath_started (s : State) (cause : CrashCause) (c : Nat) : (crashPath s cause c).started = s.started := rfl
@[simp] theorem crashPath_halted (s : State) (cause : CrashCause) (c : Nat) : (crashPath s cause c).halted = s.halted := rfl
@[simp] theorem crashPath_errstat (s : State) (cause : CrashCause) (c : Nat) : (crashPath s cause c).errstat = s.errstat := rfl
@[simp] theorem crashPath_chans (s : State) (cause : CrashCause) (c : Nat) : (crashPath s cause c).chans = s.chans := rfl
@[simp] theorem crashPath_wq (s : State) (cause : CrashCause) (c : Nat) : (crashPath s cause c).wq = s.wq := rfl
@[simp] theorem crashPath_rxq (s : State) (cause : CrashCause) (c : Nat) : (crashPath s cause c).rxq = s.rxq := rfl
@[simp] theorem crashPath_mbxIn (s : State) (cause : CrashCause) (c : Nat) : (crashPath s cause c).mbxIn = s.mbxIn := rfl
@[simp] theorem crashPath_mbxOut (s : State) (cause : CrashCause) (c : Nat) : (crashPath s cause c).mbxOut = s.mbxOut := rfl
@[simp] theorem crashPath_irqInPending (s : State) (cause : CrashCause) (c : Nat) : (crashPath s cause c).irqInPending = s.irqInPending := rfl
@[simp] theorem crashPath_irqOutPending (s : State) (cause : CrashCause) (c : Nat) : (crashPath s cause c).irqOutPending = s.irqOutPending := rfl
@[simp] theorem crashPath_isr (s : State) (cause : CrashCause) (c : Nat) : (crashPath s cause c).isr = s.isr := rfl
@[simp] theorem crashPath_lw (s : State) (cause : CrashCause) (c : Nat) : (crashPath s cause c).lw = s.lw := rfl
@[simp] theorem crashPath_host (s : State) (cause : CrashCause) (c : Nat) : (crashPath s cause c).host = s.host := rfl
@[simp] theorem crashPath_snds (s : State) (cause : CrashCause) (c : Nat) : (crashPath s cause c).snds = s.snds := rfl
@[simp] theorem crashPath_call (s : State) (cause : CrashCause) (c : Nat) : (crashPath s cause c).call = s.call := rfl
@[simp] theorem crashPath_ret (s : State) (cause : CrashCause) (c : Nat) : (crashPath s cause c).ret = s.ret := rfl
@[simp] theorem crashPath_nextSnd (s : State) (cause : CrashCause) (c : Nat) : (crashPath s cause c).nextSnd = s.nextSnd := rfl
@[simp] theorem crashPath_sched (s : State) (cause : CrashCause) (c : Nat) : (crashPath s cause c).sched = s.sched := rfl
@[simp] theorem crashPath_placed (s : State) (cause : CrashCause) (c : Nat) : (crashPath s cause c).placed = s.placed := rfl
@[simp] theorem crashPath_events (s : State) (cause : CrashCause) (c : Nat) : (crashPath s cause c).events = s.events ++ [.crashNotify cause c] := rfl

/-- The crash path keeps `NV_SAVE` and takes every other state to `OFFLINE` (R266). -/
@[simp] theorem crashPath_lstate (s : State) (cause : CrashCause) (c : Nat) :
    (crashPath s cause c).lstate = if s.lstate = .nvSave then .nvSave else .offline := by
  rcases h : s.lstate <;> simp [crashPath, State.emit, h]

/-! ### Raising a condition -/

@[simp] theorem raise_cfg (s : State) (k : Condition) : (raise s k).cfg = s.cfg := by unfold raise; cases k.crash <;> rfl
@[simp] theorem raise_mem (s : State) (k : Condition) : (raise s k).mem = s.mem := by unfold raise; cases k.crash <;> rfl
@[simp] theorem raise_started (s : State) (k : Condition) : (raise s k).started = s.started := by unfold raise; cases k.crash <;> rfl
@[simp] theorem raise_chans (s : State) (k : Condition) : (raise s k).chans = s.chans := by unfold raise; cases k.crash <;> rfl
@[simp] theorem raise_wq (s : State) (k : Condition) : (raise s k).wq = s.wq := by unfold raise; cases k.crash <;> rfl
@[simp] theorem raise_rxq (s : State) (k : Condition) : (raise s k).rxq = s.rxq := by unfold raise; cases k.crash <;> rfl
@[simp] theorem raise_mbxIn (s : State) (k : Condition) : (raise s k).mbxIn = s.mbxIn := by unfold raise; cases k.crash <;> rfl
@[simp] theorem raise_mbxOut (s : State) (k : Condition) : (raise s k).mbxOut = s.mbxOut := by unfold raise; cases k.crash <;> rfl
@[simp] theorem raise_irqInPending (s : State) (k : Condition) : (raise s k).irqInPending = s.irqInPending := by unfold raise; cases k.crash <;> rfl
@[simp] theorem raise_irqOutPending (s : State) (k : Condition) : (raise s k).irqOutPending = s.irqOutPending := by unfold raise; cases k.crash <;> rfl
@[simp] theorem raise_isr (s : State) (k : Condition) : (raise s k).isr = s.isr := by unfold raise; cases k.crash <;> rfl
@[simp] theorem raise_lw (s : State) (k : Condition) : (raise s k).lw = s.lw := by unfold raise; cases k.crash <;> rfl
@[simp] theorem raise_host (s : State) (k : Condition) : (raise s k).host = s.host := by unfold raise; cases k.crash <;> rfl
@[simp] theorem raise_snds (s : State) (k : Condition) : (raise s k).snds = s.snds := by unfold raise; cases k.crash <;> rfl
@[simp] theorem raise_call (s : State) (k : Condition) : (raise s k).call = s.call := by unfold raise; cases k.crash <;> rfl
@[simp] theorem raise_ret (s : State) (k : Condition) : (raise s k).ret = s.ret := by unfold raise; cases k.crash <;> rfl
@[simp] theorem raise_nextSnd (s : State) (k : Condition) : (raise s k).nextSnd = s.nextSnd := by unfold raise; cases k.crash <;> rfl
@[simp] theorem raise_sched (s : State) (k : Condition) : (raise s k).sched = s.sched := by unfold raise; cases k.crash <;> rfl
@[simp] theorem raise_placed (s : State) (k : Condition) : (raise s k).placed = s.placed := by unfold raise; cases k.crash <;> rfl
@[simp] theorem raise_errstat (s : State) (k : Condition) : (raise s k).errstat = setFlag s.errstat k := by unfold raise; cases k.crash <;> rfl
@[simp] theorem raise_halted (s : State) (k : Condition) : (raise s k).halted = (s.halted || k.halts) := by unfold raise; cases k.crash <;> rfl

/-- What raising a condition does to the link state. -/
theorem raise_lstate (s : State) (k : Condition) :
    (raise s k).lstate = if k.crash.isSome && s.lstate != .nvSave then .offline else s.lstate := by
  unfold raise
  cases k.crash <;> cases s.lstate <;> rfl

/-- What raising a condition adds to the event record. -/
theorem raise_events (s : State) (k : Condition) :
    (raise s k).events = s.events ++ (k.crash.map (fun p => Event.crashNotify p.1 p.2)).toList := by
  unfold raise
  cases k.crash <;> simp

/-- A condition without entry actions changes nothing (R265). -/
@[simp] theorem raise_txNoSpace (s : State) (c : Nat) : raise s (.txNoSpace c) = s := by
  simp [raise, Condition.crash, setFlag, Condition.bit, Condition.halts]

/-! ### The phase of an agent -/

@[simp] theorem setThread_cfg (s : State) (a : Agent) (th : Thread) : (s.setThread a th).cfg = s.cfg := by cases a <;> rfl
@[simp] theorem setThread_mem (s : State) (a : Agent) (th : Thread) : (s.setThread a th).mem = s.mem := by cases a <;> rfl
@[simp] theorem setThread_lstate (s : State) (a : Agent) (th : Thread) : (s.setThread a th).lstate = s.lstate := by cases a <;> rfl
@[simp] theorem setThread_started (s : State) (a : Agent) (th : Thread) : (s.setThread a th).started = s.started := by cases a <;> rfl
@[simp] theorem setThread_halted (s : State) (a : Agent) (th : Thread) : (s.setThread a th).halted = s.halted := by cases a <;> rfl
@[simp] theorem setThread_errstat (s : State) (a : Agent) (th : Thread) : (s.setThread a th).errstat = s.errstat := by cases a <;> rfl
@[simp] theorem setThread_chans (s : State) (a : Agent) (th : Thread) : (s.setThread a th).chans = s.chans := by cases a <;> rfl
@[simp] theorem setThread_wq (s : State) (a : Agent) (th : Thread) : (s.setThread a th).wq = s.wq := by cases a <;> rfl
@[simp] theorem setThread_rxq (s : State) (a : Agent) (th : Thread) : (s.setThread a th).rxq = s.rxq := by cases a <;> rfl
@[simp] theorem setThread_mbxIn (s : State) (a : Agent) (th : Thread) : (s.setThread a th).mbxIn = s.mbxIn := by cases a <;> rfl
@[simp] theorem setThread_mbxOut (s : State) (a : Agent) (th : Thread) : (s.setThread a th).mbxOut = s.mbxOut := by cases a <;> rfl
@[simp] theorem setThread_irqInPending (s : State) (a : Agent) (th : Thread) : (s.setThread a th).irqInPending = s.irqInPending := by cases a <;> rfl
@[simp] theorem setThread_irqOutPending (s : State) (a : Agent) (th : Thread) : (s.setThread a th).irqOutPending = s.irqOutPending := by cases a <;> rfl
@[simp] theorem setThread_ret (s : State) (a : Agent) (th : Thread) : (s.setThread a th).ret = s.ret := by cases a <;> rfl
@[simp] theorem setThread_nextSnd (s : State) (a : Agent) (th : Thread) : (s.setThread a th).nextSnd = s.nextSnd := by cases a <;> rfl
@[simp] theorem setThread_events (s : State) (a : Agent) (th : Thread) : (s.setThread a th).events = s.events := by cases a <;> rfl
@[simp] theorem setThread_sched (s : State) (a : Agent) (th : Thread) : (s.setThread a th).sched = s.sched := by cases a <;> rfl
@[simp] theorem setThread_placed (s : State) (a : Agent) (th : Thread) : (s.setThread a th).placed = s.placed := by cases a <;> rfl

/-- `DW` has no phase. -/
@[simp] theorem setThread_dw (s : State) (th : Thread) : s.setThread .dw th = s := rfl

@[simp] theorem setThread_isr_isr (s : State) (th : Thread) : (s.setThread .isr th).isr = th := rfl
@[simp] theorem setThread_isr_lw (s : State) (th : Thread) : (s.setThread .isr th).lw = s.lw := rfl
@[simp] theorem setThread_isr_host (s : State) (th : Thread) : (s.setThread .isr th).host = s.host := rfl
@[simp] theorem setThread_isr_call (s : State) (th : Thread) : (s.setThread .isr th).call = s.call := rfl
@[simp] theorem setThread_isr_snds (s : State) (th : Thread) : (s.setThread .isr th).snds = s.snds := rfl
@[simp] theorem setThread_lw_lw (s : State) (th : Thread) : (s.setThread .lw th).lw = th := rfl
@[simp] theorem setThread_lw_isr (s : State) (th : Thread) : (s.setThread .lw th).isr = s.isr := rfl
@[simp] theorem setThread_lw_host (s : State) (th : Thread) : (s.setThread .lw th).host = s.host := rfl
@[simp] theorem setThread_lw_call (s : State) (th : Thread) : (s.setThread .lw th).call = s.call := rfl
@[simp] theorem setThread_lw_snds (s : State) (th : Thread) : (s.setThread .lw th).snds = s.snds := rfl
@[simp] theorem setThread_host_host (s : State) (th : Thread) : (s.setThread .host th).host = th := rfl
@[simp] theorem setThread_host_isr (s : State) (th : Thread) : (s.setThread .host th).isr = s.isr := rfl
@[simp] theorem setThread_host_lw (s : State) (th : Thread) : (s.setThread .host th).lw = s.lw := rfl
@[simp] theorem setThread_host_call (s : State) (th : Thread) : (s.setThread .host th).call = s.call := rfl
@[simp] theorem setThread_host_snds (s : State) (th : Thread) : (s.setThread .host th).snds = s.snds := rfl
@[simp] theorem setThread_call_call (s : State) (th : Thread) : (s.setThread .call th).call = th := rfl
@[simp] theorem setThread_call_isr (s : State) (th : Thread) : (s.setThread .call th).isr = s.isr := rfl
@[simp] theorem setThread_call_lw (s : State) (th : Thread) : (s.setThread .call th).lw = s.lw := rfl
@[simp] theorem setThread_call_host (s : State) (th : Thread) : (s.setThread .call th).host = s.host := rfl
@[simp] theorem setThread_call_snds (s : State) (th : Thread) : (s.setThread .call th).snds = s.snds := rfl
@[simp] theorem setThread_snd_isr (s : State) (k : Nat) (th : Thread) : (s.setThread (.snd k) th).isr = s.isr := rfl
@[simp] theorem setThread_snd_lw (s : State) (k : Nat) (th : Thread) : (s.setThread (.snd k) th).lw = s.lw := rfl
@[simp] theorem setThread_snd_host (s : State) (k : Nat) (th : Thread) : (s.setThread (.snd k) th).host = s.host := rfl
@[simp] theorem setThread_snd_call (s : State) (k : Nat) (th : Thread) : (s.setThread (.snd k) th).call = s.call := rfl
@[simp] theorem setThread_snd_snds (s : State) (k : Nat) (th : Thread) :
    (s.setThread (.snd k) th).snds = setSender s.snds k th := rfl

/-! ### A completed operation -/

@[simp] theorem done_cfg (s : State) (a : Agent) (v : Value) : (s.done a v).cfg = s.cfg := by cases a <;> rfl
@[simp] theorem done_mem (s : State) (a : Agent) (v : Value) : (s.done a v).mem = s.mem := by cases a <;> rfl
@[simp] theorem done_lstate (s : State) (a : Agent) (v : Value) : (s.done a v).lstate = s.lstate := by cases a <;> rfl
@[simp] theorem done_started (s : State) (a : Agent) (v : Value) : (s.done a v).started = s.started := by cases a <;> rfl
@[simp] theorem done_halted (s : State) (a : Agent) (v : Value) : (s.done a v).halted = s.halted := by cases a <;> rfl
@[simp] theorem done_errstat (s : State) (a : Agent) (v : Value) : (s.done a v).errstat = s.errstat := by cases a <;> rfl
@[simp] theorem done_chans (s : State) (a : Agent) (v : Value) : (s.done a v).chans = s.chans := by cases a <;> rfl
@[simp] theorem done_wq (s : State) (a : Agent) (v : Value) : (s.done a v).wq = s.wq := by cases a <;> rfl
@[simp] theorem done_rxq (s : State) (a : Agent) (v : Value) : (s.done a v).rxq = s.rxq := by cases a <;> rfl
@[simp] theorem done_mbxIn (s : State) (a : Agent) (v : Value) : (s.done a v).mbxIn = s.mbxIn := by cases a <;> rfl
@[simp] theorem done_mbxOut (s : State) (a : Agent) (v : Value) : (s.done a v).mbxOut = s.mbxOut := by cases a <;> rfl
@[simp] theorem done_irqInPending (s : State) (a : Agent) (v : Value) : (s.done a v).irqInPending = s.irqInPending := by cases a <;> rfl
@[simp] theorem done_irqOutPending (s : State) (a : Agent) (v : Value) : (s.done a v).irqOutPending = s.irqOutPending := by cases a <;> rfl
@[simp] theorem done_nextSnd (s : State) (a : Agent) (v : Value) : (s.done a v).nextSnd = s.nextSnd := by cases a <;> rfl
@[simp] theorem done_events (s : State) (a : Agent) (v : Value) : (s.done a v).events = s.events := by cases a <;> rfl
@[simp] theorem done_sched (s : State) (a : Agent) (v : Value) : (s.done a v).sched = s.sched := by cases a <;> rfl
@[simp] theorem done_placed (s : State) (a : Agent) (v : Value) : (s.done a v).placed = s.placed := by cases a <;> rfl
@[simp] theorem done_ret (s : State) (a : Agent) (v : Value) : (s.done a v).ret = v := by cases a <;> rfl

/-! ### Hardware reset -/

@[simp] theorem hwReset_cfg (s : State) : (hwReset s).cfg = s.cfg := rfl
@[simp] theorem hwReset_mem (s : State) : (hwReset s).mem = s.mem := rfl
@[simp] theorem hwReset_lstate (s : State) : (hwReset s).lstate = .offline := rfl
@[simp] theorem hwReset_started (s : State) : (hwReset s).started = false := rfl
@[simp] theorem hwReset_halted (s : State) : (hwReset s).halted = false := rfl
@[simp] theorem hwReset_errstat (s : State) : (hwReset s).errstat = 0 := rfl
@[simp] theorem hwReset_chans (s : State) : (hwReset s).chans = List.replicate s.cfg.nCh ChanRegs.reset := rfl
@[simp] theorem hwReset_wq (s : State) : (hwReset s).wq = [] := rfl
@[simp] theorem hwReset_rxq (s : State) : (hwReset s).rxq = [] := rfl
@[simp] theorem hwReset_mbxIn (s : State) : (hwReset s).mbxIn = s.mbxIn := rfl
@[simp] theorem hwReset_mbxOut (s : State) : (hwReset s).mbxOut = s.mbxOut := rfl
@[simp] theorem hwReset_irqInPending (s : State) : (hwReset s).irqInPending = s.irqInPending := rfl
@[simp] theorem hwReset_irqOutPending (s : State) : (hwReset s).irqOutPending = s.irqOutPending := rfl
@[simp] theorem hwReset_isr (s : State) : (hwReset s).isr = .idle := rfl
@[simp] theorem hwReset_lw (s : State) : (hwReset s).lw = .idle := rfl
@[simp] theorem hwReset_host (s : State) : (hwReset s).host = .idle := rfl
@[simp] theorem hwReset_snds (s : State) : (hwReset s).snds = [] := rfl
@[simp] theorem hwReset_call (s : State) : (hwReset s).call = .idle := rfl
@[simp] theorem hwReset_ret (s : State) : (hwReset s).ret = .unit := rfl
@[simp] theorem hwReset_nextSnd (s : State) : (hwReset s).nextSnd = 0 := rfl
@[simp] theorem hwReset_events (s : State) : (hwReset s).events = s.events := rfl
@[simp] theorem hwReset_sched (s : State) : (hwReset s).sched = s.sched := rfl
@[simp] theorem hwReset_placed (s : State) : (hwReset s).placed = none := rfl

/-! ### Who may step -/

@[simp] theorem agentLive_store8 (s : State) (off : Nat) (b : Byte) (a : Agent) :
    agentLive (s.store8 off b) a = agentLive s a := by cases a <;> rfl
@[simp] theorem agentLive_store32 (s : State) (off : Nat) (w : Word) (a : Agent) :
    agentLive (s.store32 off w) a = agentLive s a := by cases a <;> rfl

/-- Whether an agent may step depends on `started` and `halted` only (R32, R33). -/
theorem agentLive_congr {s t : State} (hs : t.started = s.started) (hh : t.halted = s.halted) (a : Agent) :
    agentLive t a = agentLive s a := by cases a <;> simp [agentLive, hs, hh]

/-! ### Reading SHM through a state -/

/-- What is read of SHM depends on SHM only. -/
theorem load8_congr_mem {s t : State} (h : t.mem = s.mem) (a : Nat) : t.load8 a = s.load8 a := by
  simp [State.load8, h]

@[simp] theorem thread_idle_todo : Thread.idle.todo = [] := rfl
@[simp] theorem thread_idle_acc : Thread.idle.acc = .unit := rfl

end Sys2Proof.Machine
end

