-- ==== Sys2Proof/Laws/Memory.lean ====
section
/-! SUPPORT. The laws of SHM: a read after a write, what a write leaves alone, the canonical form, for bytes,
words and byte spans (20_memory.md R60 to R68). -/

namespace Sys2Proof.Machine

/-! ### Bytes -/

@[simp] theorem memRead_nil (a : Nat) : memRead [] a = unlistedByte := rfl

@[simp] theorem memWf_nil : memWf [] = true := rfl

/-- The canonical form of a list with a head. -/
theorem memWf_cons {x : Nat} {y : Byte} {t : List Host.Cell} :
    memWf ((x, y) :: t) = true ↔ y ≠ unlistedByte ∧ (∀ p ∈ t, x < p.1) ∧ memWf t = true := by
  simp [memWf, and_assoc]

/-- An offset below every listed one reads as unlisted. -/
theorem memRead_of_lt {t : List Host.Cell} {a : Nat} (h : ∀ p ∈ t, a < p.1) : memRead t a = unlistedByte := by
  cases t with
  | nil => rfl
  | cons p t =>
    obtain ⟨x, y⟩ := p
    have hx : a < x := h (x, y) (by simp)
    simp [memRead, hx]

/-- A byte that was written reads back. -/
@[simp] theorem memRead_memWrite_same {m : List Host.Cell} (hm : memWf m = true) (a : Nat) (b : Byte) :
    memRead (memWrite m a b) a = b := by
  induction m with
  | nil => by_cases hb : b = unlistedByte <;> simp [memWrite, memRead, hb]
  | cons p t ih =>
    obtain ⟨x, y⟩ := p
    obtain ⟨hy, hlt, ht⟩ := memWf_cons.1 hm
    by_cases h1 : a < x
    · by_cases hb : b = unlistedByte <;> simp [memWrite, memRead, h1, hb]
    · by_cases h2 : a = x
      · subst h2
        by_cases hb : b = unlistedByte
        · subst hb
          simp [memWrite, memRead_of_lt hlt]
        · simp [memWrite, memRead, hb]
      · simp [memWrite, memRead, h1, h2, ih ht]

/-- A write leaves every other offset alone. -/
theorem memRead_memWrite_other {m : List Host.Cell} (hm : memWf m = true) {a a' : Nat} (h : a' ≠ a) (b : Byte) :
    memRead (memWrite m a b) a' = memRead m a' := by
  induction m with
  | nil =>
    by_cases hb : b = unlistedByte
    · simp [memWrite, hb]
    · by_cases h3 : a' < a <;> simp [memWrite, memRead, hb, h, h3]
  | cons p t ih =>
    obtain ⟨x, y⟩ := p
    obtain ⟨hy, hlt, ht⟩ := memWf_cons.1 hm
    by_cases h1 : a < x
    · by_cases hb : b = unlistedByte
      · simp [memWrite, h1, hb]
      · by_cases h3 : a' < a
        · have h4 : a' < x := by omega
          simp [memWrite, memRead, h1, hb, h3, h4]
        · simp [memWrite, memRead, h1, hb, h3, h]
    · by_cases h2 : a = x
      · subst h2
        by_cases hb : b = unlistedByte
        · by_cases h3 : a' < a
          · have h4 : memRead t a' = unlistedByte :=
              memRead_of_lt (fun p hp => lt_trans h3 (hlt p hp))
            simp [memWrite, memRead, hb, h3, h4]
          · simp [memWrite, memRead, hb, h3, h]
        · simp [memWrite, memRead, hb, h]
      · simp [memWrite, memRead, h1, h2, ih ht]

/-- A read after a write, both cases. -/
theorem memRead_memWrite {m : List Host.Cell} (hm : memWf m = true) (a a' : Nat) (b : Byte) :
    memRead (memWrite m a b) a' = if a' = a then b else memRead m a' := by
  by_cases h : a' = a
  · subst h; simp [hm]
  · simp [h, memRead_memWrite_other hm h]

/-- The entries of a memory after a write: the old ones or the written one. -/
theorem mem_memWrite {m : List Host.Cell} {a : Nat} {b : Byte} {p : Host.Cell} (h : p ∈ memWrite m a b) :
    p ∈ m ∨ p.1 = a := by
  induction m with
  | nil => by_cases hb : b = unlistedByte <;> simp [memWrite, hb] at h; exact .inr (by simp [h])
  | cons q t ih =>
    obtain ⟨x, y⟩ := q
    simp only [memWrite] at h
    split_ifs at h with h1 hb h2 hb
    · exact .inl h
    · rcases List.mem_cons.1 h with h | h
      · exact .inr (by simp [h])
      · exact .inl h
    · exact .inl (List.mem_cons_of_mem _ h)
    · rcases List.mem_cons.1 h with h | h
      · exact .inr (by simp [h])
      · exact .inl (List.mem_cons_of_mem _ h)
    · rcases List.mem_cons.1 h with h | h
      · exact .inl (by simp [h])
      · rcases ih h with h | h
        · exact .inl (List.mem_cons_of_mem _ h)
        · exact .inr h

/-- A write keeps the canonical form. -/
@[simp] theorem memWf_memWrite {m : List Host.Cell} (hm : memWf m = true) (a : Nat) (b : Byte) :
    memWf (memWrite m a b) = true := by
  induction m with
  | nil => by_cases hb : b = unlistedByte <;> simp [memWrite, memWf, hb]
  | cons p t ih =>
    obtain ⟨x, y⟩ := p
    obtain ⟨hy, hlt, ht⟩ := memWf_cons.1 hm
    simp only [memWrite]
    split_ifs with h1 hb h2 hb
    · exact hm
    · refine memWf_cons.2 ⟨hb, ?_, hm⟩
      intro p hp
      rcases List.mem_cons.1 hp with h | h
      · simpa [h] using h1
      · exact lt_trans h1 (hlt p h)
    · exact ht
    · subst h2; exact memWf_cons.2 ⟨hb, hlt, ht⟩
    · refine memWf_cons.2 ⟨hy, ?_, ih ht⟩
      intro p hp
      rcases mem_memWrite hp with h | h
      · exact hlt p h
      · omega

/-! ### Spans -/

@[simp] theorem memWriteBytes_nil (m : List Host.Cell) (off : Nat) : memWriteBytes m off [] = m := by
  cases m <;> rfl

@[simp] theorem memWriteBytes_cons (m : List Host.Cell) (off : Nat) (b : Byte) (bs : List Byte) :
    memWriteBytes m off (b :: bs) = memWriteBytes (memWrite m off b) (off + 1) bs := by
  cases m <;> rfl

@[simp] theorem memReadBytes_zero (m : List Host.Cell) (off : Nat) : memReadBytes m off 0 = [] := rfl

@[simp] theorem memReadBytes_succ (m : List Host.Cell) (off n : Nat) :
    memReadBytes m off (n + 1) = memRead m off :: memReadBytes m (off + 1) n := rfl

@[simp] theorem memReadBytes_length (m : List Host.Cell) (off n : Nat) : (memReadBytes m off n).length = n := by
  induction n generalizing off with
  | zero => rfl
  | succ n ih => simp [ih]

@[simp] theorem memWf_memWriteBytes {m : List Host.Cell} (hm : memWf m = true) (off : Nat) (bs : List Byte) :
    memWf (memWriteBytes m off bs) = true := by
  induction bs generalizing m off with
  | nil => simpa
  | cons b bs ih => simpa using ih (memWf_memWrite hm off b) (off + 1)

/-- A span write, read at any offset. -/
theorem memRead_memWriteBytes {m : List Host.Cell} (hm : memWf m = true) (off : Nat) (bs : List Byte) (a : Nat) :
    memRead (memWriteBytes m off bs) a =
      if off ≤ a ∧ a < off + bs.length then bs.getD (a - off) 0 else memRead m a := by
  induction bs generalizing m off with
  | nil =>
    have h : ¬ (off ≤ a ∧ a < off + ([] : List Byte).length) := by simp
    rw [if_neg h, memWriteBytes_nil]
  | cons b bs ih =>
    rw [memWriteBytes_cons, ih (memWf_memWrite hm off b), memRead_memWrite hm]
    by_cases h1 : off + 1 ≤ a ∧ a < off + 1 + bs.length
    · have h2 : off ≤ a ∧ a < off + (b :: bs).length := by simp; omega
      have h3 : a - off = a - (off + 1) + 1 := by omega
      rw [if_pos h1, if_pos h2, h3, List.getD_cons_succ]
    · rw [if_neg h1]
      by_cases h4 : a = off
      · subst h4
        simp
      · have h2 : ¬ (off ≤ a ∧ a < off + (b :: bs).length) := by simp; omega
        rw [if_neg h4, if_neg h2]

/-- A span write leaves every offset outside the span alone. -/
theorem memRead_memWriteBytes_outside {m : List Host.Cell} (hm : memWf m = true) (off : Nat) (bs : List Byte)
    {a : Nat} (h : a < off ∨ off + bs.length ≤ a) : memRead (memWriteBytes m off bs) a = memRead m a := by
  have h2 : ¬ (off ≤ a ∧ a < off + bs.length) := by omega
  simp [memRead_memWriteBytes hm, h2]

/-- The bytes of a span, one by one. -/
theorem memReadBytes_getD (m : List Host.Cell) (off n k : Nat) (hk : k < n) :
    (memReadBytes m off n).getD k 0 = memRead m (off + k) := by
  induction n generalizing off k with
  | zero => omega
  | succ n ih =>
    cases k with
    | zero => simp
    | succ k =>
      rw [memReadBytes_succ, List.getD_cons_succ, ih (off + 1) k (by omega)]
      congr 1
      omega

/-- A span read depends on the bytes of the span only. -/
theorem memReadBytes_congr {m m' : List Host.Cell} {off n : Nat}
    (h : ∀ a, off ≤ a → a < off + n → memRead m a = memRead m' a) :
    memReadBytes m off n = memReadBytes m' off n := by
  induction n generalizing off with
  | zero => rfl
  | succ n ih =>
    rw [memReadBytes_succ, memReadBytes_succ, h off (by omega) (by omega),
      ih (fun a h1 h2 => h a (by omega) (by omega))]

/-- A span that was written reads back. -/
theorem memReadBytes_memWriteBytes_same {m : List Host.Cell} (hm : memWf m = true) (off : Nat) (bs : List Byte) :
    memReadBytes (memWriteBytes m off bs) off bs.length = bs := by
  induction bs generalizing m off with
  | nil => rfl
  | cons b bs ih =>
    rw [List.length_cons, memReadBytes_succ, memWriteBytes_cons, ih (memWf_memWrite hm off b),
      memRead_memWriteBytes_outside (memWf_memWrite hm off b) _ _ (by omega), memRead_memWrite_same hm]

/-- Two spans in a row are one. -/
theorem memReadBytes_append (m : List Host.Cell) (off n k : Nat) :
    memReadBytes m off (n + k) = memReadBytes m off n ++ memReadBytes m (off + n) k := by
  induction n generalizing off with
  | zero => simp
  | succ n ih =>
    have h : n + 1 + k = (n + k) + 1 := by omega
    rw [h, memReadBytes_succ, memReadBytes_succ, ih (off + 1), List.cons_append]
    congr 3
    omega

/-! ### Words -/

@[simp] theorem memWf_memWrite32 {m : List Host.Cell} (hm : memWf m = true) (off : Nat) (w : Word) :
    memWf (memWrite32 m off w) = true := memWf_memWriteBytes hm off _

/-- A word store leaves every byte outside its four alone. -/
theorem memRead_memWrite32_outside {m : List Host.Cell} (hm : memWf m = true) {off a : Nat} (w : Word)
    (h : a < off ∨ off + 4 ≤ a) : memRead (memWrite32 m off w) a = memRead m a :=
  memRead_memWriteBytes_outside hm off _ (by simpa using h)

/-- Byte `k` of a stored word: mixed-width view (R61). -/
theorem memRead_memWrite32 {m : List Host.Cell} (hm : memWf m = true) (off : Nat) (w : Word) (k : Nat) (hk : k < 4) :
    memRead (memWrite32 m off w) (off + k) = wordByte w k := by
  have h : off ≤ off + k ∧ off + k < off + 4 := by omega
  rw [memWrite32, memRead_memWriteBytes hm]
  simp only [List.length_cons, List.length_nil, Nat.zero_add, Nat.reduceAdd, h, and_self, if_true]
  rw [Nat.add_sub_cancel_left]
  match k, hk with
  | 0, _ => rfl
  | 1, _ => rfl
  | 2, _ => rfl
  | 3, _ => rfl

/-- A word is its four bytes, little-endian (R60). -/
theorem wordBytes_append (w : Word) :
    (wordByte w 3 ++ wordByte w 2 ++ wordByte w 1 ++ wordByte w 0 : BitVec 32) = w := by
  apply BitVec.eq_of_getLsbD_eq
  intro i hi
  simp only [wordByte, BitVec.getLsbD_append, BitVec.getLsbD_setWidth, BitVec.getLsbD_ushiftRight]
  by_cases h0 : i < 8
  · simp [h0]
  · by_cases h1 : i - 8 < 8
    · simp [h0, h1]
      congr 1; omega
    · by_cases h2 : i - 8 - 8 < 8
      · simp [h0, h1, h2]
        congr 1; omega
      · have h3 : i - 8 - 8 - 8 < 8 := by omega
        simp [h0, h1, h2, h3]
        congr 1; omega

/-- A word that was stored reads back. -/
@[simp] theorem memRead32_memWrite32_same {m : List Host.Cell} (hm : memWf m = true) (off : Nat) (w : Word) :
    memRead32 (memWrite32 m off w) off = w := by
  have h0 := memRead_memWrite32 hm off w 0 (by omega)
  have h1 := memRead_memWrite32 hm off w 1 (by omega)
  have h2 := memRead_memWrite32 hm off w 2 (by omega)
  have h3 := memRead_memWrite32 hm off w 3 (by omega)
  rw [Nat.add_zero] at h0
  rw [memRead32, h0, h1, h2, h3, wordBytes_append]

/-- A word read depends on its four bytes only. -/
theorem memRead32_congr {m m' : List Host.Cell} {off : Nat}
    (h : ∀ a, off ≤ a → a < off + 4 → memRead m a = memRead m' a) : memRead32 m off = memRead32 m' off := by
  simp only [memRead32]
  rw [h (off + 3) (by omega) (by omega), h (off + 2) (by omega) (by omega), h (off + 1) (by omega) (by omega),
    h off (by omega) (by omega)]

/-- A word read beside a word store. -/
theorem memRead32_memWrite32_other {m : List Host.Cell} (hm : memWf m = true) {off off' : Nat} (w : Word)
    (h : off' + 4 ≤ off ∨ off + 4 ≤ off') : memRead32 (memWrite32 m off w) off' = memRead32 m off' :=
  memRead32_congr (fun a h1 h2 => memRead_memWrite32_outside hm w (by omega))

/-- A word read beside a span write. -/
theorem memRead32_memWriteBytes_other {m : List Host.Cell} (hm : memWf m = true) {off off' : Nat} (bs : List Byte)
    (h : off' + 4 ≤ off ∨ off + bs.length ≤ off') :
    memRead32 (memWriteBytes m off bs) off' = memRead32 m off' :=
  memRead32_congr (fun a h1 h2 => memRead_memWriteBytes_outside hm off bs (by omega))

/-- The entries after a span write: the old ones or ones inside the span. -/
theorem mem_memWriteBytes {m : List Host.Cell} {off : Nat} {bs : List Byte} {p : Host.Cell}
    (h : p ∈ memWriteBytes m off bs) : p ∈ m ∨ (off ≤ p.1 ∧ p.1 < off + bs.length) := by
  induction bs generalizing m off with
  | nil => exact .inl (by simpa using h)
  | cons b bs ih =>
    rw [memWriteBytes_cons] at h
    rcases ih h with h | h
    · rcases mem_memWrite h with h | h
      · exact .inl h
      · exact .inr (by simp; omega)
    · exact .inr (by simp; omega)

end Sys2Proof.Machine
end

