-- ==== Sys2Proof/Laws/Run.lean ====
section
/-! SUPPORT. Running lines: `Runs a n o o'` says that `n` lines of agent `a` lead from `o` to `o'`, so that the
run of an operation is put together from the runs of its parts; the byte copies; `settle` and `invoke`. -/

namespace Sys2Proof.Machine

/-! ### One line -/

@[simp] theorem runLines_zero (a : Agent) (o : Out) : runLines 0 a o = o := rfl

/-- An operation that has returned runs no further. -/
@[simp] theorem runLines_nil (n : Nat) (a : Agent) (s : State) (acc : Value) :
    runLines n a ⟨s, acc, []⟩ = ⟨s, acc, []⟩ := by cases n <;> rfl

/-- A line that is a step is run. -/
theorem runLines_ready {a : Agent} {l : Line} {s : State} (h : lineReady a l s = true) (n : Nat) (acc : Value)
    (k : List Line) : runLines (n + 1) a ⟨s, acc, l :: k⟩ = runLines n a (lineStep a l acc k s) := by
  simp [runLines, h]

/-- An agent whose next line is no step stays where it is. -/
theorem runLines_held {a : Agent} {l : Line} {s : State} (h : lineReady a l s = false) (n : Nat) (acc : Value)
    (k : List Line) : runLines n a ⟨s, acc, l :: k⟩ = ⟨s, acc, l :: k⟩ := by
  cases n <;> simp [runLines, h]

/-- Lines in two goes. -/
theorem runLines_add (n m : Nat) (a : Agent) (o : Out) : runLines (n + m) a o = runLines m a (runLines n a o) := by
  induction n generalizing o with
  | zero => simp
  | succ n ih =>
    obtain ⟨s, acc, todo⟩ := o
    cases todo with
    | nil => simp
    | cons l k =>
      rw [Nat.add_right_comm]
      by_cases h : lineReady a l s = true
      · rw [runLines_ready h, runLines_ready h, ih]
      · simp only [Bool.not_eq_true] at h
        rw [runLines_held h, runLines_held h, runLines_held h]

/-! ### Runs -/

/-- `n` lines of agent `a` lead from `o` to `o'`. -/
def Runs (a : Agent) (n : Nat) (o o' : Out) : Prop := runLines n a o = o'

theorem Runs.refl (a : Agent) (o : Out) : Runs a 0 o o := rfl

theorem Runs.trans {a : Agent} {n m : Nat} {o o' o'' : Out} (h : Runs a n o o') (h' : Runs a m o' o'') :
    Runs a (n + m) o o'' := by
  unfold Runs at *
  rw [runLines_add, h, h']

/-- One line. -/
theorem Runs.line {a : Agent} {l : Line} {s : State} (h : lineReady a l s = true) (acc : Value) (k : List Line) :
    Runs a 1 ⟨s, acc, l :: k⟩ (lineStep a l acc k s) := by
  unfold Runs
  rw [runLines_ready h, runLines_zero]

/-- One line, then the rest. -/
theorem Runs.head {a : Agent} {n : Nat} {l : Line} {s : State} {acc : Value} {k : List Line} {o' : Out}
    (h : lineReady a l s = true) (h' : Runs a n (lineStep a l acc k s) o') : Runs a (n + 1) ⟨s, acc, l :: k⟩ o' := by
  unfold Runs at *
  rw [runLines_ready h, h']

/-- An operation that returns after `n` lines has returned after any greater number. -/
theorem Runs.finish {a : Agent} {n m : Nat} {o : Out} {s : State} {acc : Value} (h : Runs a n o ⟨s, acc, []⟩)
    (hm : n ≤ m) : runLines m a o = ⟨s, acc, []⟩ := by
  obtain ⟨d, rfl⟩ := Nat.exists_eq_add_of_le hm
  rw [runLines_add, h, runLines_nil]

/-- An operation that holds after `n` lines is there after any greater number. -/
theorem Runs.hold {a : Agent} {n m : Nat} {o : Out} {s : State} {acc : Value} {l : Line} {k : List Line}
    (h : Runs a n o ⟨s, acc, l :: k⟩) (hl : lineReady a l s = false) (hm : n ≤ m) :
    runLines m a o = ⟨s, acc, l :: k⟩ := by
  obtain ⟨d, rfl⟩ := Nat.exists_eq_add_of_le hm
  rw [runLines_add, h, runLines_held hl]

/-! ### Which lines are steps -/

/-- A line without a hold is a step of every agent that may step. -/
theorem lineReady_of_live {a : Agent} {l : Line} {s : State} (ha : agentLive s a = true)
    (hl : lineEnabled l s = true) : lineReady a l s = true := by simp [lineReady, ha, hl]

theorem agentLive_mem (s : State) (m : List Host.Cell) (a : Agent) :
    agentLive ({ s with mem := m } : State) a = agentLive s a := agentLive_congr rfl rfl a

/-! ### Byte copies -/

@[simp] theorem storeLines_nil (off : Nat) : storeLines off [] = [] := rfl

@[simp] theorem storeLines_cons (off : Nat) (b : Byte) (bs : List Byte) :
    storeLines off (b :: bs) = .store8 off b :: storeLines (off + 1) bs := rfl

@[simp] theorem loadLines_zero (off : Nat) : loadLines off 0 = [] := rfl

@[simp] theorem loadLines_succ (off n : Nat) : loadLines off (n + 1) = .load8 off :: loadLines (off + 1) n := rfl

@[simp] theorem storeLines_length (off : Nat) (bs : List Byte) : (storeLines off bs).length = bs.length := by
  induction bs generalizing off with
  | nil => rfl
  | cons b bs ih => simp [ih]

@[simp] theorem loadLines_length (off n : Nat) : (loadLines off n).length = n := by
  induction n generalizing off with
  | zero => rfl
  | succ n ih => simp [ih]

/-- Copying bytes into SHM. -/
theorem Runs.stores {a : Agent} {s : State} (ha : agentLive s a = true) (off : Nat) (bs : List Byte) (acc : Value)
    (k : List Line) :
    Runs a bs.length ⟨s, acc, storeLines off bs ++ k⟩ ⟨{ s with mem := memWriteBytes s.mem off bs }, acc, k⟩ := by
  induction bs generalizing s off with
  | nil => simp [Runs]
  | cons b bs ih =>
    rw [storeLines_cons, List.cons_append]
    refine Runs.head (lineReady_of_live ha rfl) ?_
    have h := ih (s := s.store8 off b) (by simpa using ha) (off + 1)
    simpa [lineStep, lineStore8, State.store8] using h

/-- Copying bytes out of SHM. -/
theorem Runs.loads {a : Agent} {s : State} (ha : agentLive s a = true) (off n : Nat) (bs : List Byte)
    (k : List Line) :
    Runs a n ⟨s, .bytes bs, loadLines off n ++ k⟩ ⟨s, .bytes (bs ++ memReadBytes s.mem off n), k⟩ := by
  induction n generalizing off bs with
  | zero => simp [Runs]
  | succ n ih =>
    rw [loadLines_succ, List.cons_append]
    refine Runs.head (lineReady_of_live ha rfl) ?_
    have h := ih (off + 1) (bs ++ [memRead s.mem off])
    simpa [lineStep, lineLoad8, Value.bytesOf, State.load8] using h

/-! ### Ring copies (20_memory.md R68) -/

/-- The memory after `src` is copied into ring `g` from index `i`, first span then second. -/
def ringWriteMem (m : List Host.Cell) (g : Ring) (i : Nat) (src : List Byte) : List Host.Cell :=
  memWriteBytes (memWriteBytes m (g.base + i) (src.take (firstSpan g.cap i src.length))) g.base
    (src.drop (firstSpan g.cap i src.length))

/-- The bytes copied out of ring `g` from index `i`, first span then second. -/
def ringReadMem (m : List Host.Cell) (g : Ring) (i len : Nat) : List Byte :=
  memReadBytes m (g.base + i) (firstSpan g.cap i len) ++ memReadBytes m g.base (len - firstSpan g.cap i len)

@[simp] theorem ringStoreLines_nil (g : Ring) (i : Nat) : ringStoreLines g i [] = [] := by simp [ringStoreLines]

@[simp] theorem ringStoreLines_length (g : Ring) (i : Nat) (src : List Byte) :
    (ringStoreLines g i src).length = src.length := by
  simp only [ringStoreLines, List.length_append, storeLines_length, List.length_take, List.length_drop, firstSpan]
  omega

@[simp] theorem ringLoadLines_length (g : Ring) (i len : Nat) : (ringLoadLines g i len).length = len := by
  simp only [ringLoadLines, List.length_append, loadLines_length, firstSpan]
  omega

/-- Copying bytes into a ring. -/
theorem Runs.ringStores {a : Agent} {s : State} (ha : agentLive s a = true) (g : Ring) (i : Nat) (src : List Byte)
    (acc : Value) (k : List Line) :
    Runs a src.length ⟨s, acc, ringStoreLines g i src ++ k⟩ ⟨{ s with mem := ringWriteMem s.mem g i src }, acc, k⟩ := by
  have h1 := Runs.stores ha (g.base + i) (src.take (firstSpan g.cap i src.length)) acc
    (storeLines g.base (src.drop (firstSpan g.cap i src.length)) ++ k)
  have ha' : agentLive ({ s with
      mem := memWriteBytes s.mem (g.base + i) (src.take (firstSpan g.cap i src.length)) } : State) a = true := by
    rw [agentLive_mem]; exact ha
  have h2 := Runs.stores ha' g.base (src.drop (firstSpan g.cap i src.length)) acc k
  have h := h1.trans h2
  have hn : (src.take (firstSpan g.cap i src.length)).length + (src.drop (firstSpan g.cap i src.length)).length
      = src.length := by simp only [List.length_take, List.length_drop, firstSpan]; omega
  rw [hn] at h
  simpa [ringStoreLines, ringWriteMem] using h

/-- Copying bytes out of a ring. -/
theorem Runs.ringLoads {a : Agent} {s : State} (ha : agentLive s a = true) (g : Ring) (i len : Nat) (k : List Line) :
    Runs a len ⟨s, .bytes [], ringLoadLines g i len ++ k⟩ ⟨s, .bytes (ringReadMem s.mem g i len), k⟩ := by
  have h1 := Runs.loads ha (g.base + i) (firstSpan g.cap i len) []
    (loadLines g.base (len - firstSpan g.cap i len) ++ k)
  have h2 := Runs.loads ha g.base (len - firstSpan g.cap i len)
    ([] ++ memReadBytes s.mem (g.base + i) (firstSpan g.cap i len)) k
  have h := h1.trans h2
  have hn : firstSpan g.cap i len + (len - firstSpan g.cap i len) = len := by unfold firstSpan; omega
  rw [hn] at h
  simpa [ringLoadLines, ringReadMem] using h

/-! ### What the ring copies do to memory -/

/-- Copying into a ring keeps the canonical form. -/
@[simp] theorem memWf_ringWriteMem {m : List Host.Cell} (hm : memWf m = true) (g : Ring) (i : Nat) (src : List Byte) :
    memWf (ringWriteMem m g i src) = true := memWf_memWriteBytes (memWf_memWriteBytes hm _ _) _ _

/-- Byte `k` of what was copied into a ring stands at the ring position `k` after the index. -/
theorem memRead_ringWriteMem_at {m : List Host.Cell} (hm : memWf m = true) {g : Ring} {i : Nat} {src : List Byte}
    (hi : i < g.cap) (hl : src.length < g.cap) {k : Nat} (hk : k < src.length) :
    memRead (ringWriteMem m g i src) (ringAt g i k) = src.getD k 0 := by
  have hm1 := memWf_memWriteBytes hm (g.base + i) (src.take (firstSpan g.cap i src.length))
  unfold ringWriteMem
  by_cases h : i + k < g.cap
  · rw [ringAt_first h, memRead_memWriteBytes_outside hm1, memRead_memWriteBytes hm, if_pos]
    · rw [Nat.add_assoc, ← Nat.add_assoc, Nat.add_sub_cancel_left]
      simp only [List.getD_eq_getElem?_getD]
      rw [List.getElem?_take_of_lt (by unfold firstSpan; omega)]
    · simp only [List.length_take, firstSpan]; omega
    · simp only [List.length_drop, firstSpan]; omega
  · have h2 : g.cap ≤ i + k := by omega
    rw [ringAt_second h2 (by omega), memRead_memWriteBytes hm1, if_pos]
    · rw [Nat.add_sub_cancel_left]
      simp only [List.getD_eq_getElem?_getD, List.getElem?_drop]
      congr 2
      unfold firstSpan; omega
    · simp only [List.length_drop, firstSpan]; omega

/-- Copying into a ring leaves every other byte alone. -/
theorem memRead_ringWriteMem_outside {m : List Host.Cell} (hm : memWf m = true) {g : Ring} {i : Nat} {src : List Byte}
    (hi : i < g.cap) (hl : src.length < g.cap) {a : Nat} (ha : ¬ inSpan g i src.length a) :
    memRead (ringWriteMem m g i src) a = memRead m a := by
  have hm1 := memWf_memWriteBytes hm (g.base + i) (src.take (firstSpan g.cap i src.length))
  have h1 : a < g.base ∨ g.base + (src.drop (firstSpan g.cap i src.length)).length ≤ a := by
    by_contra hcon
    have hd : (src.drop (firstSpan g.cap i src.length)).length = src.length - firstSpan g.cap i src.length := by simp
    rw [hd] at hcon
    unfold firstSpan at hcon
    refine ha ⟨a - g.base + (g.cap - i), by omega, ?_⟩
    rw [ringAt_second (by omega) (by omega)]
    omega
  have h2 : a < g.base + i ∨ g.base + i + (src.take (firstSpan g.cap i src.length)).length ≤ a := by
    by_contra hcon
    have hd : (src.take (firstSpan g.cap i src.length)).length = firstSpan g.cap i src.length := by
      simp [firstSpan]
    rw [hd] at hcon
    unfold firstSpan at hcon
    refine ha ⟨a - (g.base + i), by omega, ?_⟩
    rw [ringAt_first (by omega)]
    omega
  rw [ringWriteMem, memRead_memWriteBytes_outside hm1 _ _ h1, memRead_memWriteBytes_outside hm _ _ h2]

/-- What is copied out of a ring is its bytes in ring order. -/
theorem ringReadMem_eq {m : List Host.Cell} {g : Ring} {i len : Nat} (hi : i < g.cap) (hl : len < g.cap) :
    ringReadMem m g i len = (List.range len).map (fun k => memRead m (ringAt g i k)) := by
  apply List.ext_getElem
  · simp only [ringReadMem, List.length_append, memReadBytes_length, List.length_map, List.length_range, firstSpan]
    omega
  · intro k h1 h2
    simp only [List.length_map, List.length_range] at h2
    have e1 : (ringReadMem m g i len)[k] = (ringReadMem m g i len).getD k 0 := by
      rw [List.getD_eq_getElem _ _ h1]
    rw [e1, List.getElem_map, List.getElem_range]
    by_cases h : i + k < g.cap
    · have hk : k < firstSpan g.cap i len := by unfold firstSpan; omega
      rw [ringReadMem, List.getD_append _ _ _ _ (by simpa using hk), memReadBytes_getD _ _ _ _ hk, ringAt_first h]
    · have hk : firstSpan g.cap i len ≤ k := by unfold firstSpan; omega
      rw [ringReadMem, List.getD_append_right _ _ _ _ (by simpa using hk), memReadBytes_length,
        memReadBytes_getD _ _ _ _ (by unfold firstSpan; omega), ringAt_second (by omega) (by omega)]
      congr 2
      unfold firstSpan; omega

/-- The bytes of a ring are what `ringReadMem` copies out. -/
theorem ringBytes_eq (s : State) {r : RingId} {i len : Nat} (hi : i < s.cfg.capOf r) (hl : len < s.cfg.capOf r) :
    ringReadMem s.mem (ringOf s.cfg r) i len = s.ringBytes r i len :=
  ringReadMem_eq (by simpa using hi) (by simpa using hl)

@[simp] theorem ringBytes_length (s : State) (r : RingId) (i len : Nat) : (s.ringBytes r i len).length = len := by
  simp [State.ringBytes]

/-! ### Putting the phase back -/

@[simp] theorem settle_nil (a : Agent) (s : State) (acc : Value) : settle a ⟨s, acc, []⟩ = s.done a acc := rfl

@[simp] theorem settle_cons (a : Agent) (s : State) (acc : Value) (l : Line) (k : List Line) :
    settle a ⟨s, acc, l :: k⟩ = s.setThread a ⟨acc, l :: k⟩ := rfl

/-- What a free agent is. -/
theorem free_iff (s : State) (a : Agent) : s.free a = true ↔ agentLive s a = true ∧ (s.thread a).todo = [] := by
  simp [State.free, List.isEmpty_iff]

/-- A free agent runs the operation it is given. -/
theorem invoke_free {a : Agent} {s : State} (h : s.free a = true) (fuel : Nat) (prog : List Line) :
    invoke a fuel prog s = settle a (runLines fuel a ⟨s, .unit, prog⟩) := by
  unfold State.free at h
  simp [invoke, h]

/-- An agent that is not free waits. -/
theorem invoke_busy {a : Agent} {s : State} (h : s.free a = false) (fuel : Nat) (prog : List Line) :
    invoke a fuel prog s = s := by
  unfold State.free at h
  simp [invoke, h]

/-- An operation that returns within its fuel. -/
theorem invoke_of_runs {a : Agent} {s s' : State} {v : Value} {n fuel : Nat} {prog : List Line} (h : s.free a = true)
    (hr : Runs a n ⟨s, .unit, prog⟩ ⟨s', v, []⟩) (hn : n ≤ fuel) : invoke a fuel prog s = s'.done a v := by
  rw [invoke_free h, hr.finish hn, settle_nil]

/-- An operation that comes to a hold within its fuel. -/
theorem invoke_of_hold {a : Agent} {s s' : State} {v : Value} {n fuel : Nat} {prog : List Line} {l : Line}
    {k : List Line} (h : s.free a = true) (hr : Runs a n ⟨s, .unit, prog⟩ ⟨s', v, l :: k⟩)
    (hl : lineReady a l s' = false) (hn : n ≤ fuel) : invoke a fuel prog s = s'.setThread a ⟨v, l :: k⟩ := by
  rw [invoke_free h, hr.hold hl hn, settle_cons]

end Sys2Proof.Machine
end

