-- ==== Sys2Proof/Laws/Ring.lean ====
section
/-! SUPPORT. The ring primitives as whole runs: what `RQ.SPACE`, `RQ.AVAIL`, `RQ.WRITE`, `RQ.READ`, `RQ.PEEK` and
`RQ.INIT` lead to, inside any operation (40_ring_queue.md R141 to R148), and what they leave of SHM. -/

namespace Sys2Proof.Machine

/-! ### Runs within a number of lines -/

/-- At most `b` lines of agent `a` lead from `o` to `o'`. -/
def RunsIn (a : Agent) (b : Nat) (o o' : Out) : Prop := ∃ n, n ≤ b ∧ Runs a n o o'

theorem Runs.runsIn {a : Agent} {n : Nat} {o o' : Out} (h : Runs a n o o') : RunsIn a n o o' := ⟨n, Nat.le_refl n, h⟩

theorem RunsIn.refl (a : Agent) (o : Out) : RunsIn a 0 o o := (Runs.refl a o).runsIn

theorem RunsIn.mono {a : Agent} {b b' : Nat} {o o' : Out} (h : RunsIn a b o o') (hb : b ≤ b') : RunsIn a b' o o' := by
  obtain ⟨n, hn, hr⟩ := h
  exact ⟨n, Nat.le_trans hn hb, hr⟩

theorem RunsIn.trans {a : Agent} {b b' : Nat} {o o' o'' : Out} (h : RunsIn a b o o') (h' : RunsIn a b' o' o'') :
    RunsIn a (b + b') o o'' := by
  obtain ⟨n, hn, hr⟩ := h
  obtain ⟨n', hn', hr'⟩ := h'
  exact ⟨n + n', by omega, hr.trans hr'⟩

theorem RunsIn.head {a : Agent} {b : Nat} {l : Line} {s : State} {acc : Value} {k : List Line} {o' : Out}
    (h : lineReady a l s = true) (h' : RunsIn a b (lineStep a l acc k s) o') : RunsIn a (b + 1) ⟨s, acc, l :: k⟩ o' := by
  obtain ⟨n, hn, hr⟩ := h'
  exact ⟨n + 1, by omega, Runs.head h hr⟩

theorem RunsIn.finish {a : Agent} {b m : Nat} {o : Out} {s : State} {acc : Value} (h : RunsIn a b o ⟨s, acc, []⟩)
    (hm : b ≤ m) : runLines m a o = ⟨s, acc, []⟩ := by
  obtain ⟨n, hn, hr⟩ := h
  exact hr.finish (Nat.le_trans hn hm)

theorem RunsIn.invoke {a : Agent} {s s' : State} {v : Value} {b fuel : Nat} {prog : List Line}
    (hr : RunsIn a b ⟨s, .unit, prog⟩ ⟨s', v, []⟩) (h : s.free a = true) (hb : b ≤ fuel) :
    invoke a fuel prog s = s'.done a v := by
  obtain ⟨n, hn, hr⟩ := hr
  exact invoke_of_runs h hr (Nat.le_trans hn hb)

theorem RunsIn.invokeHold {a : Agent} {s s' : State} {v : Value} {b fuel : Nat} {prog : List Line} {l : Line}
    {k : List Line} (hr : RunsIn a b ⟨s, .unit, prog⟩ ⟨s', v, l :: k⟩) (h : s.free a = true)
    (hl : lineReady a l s' = false) (hb : b ≤ fuel) : Machine.invoke a fuel prog s = s'.setThread a ⟨v, l :: k⟩ := by
  obtain ⟨n, hn, hr⟩ := hr
  exact invoke_of_hold h hr hl (Nat.le_trans hn hb)

/-! ### Index arithmetic (R141) -/

theorem spaceOf_bounds {cap : Nat} (hc : 0 < cap) (h t : Nat) : 0 ≤ spaceOf cap h t ∧ spaceOf cap h t < cap :=
  ⟨Int.emod_nonneg _ (by omega), Int.emod_lt_of_pos _ (by omega)⟩

theorem availOf_bounds {cap : Nat} (hc : 0 < cap) (h t : Nat) : 0 ≤ availOf cap h t ∧ availOf cap h t < cap :=
  ⟨Int.emod_nonneg _ (by omega), Int.emod_lt_of_pos _ (by omega)⟩

/-- The free space of valid indices, without a modulus. -/
theorem spaceOf_eq {cap h t : Nat} (hh : h < cap) (ht : t < cap) :
    spaceOf cap h t = if h < t then (t : Int) - h - 1 else (t : Int) + cap - h - 1 := by
  unfold spaceOf
  split_ifs with hlt
  · exact Int.emod_eq_of_lt (by omega) (by omega)
  · rw [← Int.add_emod_right, Int.emod_eq_of_lt (by omega) (by omega)]
    omega

/-- The bytes available for valid indices, without a modulus. -/
theorem availOf_eq {cap h t : Nat} (hh : h < cap) (ht : t < cap) :
    availOf cap h t = if t ≤ h then (h : Int) - t else (h : Int) + cap - t := by
  unfold availOf
  split_ifs with hlt
  · exact Int.emod_eq_of_lt (by omega) (by omega)
  · rw [← Int.add_emod_right, Int.emod_eq_of_lt (by omega) (by omega)]
    omega

/-- An advanced index is a valid one, and the word holds it whole. -/
theorem advance_toNat {cap : Nat} (hc : 0 < cap) (hc' : cap < 2 ^ 31) (i n : Nat) :
    (advance cap i n).toNat = (i + n) % cap := by
  have := Nat.mod_lt (i + n) hc
  rw [advance, BitVec.toNat_ofNat, Nat.mod_eq_of_lt (by omega)]

/-- What `indexCorrupt` says. -/
theorem indexCorrupt_false_iff (cap : Nat) (w : Word) : indexCorrupt cap w = false ↔ w.toNat < cap := by
  simp [indexCorrupt]

theorem spaceResult_valid {cap : Nat} {h t : Word} (hh : h.toNat < cap) (ht : t.toNat < cap) :
    spaceResult cap h t = spaceOf cap h.toNat t.toNat := by
  simp [spaceResult, (indexCorrupt_false_iff cap h).2 hh, (indexCorrupt_false_iff cap t).2 ht]

theorem availResult_valid {cap : Nat} {h t : Word} (hh : h.toNat < cap) (ht : t.toNat < cap) :
    availResult cap h t = availOf cap h.toNat t.toNat := by
  simp [availResult, (indexCorrupt_false_iff cap h).2 hh, (indexCorrupt_false_iff cap t).2 ht]

/-- `RQ.SPACE` answers `CORRUPT` exactly for a corrupt index (R143). -/
theorem spaceResult_corrupt_iff {cap : Nat} (hc : 0 < cap) (h t : Word) :
    spaceResult cap h t = corrupt ↔ cap ≤ h.toNat ∨ cap ≤ t.toNat := by
  by_cases hh : h.toNat < cap
  · by_cases ht : t.toNat < cap
    · rw [spaceResult_valid hh ht]
      have := spaceOf_bounds hc h.toNat t.toNat
      unfold corrupt
      constructor <;> intro <;> omega
    · have : cap ≤ t.toNat := by omega
      simp [spaceResult, indexCorrupt, this]
  · have : cap ≤ h.toNat := by omega
    simp [spaceResult, indexCorrupt, this]

/-- `RQ.AVAIL` answers `CORRUPT` exactly for a corrupt index (R144). -/
theorem availResult_corrupt_iff {cap : Nat} (hc : 0 < cap) (h t : Word) :
    availResult cap h t = corrupt ↔ cap ≤ h.toNat ∨ cap ≤ t.toNat := by
  by_cases hh : h.toNat < cap
  · by_cases ht : t.toNat < cap
    · rw [availResult_valid hh ht]
      have := availOf_bounds hc h.toNat t.toNat
      unfold corrupt
      constructor <;> intro <;> omega
    · have : cap ≤ t.toNat := by omega
      simp [availResult, indexCorrupt, this]
  · have : cap ≤ h.toNat := by omega
    simp [availResult, indexCorrupt, this]

/-- An answer of `RQ.SPACE` that is not negative comes from valid indices and is below the capacity. -/
theorem space_valid {s : State} {r : RingId} (hc : 0 < s.cfg.capOf r) (h : 0 ≤ s.space r) :
    (s.head r).toNat < s.cfg.capOf r ∧ (s.tail r).toNat < s.cfg.capOf r
    ∧ s.space r = spaceOf (s.cfg.capOf r) (s.head r).toNat (s.tail r).toNat ∧ s.space r < s.cfg.capOf r := by
  have hv : (s.head r).toNat < s.cfg.capOf r ∧ (s.tail r).toNat < s.cfg.capOf r := by
    by_contra hcon
    have e : s.space r = corrupt := (spaceResult_corrupt_iff hc _ _).2 (by omega)
    rw [e] at h
    unfold corrupt at h
    omega
  have e : s.space r = spaceOf (s.cfg.capOf r) (s.head r).toNat (s.tail r).toNat := spaceResult_valid hv.1 hv.2
  exact ⟨hv.1, hv.2, e, by rw [e]; exact (spaceOf_bounds hc _ _).2⟩

/-- An answer of `RQ.AVAIL` that is not negative comes from valid indices and is below the capacity. -/
theorem avail_valid {s : State} {r : RingId} (hc : 0 < s.cfg.capOf r) (h : 0 ≤ s.avail r) :
    (s.head r).toNat < s.cfg.capOf r ∧ (s.tail r).toNat < s.cfg.capOf r
    ∧ s.avail r = availOf (s.cfg.capOf r) (s.head r).toNat (s.tail r).toNat ∧ s.avail r < s.cfg.capOf r := by
  have hv : (s.head r).toNat < s.cfg.capOf r ∧ (s.tail r).toNat < s.cfg.capOf r := by
    by_contra hcon
    have e : s.avail r = corrupt := (availResult_corrupt_iff hc _ _).2 (by omega)
    rw [e] at h
    unfold corrupt at h
    omega
  have e : s.avail r = availOf (s.cfg.capOf r) (s.head r).toNat (s.tail r).toNat := availResult_valid hv.1 hv.2
  exact ⟨hv.1, hv.2, e, by rw [e]; exact (availOf_bounds hc _ _).2⟩

/-- The bytes of a ring from index `i` on, cut in two. -/
theorem ringBytes_add (s : State) (r : RingId) (i n k : Nat) :
    s.ringBytes r i (n + k) = s.ringBytes r i n ++ s.ringBytes r ((i + n) % s.cfg.capOf r) k := by
  simp only [State.ringBytes, List.range_add, List.map_append, List.map_map]
  congr 1
  apply List.map_congr_left
  intro j _
  simp only [Function.comp_apply, ringAt, ringOf_cap, Nat.mod_add_mod]
  congr 3
  omega

/-- An agent that is free may step. -/
theorem live_of_free {s : State} {a : Agent} (h : s.free a = true) : agentLive s a = true := ((free_iff s a).1 h).1

/-! ### The runs -/

/-- `RQ.SPACE` inside an operation. -/
theorem RunsIn.space {a : Agent} {s : State} (ha : agentLive s a = true) (r : RingId) (acc : Value) (k : List Line) :
    RunsIn a 2 ⟨s, acc, .spaceHead r :: k⟩ ⟨s, .int (s.space r), k⟩ :=
  RunsIn.head (lineReady_of_live ha rfl) (RunsIn.head (lineReady_of_live ha rfl) (RunsIn.refl _ _))

/-- `RQ.AVAIL` inside an operation. -/
theorem RunsIn.avail {a : Agent} {s : State} (ha : agentLive s a = true) (r : RingId) (acc : Value) (k : List Line) :
    RunsIn a 2 ⟨s, acc, .availHead r :: k⟩ ⟨s, .int (s.avail r), k⟩ :=
  RunsIn.head (lineReady_of_live ha rfl) (RunsIn.head (lineReady_of_live ha rfl) (RunsIn.refl _ _))

/-- `LD.CHECK_READY` inside an operation. -/
theorem RunsIn.ready {a : Agent} {s : State} (ha : agentLive s a = true) (acc : Value) (k : List Line) :
    RunsIn a 2 ⟨s, acc, .readyMagic :: k⟩ ⟨s, .bool s.ready, k⟩ :=
  RunsIn.head (lineReady_of_live ha rfl) (RunsIn.head (lineReady_of_live ha rfl) (RunsIn.refl _ _))

/-- SHM after `RQ.WRITE(r, src)` with a valid head: the bytes, then the head (R145). -/
def ringPushMem (cfg : Cfg) (m : List Host.Cell) (r : RingId) (h : Nat) (src : List Byte) : List Host.Cell :=
  memWrite32 (ringWriteMem m (ringOf cfg r) h src) (ringOf cfg r).offH (advance (cfg.capOf r) h src.length)

/-- The state after `RQ.WRITE(r, src)` with a valid head. -/
def State.pushed (s : State) (r : RingId) (src : List Byte) : State :=
  if src = [] then s else { s with mem := ringPushMem s.cfg s.mem r (s.head r).toNat src }

/-- The state after `RQ.READ(r, len)` with a valid tail (R146). -/
def State.pulled (s : State) (r : RingId) (len : Nat) : State :=
  if len = 0 then s
  else s.store32 (ringOf s.cfg r).offT (advance (s.cfg.capOf r) (s.tail r).toNat len)

@[simp] theorem agentLive_pushed (s : State) (r : RingId) (src : List Byte) (a : Agent) :
    agentLive (s.pushed r src) a = agentLive s a := by
  unfold State.pushed; split_ifs
  · rfl
  · exact agentLive_mem s _ a

@[simp] theorem agentLive_pulled (s : State) (r : RingId) (len : Nat) (a : Agent) :
    agentLive (s.pulled r len) a = agentLive s a := by
  unfold State.pulled; split_ifs
  · rfl
  · simp

/-- `RQ.WRITE` inside an operation, with a valid head. -/
theorem RunsIn.rqWrite {a : Agent} {s : State} (ha : agentLive s a = true) {r : RingId} {src : List Byte}
    (hl : src.length < s.cfg.capOf r) (hh : (s.head r).toNat < s.cfg.capOf r) (acc : Value) (k : List Line) :
    RunsIn a (src.length + 3) ⟨s, acc, .rqWrite r src :: k⟩ ⟨s.pushed r src, .unit, k⟩ := by
  refine RunsIn.head (lineReady_of_live ha (by simp [lineEnabled, hl])) ?_
  by_cases hs : src = []
  · simp only [lineStep, lineRqWrite, hs, if_true, State.pushed]
    exact (RunsIn.refl _ _).mono (by omega)
  · have hc : indexCorrupt (ringOf s.cfg r).cap (s.head r) = false := by
      rw [ringOf_cap]; exact (indexCorrupt_false_iff _ _).2 hh
    simp only [lineStep, lineRqWrite, hs, if_false, hc, State.pushed, Bool.false_eq_true]
    have h1 := (Runs.ringStores ha (ringOf s.cfg r) (s.head r).toNat src .unit
      (.fence :: .store32 (ringOf s.cfg r).offH (advance (ringOf s.cfg r).cap (s.head r).toNat src.length) :: k)).runsIn
    refine h1.trans ?_
    refine RunsIn.head (lineReady_of_live (by rw [agentLive_mem]; exact ha) rfl) ?_
    refine RunsIn.head (lineReady_of_live (by rw [agentLive_mem]; exact ha) rfl) ?_
    simp only [lineStep, lineStore32, State.store32, ringPushMem, ringOf_cap]
    exact RunsIn.refl _ _

/-- `RQ.READ` inside an operation, with a valid tail. -/
theorem RunsIn.rqRead {a : Agent} {s : State} (ha : agentLive s a = true) {r : RingId} {len : Nat}
    (hl : len < s.cfg.capOf r) (ht : (s.tail r).toNat < s.cfg.capOf r) (acc : Value) (k : List Line) :
    RunsIn a (len + 3) ⟨s, acc, .rqRead r len :: k⟩
      ⟨s.pulled r len, .bytes (s.ringBytes r (s.tail r).toNat len), k⟩ := by
  refine RunsIn.head (lineReady_of_live ha (by simp [lineEnabled, hl])) ?_
  by_cases hs : len = 0
  · subst hs
    simp only [lineStep, lineRqRead, if_true, State.pulled, State.ringBytes]
    exact (RunsIn.refl _ _).mono (by omega)
  · have hc : indexCorrupt (ringOf s.cfg r).cap (s.tail r) = false := by
      rw [ringOf_cap]; exact (indexCorrupt_false_iff _ _).2 ht
    simp only [lineStep, lineRqRead, hs, if_false, hc, State.pulled, Bool.false_eq_true]
    have h1 := (Runs.ringLoads ha (ringOf s.cfg r) (s.tail r).toNat len
      (.fence :: .store32 (ringOf s.cfg r).offT (advance (ringOf s.cfg r).cap (s.tail r).toNat len) :: k)).runsIn
    rw [ringBytes_eq s ht hl] at h1
    refine h1.trans ?_
    refine RunsIn.head (lineReady_of_live ha rfl) ?_
    refine RunsIn.head (lineReady_of_live ha rfl) ?_
    simp only [lineStep, lineStore32, ringOf_cap]
    exact RunsIn.refl _ _

/-- `RQ.PEEK` inside an operation, with a valid tail. -/
theorem RunsIn.rqPeek {a : Agent} {s : State} (ha : agentLive s a = true) {r : RingId} {off len : Nat}
    (hl : off + len < s.cfg.capOf r) (ht : (s.tail r).toNat < s.cfg.capOf r) (acc : Value) (k : List Line) :
    RunsIn a (len + 1) ⟨s, acc, .rqPeek r off len :: k⟩
      ⟨s, .bytes (s.ringBytes r (((s.tail r).toNat + off) % s.cfg.capOf r) len), k⟩ := by
  refine RunsIn.head (lineReady_of_live ha (by simp [lineEnabled, hl])) ?_
  have hc : indexCorrupt (ringOf s.cfg r).cap (s.tail r) = false := by
    rw [ringOf_cap]; exact (indexCorrupt_false_iff _ _).2 ht
  simp only [lineStep, lineRqPeek, hc, Bool.false_eq_true, if_false]
  have h1 := (Runs.ringLoads ha (ringOf s.cfg r) (((s.tail r).toNat + off) % (ringOf s.cfg r).cap) len k).runsIn
  rw [ringOf_cap, ringBytes_eq s (Nat.mod_lt _ (by omega)) (by omega)] at h1
  rwa [ringOf_cap]

/-- Word stores inside an operation. -/
theorem RunsIn.store32 {a : Agent} {s : State} (ha : agentLive s a = true) (off : Nat) (v : Word) (acc : Value)
    (k : List Line) : RunsIn a 1 ⟨s, acc, .store32 off v :: k⟩ ⟨s.store32 off v, acc, k⟩ :=
  RunsIn.head (lineReady_of_live ha rfl) (RunsIn.refl _ _)

/-- `CH.INIT` inside an operation (42_channel.md R181). -/
theorem RunsIn.chInit {a : Agent} {s : State} (ha : agentLive s a = true) (c : Nat) (acc : Value) (k : List Line) :
    RunsIn a 4 ⟨s, acc, chInitLines s.cfg c ++ k⟩ ⟨{ s with mem := initChannelMem s.mem c }, acc, k⟩ := by
  refine RunsIn.head (lineReady_of_live ha rfl) ?_
  refine RunsIn.head (lineReady_of_live (by simpa [lineStore32] using ha) rfl) ?_
  refine RunsIn.head (lineReady_of_live (by simpa [lineStore32] using ha) rfl) ?_
  refine RunsIn.head (lineReady_of_live (by simpa [lineStore32] using ha) rfl) ?_
  exact RunsIn.refl _ _

/-- `CH.INIT` of several channels inside an operation. -/
theorem RunsIn.chInits {a : Agent} {s : State} (ha : agentLive s a = true) (cs : List Nat) (acc : Value)
    (k : List Line) :
    RunsIn a (4 * cs.length) ⟨s, acc, cs.flatMap (chInitLines s.cfg) ++ k⟩
      ⟨{ s with mem := cs.foldl initChannelMem s.mem }, acc, k⟩ := by
  induction cs generalizing s with
  | nil => exact RunsIn.refl _ _
  | cons c cs ih =>
    rw [List.flatMap_cons, List.append_assoc]
    have h1 := RunsIn.chInit ha c acc (cs.flatMap (chInitLines s.cfg) ++ k)
    have h2 := ih (s := { s with mem := initChannelMem s.mem c }) (by rw [agentLive_mem]; exact ha)
    exact (h1.trans h2).mono (by simp only [List.length_cons]; omega)

/-! ### What a ring write and a ring read leave of SHM -/

/-- `RQ.WRITE` keeps the canonical form. -/
@[simp] theorem memWf_pushed {s : State} (hm : memWf s.mem = true) (r : RingId) (src : List Byte) :
    memWf (s.pushed r src).mem = true := by
  unfold State.pushed; split_ifs
  · exact hm
  · exact memWf_memWrite32 (memWf_ringWriteMem hm _ _ _) _ _

/-- `RQ.READ` keeps the canonical form. -/
@[simp] theorem memWf_pulled {s : State} (hm : memWf s.mem = true) (r : RingId) (len : Nat) :
    memWf (s.pulled r len).mem = true := by
  unfold State.pulled; split_ifs
  · exact hm
  · exact memWf_memWrite32 hm _ _

/-- `RQ.WRITE` changes SHM and nothing else. -/
theorem pushed_eq (s : State) (r : RingId) (src : List Byte) :
    s.pushed r src = { s with mem := (s.pushed r src).mem } := by
  unfold State.pushed; split_ifs <;> rfl

/-- `RQ.READ` changes SHM and nothing else. -/
theorem pulled_eq (s : State) (r : RingId) (len : Nat) : s.pulled r len = { s with mem := (s.pulled r len).mem } := by
  unfold State.pulled; split_ifs <;> rfl

@[simp] theorem pushed_cfg (s : State) (r : RingId) (src : List Byte) : (s.pushed r src).cfg = s.cfg := by
  rw [pushed_eq]

@[simp] theorem pulled_cfg (s : State) (r : RingId) (len : Nat) : (s.pulled r len).cfg = s.cfg := by rw [pulled_eq]

/-- A ring position is no byte of the region's words. -/
theorem ringAt_above_words {cfg : Cfg} {r : RingId} (hc : r.c < cfg.nCh) (hcap : 0 < cfg.capOf r) (i k : Nat) :
    cfg.bufBase ≤ ringAt (ringOf cfg r) i k ∧ ringAt (ringOf cfg r) i k < cfg.shmSize := by
  have h1 := ringAt_bounds (g := ringOf cfg r) (by simpa using hcap) i k
  have h2 := ringOf_bounds hc
  rw [ringOf_cap] at h1
  omega

/-- After `RQ.WRITE` the head has advanced. -/
theorem pushed_head {s : State} (hm : memWf s.mem = true) {r : RingId} {src : List Byte} (hs : src ≠ []) :
    (s.pushed r src).head r = advance (s.cfg.capOf r) (s.head r).toNat src.length := by
  unfold State.pushed State.head State.load32
  simp only [hs, if_false, ringPushMem]
  rw [memRead32_memWrite32_same (memWf_ringWriteMem hm _ _ _)]

/-- After `RQ.WRITE` the written bytes stand at the ring positions from the old head. -/
theorem pushed_at {s : State} (hm : memWf s.mem = true) {r : RingId} {src : List Byte} (hc : r.c < s.cfg.nCh)
    (hl : src.length < s.cfg.capOf r) (hh : (s.head r).toNat < s.cfg.capOf r) {k : Nat} (hk : k < src.length) :
    (s.pushed r src).load8 (ringAt (ringOf s.cfg r) (s.head r).toNat k) = src.getD k 0 := by
  have hs : src ≠ [] := by rintro rfl; simp at hk
  have hb := ringOf_bounds hc
  have ha := ringAt_above_words hc (by omega) (s.head r).toNat k
  unfold State.pushed State.load8
  simp only [hs, if_false, ringPushMem]
  rw [memRead_memWrite32_outside (memWf_ringWriteMem hm _ _ _) _ (by omega),
    memRead_ringWriteMem_at hm (by simpa using hh) (by simpa using hl) hk]

/-- `RQ.WRITE` changes no byte but the written ones and the head word. -/
theorem pushed_outside {s : State} (hm : memWf s.mem = true) {r : RingId} {src : List Byte}
    (hl : src.length < s.cfg.capOf r) (hh : (s.head r).toNat < s.cfg.capOf r) {a : Nat}
    (h1 : ¬ inSpan (ringOf s.cfg r) (s.head r).toNat src.length a) (h2 : ¬ inWord (ringOf s.cfg r).offH a) :
    (s.pushed r src).load8 a = s.load8 a := by
  unfold State.pushed State.load8
  split_ifs with hs
  · rfl
  · unfold inWord at h2
    simp only [ringPushMem]
    rw [memRead_memWrite32_outside (memWf_ringWriteMem hm _ _ _) _ (by omega),
      memRead_ringWriteMem_outside hm (by simpa using hh) (by simpa using hl) h1]

/-- After `RQ.READ` the tail has advanced. -/
theorem pulled_tail {s : State} (hm : memWf s.mem = true) {r : RingId} {len : Nat} (hl : len ≠ 0) :
    (s.pulled r len).tail r = advance (s.cfg.capOf r) (s.tail r).toNat len := by
  unfold State.pulled State.tail State.load32
  simp only [hl, if_false, store32_mem, store32_cfg]
  exact memRead32_memWrite32_same hm _ _

/-- `RQ.READ` changes no byte but the tail word. -/
theorem pulled_outside {s : State} (hm : memWf s.mem = true) {r : RingId} {len a : Nat}
    (h : ¬ inWord (ringOf s.cfg r).offT a) : (s.pulled r len).load8 a = s.load8 a := by
  unfold State.pulled State.load8
  split_ifs with hs
  · rfl
  · unfold inWord at h
    exact memRead_memWrite32_outside hm _ (by omega)

/-- A word whose four bytes a change leaves alone reads as before. -/
theorem load32_congr {s t : State} {off : Nat} (h : ∀ a, inWord off a → t.load8 a = s.load8 a) :
    t.load32 off = s.load32 off := memRead32_congr (fun a h1 h2 => h a ⟨h1, h2⟩)

/-! ### A corrupt index inside a primitive (R142): the read, and in the next line the raise -/

/-- `RQ.WRITE` at a corrupt head. -/
theorem RunsIn.rqWriteCorrupt {a : Agent} {s : State} (ha : agentLive s a = true) {r : RingId} {src : List Byte}
    (hs : src ≠ []) (hl : src.length < s.cfg.capOf r) (hh : s.cfg.capOf r ≤ (s.head r).toNat) (acc : Value)
    (k : List Line) : RunsIn a 2 ⟨s, acc, .rqWrite r src :: k⟩ (ringCorruptExit a r k s) := by
  refine RunsIn.head (lineReady_of_live ha (by simp [lineEnabled, hl])) ?_
  simp only [lineStep, lineRqWrite, hs, if_false, ringOf_cap, indexCorrupt, hh, decide_true, if_true]
  exact RunsIn.head (lineReady_of_live ha rfl) (RunsIn.refl _ _)

/-- `RQ.READ` at a corrupt tail. -/
theorem RunsIn.rqReadCorrupt {a : Agent} {s : State} (ha : agentLive s a = true) {r : RingId} {len : Nat}
    (hs : len ≠ 0) (hl : len < s.cfg.capOf r) (ht : s.cfg.capOf r ≤ (s.tail r).toNat) (acc : Value) (k : List Line) :
    RunsIn a 2 ⟨s, acc, .rqRead r len :: k⟩ (ringCorruptExit a r k s) := by
  refine RunsIn.head (lineReady_of_live ha (by simp [lineEnabled, hl])) ?_
  simp only [lineStep, lineRqRead, hs, if_false, ringOf_cap, indexCorrupt, ht, decide_true, if_true]
  exact RunsIn.head (lineReady_of_live ha rfl) (RunsIn.refl _ _)

/-- `RQ.PEEK` at a corrupt tail. -/
theorem RunsIn.rqPeekCorrupt {a : Agent} {s : State} (ha : agentLive s a = true) {r : RingId} {off len : Nat}
    (hl : off + len < s.cfg.capOf r) (ht : s.cfg.capOf r ≤ (s.tail r).toNat) (acc : Value) (k : List Line) :
    RunsIn a 2 ⟨s, acc, .rqPeek r off len :: k⟩ (ringCorruptExit a r k s) := by
  refine RunsIn.head (lineReady_of_live ha (by simp [lineEnabled, hl])) ?_
  simp only [lineStep, lineRqPeek, ringOf_cap, indexCorrupt, ht, decide_true, if_true]
  exact RunsIn.head (lineReady_of_live ha rfl) (RunsIn.refl _ _)

/-! ### CH.INIT and SHM -/

@[simp] theorem memWf_initChannelMem {m : List Host.Cell} (hm : memWf m = true) (c : Nat) :
    memWf (initChannelMem m c) = true := by
  unfold initChannelMem
  exact memWf_memWrite32 (memWf_memWrite32 (memWf_memWrite32 (memWf_memWrite32 hm _ _) _ _) _ _) _ _

/-- After `CH.INIT` the sixteen bytes of the channel's words are 0 and every other byte is as before. -/
theorem memRead_initChannelMem {m : List Host.Cell} (hm : memWf m = true) (c a : Nat) :
    memRead (initChannelMem m c) a = if offTxh c ≤ a ∧ a < offTxh c + 16 then 0 else memRead m a := by
  have h1 := memWf_memWrite32 hm (offTxh c) 0
  have h2 := memWf_memWrite32 h1 (offTxt c) 0
  have h3 := memWf_memWrite32 h2 (offRxh c) 0
  have z : ∀ k, k < 4 → wordByte (0 : Word) k = 0 := by
    intro k hk
    simp [wordByte]
  unfold initChannelMem
  by_cases hd : offRxt c ≤ a ∧ a < offRxt c + 4
  · obtain ⟨k, rfl⟩ := Nat.exists_eq_add_of_le hd.1
    rw [memRead_memWrite32 h3 _ _ k (by omega), z k (by omega), if_pos]
    unfold offTxh offRxt at *; omega
  rw [memRead_memWrite32_outside h3 _ (by omega)]
  by_cases hcc : offRxh c ≤ a ∧ a < offRxh c + 4
  · obtain ⟨k, rfl⟩ := Nat.exists_eq_add_of_le hcc.1
    rw [memRead_memWrite32 h2 _ _ k (by omega), z k (by omega), if_pos]
    unfold offTxh offRxh at *; omega
  rw [memRead_memWrite32_outside h2 _ (by omega)]
  by_cases hb : offTxt c ≤ a ∧ a < offTxt c + 4
  · obtain ⟨k, rfl⟩ := Nat.exists_eq_add_of_le hb.1
    rw [memRead_memWrite32 h1 _ _ k (by omega), z k (by omega), if_pos]
    unfold offTxh offTxt at *; omega
  rw [memRead_memWrite32_outside h1 _ (by omega)]
  by_cases ha : offTxh c ≤ a ∧ a < offTxh c + 4
  · obtain ⟨k, rfl⟩ := Nat.exists_eq_add_of_le ha.1
    rw [memRead_memWrite32 hm _ _ k (by omega), z k (by omega), if_pos]
    omega
  rw [memRead_memWrite32_outside hm _ (by omega), if_neg]
  unfold offTxh offTxt offRxh offRxt at *; omega

/-- `CH.INIT` of channels `0 .. n-1`: their words are 0 and every other byte is as before. -/
theorem memRead_initChannelsMem {m : List Host.Cell} (hm : memWf m = true) (n a : Nat) :
    memWf (initChannelsMem m n) = true ∧
    memRead (initChannelsMem m n) a = if 8 ≤ a ∧ a < 8 + 16 * n then 0 else memRead m a := by
  induction n with
  | zero =>
    refine ⟨hm, ?_⟩
    rw [if_neg (by omega)]; rfl
  | succ n ih =>
    obtain ⟨hw, hr⟩ := ih
    have e : initChannelsMem m (n + 1) = initChannelMem (initChannelsMem m n) n := by
      simp [initChannelsMem, List.range_succ]
    rw [e]
    refine ⟨memWf_initChannelMem hw n, ?_⟩
    rw [memRead_initChannelMem hw, hr]
    unfold offTxh
    by_cases h1 : 8 + 16 * n ≤ a ∧ a < 8 + 16 * n + 16
    · rw [if_pos h1, if_pos (by omega)]
    · rw [if_neg h1]
      by_cases h2 : 8 ≤ a ∧ a < 8 + 16 * n
      · rw [if_pos h2, if_pos (by omega)]
      · rw [if_neg h2, if_neg (by omega)]

end Sys2Proof.Machine
end

