-- ==== Sys2Proof/Laws/Codec.lean ====
section
/-! SUPPORT. The codec: a 16-bit field and its two bytes, padding, header and frame (30_encoding.md R100 to R109;
41_frame_codec.md R161 to R167), and the masks of a status word (R110 to R114). -/

namespace Sys2Proof

open Machine (needOf)

/-! ### Fields and bytes (R102) -/

@[simp] theorem mkHalf_bytes (f : Half) : mkHalf (loByte f) (hiByte f) = f := by
  apply BitVec.eq_of_getLsbD_eq
  intro i hi
  simp only [mkHalf, loByte, hiByte, BitVec.getLsbD_append, BitVec.getLsbD_setWidth, BitVec.getLsbD_ushiftRight]
  by_cases h : i < 8
  · simp [h]
  · have h2 : i - 8 < 8 := by omega
    simp only [h, decide_false, Bool.false_and, h2, decide_true, Bool.true_and]
    simp only [if_false]
    congr 1; omega

/-- A field is its low byte and 256 times its high byte. -/
theorem mkHalf_toNat (lo hi : Byte) : (mkHalf lo hi).toNat = lo.toNat + 256 * hi.toNat := by
  rw [mkHalf, BitVec.toNat_append, Nat.shiftLeft_eq, ← Nat.mul_comm, Nat.mul_comm, ← Nat.shiftLeft_eq,
    ← Nat.shiftLeft_add_eq_or_of_lt lo.isLt, Nat.shiftLeft_eq]
  omega

theorem mkHalf_inj {lo hi lo' hi' : Byte} (h : mkHalf lo hi = mkHalf lo' hi') : lo = lo' ∧ hi = hi' := by
  have h1 := congrArg BitVec.toNat h
  rw [mkHalf_toNat, mkHalf_toNat] at h1
  have := lo.isLt; have := lo'.isLt; have := hi.isLt; have := hi'.isLt
  constructor <;> apply BitVec.eq_of_toNat_eq <;> omega

/-! ### Padding (R161, R162) -/

theorem fhPad_lt (n : Nat) : fhPad n < 4 := Nat.mod_lt _ (by decide)

/-- A padded length is a multiple of 4. -/
theorem fhPad_add (n : Nat) : (n + fhPad n) % 4 = 0 := by unfold fhPad; omega

theorem fhFrameSize_mod (n : Nat) : fhFrameSize n % 4 = 0 := fhPad_add n

theorem le_fhFrameSize (n : Nat) : n ≤ fhFrameSize n := Nat.le_add_right _ _

theorem fhFrameSize_lt (n : Nat) : fhFrameSize n < n + 4 := by have := fhPad_lt n; unfold fhFrameSize; omega

/-! ### Headers -/

@[simp] theorem headerBytes_length (h : Header) : (headerBytes h).length = headerSize := rfl

@[simp] theorem encodeHeader_length (cfg : Cfg) (chid cseq : Byte) (fseq : Half) (n : Nat) :
    (encodeHeader cfg chid cseq fseq n).length = headerSize := rfl

@[simp] theorem tailBytes_length (payload : List Byte) (pad : Nat) :
    (tailBytes payload pad).length = payload.length + pad := by simp [tailBytes]

/-- Splitting a header into bytes and assembling it again (R102). -/
theorem decodeHeader_headerBytes (cfg : Cfg) (h : Header) :
    decodeHeader cfg (headerBytes h) =
      if h.startMagic ≠ cfg.startMagic then .badMagic
      else if h.totalLen.toNat < headerSize then .badLength else .ok h := by
  simp only [headerBytes, decodeHeader, mkHalf_bytes]

/-- The header that `FH.ENCODE` builds (R163). -/
def sentHeader (cfg : Cfg) (chid cseq : Byte) (fseq : Half) (n : Nat) : Header where
  startMagic := cfg.startMagic
  frameSeq := fseq
  fragCfg := cfg.fragSingle
  totalLen := BitVec.ofNat 16 (headerSize + n)
  channelId := chid
  channelSeq := cseq
  reserved := 0

theorem encodeHeader_eq (cfg : Cfg) (chid cseq : Byte) (fseq : Half) (n : Nat) :
    encodeHeader cfg chid cseq fseq n = headerBytes (sentHeader cfg chid cseq fseq n) := by
  simp [encodeHeader, headerBytes, sentHeader, loByte, hiByte]

theorem lenFits_iff (n : Nat) : lenFits n = true ↔ headerSize + n ≤ 65535 := by simp [lenFits]

theorem sentHeader_totalLen {cfg : Cfg} {chid cseq : Byte} {fseq : Half} {n : Nat} (h : lenFits n = true) :
    (sentHeader cfg chid cseq fseq n).totalLen.toNat = headerSize + n := by
  rw [lenFits_iff] at h
  simp only [sentHeader, BitVec.toNat_ofNat]
  exact Nat.mod_eq_of_lt (by omega)

/-- What `FH.ENCODE` builds, `FH.DECODE` takes apart (R167 (a), (b)). -/
theorem decodeHeader_encodeHeader (cfg : Cfg) (chid cseq : Byte) (fseq : Half) {n : Nat} (h : lenFits n = true) :
    decodeHeader cfg (encodeHeader cfg chid cseq fseq n) = .ok (sentHeader cfg chid cseq fseq n) := by
  rw [encodeHeader_eq, decodeHeader_headerBytes, sentHeader_totalLen h, if_neg (by simp [sentHeader]),
    if_neg (by omega)]

/-- A header that decodes has the magic and a length of at least 12. -/
theorem decodeHeader_ok {cfg : Cfg} {b : List Byte} {h : Header} (hd : decodeHeader cfg b = .ok h) :
    h.startMagic = cfg.startMagic ∧ headerSize ≤ h.totalLen.toNat ∧ b = headerBytes h := by
  unfold decodeHeader at hd
  split at hd
  · rename_i b0 b1 b2 b3 b4 b5 b6 b7 b8 b9 b10 b11
    have hd' : (if mkHalf b0 b1 ≠ cfg.startMagic then HeaderResult.badMagic
        else if (mkHalf b6 b7).toNat < headerSize then HeaderResult.badLength
        else HeaderResult.ok ⟨mkHalf b0 b1, mkHalf b2 b3, mkHalf b4 b5, mkHalf b6 b7, b8, b9, mkHalf b10 b11⟩)
        = HeaderResult.ok h := hd
    clear hd
    split_ifs at hd' with h1 h2
    cases hd'
    refine ⟨by simpa using h1, by simpa using h2, ?_⟩
    simp only [headerBytes]
    have e : ∀ lo hi : Byte, loByte (mkHalf lo hi) = lo ∧ hiByte (mkHalf lo hi) = hi := by
      intro lo hi
      have h3 := mkHalf_inj (mkHalf_bytes (mkHalf lo hi))
      exact h3
    simp only [(e _ _).1, (e _ _).2]
  · cases hd

/-! ### Frames (R165) -/

theorem needOf_eq (n : Nat) : needOf n = fhFrameSize (headerSize + n) := rfl

theorem frameImage_length (cfg : Cfg) (chid cseq : Byte) (fseq : Half) (payload : List Byte) :
    (frameImage cfg chid cseq fseq payload).length = needOf payload.length := by
  simp only [frameImage, List.length_append, encodeHeader_length, tailBytes_length, needOf]
  omega

/-- The header of a frame image. -/
theorem frameImage_take (cfg : Cfg) (chid cseq : Byte) (fseq : Half) (payload : List Byte) :
    (frameImage cfg chid cseq fseq payload).take headerSize = encodeHeader cfg chid cseq fseq payload.length := by
  rw [frameImage, List.take_append_of_le_length (by simp), List.take_of_length_le (by simp)]

/-- The payload of a frame image. -/
theorem frameImage_payload (cfg : Cfg) (chid cseq : Byte) (fseq : Half) (payload : List Byte) :
    ((frameImage cfg chid cseq fseq payload).drop headerSize).take payload.length = payload := by
  rw [frameImage, List.drop_append_of_le_length (by simp), List.drop_of_length_le (by simp), List.nil_append,
    tailBytes, List.take_append_of_le_length (Nat.le_refl _), List.take_length]

/-! ### Markers and masks (00_scope.md R8 (d) to (f)) -/

/-- `n & (n - 1) = 0` means that `n` is a power of two. -/
theorem pow_of_land_pred {n : Nat} (h0 : n ≠ 0) (h : n &&& (n - 1) = 0) : ∃ k, n = 2 ^ k := by
  induction n using Nat.strong_induction_on with
  | _ n ih =>
    have hd : n / 2 &&& (n - 1) / 2 = 0 := by rw [← Nat.and_div_two, h]
    rcases Nat.mod_two_eq_zero_or_one n with he | ho
    · have e : (n - 1) / 2 = n / 2 - 1 := by omega
      rw [e] at hd
      obtain ⟨k, hk⟩ := ih (n / 2) (by omega) (by omega) hd
      exact ⟨k + 1, by rw [Nat.pow_succ]; omega⟩
    · have e : (n - 1) / 2 = n / 2 := by omega
      rw [e, Nat.and_self] at hd
      exact ⟨0, by simp; omega⟩

/-- A marker or mask is one set bit. -/
theorem oneBit_getLsbD {w : Half} (h : oneBit w = true) : ∃ k, k < 16 ∧ ∀ i, w.getLsbD i = decide (i = k) := by
  simp only [oneBit, Bool.and_eq_true, bne_iff_ne, ne_eq, beq_iff_eq] at h
  obtain ⟨h0, h1⟩ := h
  have hn : w.toNat ≠ 0 := fun hz => h0 (BitVec.eq_of_toNat_eq (by simpa using hz))
  have h2 : w.toNat &&& (w.toNat - 1) = 0 := by
    have h3 := congrArg BitVec.toNat h1
    rw [BitVec.toNat_and, BitVec.toNat_sub] at h3
    have h4 : (2 ^ 16 - (1 : Half).toNat + w.toNat) % 2 ^ 16 = w.toNat - 1 := by
      have := w.isLt
      have e : (1 : Half).toNat = 1 := rfl
      rw [e]; omega
    rw [h4] at h3
    simpa using h3
  obtain ⟨k, hk⟩ := pow_of_land_pred hn h2
  have hlt := w.isLt
  rw [hk] at hlt
  refine ⟨k, (Nat.pow_lt_pow_iff_right (by decide)).1 hlt, fun i => ?_⟩
  rw [BitVec.getLsbD, hk, Nat.testBit_two_pow]
  exact decide_eq_decide.2 eq_comm

/-- Two different single bits have none in common. -/
theorem oneBit_and {v w : Half} (hv : oneBit v = true) (hw : oneBit w = true) (hne : v ≠ w) : v &&& w = 0 := by
  obtain ⟨i, _, hi⟩ := oneBit_getLsbD hv
  obtain ⟨j, _, hj⟩ := oneBit_getLsbD hw
  apply BitVec.eq_of_getLsbD_eq
  intro n _
  rw [BitVec.getLsbD_and, hi, hj]
  by_cases h1 : n = i
  · by_cases h2 : n = j
    · exact absurd (BitVec.eq_of_getLsbD_eq (fun m _ => by rw [hi, hj, ← h1, ← h2])) hne
    · simp [h2]
  · simp [h1]

theorem oneBit_ne_zero {v : Half} (hv : oneBit v = true) : v ≠ 0 := by
  simp only [oneBit, Bool.and_eq_true, bne_iff_ne] at hv
  exact hv.1

/-- A masked word keeps what it shares with one of its parts. -/
theorem and_or_self (a b : Half) : (a ||| b) &&& a = a := by
  apply BitVec.eq_of_getLsbD_eq; intro i _; simp only [BitVec.getLsbD_and, BitVec.getLsbD_or]
  cases a.getLsbD i <;> simp

theorem or_and_of_zero {a b m : Half} (h : a &&& m = 0) : (a ||| b) &&& m = b &&& m := by
  apply BitVec.eq_of_getLsbD_eq; intro i _
  have hi := congrArg (fun w => BitVec.getLsbD w i) h
  simp only [BitVec.getLsbD_and, BitVec.getLsbD_or] at *
  revert hi
  cases a.getLsbD i <;> cases b.getLsbD i <;> cases m.getLsbD i <;> simp

theorem or_right_cancel_of_disjoint {a b c : Half} (hb : a &&& b = 0) (hc : a &&& c = 0) (h : a ||| b = a ||| c) :
    b = c := by
  apply BitVec.eq_of_getLsbD_eq; intro i _
  have h1 := congrArg (fun w => BitVec.getLsbD w i) hb
  have h2 := congrArg (fun w => BitVec.getLsbD w i) hc
  have h3 := congrArg (fun w => BitVec.getLsbD w i) h
  simp only [BitVec.getLsbD_and, BitVec.getLsbD_or] at h1 h2 h3
  revert h1 h2 h3
  cases a.getLsbD i <;> cases b.getLsbD i <;> cases c.getLsbD i <;> simp

/-- The masks of a channel are among the masks of the configuration. -/
theorem Cfg.masks_mem {cfg : Cfg} {c : Nat} (hc : c < cfg.nCh) {m : Half} (hm : m ∈ (cfg.chan c).masks) :
    m ∈ cfg.masks := List.mem_flatMap.2 ⟨_, Cfg.chan_mem hc, hm⟩

end Sys2Proof
end

