-- ==== Sys2Proof/Laws/Conditions.lean ====
section
/-! SUPPORT. Raising each condition, written out: the whole state after it (60_exceptions.md R262 to R268). -/

namespace Sys2Proof.Machine

/-- The crash path, written out (R266). -/
theorem crashPath_eq (s : State) (cause : CrashCause) (c : Nat) :
    crashPath s cause c =
      { s with lstate := s.lstate.crashed, events := s.events ++ [.crashNotify cause c] } := by
  unfold crashPath LinkState.crashed State.emit
  cases s.lstate <;> rfl

/-- `RingCorrupt` (R262). -/
theorem raise_ringCorrupt (s : State) (r : RingId) :
    raise s (.ringCorrupt r) =
      { s with
        errstat := s.errstat ||| 0x01
        lstate := s.lstate.crashed
        events := s.events ++ [.crashNotify (corruptCause r.dir) r.c] } := by
  obtain ⟨d, c⟩ := r
  cases d <;> simp [raise, Condition.crash, crashPath_eq, setFlag, Condition.bit, Condition.halts, corruptCause]

/-- `BadMagic` (R263). -/
theorem raise_badMagic (s : State) (c : Nat) : raise s (.badMagic c) = { s with errstat := s.errstat ||| 0x02 } := by
  simp [raise, Condition.crash, setFlag, Condition.bit, Condition.halts]

/-- `BadLength` (R263). -/
theorem raise_badLength (s : State) (c : Nat) : raise s (.badLength c) = { s with errstat := s.errstat ||| 0x04 } := by
  simp [raise, Condition.crash, setFlag, Condition.bit, Condition.halts]

/-- `PeerNotReady` (R264). -/
theorem raise_peerNotReady (s : State) (c : Nat) :
    raise s (.peerNotReady c) =
      { s with
        errstat := s.errstat ||| 0x08
        halted := true
        lstate := s.lstate.crashed
        events := s.events ++ [.crashNotify .peerNotReady c] } := by
  simp [raise, Condition.crash, crashPath_eq, setFlag, Condition.bit, Condition.halts]

/-- `WqOverflow` (R268). -/
theorem raise_wqOverflow (s : State) : raise s .wqOverflow = { s with errstat := s.errstat ||| 0x10 } := by
  simp [raise, Condition.crash, setFlag, Condition.bit, Condition.halts]

/-- `NoSink` (44_dispatch.md R251). -/
theorem raise_noSink (s : State) : raise s .noSink = { s with errstat := s.errstat ||| 0x20 } := by
  simp [raise, Condition.crash, setFlag, Condition.bit, Condition.halts]

/-- `CrashCmd` (43_link_device.md R222). -/
theorem raise_crashCmd (s : State) :
    raise s .crashCmd =
      { s with
        errstat := s.errstat ||| 0x40
        lstate := s.lstate.crashed
        events := s.events ++ [.crashNotify .crashCmd 0] } := by
  simp [raise, Condition.crash, crashPath_eq, setFlag, Condition.bit, Condition.halts]

/-- Outside `NV_SAVE` the crash path ends in `OFFLINE`. -/
theorem crashed_of_ne {l : LinkState} (h : l ≠ .nvSave) : l.crashed = .offline := by simp [LinkState.crashed, h]

/-- A `RingCorrupt` raised inside a primitive, by the agent that runs it: a sender ends its send, every other agent
goes on with what its rule says (R262). -/
theorem ringCorruptExit_other {a : Agent} (h : ∀ k, a ≠ .snd k) (r : RingId) (k : List Line) (s : State) :
    (ringCorruptExit a r k s).st = raise s (.ringCorrupt r) := by
  cases a <;> first | rfl | exact absurd rfl (h _)

end Sys2Proof.Machine
end

