-- ==== Sys2Proof/Laws/Phases.lean ====
section
/-! SUPPORT. The lines of an operation neither read nor write the phases: what a line does is the same whatever the
phases hold, and it leaves them as they are. -/

namespace Sys2Proof.Machine

/-- `s` with the phases, and the other fields that no line touches, of `p`. -/
def State.rephase (s p : State) : State :=
  { s with
    isr := p.isr, lw := p.lw, host := p.host, snds := p.snds, call := p.call, ret := p.ret
    nextSnd := p.nextSnd, placed := p.placed, sched := p.sched }

/-- What a line leaves, with the phases of `p`. -/
def Out.rephase (o : Out) (p : State) : Out := ⟨o.st.rephase p, o.acc, o.todo⟩

@[simp] theorem rephase_self (s : State) : s.rephase s = s := rfl

@[simp] theorem rephase_rephase (s p q : State) : (s.rephase p).rephase q = s.rephase q := rfl

@[simp] theorem agentLive_rephase (s p : State) (a : Agent) : agentLive (s.rephase p) a = agentLive s a :=
  agentLive_congr rfl rfl a

theorem raise_rephase (s p : State) (k : Condition) : raise (s.rephase p) k = (raise s k).rephase p := by
  cases k with
  | ringCorrupt r => rw [raise_ringCorrupt, raise_ringCorrupt]; rfl
  | badMagic c => rw [raise_badMagic, raise_badMagic]; rfl
  | badLength c => rw [raise_badLength, raise_badLength]; rfl
  | peerNotReady c => rw [raise_peerNotReady, raise_peerNotReady]; rfl
  | wqOverflow => rw [raise_wqOverflow, raise_wqOverflow]; rfl
  | noSink => rw [raise_noSink, raise_noSink]; rfl
  | crashCmd => rw [raise_crashCmd, raise_crashCmd]; rfl
  | txNoSpace c => rw [raise_txNoSpace, raise_txNoSpace]

theorem ringCorruptExit_rephase (a : Agent) (r : RingId) (k : List Line) (s p : State) :
    ringCorruptExit a r k (s.rephase p) = (ringCorruptExit a r k s).rephase p := by
  have e : ∀ l, (s.rephase p).setLock r.c l = (s.setLock r.c l).rephase p := fun _ => rfl
  cases a with
  | snd j => simp only [ringCorruptExit, sendAbort, e, raise_rephase]; rfl
  | isr => simp only [ringCorruptExit, raise_rephase]; rfl
  | lw => simp only [ringCorruptExit, raise_rephase]; rfl
  | dw => simp only [ringCorruptExit, raise_rephase]; rfl
  | host => simp only [ringCorruptExit, raise_rephase]; rfl
  | call => simp only [ringCorruptExit, raise_rephase]; rfl

/-- Whether a line is a step does not depend on the phases. -/
theorem lineReady_rephase (a : Agent) (l : Line) (s p : State) : lineReady a l (s.rephase p) = lineReady a l s := by
  unfold lineReady
  rw [agentLive_rephase]
  cases l <;> rfl

/-- What a line does does not depend on the phases. -/
theorem lineStep_rephase (a : Agent) (l : Line) (acc : Value) (k : List Line) (s p : State) :
    lineStep a l acc k (s.rephase p) = (lineStep a l acc k s).rephase p := by
  have e : ∀ c x, (s.rephase p).setLock c x = (s.setLock c x).rephase p := fun _ _ => rfl
  cases l
  case rqWrite r src =>
    show lineRqWrite r src k (s.rephase p) = (lineRqWrite r src k s).rephase p
    simp only [lineRqWrite]
    have e1 : (s.rephase p).head r = s.head r := rfl
    have e2 : (s.rephase p).cfg = s.cfg := rfl
    rw [e1, e2]
    split_ifs <;> rfl
  case rqRead r len =>
    show lineRqRead r len k (s.rephase p) = (lineRqRead r len k s).rephase p
    simp only [lineRqRead]
    have e1 : (s.rephase p).tail r = s.tail r := rfl
    have e2 : (s.rephase p).cfg = s.cfg := rfl
    rw [e1, e2]
    split_ifs <;> rfl
  case rqPeek r off len =>
    show lineRqPeek r off len k (s.rephase p) = (lineRqPeek r off len k s).rephase p
    simp only [lineRqPeek]
    have e1 : (s.rephase p).tail r = s.tail r := rfl
    have e2 : (s.rephase p).cfg = s.cfg := rfl
    rw [e1, e2]
    split_ifs <;> rfl
  case sendReady c chid payload =>
    show lineSendReady a c chid payload acc k (s.rephase p) = (lineSendReady a c chid payload acc k s).rephase p
    simp only [lineSendReady, sendAbort, e, raise_rephase]
    split_ifs <;> rfl
  case sendTest c chid payload =>
    show lineSendTest a c chid payload acc k (s.rephase p) = (lineSendTest a c chid payload acc k s).rephase p
    simp only [lineSendTest, sendAbort, e, raise_rephase]
    split_ifs <;> rfl
  case sendFit c chid payload =>
    show lineSendFit c chid payload acc k (s.rephase p) = (lineSendFit c chid payload acc k s).rephase p
    unfold lineSendFit
    cases acc <;> try rfl
    simp only [raise_rephase]
    split_ifs <;> rfl
  case recvAvail c =>
    show lineRecvAvail c acc k (s.rephase p) = (lineRecvAvail c acc k s).rephase p
    unfold lineRecvAvail
    cases acc <;> try rfl
    simp only [raise_rephase]
    split_ifs <;> rfl
  case recvLoop c m n =>
    show lineRecvLoop c m n k (s.rephase p) = (lineRecvLoop c m n k s).rephase p
    simp only [lineRecvLoop, raise_rephase]
    split_ifs <;> rfl
  case recvMagic c m n =>
    show lineRecvMagic c m n acc k (s.rephase p) = (lineRecvMagic c m n acc k s).rephase p
    simp only [lineRecvMagic, raise_rephase]
    split_ifs <;> rfl
  case recvLength c m n =>
    show lineRecvLength c m n acc k (s.rephase p) = (lineRecvLength c m n acc k s).rephase p
    unfold lineRecvLength
    rw [raise_rephase]
    split <;> rfl
  case recvSize c d m n =>
    show lineRecvSize c d m n k (s.rephase p) = (lineRecvSize c d m n k s).rephase p
    simp only [lineRecvSize, raise_rephase]
    split_ifs <;> rfl
  case frameRxTest c d =>
    show lineFrameRxTest c d acc k (s.rephase p) = (lineFrameRxTest c d acc k s).rephase p
    simp only [lineFrameRxTest, raise_rephase]
    split_ifs <;> rfl
  case frameRxSize c d =>
    show lineFrameRxSize c d acc k (s.rephase p) = (lineFrameRxSize c d acc k s).rephase p
    unfold lineFrameRxSize
    cases acc <;> try rfl
    simp only [raise_rephase]
    split_ifs <;> rfl
  case ackReq c w =>
    show lineAckReq c w k (s.rephase p) = (lineAckReq c w k s).rephase p
    have e2 : (s.rephase p).cfg = s.cfg := rfl
    simp only [lineAckReq, e2]
    split_ifs <;> rfl
  case work =>
    show lineWork k (s.rephase p) = (lineWork k s).rephase p
    have e2 : (s.rephase p).wq = s.wq := rfl
    unfold lineWork
    rw [e2]
    cases s.wq <;> rfl
  case noncmd w =>
    show lineNoncmd w k (s.rephase p) = (lineNoncmd w k s).rephase p
    have e2 : (s.rephase p).lstate = s.lstate := rfl
    simp only [lineNoncmd, e2]
    split_ifs <;> rfl
  case noncmdReady w =>
    show lineNoncmdReady w acc k (s.rephase p) = (lineNoncmdReady w acc k s).rephase p
    simp only [lineNoncmdReady, raise_rephase]
    split_ifs <;> rfl
  case phoneStart =>
    show linePhoneStart k (s.rephase p) = (linePhoneStart k s).rephase p
    have e2 : (s.rephase p).lstate = s.lstate := rfl
    simp only [linePhoneStart, e2]
    split_ifs <;> rfl
  case setOnline =>
    show lineSetOnline k (s.rephase p) = (lineSetOnline k s).rephase p
    have e2 : (s.rephase p).lstate = s.lstate := rfl
    simp only [lineSetOnline, e2]
    split_ifs <;> rfl
  case phoneRing =>
    show linePhoneRing k (s.rephase p) = (linePhoneRing k s).rephase p
    have e2 : (s.rephase p).lstate = s.lstate := rfl
    simp only [linePhoneRing, e2]
    split_ifs <;> rfl
  case crashExit =>
    show lineCrashExit k (s.rephase p) = (lineCrashExit k s).rephase p
    have e2 : (s.rephase p).lstate = s.lstate := rfl
    simp only [lineCrashExit, e2]
    split_ifs <;> rfl
  case crashAct =>
    show lineCrashAct k (s.rephase p) = (lineCrashAct k s).rephase p
    simp only [lineCrashAct, raise_rephase]
    rfl
  case ringCorrupt r => exact ringCorruptExit_rephase a r k s p
  case crash cause c =>
    show lineCrash cause c k (s.rephase p) = (lineCrash cause c k s).rephase p
    simp only [lineCrash, crashPath_eq]
    rfl
  case isrPush w =>
    show lineIsrPush w k (s.rephase p) = (lineIsrPush w k s).rephase p
    have e2 : (s.rephase p).wq = s.wq := rfl
    have e3 : (s.rephase p).cfg = s.cfg := rfl
    simp only [lineIsrPush, e2, e3, raise_rephase]
    split_ifs <;> rfl
  all_goals rfl

/-- A line leaves the phases as they are. -/
theorem lineStep_phases (a : Agent) (l : Line) (acc : Value) (k : List Line) (s : State) :
    (lineStep a l acc k s).st = (lineStep a l acc k s).st.rephase s := by
  have h := lineStep_rephase a l acc k s s
  rw [rephase_self] at h
  exact congrArg Out.st h

/-- What a run of lines does does not depend on the phases. -/
theorem runLines_rephase (n : Nat) (a : Agent) (o : Out) (p : State) :
    runLines n a (o.rephase p) = (runLines n a o).rephase p := by
  induction n generalizing o with
  | zero => rfl
  | succ n ih =>
    obtain ⟨s, acc, todo⟩ := o
    cases todo with
    | nil => rfl
    | cons l k =>
      by_cases h : lineReady a l s = true
      · have h' : lineReady a l (s.rephase p) = true := by rw [lineReady_rephase]; exact h
        rw [runLines_ready h, ← ih, ← lineStep_rephase]
        exact runLines_ready h' n acc k
      · simp only [Bool.not_eq_true] at h
        have h' : lineReady a l (s.rephase p) = false := by rw [lineReady_rephase]; exact h
        rw [runLines_held h]
        exact runLines_held h' _ acc k

/-- A run of lines leaves the phases as they are. -/
theorem runLines_phases (n : Nat) (a : Agent) (o : Out) :
    (runLines n a o).st = (runLines n a o).st.rephase o.st := by
  have h := runLines_rephase n a o o.st
  exact congrArg Out.st h

/-- A run, with other phases. -/
theorem RunsIn.rephase {a : Agent} {b : Nat} {o o' : Out} (h : RunsIn a b o o') (p : State) :
    RunsIn a b (o.rephase p) (o'.rephase p) := by
  obtain ⟨n, hn, hr⟩ := h
  refine ⟨n, hn, ?_⟩
  unfold Runs at *
  rw [runLines_rephase, hr]

/-! ### Writing and reading a phase -/

/-- A sender's phase is read back as it was written. -/
theorem setSender_lookup {ps : List (Nat × Thread)} {k : Nat} {th : Thread} (h : th.todo ≠ []) :
    (setSender ps k th).lookup k = some th := by
  induction ps with
  | nil => simp [setSender, h]
  | cons p ps ih =>
    obtain ⟨j, u⟩ := p
    by_cases hj : j = k
    · subst hj; simp [setSender, h]
    · have hk : (k == j) = false := by simpa using fun e => hj e.symm
      simp [setSender, hj, List.lookup_cons, hk, ih]

/-- Of two phases of one sender the later one stays. -/
theorem setSender_twice {ps : List (Nat × Thread)} {k : Nat} {th th' : Thread} (h : th.todo ≠ []) :
    setSender (setSender ps k th) k th' = setSender ps k th' := by
  induction ps with
  | nil => simp [setSender, h]
  | cons p ps ih =>
    obtain ⟨j, u⟩ := p
    by_cases hj : j = k
    · subst hj; simp [setSender, h]
    · simp [setSender, hj, ih]

/-- The senders after one of them took a step: the others, and that one unless it has ended. -/
theorem mem_setSender {ps : List (Nat × Thread)} {k : Nat} {th : Thread} {p : Nat × Thread}
    (h : p ∈ setSender ps k th) : p ∈ ps ∨ p = (k, th) ∧ th.todo ≠ [] := by
  induction ps with
  | nil =>
    simp only [setSender] at h
    split_ifs at h with ht
    · simp at h
    · exact .inr ⟨by simpa using h, ht⟩
  | cons q ps ih =>
    simp only [setSender] at h
    split_ifs at h with hq ht
    · exact .inl (List.mem_cons_of_mem _ h)
    · rcases List.mem_cons.1 h with h | h
      · exact .inr ⟨h, ht⟩
      · exact .inl (List.mem_cons_of_mem _ h)
    · rcases List.mem_cons.1 h with h | h
      · exact .inl (by rw [h]; simp)
      · exact (ih h).imp_left (List.mem_cons_of_mem _)

/-- A sender that has something to run is among the senders in progress. -/
theorem thread_sender_mem {s : State} {k : Nat} (h : (s.thread (.snd k)).todo ≠ []) :
    (k, s.thread (.snd k)) ∈ s.snds := by
  simp only [State.thread] at h ⊢
  generalize s.snds = ps at *
  induction ps with
  | nil => exact absurd rfl h
  | cons p ps ih =>
    obtain ⟨j, u⟩ := p
    by_cases hj : k = j
    · subst hj; simp
    · have hk : (k == j) = false := by simpa using hj
      simp only [List.lookup_cons, hk] at h ⊢
      exact List.mem_cons_of_mem _ (ih h)

/-- A phase is read back as it was written. -/
theorem thread_setThread {s : State} {a : Agent} {th : Thread} (ha : a ≠ .dw) (h : th.todo ≠ []) :
    (s.setThread a th).thread a = th := by
  cases a with
  | snd k => simp [State.thread, State.setThread, setSender_lookup h]
  | dw => exact absurd rfl ha
  | isr => rfl
  | lw => rfl
  | host => rfl
  | call => rfl

/-- Writing a phase changes phases only. -/
theorem setThread_rephase (s : State) (a : Agent) (th : Thread) : s.setThread a th = s.rephase (s.setThread a th) := by
  cases a <;> rfl

/-- A line taken with the agent's phase written out leads where it leads without. -/
theorem settle_lineStep {a : Agent} (ha : a ≠ .dw) (l : Line) (acc : Value) (k : List Line) (s : State) :
    settle a (lineStep a l acc k (s.setThread a ⟨acc, l :: k⟩)) = settle a (lineStep a l acc k s) := by
  have hp := lineStep_phases a l acc k s
  rw [setThread_rephase, lineStep_rephase]
  generalize lineStep a l acc k s = o at *
  obtain ⟨t, v, todo⟩ := o
  simp only at hp
  rw [hp]
  cases todo with
  | nil =>
    simp only [Out.rephase, settle_nil, State.done]
    cases a with
    | snd j => simp only [State.setThread, State.rephase]; rw [setSender_twice (by simp)]
    | dw => exact absurd rfl ha
    | isr => rfl
    | lw => rfl
    | host => rfl
    | call => rfl
  | cons l' k' =>
    simp only [Out.rephase, settle_cons]
    cases a with
    | snd j => simp only [State.setThread, State.rephase]; rw [setSender_twice (by simp)]
    | dw => exact absurd rfl ha
    | isr => rfl
    | lw => rfl
    | host => rfl
    | call => rfl

end Sys2Proof.Machine
end

