-- ==== Sys2Proof/Laws/Drain.lean ====
section
/-! SUPPORT. The drain pass of `CH.RECV_PENDING` as a whole run (42_channel.md R191, R192): one frame of it, and
where it ends or holds, within the lines that its meaning gives it. -/

namespace Sys2Proof.Machine

/-- The payload of the frame at the tail of RX ring `c` whose header is `d`: what is pushed to `RXQ` (R192 (c)). -/
def State.rxPayload (s : State) (c : Nat) (d : Header) : List Byte :=
  ((s.ringBytes (rxRing c) (s.tail (rxRing c)).toNat (fhFrameSize d.totalLen.toNat)).take d.totalLen.toNat).drop
    headerSize

/-- The state after the frame at the tail of RX ring `c`, with header `d`, is consumed and pushed (R191 V10, V11). -/
def State.took (s : State) (c : Nat) (d : Header) : State :=
  { s.pulled (rxRing c) (fhFrameSize d.totalLen.toNat) with rxq := s.rxq ++ [⟨d.channelId, s.rxPayload c d⟩] }

@[simp] theorem took_rephase (s p : State) (c : Nat) (d : Header) : (s.rephase p).took c d = (s.took c d).rephase p := by
  unfold State.took State.pulled
  split_ifs with h
  · have h' : fhFrameSize d.totalLen.toNat = 0 := h
    simp only
    rfl
  · rfl

theorem took_eq (s : State) (c : Nat) (d : Header) :
    s.took c d = { s with mem := (s.pulled (rxRing c) (fhFrameSize d.totalLen.toNat)).mem
                          rxq := s.rxq ++ [⟨d.channelId, s.rxPayload c d⟩] } := by
  unfold State.took; rw [pulled_eq]

@[simp] theorem took_cfg (s : State) (c : Nat) (d : Header) : (s.took c d).cfg = s.cfg := by rw [took_eq]

@[simp] theorem agentLive_took (s : State) (c : Nat) (d : Header) (a : Agent) :
    agentLive (s.took c d) a = agentLive s a := by rw [took_eq]; exact agentLive_congr rfl rfl a

/-- V9 to V11: room, the read, the push. -/
theorem RunsIn.consume {s : State} (ha : agentLive s .lw = true) {c : Nat} {d : Header}
    (hroom : s.rxq.length < s.cfg.rxqDepth) (hl : fhFrameSize d.totalLen.toNat < s.cfg.capOf (rxRing c))
    (ht : (s.tail (rxRing c)).toNat < s.cfg.capOf (rxRing c)) (acc : Value) (k : List Line) :
    RunsIn .lw (fhFrameSize d.totalLen.toNat + 5)
      ⟨s, acc, .recvHold :: .rqRead (rxRing c) (fhFrameSize d.totalLen.toNat) :: .recvPush d :: k⟩
      ⟨s.took c d, .unit, k⟩ := by
  refine RunsIn.head (lineReady_of_live ha (by simpa [lineEnabled] using hroom)) ?_
  refine RunsIn.mono (RunsIn.trans (RunsIn.rqRead ha hl ht _ _) ?_)
    (show (fhFrameSize d.totalLen.toNat + 3) + 1 ≤ fhFrameSize d.totalLen.toNat + 4 by omega)
  refine RunsIn.head (lineReady_of_live (by simpa using ha) rfl) ?_
  have e : (s.pulled (rxRing c) (fhFrameSize d.totalLen.toNat)).rxq = s.rxq := by rw [pulled_eq]
  simp only [lineStep, lineRecvPush, Value.bytesOf, e]
  exact RunsIn.refl _ _

/-- V5 to V7 for a header that decodes. -/
theorem RunsIn.decodeGood {s : State} (ha : agentLive s .lw = true) {c : Nat} {d : Header}
    (hd : s.rxHeader c = .ok d) (a n : Nat) (k : List Line) :
    RunsIn .lw 3 ⟨s, .bytes (s.ringBytes (rxRing c) (s.tail (rxRing c)).toNat headerSize), .recvDecode c a n :: k⟩
      ⟨s, .unit, .recvSize c d a n :: k⟩ := by
  refine RunsIn.head (lineReady_of_live ha rfl) (RunsIn.head (lineReady_of_live ha rfl) ?_)
  have hd' : decodeHeader s.cfg (s.ringBytes (rxRing c) (s.tail (rxRing c)).toNat headerSize) = .ok d := hd
  simp only [lineStep, Value.bytesOf, hd', lineRecvMagic, Value.header.injEq, reduceCtorEq, if_false]
  refine RunsIn.head (lineReady_of_live ha rfl) ?_
  exact RunsIn.refl _ _

/-- V3 to V8 for a good frame that is all there. -/
theorem RunsIn.peekGood {s : State} (ha : agentLive s .lw = true) {c a : Nat} {d : Header}
    (hcap : headerSize < s.cfg.capOf (rxRing c)) (h12 : headerSize ≤ a) (hd : s.rxHeader c = .ok d)
    (hfs : fhFrameSize d.totalLen.toNat ≤ a)
    (ht : (s.tail (rxRing c)).toNat < s.cfg.capOf (rxRing c)) (n : Nat) (acc : Value) (k : List Line) :
    RunsIn .lw 18 ⟨s, acc, .recvLoop c a n :: k⟩
      ⟨s, .unit, .recvHold :: .rqRead (rxRing c) (fhFrameSize d.totalLen.toNat) :: .recvPush d
        :: .recvLoop c (a - fhFrameSize d.totalLen.toNat) (n + 1) :: k⟩ := by
  refine RunsIn.head (lineReady_of_live ha rfl) ?_
  have h0 : a ≠ 0 := by unfold headerSize at h12; omega
  simp only [lineStep, lineRecvLoop, if_neg h0, if_neg (show ¬ a < headerSize by omega)]
  refine RunsIn.mono (RunsIn.trans (RunsIn.rqPeek ha (by omega) ht _ _) ?_) (show (headerSize + 1) + 4 ≤ 17 by decide)
  rw [Nat.add_zero, Nat.mod_eq_of_lt ht]
  refine RunsIn.trans (RunsIn.decodeGood ha hd _ _ _) (RunsIn.head (lineReady_of_live ha rfl) (b := 0) ?_)
  simp only [lineStep, lineRecvSize, if_neg (show ¬ a < fhFrameSize d.totalLen.toNat by omega)]
  exact RunsIn.refl _ _

/-- V3 to V8 where the pass stops without consuming: `e` is the condition that is raised. -/
theorem RunsIn.peekBad {s : State} (ha : agentLive s .lw = true) {c a : Nat}
    (hcap : headerSize < s.cfg.capOf (rxRing c)) (h12 : headerSize ≤ a)
    (ht : (s.tail (rxRing c)).toNat < s.cfg.capOf (rxRing c))
    {e : Condition} (he : (s.rxHeader c = .badMagic ∧ e = .badMagic c) ∨ (s.rxHeader c = .badLength ∧ e = .badLength c)
      ∨ (∃ d, s.rxHeader c = .ok d ∧ a < fhFrameSize d.totalLen.toNat ∧ e = .badLength c))
    (n : Nat) (acc : Value) (k : List Line) :
    RunsIn .lw 18 ⟨s, acc, .recvLoop c a n :: k⟩ ⟨raise s e, .nat n, k⟩ := by
  refine RunsIn.head (lineReady_of_live ha rfl) ?_
  have h0 : a ≠ 0 := by unfold headerSize at h12; omega
  simp only [lineStep, lineRecvLoop, if_neg h0, if_neg (show ¬ a < headerSize by omega)]
  refine RunsIn.mono (RunsIn.trans (RunsIn.rqPeek ha (by omega) ht _ _) ?_) (show (headerSize + 1) + 4 ≤ 17 by decide)
  rw [Nat.add_zero, Nat.mod_eq_of_lt ht]
  rcases he with ⟨hd, rfl⟩ | ⟨hd, rfl⟩ | ⟨d, hd, hl, rfl⟩
  · refine RunsIn.head (lineReady_of_live ha rfl) (RunsIn.head (lineReady_of_live ha rfl) ?_)
    have hd' : decodeHeader s.cfg (s.ringBytes (rxRing c) (s.tail (rxRing c)).toNat headerSize) = .badMagic := hd
    simp only [lineStep, Value.bytesOf, hd', lineRecvMagic, if_true]
    exact (RunsIn.refl _ _).mono (by omega)
  · refine RunsIn.head (lineReady_of_live ha rfl) (RunsIn.head (lineReady_of_live ha rfl) ?_)
    have hd' : decodeHeader s.cfg (s.ringBytes (rxRing c) (s.tail (rxRing c)).toNat headerSize) = .badLength := hd
    simp only [lineStep, Value.bytesOf, hd', lineRecvMagic, Value.header.injEq, reduceCtorEq, if_false]
    exact RunsIn.head (lineReady_of_live ha rfl) ((RunsIn.refl _ _).mono (by omega))
  · refine RunsIn.trans (RunsIn.decodeGood ha hd _ _ _) (RunsIn.head (lineReady_of_live ha rfl) (b := 0) ?_)
    simp only [lineStep, lineRecvSize, if_pos hl]
    exact RunsIn.refl _ _

/-- The head of a ring is where it was after its tail moved. -/
theorem pulled_head {s : State} (hm : memWf s.mem = true) {r : RingId} {len : Nat} :
    (s.pulled r len).head r = s.head r := by
  unfold State.head
  rw [pulled_cfg]
  refine load32_congr (fun a ha => pulled_outside hm ?_)
  obtain ⟨d, c⟩ := r
  cases d <;> simp only [ringOf, inWord, offTxh, offTxt, offRxh, offRxt] at * <;> omega

/-- Consuming a frame takes its bytes off what is available (R149 (e)). -/
theorem took_avail {s : State} (hm : memWf s.mem = true) {c a : Nat} {d : Header}
    (hcap : s.cfg.capOf (rxRing c) < 2 ^ 31) (hc0 : 0 < s.cfg.capOf (rxRing c)) (ha : s.avail (rxRing c) = (a : Int))
    (h0 : fhFrameSize d.totalLen.toNat ≠ 0) (hfs : fhFrameSize d.totalLen.toNat ≤ a) :
    (s.took c d).avail (rxRing c) = ((a - fhFrameSize d.totalLen.toNat : Nat) : Int) := by
  obtain ⟨h1, h2, h3, h4⟩ := avail_valid hc0 (by omega : 0 ≤ s.avail (rxRing c))
  set fs := fhFrameSize d.totalLen.toNat with hfsd
  have e : (s.took c d).avail (rxRing c) = (s.pulled (rxRing c) fs).avail (rxRing c) := by
    unfold State.took State.avail State.head State.tail State.load32; rfl
  have hlt := Nat.mod_lt ((s.tail (rxRing c)).toNat + fs) hc0
  rw [e, State.avail, pulled_cfg, pulled_head hm, pulled_tail hm h0,
    availResult_valid h1 (by rw [advance_toNat hc0 hcap]; exact hlt), advance_toNat hc0 hcap,
    availOf_eq h1 hlt]
  rw [h3, availOf_eq h1 h2] at ha
  by_cases hw : (s.tail (rxRing c)).toNat + fs < s.cfg.capOf (rxRing c)
  · rw [Nat.mod_eq_of_lt hw]
    split_ifs at ha ⊢ <;> omega
  · rw [Nat.mod_eq_sub_mod (by omega), Nat.mod_eq_of_lt (by
      split_ifs at ha <;> omega)]
    split_ifs at ha ⊢ <;> omega

/-- Where a drain pass leads from its loop, with `a` bytes to go: it ends with `m` more frames counted, or holds in
front of one more at a full `RXQ`. It is the same whatever the count so far and whatever the phases. -/
def PassEnds (s t : State) (c a : Nat) : Prop :=
  (∃ m : Nat, ∀ (p : State) (n : Nat) (acc : Value) (k : List Line),
    RunsIn .lw (a + 23 * (a / 12) + 18) ⟨s.rephase p, acc, .recvLoop c a n :: k⟩ ⟨t.rephase p, .nat (n + m), k⟩)
  ∨ (t.cfg.rxqDepth ≤ t.rxq.length ∧ ∃ (d : Header) (rem m : Nat), t.rxHeader c = .ok d
    ∧ t.avail (rxRing c) = ((fhFrameSize d.totalLen.toNat + rem : Nat) : Int)
    ∧ ∀ (p : State) (n : Nat) (acc : Value) (k : List Line),
      RunsIn .lw (a + 23 * (a / 12) + 18) ⟨s.rephase p, acc, .recvLoop c a n :: k⟩
        ⟨t.rephase p, .unit, .recvHold :: .rqRead (rxRing c) (fhFrameSize d.totalLen.toNat) :: .recvPush d
          :: .recvLoop c rem (n + m) :: k⟩)

/-- Twelve bytes are read for a header. -/
theorem rxHeader_ne_notTwelve (s : State) (c : Nat) : s.rxHeader c ≠ .notTwelve := by
  unfold State.rxHeader
  have h : (s.ringBytes (rxRing c) (s.tail (rxRing c)).toNat headerSize).length = 12 := ringBytes_length _ _ _ _
  generalize s.ringBytes (rxRing c) (s.tail (rxRing c)).toNat headerSize = b at h
  match b, h with
  | [b0, b1, b2, b3, b4, b5, b6, b7, b8, b9, b10, b11], _ =>
    simp only [decodeHeader]
    split_ifs <;> simp

/-- The header of a frame says at least its own length. -/
theorem rxHeader_len {s : State} {c : Nat} {d : Header} (h : s.rxHeader c = .ok d) :
    headerSize ≤ fhFrameSize d.totalLen.toNat := by
  have h1 := (decodeHeader_ok h).2.1
  have h2 := le_fhFrameSize d.totalLen.toNat
  omega

/-- What the worker needs to go on after a pass. -/
def StillGoing (s t : State) : Prop :=
  t.cfg = s.cfg ∧ (memWf s.mem = true → memWf t.mem = true) ∧ t.started = s.started ∧ t.halted = s.halted

theorem StillGoing.live {s t : State} (h : StillGoing s t) (a : Agent) : agentLive t a = agentLive s a :=
  agentLive_congr h.2.2.1 h.2.2.2 a

theorem StillGoing.refl (s : State) : StillGoing s s := ⟨rfl, id, rfl, rfl⟩

theorem StillGoing.trans {s t u : State} (h : StillGoing s t) (h' : StillGoing t u) : StillGoing s u :=
  ⟨h'.1.trans h.1, fun hm => h'.2.1 (h.2.1 hm), h'.2.2.1.trans h.2.2.1, h'.2.2.2.trans h.2.2.2⟩

/-- The conditions of a drain pass stop neither the engine nor its worker (R263). -/
theorem StillGoing.raiseLength (s : State) (c : Nat) : StillGoing s (raise s (.badLength c)) := by
  rw [raise_badLength]; exact ⟨rfl, id, rfl, rfl⟩

theorem StillGoing.raiseMagic (s : State) (c : Nat) : StillGoing s (raise s (.badMagic c)) := by
  rw [raise_badMagic]; exact ⟨rfl, id, rfl, rfl⟩

theorem StillGoing.raiseCorrupt (s : State) (r : RingId) : StillGoing s (raise s (.ringCorrupt r)) := by
  rw [raise_ringCorrupt]; exact ⟨rfl, id, rfl, rfl⟩

theorem StillGoing.took (s : State) (c : Nat) (d : Header) : StillGoing s (s.took c d) := by
  rw [took_eq]; exact ⟨rfl, fun hm => memWf_pulled hm _ _, rfl, rfl⟩

/-- Every drain pass ends or holds, within the lines of its bound (43_link_device.md R232). -/
theorem pass_ends {c : Nat} (a : Nat) : ∀ {s : State}, s.cfg.wf = true → memWf s.mem = true → c < s.cfg.nCh →
    agentLive s .lw = true → s.avail (rxRing c) = (a : Int) → ∃ t, StillGoing s t ∧ PassEnds s t c a := by
  induction a using Nat.strong_induction_on with
  | _ a ih =>
  intro s hw hm hc hlive hav
  have hcap := Cfg.capOf_ok hw (r := rxRing c) hc
  have hav0 : 0 ≤ s.avail (rxRing c) := by omega
  obtain ⟨h1, h2, h3, h4⟩ := avail_valid (by omega) hav0
  have hl : ∀ p : State, agentLive (s.rephase p) .lw = true := fun p => by simpa using hlive
  by_cases h0 : a = 0
  · refine ⟨s, .refl s, .inl ⟨0, fun p n acc k => ?_⟩⟩
    refine RunsIn.mono (RunsIn.head (lineReady_of_live (hl p) rfl) (b := 0) ?_) (by omega)
    simp only [lineStep, lineRecvLoop, h0, if_true]
    exact RunsIn.refl _ _
  by_cases h12 : a < headerSize
  · refine ⟨raise s (.badLength c), .raiseLength s c, .inl ⟨0, fun p n acc k => ?_⟩⟩
    refine RunsIn.mono (RunsIn.head (lineReady_of_live (hl p) rfl) (b := 0) ?_) (by omega)
    simp only [lineStep, lineRecvLoop, if_neg h0, if_pos h12, ← raise_rephase]
    exact RunsIn.refl _ _
  have hcap' : headerSize < s.cfg.capOf (rxRing c) := by unfold headerSize; omega
  have bad : ∀ e, (s.rxHeader c = .badMagic ∧ e = .badMagic c) ∨ (s.rxHeader c = .badLength ∧ e = .badLength c)
      ∨ (∃ d, s.rxHeader c = .ok d ∧ a < fhFrameSize d.totalLen.toNat ∧ e = .badLength c) →
      PassEnds s (raise s e) c a := by
    intro e he
    refine .inl ⟨0, fun p n acc k => ?_⟩
    rw [← raise_rephase]
    exact RunsIn.mono (RunsIn.peekBad (s := s.rephase p) (hl p) hcap' (by omega) h2 he n acc k) (by omega)
  cases hd : s.rxHeader c with
  | badMagic => exact ⟨_, .raiseMagic s c, bad (.badMagic c) (.inl ⟨hd, rfl⟩)⟩
  | badLength => exact ⟨_, .raiseLength s c, bad (.badLength c) (.inr (.inl ⟨hd, rfl⟩))⟩
  | notTwelve => exact absurd hd (rxHeader_ne_notTwelve s c)
  | ok d =>
    have hfs12 := rxHeader_len hd
    by_cases hfs : a < fhFrameSize d.totalLen.toNat
    · exact ⟨_, .raiseLength s c, bad (.badLength c) (.inr (.inr ⟨d, hd, hfs, rfl⟩))⟩
    have peek : ∀ (p : State) (n : Nat) (acc : Value) (k : List Line), RunsIn .lw 18 ⟨s.rephase p, acc, .recvLoop c a n :: k⟩
        ⟨s.rephase p, .unit, .recvHold :: .rqRead (rxRing c) (fhFrameSize d.totalLen.toNat) :: .recvPush d
          :: .recvLoop c (a - fhFrameSize d.totalLen.toNat) (n + 1) :: k⟩ := fun p n acc k =>
      RunsIn.peekGood (s := s.rephase p) (hl p) hcap' (by omega) hd (by omega) h2 n acc k
    by_cases hroom : s.rxq.length < s.cfg.rxqDepth
    · unfold headerSize at hfs12 h12
      obtain ⟨t, hgo, ht⟩ := ih (a - fhFrameSize d.totalLen.toNat) (by omega) (s := s.took c d) (by simpa using hw)
        (by rw [took_eq]; exact memWf_pulled hm _ _) (by simpa using hc) (by simpa using hlive)
        (took_avail hm hcap.2.2 (by omega) hav (by omega) (by omega))
      refine ⟨t, (StillGoing.took s c d).trans hgo, ?_⟩
      have one : ∀ (p : State) (n : Nat) (acc : Value) (k : List Line),
          RunsIn .lw (fhFrameSize d.totalLen.toNat + 23) ⟨s.rephase p, acc, .recvLoop c a n :: k⟩
            ⟨(s.took c d).rephase p, .unit, .recvLoop c (a - fhFrameSize d.totalLen.toNat) (n + 1) :: k⟩ := by
        intro p n acc k
        rw [← took_rephase]
        exact ((peek p n acc k).trans (RunsIn.consume (s := s.rephase p) (hl p) hroom
          (show _ < s.cfg.capOf (rxRing c) by omega) h2 .unit _)).mono (by omega)
      rcases ht with ⟨m, hm'⟩ | ⟨hfull, d', rem, m, hd', hav', hr⟩
      · refine .inl ⟨1 + m, fun p n acc k => ?_⟩
        have := (one p n acc k).trans (hm' p (n + 1) .unit k)
        rw [Nat.add_assoc n 1 m] at this
        exact this.mono (by omega)
      · refine .inr ⟨hfull, d', rem, 1 + m, hd', hav', fun p n acc k => ?_⟩
        have := (one p n acc k).trans (hr p (n + 1) .unit k)
        rw [Nat.add_assoc n 1 m] at this
        exact this.mono (by omega)
    · refine ⟨s, .refl s, .inr ⟨by omega, d, a - fhFrameSize d.totalLen.toNat, 1, hd, by omega, fun p n acc k => ?_⟩⟩
      exact (peek p n acc k).mono (by omega)

/-! ### The whole pass, and the pass of every channel -/

/-- Where a program of the link worker leads within `b` lines, whatever the phases: it goes on to what comes after it,
with the value `v` handed back, or holds at a full `RXQ`. -/
def GoesOn (b : Nat) (s t : State) (prog : List Line) : Prop :=
  (∃ v : Value, ∀ (p : State) (acc : Value) (k : List Line),
    RunsIn .lw b ⟨s.rephase p, acc, prog ++ k⟩ ⟨t.rephase p, v, k⟩)
  ∨ (t.cfg.rxqDepth ≤ t.rxq.length ∧ ∃ rest : List Line, ∀ (p : State) (acc : Value) (k : List Line),
    RunsIn .lw b ⟨s.rephase p, acc, prog ++ k⟩ ⟨t.rephase p, .unit, .recvHold :: (rest ++ k)⟩)

/-- A full `RXQ` is a hold (V9). -/
theorem recvHold_held {t : State} (h : t.cfg.rxqDepth ≤ t.rxq.length) : lineReady .lw .recvHold t = false := by
  simp [lineReady, lineEnabled]; intro _; omega

theorem availOf_toNat {s : State} {r : RingId} (hc : 0 < s.cfg.capOf r) (h : s.avail r ≠ corrupt) :
    ∃ a : Nat, s.avail r = (a : Int) ∧ a < s.cfg.capOf r := by
  have hv := (availResult_corrupt_iff hc (s.head r) (s.tail r)).not.1 h
  have e : s.avail r = availOf (s.cfg.capOf r) (s.head r).toNat (s.tail r).toNat :=
    availResult_valid (by omega) (by omega)
  have hb := availOf_bounds hc (s.head r).toNat (s.tail r).toNat
  exact ⟨(s.avail r).toNat, by omega, by omega⟩

/-- V1 and V2 where the indices are valid. -/
theorem RunsIn.recvStart {s : State} (ha : agentLive s .lw = true) {c a : Nat} (hav : s.avail (rxRing c) = (a : Int))
    (acc : Value) (k : List Line) :
    RunsIn .lw 3 ⟨s, acc, .availHead (rxRing c) :: .recvAvail c :: k⟩ ⟨s, .unit, .recvLoop c a 0 :: k⟩ := by
  have h := (RunsIn.avail ha (rxRing c) acc (.recvAvail c :: k)).trans
    (RunsIn.head (lineReady_of_live ha rfl) (RunsIn.refl _ _))
  simp only [lineStep, lineRecvAvail, hav, if_neg (show (a : Int) ≠ corrupt by unfold corrupt; omega)] at h
  exact h

/-- V1 and V2 where an index is corrupt (60_exceptions.md R262). -/
theorem RunsIn.recvCorrupt {s : State} (ha : agentLive s .lw = true) {c : Nat} (hav : s.avail (rxRing c) = corrupt)
    (acc : Value) (k : List Line) :
    RunsIn .lw 3 ⟨s, acc, .availHead (rxRing c) :: .recvAvail c :: k⟩ ⟨raise s (.ringCorrupt (rxRing c)), .nat 0, k⟩ := by
  have h := (RunsIn.avail ha (rxRing c) acc (.recvAvail c :: k)).trans
    (RunsIn.head (lineReady_of_live ha rfl) (RunsIn.refl _ _))
  simp only [lineStep, lineRecvAvail, hav, if_true] at h
  exact h

/-- The lines a pass over a ring of capacity `cap` takes. -/
theorem recvFuel_enough {a cap : Nat} (h : a < cap) :
    3 + (a + 23 * (a / 12) + 18) ≤ recvFuel cap := by unfold recvFuel; omega

/-- A whole drain pass ends or holds within its lines. -/
theorem recv_goesOn {s : State} (hw : s.cfg.wf = true) (hm : memWf s.mem = true) (ha : agentLive s .lw = true) {c : Nat}
    (hc : c < s.cfg.nCh) :
    ∃ t, StillGoing s t ∧ GoesOn (recvFuel (s.cfg.chan c).capRx) s t [.availHead (rxRing c), .recvAvail c] := by
  have hcap := Cfg.capOf_ok hw (r := rxRing c) hc
  have hl : ∀ p : State, agentLive (s.rephase p) .lw = true := fun p => by simpa using ha
  by_cases hav : s.avail (rxRing c) = corrupt
  · refine ⟨raise s (.ringCorrupt (rxRing c)), .raiseCorrupt s _, .inl ⟨.nat 0, fun p acc k => ?_⟩⟩
    rw [← raise_rephase]
    exact (RunsIn.recvCorrupt (s := s.rephase p) (hl p) hav acc k).mono (by unfold recvFuel; omega)
  · obtain ⟨a, hav, hlt⟩ := availOf_toNat (by omega) hav
    have hfu := recvFuel_enough hlt
    have hst : ∀ (p : State) (acc : Value) (k : List Line), RunsIn .lw 3
        ⟨s.rephase p, acc, [.availHead (rxRing c), .recvAvail c] ++ k⟩ ⟨s.rephase p, .unit, .recvLoop c a 0 :: k⟩ :=
      fun p acc k => RunsIn.recvStart (s := s.rephase p) (hl p) hav acc k
    obtain ⟨t, hgo, ht⟩ := pass_ends a hw hm hc ha hav
    refine ⟨t, hgo, ?_⟩
    rcases ht with ⟨m, hr⟩ | ⟨hfull, d, rem, m, -, -, hr⟩
    · exact .inl ⟨.nat (0 + m), fun p acc k => ((hst p acc k).trans (hr p 0 .unit k)).mono hfu⟩
    · exact .inr ⟨hfull, [.rqRead (rxRing c) (fhFrameSize d.totalLen.toNat), .recvPush d, .recvLoop c rem (0 + m)],
        fun p acc k => ((hst p acc k).trans (hr p 0 .unit k)).mono hfu⟩

/-- `CH.RES_ACK` and `CH.ACK_REQ` inside an operation: what they leave. -/
def State.acked (s : State) (c : Nat) (w : Half) : State :=
  if w &&& (s.cfg.chan c).maskReqAck = 0 then s
  else (doorbellOut s (resAckWord s.cfg c)).setChan c
    { s.chan c with pendingAck := (s.chan c).pendingAck - 1 }

/-- The handshake writes the registers of its channel and, where it answers, the doorbell, nothing else (R194). -/
theorem acked_eq (s : State) (c : Nat) (w : Half) :
    s.acked c w = { s with chans := (s.acked c w).chans, mbxOut := (s.acked c w).mbxOut
                           irqOutPending := (s.acked c w).irqOutPending, events := (s.acked c w).events } := by
  unfold State.acked
  split_ifs
  · rfl
  · rfl

theorem StillGoing.acked (s : State) (c : Nat) (w : Half) : StillGoing s (s.acked c w) := by
  unfold State.acked
  split_ifs
  · exact .refl s
  · exact ⟨by simp, by simp, by simp, by simp⟩

theorem acked_rephase (s p : State) (c : Nat) (w : Half) : (s.rephase p).acked c w = (s.acked c w).rephase p := by
  have e : (s.rephase p).cfg = s.cfg := rfl
  unfold State.acked
  rw [e]
  split_ifs <;> rfl

/-- `CH.ACK_REQ` (R194). -/
theorem RunsIn.ackReq {s : State} (ha : agentLive s .lw = true) (c : Nat) (w : Half) (acc : Value) (k : List Line) :
    RunsIn .lw 4 ⟨s, acc, .ackReq c w :: k⟩ ⟨s.acked c w, .unit, k⟩ := by
  refine RunsIn.head (lineReady_of_live ha rfl) ?_
  simp only [lineStep, lineAckReq, State.acked]
  split_ifs with h
  · exact (RunsIn.refl _ _).mono (by omega)
  · refine RunsIn.head (lineReady_of_live ha rfl) (RunsIn.head (lineReady_of_live ha rfl) ?_)
    simp only [lineStep]
    refine RunsIn.head (lineReady_of_live (by rw [← ha]; exact agentLive_congr (by simp) (by simp) _) rfl) ?_
    exact RunsIn.refl _ _

/-- What a doorbell-mask word does for one channel, within its lines (43_link_device.md R218 N3 to N5). -/
theorem channel_goesOn {s : State} (hw : s.cfg.wf = true) (hm : memWf s.mem = true) (ha : agentLive s .lw = true)
    {c : Nat} (hc : c < s.cfg.nCh) (w : Half) :
    ∃ t, StillGoing s t ∧ GoesOn (5 + recvFuel (s.cfg.chan c).capRx) s t (visitLines w c) := by
  have hg := StillGoing.acked s c w
  obtain ⟨t, hgo, ht⟩ := recv_goesOn (s := s.acked c w) (by rw [hg.1]; exact hw) (hg.2.1 hm) (by rw [hg.live]; exact ha)
    (c := c) (by rw [hg.1]; exact hc)
  rw [hg.1] at ht
  have hl : ∀ p : State, agentLive (s.rephase p) .lw = true := fun p => by simpa using ha
  have h5 : ∀ (p : State) (acc : Value) (k : List Line), RunsIn .lw 5
      ⟨s.rephase p, acc, .resAck c w :: .ackReq c w :: k⟩ ⟨(s.acked c w).rephase p, .unit, k⟩ := by
    intro p acc k
    rw [← acked_rephase]
    exact RunsIn.head (lineReady_of_live (hl p) rfl) (RunsIn.ackReq (hl p) c w .unit k)
  refine ⟨t, hg.trans hgo, ?_⟩
  rcases ht with ⟨v, hr⟩ | ⟨hfull, rest, hr⟩
  · exact .inl ⟨v, fun p acc k => (h5 p acc _).trans (hr p .unit k)⟩
  · exact .inr ⟨hfull, rest, fun p acc k => (h5 p acc _).trans (hr p .unit k)⟩

/-- The lines of a list of channels. -/
def chanLines (w : Half) (cs : List Nat) : List Line := cs.flatMap (visitLines w)

/-- What a doorbell-mask word does for the channels of a list, within their lines. -/
theorem channels_goOn (w : Half) (cs : List Nat) : ∀ (c : Nat) {s : State}, s.cfg.wf = true → memWf s.mem = true →
    agentLive s .lw = true → (∀ x ∈ c :: cs, x < s.cfg.nCh) →
    ∃ t, StillGoing s t ∧
      GoesOn (((c :: cs).map (fun x => 8 + recvFuel (s.cfg.chan x).capRx)).sum) s t (chanLines w (c :: cs)) := by
  induction cs with
  | nil =>
    intro c s hw hm ha hcs
    obtain ⟨t, hgo, ht⟩ := channel_goesOn hw hm ha (hcs c (by simp)) w
    refine ⟨t, hgo, ?_⟩
    rcases ht with ⟨v, hr⟩ | ⟨hfull, rest, hr⟩
    · exact .inl ⟨v, fun p acc k => (hr p acc k).mono (by simp)⟩
    · exact .inr ⟨hfull, rest, fun p acc k => (hr p acc k).mono (by simp)⟩
  | cons c' cs ih =>
    intro c s hw hm ha hcs
    obtain ⟨t, hgo, ht⟩ := channel_goesOn hw hm ha (hcs c (by simp)) w
    have hsum : ((c :: c' :: cs).map (fun x => 8 + recvFuel (s.cfg.chan x).capRx)).sum
        = (8 + recvFuel (s.cfg.chan c).capRx) + ((c' :: cs).map (fun x => 8 + recvFuel (s.cfg.chan x).capRx)).sum := by
      rw [List.map_cons, List.sum_cons]
    have hlines : ∀ k, chanLines w (c :: c' :: cs) ++ k
        = visitLines w c ++ (chanLines w (c' :: cs) ++ k) := by
      intro k; rw [← List.append_assoc]; rfl
    rcases ht with ⟨v, hr⟩ | ⟨hfull, rest, hr⟩
    · obtain ⟨u, hgo', hu⟩ := ih c' (s := t) (by rw [hgo.1]; exact hw) (hgo.2.1 hm) (by rw [hgo.live]; exact ha)
        (fun x hx => by rw [hgo.1]; exact hcs x (List.mem_cons_of_mem _ hx))
      rw [hgo.1] at hu
      refine ⟨u, hgo.trans hgo', ?_⟩
      rcases hu with ⟨v', hr'⟩ | ⟨hfull, rest, hr'⟩
      · refine .inl ⟨v', fun p acc k => ?_⟩
        rw [hlines, hsum]
        exact ((hr p acc _).trans (hr' p v k)).mono (by omega)
      · refine .inr ⟨hfull, rest, fun p acc k => ?_⟩
        rw [hlines, hsum]
        exact ((hr p acc _).trans (hr' p v k)).mono (by omega)
    · refine ⟨t, hgo, .inr ⟨hfull, rest ++ chanLines w (c' :: cs), fun p acc k => ?_⟩⟩
      rw [hlines, hsum, List.append_assoc]
      exact (hr p acc _).mono (by omega)

end Sys2Proof.Machine
end

