-- ==== Sys2Proof/Laws/Frames.lean ====
section
/-! SUPPORT. Two ring writes in a row, the run of a frame's transmission, and the run of a send from its admission to
its end (42_channel.md R182, R187). -/

namespace Sys2Proof.Machine

/-! ### Two writes in a row -/

/-- The head after a write, as a number; also for a write of nothing. -/
theorem pushed_head_toNat {s : State} (hm : memWf s.mem = true) {r : RingId} {src : List Byte}
    (hh : (s.head r).toNat < s.cfg.capOf r) (hcap : s.cfg.capOf r < 2 ^ 31) :
    ((s.pushed r src).head r).toNat = ((s.head r).toNat + src.length) % s.cfg.capOf r := by
  by_cases hs : src = []
  · subst hs
    simp only [State.pushed, if_true, List.length_nil, Nat.add_zero]
    exact (Nat.mod_eq_of_lt hh).symm
  · rw [pushed_head hm hs, advance_toNat (by omega) hcap]

/-- What two writes in a row leave of SHM: they are one write of both byte lists. -/
structure Pushed2 (s t : State) (r : RingId) (bs : List Byte) : Prop where
  only : t = { s with mem := t.mem }
  wf : memWf t.mem = true
  head : (t.head r).toNat = ((s.head r).toNat + bs.length) % s.cfg.capOf r
  bytes : ∀ k, k < bs.length → t.load8 (ringAt (ringOf s.cfg r) (s.head r).toNat k) = bs.getD k 0
  outside : ∀ a, ¬ inSpan (ringOf s.cfg r) (s.head r).toNat bs.length a → ¬ inWord (ringOf s.cfg r).offH a →
    t.load8 a = s.load8 a

theorem pushed2 {s : State} (hm : memWf s.mem = true) {r : RingId} (hc : r.c < s.cfg.nCh)
    (hcap : s.cfg.capOf r < 2 ^ 31) (hh : (s.head r).toNat < s.cfg.capOf r) {x y : List Byte}
    (hl : (x ++ y).length < s.cfg.capOf r) : Pushed2 s ((s.pushed r x).pushed r y) r (x ++ y) := by
  have hlx : x.length < s.cfg.capOf r := by rw [List.length_append] at hl; omega
  have hly : y.length < s.cfg.capOf r := by rw [List.length_append] at hl; omega
  have hm1 := memWf_pushed hm r x
  have hh1 := pushed_head_toNat (src := x) hm hh hcap
  have hlt1 : ((s.pushed r x).head r).toNat < (s.pushed r x).cfg.capOf r := by
    rw [hh1, pushed_cfg]; exact Nat.mod_lt _ (by omega)
  have hpos : ∀ j, ringAt (ringOf s.cfg r) ((s.pushed r x).head r).toNat j
      = ringAt (ringOf s.cfg r) (s.head r).toNat (x.length + j) := by
    intro j
    unfold ringAt
    rw [ringOf_cap, hh1, Nat.mod_add_mod, Nat.add_assoc]
  refine ⟨?_, memWf_pushed hm1 r y, ?_, ?_, ?_⟩
  · rw [pushed_eq (s.pushed r x), pushed_eq s]
  · rw [pushed_head_toNat hm1 hlt1 (by rwa [pushed_cfg]), pushed_cfg, hh1, Nat.mod_add_mod, List.length_append,
      Nat.add_assoc]
  · intro k hk
    rw [List.length_append] at hk hl
    by_cases hkx : k < x.length
    · have e : ((s.pushed r x).pushed r y).load8 (ringAt (ringOf s.cfg r) (s.head r).toNat k)
          = (s.pushed r x).load8 (ringAt (ringOf s.cfg r) (s.head r).toNat k) := by
        apply pushed_outside hm1 (by simpa using hly) hlt1
        · rw [pushed_cfg]
          rintro ⟨j, hj, he⟩
          rw [hpos] at he
          have := ringAt_inj (g := ringOf s.cfg r) (by rw [ringOf_cap]; omega) (by rw [ringOf_cap]; omega) he
          omega
        · rw [pushed_cfg]
          have h1 := ringAt_above_words hc (by omega) (s.head r).toNat k
          have h2 := ringOf_bounds hc
          unfold inWord; omega
      rw [e, pushed_at hm hc hlx hh hkx]
      simp [List.getD_eq_getElem?_getD, List.getElem?_append_left hkx]
    · have hj : k - x.length < y.length := by omega
      have e := pushed_at (s := s.pushed r x) hm1 (by simpa using hc) (by simpa using hly) hlt1 hj
      rw [pushed_cfg, hpos, show x.length + (k - x.length) = k by omega] at e
      rw [e]
      simp [List.getD_eq_getElem?_getD, List.getElem?_append_right (by omega : x.length ≤ k)]
  · intro a h1 h2
    rw [List.length_append] at h1
    rw [pushed_outside hm1 (by simpa using hly) hlt1 (a := a), pushed_outside hm hlx hh]
    · rintro ⟨k, hk, rfl⟩
      exact h1 ⟨k, by omega, rfl⟩
    · exact h2
    · rw [pushed_cfg]
      rintro ⟨k, hk, rfl⟩
      rw [hpos] at h1
      exact h1 ⟨x.length + k, by omega, rfl⟩
    · rwa [pushed_cfg]

/-- The two ring writes of a frame, inside any operation. -/
theorem RunsIn.frameWrites {a : Agent} {s : State} (ha : agentLive s a = true) (hm : memWf s.mem = true) {r : RingId}
    (hcap : s.cfg.capOf r < 2 ^ 31) (hh : (s.head r).toNat < s.cfg.capOf r) {x y : List Byte}
    (hl : (x ++ y).length < s.cfg.capOf r) (acc : Value) (k : List Line) :
    RunsIn a ((x ++ y).length + 6) ⟨s, acc, .rqWrite r x :: .rqWrite r y :: k⟩
      ⟨(s.pushed r x).pushed r y, .unit, k⟩ := by
  rw [List.length_append] at hl
  have h1 := RunsIn.rqWrite (src := x) ha (by omega) hh acc (.rqWrite r y :: k)
  have hh1 := pushed_head_toNat (src := x) hm hh hcap
  have h2 := RunsIn.rqWrite (s := s.pushed r x) (r := r) (src := y) (by simpa using ha)
    (by rw [pushed_cfg]; omega) (by rw [hh1, pushed_cfg]; exact Nat.mod_lt _ (by omega)) .unit k
  exact (h1.trans h2).mono (by rw [List.length_append]; omega)

/-! ### Senders -/

/-- A sender that is not there is added at the end. -/
theorem setSender_new {ps : List (Nat × Thread)} {k : Nat} {th : Thread} (h : ∀ p ∈ ps, p.1 < k) :
    setSender ps k th = if th.todo = [] then ps else ps ++ [(k, th)] := by
  induction ps with
  | nil => rfl
  | cons p ps ih =>
    have hp : p.1 ≠ k := Nat.ne_of_lt (h p (by simp))
    have hi := ih (fun q hq => h q (by simp [hq]))
    simp only [setSender, hp, if_false, hi]
    split_ifs <;> rfl

/-- A sender number not yet given is free. -/
theorem lookup_new {ps : List (Nat × Thread)} {k : Nat} (h : ∀ p ∈ ps, p.1 < k) : ps.lookup k = none := by
  induction ps with
  | nil => rfl
  | cons p ps ih =>
    obtain ⟨j, u⟩ := p
    have hj : (k == j) = false := by
      have := h (j, u) (by simp)
      simp only [beq_eq_false_iff_ne, ne_eq]
      simp only at this
      omega
    simp only [List.lookup_cons, hj]
    exact ih (fun q hq => h q (by simp [hq]))

/-- Writing back the registers of a channel changes nothing. -/
theorem set_chan_self {s : State} {c : Nat} {q : ChanRegs} (hq : q = s.chan c) (hc : c < s.chans.length) :
    s.chans.set c q = s.chans := by
  subst hq
  apply List.ext_getElem
  · simp
  · intro i h1 h2
    by_cases hi : c = i
    · subst hi
      rw [List.getElem_set_self, State.chan, List.getD_eq_getElem _ _ hc]
    · simp [hi]

/-- The registers of a channel after they were written. -/
theorem getD_set_same {xs : List ChanRegs} {c : Nat} (h : c < xs.length) (q : ChanRegs) :
    (xs.set c q).getD c .reset = q := by
  rw [List.getD_eq_getElem _ _ (by simpa using h)]
  simp

/-- The registers of every other channel. -/
theorem getD_set_other {xs : List ChanRegs} {c c' : Nat} (h : c' ≠ c) (q : ChanRegs) :
    (xs.set c q).getD c' .reset = xs.getD c' .reset := by
  simp [List.getD_eq_getElem?_getD, List.getElem?_set_ne (Ne.symm h)]

/-! ### The end of a send -/

/-- From C1 to the return: with space enough, the frame is appended to the TX ring, the doorbell sent, the lock released
and the response given (42_channel.md R186 to R189). -/
theorem RunsIn.commit {s : State} {k c : Nat} (ha : agentLive s (.snd k) = true) (hw : s.cfg.wf = true)
    (hm : memWf s.mem = true) (hc : c < s.cfg.nCh) (hcl : c < s.chans.length) (chid : Byte) (payload : List Byte)
    (hsp : (needOf payload.length : Int) ≤ s.space (txRing c)) (acc : Value) :
    ∃ m, s.appended (txRing c) (frameImage s.cfg chid ((s.chan c).cseq + 1) ((s.chan c).fseq + 1) payload) m
      ∧ RunsIn (.snd k) (needOf payload.length + 12) ⟨s, acc, [.sendCommit c chid payload]⟩
          ⟨{ s with
              mem := m
              chans := s.chans.set c
                { s.chan c with fseq := (s.chan c).fseq + 1, cseq := (s.chan c).cseq + 1, txlock := .free }
              mbxOut := sendWord s.cfg c
              irqOutPending := true
              events := s.events ++ [.doorbellOut (sendWord s.cfg c),
                .response (some k) 2 .ok (.num payload.length)] }, .nat payload.length, []⟩ := by
  have hcr : (txRing c).c < s.cfg.nCh := hc
  have hcap := Cfg.capOf_ok hw hcr
  obtain ⟨h1, h2, h3, h4⟩ := space_valid (by omega) (by omega : 0 ≤ s.space (txRing c))
  let q := s.chan c
  let s1 : State := s.setChan c { q with fseq := q.fseq + 1, cseq := q.cseq + 1 }
  let x := encodeHeader s.cfg chid (q.cseq + 1) (q.fseq + 1) payload.length
  let y := tailBytes payload (fhPad (headerSize + payload.length))
  have hil : (x ++ y).length = needOf payload.length := frameImage_length ..
  have hl : (x ++ y).length < s1.cfg.capOf (txRing c) := by
    rw [hil]; show _ < s.cfg.capOf (txRing c); omega
  have P := pushed2 (s := s1) (x := x) (y := y) hm hcr hcap.2.2 h1 hl
  have ha1 : agentLive s1 (.snd k) = true := ha
  have R := RunsIn.frameWrites (s := s1) (x := x) (y := y) ha1 hm hcap.2.2 h1 hl .unit
    [.fence, .doorbell (sendWord s.cfg c), .sendUnlock c payload.length]
  have start : RunsIn (.snd k) 2 ⟨s, acc, [.sendCommit c chid payload]⟩ ⟨s1, .unit,
      [.rqWrite (txRing c) x, .rqWrite (txRing c) y, .fence, .doorbell (sendWord s.cfg c),
        .sendUnlock c payload.length]⟩ := by
    refine RunsIn.head (lineReady_of_live ha rfl) (RunsIn.head (lineReady_of_live ha1 rfl) ?_)
    simp only [lineStep, lineSendEncode, s1, State.chan, State.setChan, getD_set_same hcl]
    exact RunsIn.refl _ _
  generalize (s1.pushed (txRing c) x).pushed (txRing c) y = s2 at P R
  have h2 : agentLive s2 (.snd k) = true := by rw [P.only]; exact ha1
  have live : ∀ {t : State}, t.started = s2.started → t.halted = s2.halted → agentLive t (.snd k) = true :=
    fun e1 e2 => (agentLive_congr e1 e2 _).trans h2
  have finish : RunsIn (.snd k) 4 ⟨s2, .unit, [.fence, .doorbell (sendWord s.cfg c), .sendUnlock c payload.length]⟩
      ⟨((doorbellOut s2 (sendWord s.cfg c)).setLock c .free).respond (some k) 2 .ok (.num payload.length),
        .nat payload.length, []⟩ :=
    RunsIn.head (lineReady_of_live h2 rfl) (RunsIn.head (lineReady_of_live h2 rfl)
      (RunsIn.head (lineReady_of_live (live rfl rfl) rfl)
        (RunsIn.head (lineReady_of_live (live rfl rfl) rfl) (RunsIn.refl _ _))))
  refine ⟨s2.mem, ⟨P.wf, ?_, P.bytes, P.outside⟩, ?_⟩
  · have hcf : s2.cfg = s.cfg := by rw [P.only]; rfl
    have h := P.head
    rw [State.head, State.load32, hcf] at h
    exact h
  · have h := ((start.trans R).trans finish).mono (b' := needOf payload.length + 12) (by omega)
    have e : ((doorbellOut s2 (sendWord s.cfg c)).setLock c .free).respond (some k) 2 .ok (.num payload.length) = { s with
        mem := s2.mem
        chans := s.chans.set c { q with fseq := q.fseq + 1, cseq := q.cseq + 1, txlock := .free }
        mbxOut := sendWord s.cfg c
        irqOutPending := true
        events := s.events ++ [.doorbellOut (sendWord s.cfg c), .response (some k) 2 .ok (.num payload.length)] } := by
      rw [show s2 = { s1 with mem := s2.mem } from P.only]
      simp only [State.respond, State.emit, State.setLock, State.setChan, doorbellOut, mbxRaise, mbxSet, s1, State.chan,
        List.append_assoc, List.cons_append, List.nil_append, List.set_set]
      rw [getD_set_same hcl]
    rw [e] at h
    exact h

/-! ### The start of a send -/

/-- A send past its tests, by a fresh sender, is the run of its lines. -/
theorem requestSend_admitted {s : State} {c : Nat} {payload : List Byte} (hs : s.sane)
    (hr : refuseSend s c payload.length = none) (fuel : Nat) (chid : Byte) :
    requestSend fuel c chid payload s =
      settle (.snd s.nextSnd) (runLines fuel (.snd s.nextSnd)
        ⟨{ s with nextSnd := s.nextSnd + 1 }, .unit, [.sendLock c chid payload]⟩) := by
  have hst : s.started = true ∧ s.halted = false := by
    unfold refuseSend at hr
    split_ifs at hr with h1 h2
    exact ⟨by simpa using h1, by simpa using h2⟩
  have hf : ({ s with nextSnd := s.nextSnd + 1 } : State).free (.snd s.nextSnd) = true := by
    rw [free_iff]
    refine ⟨by simp [agentLive, hst.1, hst.2], ?_⟩
    simp [State.thread, lookup_new hs.2.2.2]
  unfold requestSend
  rw [hr]
  exact invoke_free hf _ _

/-- When a send is admitted (R182 A1 to A5). -/
theorem refuseSend_none {s : State} {c len : Nat} (h1 : s.started = true) (h2 : s.halted = false) (h3 : c < s.cfg.nCh)
    (h4 : 12 + len ≤ 65535) (h5 : s.lstate = .online) : refuseSend s c len = none := by
  have hl : lenFits len = true := (lenFits_iff len).2 h4
  simp [refuseSend, h1, h2, h5, hl, show ¬ s.cfg.nCh ≤ c by omega]

end Sys2Proof.Machine
end

