-- ==== Sys2Proof/Laws/Keeps.lean ====
section
/-! SUPPORT. The induction for invariants, once: a predicate that the single lines of the agents keep, and the few
other things a choice can do, is kept by every choice of the scheduler. -/

namespace Sys2Proof.Machine

/-! ### What a step does, by what is placed and what is chosen -/

theorem step_placed {s : State} {f : Fetch} (h : s.placed = some f) : step s = runWord f { s with placed := none } := by
  unfold step; rw [h]

theorem step_choice {s : State} {ch : Choice} {rest : List Choice} (hn : s.placed = none) (h : s.sched = ch :: rest) :
    step s = runChoice ch { s with sched := rest } := by
  unfold step; rw [hn, h]

theorem step_idle {s : State} (hn : s.placed = none) (h : s.sched = []) : step s = .next s := by
  unfold step; rw [hn, h]

/-! ### What an operation begins with -/

/-- The programs an idle agent that may step begins with of itself or at a request: nothing else in the machine begins
an operation. -/
inductive Begins (s : State) : Agent → List Line → Prop
  | onDoorbell : Begins s .isr [.isrClear, .isrGet]
  | work : Begins s .lw [.work]
  | start : refuseStart s = none → Begins s .host (startLines s.cfg)

/-- The programs that only a pattern placed by the host's interface begins with. -/
inductive BeginsPlaced (s : State) : Agent → List Line → Prop
  | frameTx (c : Nat) (h b : List Byte) :
      c < s.cfg.nCh → BeginsPlaced s .call [.rqWrite (txRing c) h, .rqWrite (txRing c) b]
  | frameRx (c : Nat) (d : Header) : c < s.cfg.nCh → BeginsPlaced s .lw [.availHead (rxRing c), .frameRxTest c d]
  | callDoorbell (w : Half) : BeginsPlaced s .call [.fence, .doorbell w]
  | lwDoorbell (w : Half) : BeginsPlaced s .lw [.fence, .doorbell w]
  | status (i : Instr) : BeginsPlaced s .lw (statusLines i)

/-- The dispatch worker runs no lines: its operation is one step (44_dispatch.md R251). -/
theorem Begins.not_dw {s : State} {a : Agent} {prog : List Line} (h : Begins s a prog) : a ≠ .dw := by
  cases h <;> simp

theorem BeginsPlaced.not_dw {s : State} {a : Agent} {prog : List Line} (h : BeginsPlaced s a prog) : a ≠ .dw := by
  cases h <;> simp

/-- Everything a choice other than hardware reset, a step of `PEER` and `LD.SAVE` is made of, each keeping `P`. -/
structure KeepsBut (P : State → Prop) : Prop where
  sched : ∀ s l, P s → P { s with sched := l }
  ret : ∀ s v, P s → P { s with ret := v }
  respond : ∀ s k op code v, P s → P (s.respond k op code v)
  begins : ∀ s a prog, s.free a = true → Begins s a prog → P s → P (s.setThread a ⟨.unit, prog⟩)
  send : ∀ s c chid payload, refuseSend s c payload.length = none →
    (s.thread (.snd s.nextSnd)).todo = [] → P s →
    P (({ s with nextSnd := s.nextSnd + 1 } : State).setThread (.snd s.nextSnd) ⟨.unit, [.sendLock c chid payload]⟩)
  skip : ∀ s, P s → P { s with nextSnd := s.nextSnd + 1 }
  line : ∀ a l acc k s, a ≠ .dw → s.thread a = ⟨acc, l :: k⟩ → lineReady a l s = true → P s →
    P (settle a (lineStep a l acc k s))
  dispatch : ∀ s, P s → P (dispatchFrame s)

/-- The same, and the admission of `LD.SAVE`. -/
structure Keeps (P : State → Prop) : Prop extends KeepsBut P where
  save : ∀ s, refuseSave s = none → s.host.todo = [] → P s →
    P (({ s with lstate := .nvSave } : State).setThread .host ⟨.unit, saveLines s.cfg⟩)

/-- What a placed pattern is made of beside, each keeping `P`. -/
structure KeepsPlaced (P : State → Prop) : Prop where
  unplace : ∀ s, P s → P { s with placed := none }
  begins : ∀ s a prog, s.free a = true → BeginsPlaced s a prog → P s → P (s.setThread a ⟨.unit, prog⟩)
  badHeader : ∀ s c, s.free .lw = true → P s → P (raise s (.badMagic c)) ∧ P (raise s (.badLength c))

namespace KeepsBut

variable {P : State → Prop}

/-- What is in the middle of an operation keeps `P` whatever number of lines it runs. -/
theorem runs (K : KeepsBut P) (n : Nat) {a : Agent} (ha : a ≠ .dw) (o : Out) (h : P (settle a o)) :
    P (settle a (runLines n a o)) := by
  induction n generalizing o with
  | zero => exact h
  | succ n ih =>
    obtain ⟨s, acc, todo⟩ := o
    cases todo with
    | nil => simpa using h
    | cons l k =>
      by_cases hr : lineReady a l s = true
      · rw [runLines_ready hr]
        refine ih _ ?_
        rw [← settle_lineStep ha]
        refine K.line a l acc k _ ha (thread_setThread ha (by simp)) ?_ h
        rw [setThread_rephase, lineReady_rephase]
        exact hr
      · simp only [Bool.not_eq_true] at hr
        rw [runLines_held hr]
        exact h

/-- Beginning an operation and running it. -/
theorem settleBegun (K : KeepsBut P) (n : Nat) {a : Agent} (ha : a ≠ .dw) (s : State) (prog : List Line)
    (h : P (s.setThread a ⟨.unit, prog⟩)) : P (settle a (runLines n a ⟨s, .unit, prog⟩)) := by
  apply K.runs n ha
  cases prog with
  | nil => exact K.ret _ _ h
  | cons l k => exact h

theorem invoked (K : KeepsBut P) {s : State} {a : Agent} {prog : List Line} (n : Nat) (hd : a ≠ .dw)
    (hb : s.free a = true → P (s.setThread a ⟨.unit, prog⟩)) (h : P s) : P (Machine.invoke a n prog s) := by
  by_cases hf : s.free a = true
  · rw [invoke_free hf]
    exact K.settleBegun n hd s prog (hb hf)
  · simp only [Bool.not_eq_true] at hf
    rw [invoke_busy hf]
    exact h

theorem invoke (K : KeepsBut P) {s : State} {a : Agent} {prog : List Line} (n : Nat) (hb : Begins s a prog) (h : P s) :
    P (Machine.invoke a n prog s) :=
  K.invoked n hb.not_dw (fun hf => K.begins s a prog hf hb h) h

end KeepsBut

/-! ### Putting a phase back where it was read -/

theorem setSender_self {ps : List (Nat × Thread)} {k : Nat} {th : Thread} (h : ps.lookup k = some th)
    (hne : th.todo ≠ []) : setSender ps k th = ps := by
  induction ps with
  | nil => simp at h
  | cons p ps ih =>
    obtain ⟨j, u⟩ := p
    by_cases hj : j = k
    · subst hj
      simp only [List.lookup_cons, beq_self_eq_true, Option.some.injEq] at h
      subst h
      simp [setSender, hne]
    · have hk : (k == j) = false := by simpa using fun e => hj e.symm
      simp only [List.lookup_cons, hk] at h
      simp [setSender, hj, ih h]

/-- A phase with a line left, put back, changes nothing. -/
theorem setThread_self {s : State} {a : Agent} (h : (s.thread a).todo ≠ []) : s.setThread a (s.thread a) = s := by
  cases a with
  | isr => rfl
  | lw => rfl
  | dw => rfl
  | host => rfl
  | call => rfl
  | snd k =>
    simp only [State.thread] at h ⊢
    cases hl : s.snds.lookup k with
    | none => simp [hl, Thread.idle] at h
    | some th =>
      rw [hl] at h
      simp only [Option.getD_some] at h ⊢
      simp [State.setThread, setSender_self hl h]

/-- What an agent runs when it is given lines to run. -/
theorem advanceAgent_busy {s : State} {a : Agent} (h : (s.thread a).todo ≠ []) (n : Nat) :
    advanceAgent n a s = settle a (runLines n a ⟨s, (s.thread a).acc, (s.thread a).todo⟩) := by
  have hg : advanceAgent.go n a s = settle a (runLines n a ⟨s, (s.thread a).acc, (s.thread a).todo⟩) := by
    unfold advanceAgent.go
    cases ht : (s.thread a).todo with
    | nil => exact absurd ht h
    | cons l k => rfl
  cases a with
  | dw => exact absurd rfl h
  | isr => exact hg
  | lw => exact hg
  | host => exact hg
  | snd k => exact hg
  | call => exact hg

/-- What an idle agent does: it wakes if there is something to wake for and it may step. -/
theorem advanceAgent_idle {s : State} {a : Agent} (ha : a ≠ .dw) (h : (s.thread a).todo = []) (n : Nat) :
    advanceAgent n a s =
      if wakeLines s a ≠ [] ∧ agentLive s a = true then settle a (runLines n a ⟨s, .unit, wakeLines s a⟩) else s := by
  have hg : advanceAgent.go n a s =
      if wakeLines s a ≠ [] ∧ agentLive s a = true then settle a (runLines n a ⟨s, .unit, wakeLines s a⟩) else s := by
    unfold advanceAgent.go
    rw [h]
    cases hw : wakeLines s a with
    | nil => simp
    | cons l k => by_cases hl : agentLive s a = true <;> simp [hl]
  cases a with
  | dw => exact absurd rfl ha
  | isr => exact hg
  | lw => exact hg
  | host => exact hg
  | snd k => exact hg
  | call => exact hg

@[simp] theorem advanceAgent_dw (n : Nat) (s : State) : advanceAgent n .dw s = dispatchFrame s := rfl

/-- Which agents wake, and with what. -/
theorem wakeLines_begins {s : State} {a : Agent} (h : wakeLines s a ≠ []) : Begins s a (wakeLines s a) := by
  cases a with
  | isr =>
    by_cases hi : s.irqInPending = true
    · simpa [wakeLines, hi] using Begins.onDoorbell (s := s)
    · exact absurd (by simp [wakeLines, hi]) h
  | lw =>
    by_cases hw : s.wq = []
    · exact absurd (by simp [wakeLines, hw]) h
    · simpa [wakeLines, hw] using Begins.work (s := s)
  | dw => exact absurd rfl h
  | host => exact absurd rfl h
  | snd k => exact absurd rfl h
  | call => exact absurd rfl h

namespace KeepsBut

variable {P : State → Prop}

theorem advance (K : KeepsBut P) (n : Nat) (a : Agent) {s : State} (h : P s) : P (advanceAgent n a s) := by
  by_cases hd : a = .dw
  · subst hd
    exact K.dispatch s h
  · by_cases ht : (s.thread a).todo = []
    · rw [advanceAgent_idle hd ht]
      split_ifs with hw
      · refine K.settleBegun n hd s _ (K.begins s a _ ?_ (wakeLines_begins hw.1) h)
        exact (free_iff s a).2 ⟨hw.2, ht⟩
      · exact h
    · rw [advanceAgent_busy ht]
      apply K.runs n hd
      cases hc : (s.thread a).todo with
      | nil => exact absurd hc ht
      | cons l k =>
        rw [settle_cons, ← hc]
        have := setThread_self ht
        rw [this]
        exact h

theorem run (K : KeepsBut P) (n : Nat) (a : Agent) {s : State} (h : P s) : P (runAgent n a s) := by
  induction n generalizing s with
  | zero => exact h
  | succ n ih => exact ih (K.advance _ a h)

theorem start (K : KeepsBut P) (n : Nat) {s : State} (h : P s) : P (requestStart n s) := by
  unfold requestStart
  cases hr : refuseStart s with
  | some code => exact K.respond _ _ _ _ _ h
  | none => exact K.invoke n (.start hr) h

theorem sendRequest (K : KeepsBut P) (n : Nat) (c : Nat) (chid : Byte) (payload : List Byte) {s : State} (h : P s) :
    P (requestSend n c chid payload s) := by
  unfold requestSend
  cases hr : refuseSend s c payload.length with
  | some code => exact K.respond _ _ _ _ _ h
  | none =>
    simp only
    by_cases hf : ({ s with nextSnd := s.nextSnd + 1 } : State).free (.snd s.nextSnd) = true
    · rw [invoke_free hf]
      exact K.settleBegun n (by simp) _ _ (K.send s c chid payload hr ((free_iff _ _).1 hf).2 h)
    · simp only [Bool.not_eq_true] at hf
      rw [invoke_busy hf]
      exact K.skip s h

theorem submit (K : KeepsBut P) (r : Request) {s : State} (hs : ∀ n, P (requestSave n s)) (h : P s) : P (submitRequest r s) := by
  unfold submitRequest
  split_ifs
  · exact K.respond _ _ _ _ _ h
  · exact K.start 0 h
  · exact K.sendRequest 0 _ _ _ h
  · exact hs 0
  · exact K.respond _ _ _ _ _ h

/-- A request keeps `P`. -/
theorem request (K : KeepsBut P) {r : Request} {s t : State} (hs : ∀ n, P (requestSave n s))
    (he : runWord (.req r) s = .next t) (h : P s) : P t := by
  simp only [runWord, decode, decodeRequest] at he
  split_ifs at he
  · cases he; exact K.respond _ _ _ _ _ h
  · cases he; exact K.start _ h
  · cases he; exact K.sendRequest _ _ _ _ h
  · cases he; exact hs _
  · cases he; exact K.respond _ _ _ _ _ h

/-- An operation of an agent keeps `P`. -/
theorem op (K : KeepsBut P) {a : Agent} {s t : State} (he : runOp a s = .next t) (h : P s) : P t := by
  cases a with
  | isr =>
    simp only [runOp] at he
    split_ifs at he
    · simp only [Machine.exec, execLdOnDoorbell] at he
      cases he
      split_ifs
      · exact K.invoke _ .onDoorbell h
      · exact h
    · cases he; exact K.advance _ _ h
  | lw =>
    simp only [runOp] at he
    split_ifs at he
    · simp only [Machine.exec, execLdWork] at he
      cases he
      split_ifs
      · exact h
      · exact K.invoke _ .work h
    · cases he; exact K.advance _ _ h
  | dw => cases he; exact K.dispatch s h
  | host => cases he; exact K.advance _ _ h
  | snd k => cases he; exact K.advance _ _ h
  | call => cases he; exact K.advance _ _ h

/-- Every choice but hardware reset and a step of `PEER` keeps `P`. -/
theorem choice (K : KeepsBut P) {ch : Choice} {s t : State} (hs : ∀ n, P (requestSave n s)) (hr : ch ≠ .reset)
    (hp : ∀ p, ch ≠ .peer p) (he : runChoice ch s = .next t) (h : P s) : P t := by
  cases ch with
  | request r => exact K.request hs he h
  | submit r => cases he; exact K.submit r hs h
  | line a => cases he; exact K.advance 1 a h
  | op a => exact K.op he h
  | run a => cases he; exact K.run _ a h
  | peer p => exact absurd rfl (hp p)
  | reset => exact absurd rfl hr

/-- A placed pattern keeps `P`. -/
theorem placed (K : KeepsBut P) (Q : KeepsPlaced P) {f : Fetch} {s t : State} (hs : ∀ n, P (requestSave n s))
    (he : runWord f s = .next t) (h : P s) : P t := by
  have inv : ∀ {a : Agent} {prog : List Line} (n : Nat), BeginsPlaced s a prog → P (Machine.invoke a n prog s) :=
    fun n hb => K.invoked n hb.not_dw (fun hf => Q.begins s _ _ hf hb h) h
  cases f with
  | req r => exact K.request hs he h
  | mbxIn w =>
    simp only [runWord, decode, decodeStatus, decodeCommand] at he
    split_ifs at he <;> (cases he; exact inv _ (.status _))
  | mbxOut w =>
    simp only [runWord, decode, decodeSent] at he
    split_ifs at he
    · cases he; exact inv _ (.lwDoorbell _)
    · cases h1 : (List.range s.cfg.nCh).find? (fun c => w == sendWord s.cfg c) with
      | some c =>
        simp only [h1, Machine.exec, execDbSend] at he
        split_ifs at he
        cases he; exact inv _ (.callDoorbell _)
      | none =>
        cases h2 : (List.range s.cfg.nCh).find? (fun c => w == resAckWord s.cfg c) with
        | some c =>
          simp only [h1, h2, Machine.exec, execDbResAck] at he
          split_ifs at he
          cases he; exact inv _ (.lwDoorbell _)
        | none => simp only [h1, h2, rejectFetch] at he; cases he
  | txFrame c bytes =>
    simp only [runWord, decode, decodeTxFrame] at he
    split at he
    · rename_i i hd
      split at hd
      · split_ifs at hd
        cases hd
        simp only [Machine.exec, execFrameTx] at he
        split_ifs at he with hc
        · cases he; exact K.ret _ _ h
        · cases he; exact inv _ (.frameTx c _ _ (by omega))
      all_goals cases hd
    · simp only [rejectFetch] at he; cases he
  | rxFrame c bytes =>
    have bad : ∀ k, (k = .badMagic c ∨ k = .badLength c) → rejectHeader k c bytes s = .next t → P t := by
      intro k hk he
      simp only [rejectHeader] at he
      split_ifs at he with h1 h2 h3
      · cases he; exact h
      · cases he
        have hb := Q.badHeader s c (by simpa [State.free, State.thread] using h3) h
        rcases hk with rfl | rfl
        · exact hb.1
        · exact hb.2
      · cases he; exact h
    simp only [runWord, decode, decodeRxFrame] at he
    cases hd : decodeHeader s.cfg (bytes.take headerSize) with
    | ok d =>
      rw [hd] at he
      simp only [Machine.exec, execFrameRx] at he
      split_ifs at he with hc
      cases he; exact inv _ (.frameRx c d (by omega))
    | badMagic => rw [hd] at he; exact bad _ (.inl rfl) he
    | badLength => rw [hd] at he; exact bad _ (.inr rfl) he
    | notTwelve => rw [hd] at he; exact bad _ (.inr rfl) he

/-- A step with nothing placed keeps `P` if hardware reset, the step of `PEER` and the `LD.SAVE` that may come next
do. -/
theorem stepOwn (K : KeepsBut P) {s t : State} (hn : s.placed = none)
    (hs : ∀ ch rest n, s.sched = ch :: rest → P (requestSave n { s with sched := rest }))
    (hr : ∀ rest, s.sched = .reset :: rest → P { s with sched := rest } →
      P (hwReset { s with sched := rest }))
    (hp : ∀ p rest u, s.sched = .peer p :: rest → peerStep p { s with sched := rest } = .next u →
      P { s with sched := rest } → P u)
    (he : Machine.step s = .next t) (h : P s) : P t := by
  cases hc : s.sched with
  | nil => rw [step_idle hn hc] at he; cases he; exact h
  | cons ch rest =>
    rw [step_choice hn hc] at he
    have h' := K.sched s rest h
    by_cases h1 : ch = .reset
    · subst h1
      cases he
      exact hr rest hc h'
    · by_cases h2 : ∃ p, ch = .peer p
      · obtain ⟨p, rfl⟩ := h2
        exact hp p rest t hc he h'
      · exact K.choice (fun n => hs ch rest n hc) h1 (fun p hp => h2 ⟨p, hp⟩) he h'

/-- A step, with a pattern placed or not. -/
theorem step (K : KeepsBut P) (Q : KeepsPlaced P) {s t : State}
    (hf : ∀ f n, s.placed = some f → P (requestSave n { s with placed := none }))
    (hs : ∀ ch rest n, s.placed = none → s.sched = ch :: rest → P (requestSave n { s with sched := rest }))
    (hr : ∀ rest, s.placed = none → s.sched = .reset :: rest → P { s with sched := rest } →
      P (hwReset { s with sched := rest }))
    (hp : ∀ p rest u, s.placed = none → s.sched = .peer p :: rest → peerStep p { s with sched := rest } = .next u →
      P { s with sched := rest } → P u)
    (he : Machine.step s = .next t) (h : P s) : P t := by
  cases hn : s.placed with
  | none =>
    exact K.stepOwn hn (fun ch rest n => hs ch rest n hn) (fun rest => hr rest hn) (fun p rest u => hp p rest u hn) he h
  | some f =>
    rw [step_placed hn] at he
    exact K.placed Q (fun n => hf f n hn) he (Q.unplace s h)

end KeepsBut

namespace Keeps

variable {P : State → Prop}

theorem saveRequest (K : Keeps P) (n : Nat) {s : State} (h : P s) : P (requestSave n s) := by
  unfold requestSave
  cases hr : refuseSave s with
  | some code => exact K.toKeepsBut.respond _ _ _ _ _ h
  | none =>
    simp only
    split_ifs with ht
    · have hl : ({ s with lstate := .nvSave } : State).free .host = true := by
        have hh : s.halted = false := by
          unfold refuseSave at hr
          split_ifs at hr with h1 h2 h3
          simpa using h2
        simp [State.free, agentLive, State.thread, ht, hh]
      rw [invoke_free hl]
      exact K.toKeepsBut.settleBegun n (by simp) _ _ (K.save s hr ht h)
    · exact h

/-- A step with nothing placed keeps `P` if hardware reset and the step of `PEER` that may come next do. -/
theorem stepOwn (K : Keeps P) {s t : State} (hn : s.placed = none)
    (hr : ∀ rest, s.sched = .reset :: rest → P { s with sched := rest } → P (hwReset { s with sched := rest }))
    (hp : ∀ p rest u, s.sched = .peer p :: rest → peerStep p { s with sched := rest } = .next u →
      P { s with sched := rest } → P u)
    (he : Machine.step s = .next t) (h : P s) : P t :=
  K.toKeepsBut.stepOwn hn (fun _ rest n _ => K.saveRequest n (K.toKeepsBut.sched s rest h)) hr hp he h

/-- A step, with a pattern placed or not. -/
theorem step (K : Keeps P) (Q : KeepsPlaced P) {s t : State}
    (hr : ∀ rest, s.placed = none → s.sched = .reset :: rest → P { s with sched := rest } →
      P (hwReset { s with sched := rest }))
    (hp : ∀ p rest u, s.placed = none → s.sched = .peer p :: rest → peerStep p { s with sched := rest } = .next u →
      P { s with sched := rest } → P u)
    (he : Machine.step s = .next t) (h : P s) : P t :=
  K.toKeepsBut.step Q (fun _ n _ => K.saveRequest n (Q.unplace s h))
    (fun _ rest n _ _ => K.saveRequest n (K.toKeepsBut.sched s rest h)) hr hp he h

end Keeps

end Sys2Proof.Machine
end

