-- ==== Sys2Proof/Laws/Lines.lean ====
section
/-! SUPPORT. What any line of any agent can do to the fields that every invariant watches, said once: the
configuration, the canonical form of SHM, the sticky flags, `started`, `halted`, `NV_SAVE`. -/

namespace Sys2Proof.Machine

/-- From `s` the engine may come to `t`: nothing sticky was cleared, `NV_SAVE` was neither left nor entered, SHM kept
its canonical form, and nothing that no line writes was written (10_state.md R32, R33, R37; 43_link_device.md R227). -/
structure Onward (s t : State) : Prop where
  cfg : t.cfg = s.cfg
  mbxIn : t.mbxIn = s.mbxIn
  wf : memWf s.mem = true → memWf t.mem = true
  chans : t.chans.length = s.chans.length
  flags : s.errstat &&& t.errstat = s.errstat
  bit7 : t.errstat.getLsbD 7 = s.errstat.getLsbD 7
  started : s.started = true → t.started = true
  halted : s.halted = true → t.halted = true
  saveKept : s.lstate = .nvSave → t.lstate = .nvSave
  saveEntered : t.lstate = .nvSave → s.lstate = .nvSave

namespace Onward

theorem refl (s : State) : Onward s s where
  cfg := rfl
  mbxIn := rfl
  wf := id
  chans := rfl
  flags := by simp
  bit7 := rfl
  started := id
  halted := id
  saveKept := id
  saveEntered := id

theorem trans {s t u : State} (h : Onward s t) (h' : Onward t u) : Onward s u where
  cfg := h'.cfg.trans h.cfg
  mbxIn := h'.mbxIn.trans h.mbxIn
  wf := fun x => h'.wf (h.wf x)
  chans := h'.chans.trans h.chans
  flags := by
    have h1 := h.flags
    have h2 := h'.flags
    rw [← h1, BitVec.and_assoc, h2]
  bit7 := h'.bit7.trans h.bit7
  started := fun x => h'.started (h.started x)
  halted := fun x => h'.halted (h.halted x)
  saveKept := fun x => h'.saveKept (h.saveKept x)
  saveEntered := fun x => h.saveEntered (h'.saveEntered x)

/-- A change of nothing but fields that are not watched. -/
theorem of_eq {s t : State} (h1 : t.cfg = s.cfg) (h2 : t.mbxIn = s.mbxIn) (h3 : memWf s.mem = true → memWf t.mem = true)
    (h4 : t.chans.length = s.chans.length) (h5 : t.errstat = s.errstat) (h6 : s.started = true → t.started = true)
    (h7 : t.halted = s.halted) (h8 : t.lstate = s.lstate) : Onward s t where
  cfg := h1
  mbxIn := h2
  wf := h3
  chans := h4
  flags := by rw [h5]; simp
  bit7 := by rw [h5]
  started := h6
  halted := fun x => h7.trans x
  saveKept := fun x => h8.trans x
  saveEntered := fun x => h8.symm.trans x

/-- Raising a condition. -/
theorem raise (s : State) (k : Condition) : Onward s (raise s k) := by
  have sticky : ∀ b m : BitVec 8, b &&& (b ||| m) = b := by
    intro b m
    apply BitVec.eq_of_getLsbD_eq; intro i _
    simp only [BitVec.getLsbD_and, BitVec.getLsbD_or]
    cases b.getLsbD i <;> simp
  have crash : ∀ l : LinkState, (l = .nvSave → l.crashed = .nvSave) ∧ (l.crashed = .nvSave → l = .nvSave) := by
    intro l; cases l <;> simp [LinkState.crashed]
  have low : ∀ b m : BitVec 8, m.getLsbD 7 = false → (b ||| m).getLsbD 7 = b.getLsbD 7 := by
    intro b m h; rw [BitVec.getLsbD_or, h, Bool.or_false]
  cases k with
  | ringCorrupt r =>
    rw [raise_ringCorrupt]
    exact ⟨rfl, rfl, id, rfl, sticky _ _, low _ _ (by decide), id, id, (crash _).1, (crash _).2⟩
  | badMagic c => rw [raise_badMagic]; exact ⟨rfl, rfl, id, rfl, sticky _ _, low _ _ (by decide), id, id, id, id⟩
  | badLength c => rw [raise_badLength]; exact ⟨rfl, rfl, id, rfl, sticky _ _, low _ _ (by decide), id, id, id, id⟩
  | peerNotReady c =>
    rw [raise_peerNotReady]
    exact ⟨rfl, rfl, id, rfl, sticky _ _, low _ _ (by decide), id, fun _ => rfl, (crash _).1, (crash _).2⟩
  | wqOverflow => rw [raise_wqOverflow]; exact ⟨rfl, rfl, id, rfl, sticky _ _, low _ _ (by decide), id, id, id, id⟩
  | noSink => rw [raise_noSink]; exact ⟨rfl, rfl, id, rfl, sticky _ _, low _ _ (by decide), id, id, id, id⟩
  | crashCmd =>
    rw [raise_crashCmd]
    exact ⟨rfl, rfl, id, rfl, sticky _ _, low _ _ (by decide), id, id, (crash _).1, (crash _).2⟩
  | txNoSpace c => rw [raise_txNoSpace]; exact refl s

/-- The crash path. -/
theorem crashPath (s : State) (cause : CrashCause) (c : Nat) : Onward s (crashPath s cause c) := by
  have crash : ∀ l : LinkState, (l = .nvSave → l.crashed = .nvSave) ∧ (l.crashed = .nvSave → l = .nvSave) := by
    intro l; cases l <;> simp [LinkState.crashed]
  rw [crashPath_eq]
  exact ⟨rfl, rfl, id, rfl, by simp, rfl, id, id, (crash _).1, (crash _).2⟩

/-- Writing the registers of a channel. -/
theorem setChan (s : State) (c : Nat) (q : ChanRegs) : Onward s (s.setChan c q) :=
  of_eq rfl rfl id (by simp) rfl id rfl rfl

/-- An event. -/
theorem emit (s : State) (e : Event) : Onward s (s.emit e) := of_eq rfl rfl id rfl rfl id rfl rfl

/-- A doorbell. -/
theorem doorbell (s : State) (w : Half) : Onward s (doorbellOut s w) := of_eq rfl rfl id rfl rfl id rfl rfl

/-- A send that ends in an error. -/
theorem sendAbort (s : State) (a : Agent) (c : Nat) (k : Condition) (code : RespCode) :
    Onward s (sendAbort s a c k code).st :=
  ((setChan s c _).trans (raise _ k)).trans (emit _ _)

/-- A `RingCorrupt` from inside a primitive. -/
theorem ringCorruptExit (a : Agent) (r : RingId) (k : List Line) (s : State) : Onward s (ringCorruptExit a r k s).st := by
  cases a <;> first | exact sendAbort _ _ _ _ _ | exact raise _ _

/-- Every line of every agent. -/
theorem line (a : Agent) (l : Line) (acc : Value) (k : List Line) (s : State) : Onward s (lineStep a l acc k s).st := by
  cases l with
  | load8 off => exact refl s
  | store8 off b => exact of_eq rfl rfl (fun h => memWf_memWrite h _ _) rfl rfl id rfl rfl
  | store32 off v => exact of_eq rfl rfl (fun h => memWf_memWrite32 h _ _) rfl rfl id rfl rfl
  | fence => exact refl s
  | doorbell w => exact doorbell s w
  | spaceHead r => exact refl s
  | spaceTail r h => exact refl s
  | availHead r => exact refl s
  | availTail r h => exact refl s
  | rqWrite r src =>
    simp only [lineStep, lineRqWrite]
    split_ifs <;> exact refl s
  | rqRead r len =>
    simp only [lineStep, lineRqRead]
    split_ifs <;> exact refl s
  | rqPeek r off len =>
    simp only [lineStep, lineRqPeek]
    split_ifs <;> exact refl s
  | ringCorrupt r => exact ringCorruptExit ..
  | readyMagic => exact refl s
  | readyAccess m => exact refl s
  | sendLock c chid payload => exact setChan ..
  | sendReady c chid payload =>
    simp only [lineStep, lineSendReady]
    split_ifs
    · exact refl s
    · exact sendAbort ..
  | sendTest c chid payload =>
    simp only [lineStep, lineSendTest]
    split_ifs
    · exact sendAbort ..
    · exact refl s
  | sendFit c chid payload =>
    simp only [lineStep, lineSendFit]
    cases acc with
    | int v =>
      simp only
      split_ifs
      · exact raise s (.txNoSpace c)
      · exact refl s
    | _ => exact refl s
  | sendPark c chid payload => exact refl s
  | sendCommit c chid payload => exact setChan ..
  | sendEncode c chid payload => exact refl s
  | sendUnlock c len => exact setChan ..
  | sendReturn c len => exact emit ..
  | recvAvail c =>
    simp only [lineStep, lineRecvAvail]
    cases acc with
    | int v =>
      simp only
      split_ifs
      · exact raise s (.ringCorrupt (rxRing c))
      · exact refl s
    | _ => exact refl s
  | recvLoop c m n =>
    simp only [lineStep, lineRecvLoop]
    split_ifs
    · exact refl s
    · exact raise s (.badLength c)
    · exact refl s
  | recvDecode c m n => exact refl s
  | recvMagic c m n =>
    simp only [lineStep, lineRecvMagic]
    split_ifs
    · exact raise s (.badMagic c)
    · exact refl s
  | recvLength c m n =>
    simp only [lineStep, lineRecvLength]
    split
    · exact refl s
    · exact raise s (.badLength c)
  | recvSize c d m n =>
    simp only [lineStep, lineRecvSize]
    split_ifs
    · exact raise s (.badLength c)
    · exact refl s
  | recvHold => exact refl s
  | recvPush d => exact of_eq rfl rfl id rfl rfl id rfl rfl
  | frameRxTest c d =>
    simp only [lineStep, lineFrameRxTest]
    split_ifs
    · exact raise s (.ringCorrupt (rxRing c))
    · exact refl s
  | frameRxSize c d =>
    simp only [lineStep, lineFrameRxSize]
    cases acc with
    | int v =>
      simp only
      split_ifs
      · exact raise s (.badLength c)
      · exact refl s
    | _ => exact refl s
  | resAck c w => exact refl s
  | ackReq c w =>
    simp only [lineStep, lineAckReq]
    split_ifs <;> exact refl s
  | ackDec c => exact setChan ..
  | work =>
    simp only [lineStep, lineWork]
    cases s.wq with
    | nil => exact refl s
    | cons w q => exact of_eq rfl rfl id rfl rfl id rfl rfl
  | noncmd w =>
    simp only [lineStep, lineNoncmd]
    split_ifs <;> exact refl s
  | noncmdReady w =>
    simp only [lineStep, lineNoncmdReady]
    split_ifs
    · exact refl s
    · exact raise s (.peerNotReady 0)
  | phoneStart =>
    simp only [lineStep, linePhoneStart]
    split_ifs <;> exact refl s
  | setOnline =>
    simp only [lineStep, lineSetOnline]
    split_ifs with h
    · exact refl s
    · exact ⟨rfl, rfl, id, rfl, by simp, rfl, id, id, fun x => absurd x h, fun x => by simp at x⟩
  | phoneRing =>
    simp only [lineStep, linePhoneRing]
    split_ifs
    · exact refl s
    · exact doorbell ..
  | crashExit =>
    simp only [lineStep, lineCrashExit]
    split_ifs <;> exact refl s
  | crashAct => exact raise s .crashCmd
  | crash cause c => exact crashPath ..
  | isrClear => exact of_eq rfl rfl id rfl rfl id rfl rfl
  | isrGet => exact refl s
  | isrPush w =>
    simp only [lineStep, lineIsrPush]
    split_ifs
    · exact of_eq rfl rfl id rfl rfl id rfl rfl
    · exact raise s .wqOverflow
  | startDone => exact of_eq rfl rfl id rfl rfl (fun _ => rfl) rfl rfl
  | startReturn => exact emit ..
  | saveDone => exact emit ..

/-- Putting a phase back. -/
theorem setThread (s : State) (a : Agent) (th : Thread) : Onward s (s.setThread a th) := by
  cases a <;> exact of_eq rfl rfl id rfl rfl id rfl rfl

/-- One line of an agent, its phase put back. -/
theorem settle (a : Agent) (o : Out) : Onward o.st (settle a o) := by
  obtain ⟨s, acc, todo⟩ := o
  cases todo with
  | nil => exact (setThread s a .idle).trans (of_eq rfl rfl id rfl rfl id rfl rfl)
  | cons l k => exact setThread s a _

/-- The dispatch worker's step. -/
theorem dispatch (s : State) : Onward s (dispatchFrame s) := by
  unfold dispatchFrame
  cases s.rxq with
  | nil => exact refl s
  | cons f q =>
    have h : Onward s { s with rxq := q } := of_eq rfl rfl id rfl rfl id rfl rfl
    simp only
    split_ifs
    · exact h.trans (emit _ _)
    · exact h.trans (raise _ _)

end Onward

/-! ### Fields that a line does not write -/

/-- The lines that write a field themselves, other than by raising a condition, writing the registers of a channel,
an event, a doorbell. -/
def Line.writes : Line → Bool
  | .store8 _ _ => true
  | .store32 _ _ => true
  | .recvPush _ => true
  | .work => true
  | .setOnline => true
  | .isrClear => true
  | .isrPush _ => true
  | .startDone => true
  | .load8 _ => false
  | .fence => false
  | .doorbell _ => false
  | .spaceHead _ => false
  | .spaceTail _ _ => false
  | .availHead _ => false
  | .availTail _ _ => false
  | .rqWrite _ _ => false
  | .rqRead _ _ => false
  | .rqPeek _ _ _ => false
  | .ringCorrupt _ => false
  | .readyMagic => false
  | .readyAccess _ => false
  | .sendLock _ _ _ => false
  | .sendReady _ _ _ => false
  | .sendTest _ _ _ => false
  | .sendFit _ _ _ => false
  | .sendPark _ _ _ => false
  | .sendCommit _ _ _ => false
  | .sendEncode _ _ _ => false
  | .sendUnlock _ _ => false
  | .sendReturn _ _ => false
  | .recvAvail _ => false
  | .recvLoop _ _ _ => false
  | .recvDecode _ _ _ => false
  | .recvMagic _ _ _ => false
  | .recvLength _ _ _ => false
  | .recvSize _ _ _ _ => false
  | .recvHold => false
  | .frameRxTest _ _ => false
  | .frameRxSize _ _ => false
  | .resAck _ _ => false
  | .ackReq _ _ => false
  | .ackDec _ => false
  | .noncmd _ => false
  | .noncmdReady _ => false
  | .phoneStart => false
  | .phoneRing => false
  | .crashExit => false
  | .crashAct => false
  | .crash _ _ => false
  | .isrGet => false
  | .startReturn => false
  | .saveDone => false

/-- A field that conditions, channel registers, events, doorbells and the crash path leave alone is left alone by every
line that does not write a field itself. -/
theorem lineStep_field {α : Type} {f : State → α} (h1 : ∀ s k, f (raise s k) = f s)
    (h2 : ∀ s c q, f (s.setChan c q) = f s) (h3 : ∀ s e, f (s.emit e) = f s) (h4 : ∀ s w, f (doorbellOut s w) = f s)
    (h5 : ∀ s cause c, f (crashPath s cause c) = f s) {a : Agent} {l : Line} {acc : Value} {k : List Line} {s : State}
    (hw : l.writes = false) : f (lineStep a l acc k s).st = f s := by
  have ha : ∀ (b : Agent) (c : Nat) (e : Condition) (code : RespCode), f (sendAbort s b c e code).st = f s := by
    intro b c e code
    simp only [sendAbort, State.respond, State.setLock, h1, h2, h3]
  have hx : ∀ (b : Agent) (r : RingId), f (ringCorruptExit b r k s).st = f s := by
    intro b r
    cases b <;> simp only [ringCorruptExit, ha, h1]
  cases l <;> first | (simp only [Line.writes, Bool.true_eq_false] at hw; done) | skip
  case rqWrite r src => simp only [lineStep, lineRqWrite]; split_ifs <;> rfl
  case rqRead r len => simp only [lineStep, lineRqRead]; split_ifs <;> rfl
  case rqPeek r off len => simp only [lineStep, lineRqPeek]; split_ifs <;> rfl
  case ringCorrupt r => exact hx a r
  case sendLock c chid payload => simp only [lineStep, lineSendLock, State.setLock, h2]
  case sendReady c chid payload => simp only [lineStep, lineSendReady]; split_ifs <;> simp only [ha]
  case sendTest c chid payload =>
    simp only [lineStep, lineSendTest]
    split_ifs <;> simp only [ha]
  case sendFit c chid payload =>
    simp only [lineStep, lineSendFit]
    cases acc <;> first | rfl | skip
    simp only
    split_ifs <;> simp only [h1]
  case sendCommit c chid payload => simp only [lineStep, lineSendCommit, h2]
  case sendUnlock c len => simp only [lineStep, lineSendUnlock, State.setLock, h2]
  case sendReturn c len => exact h3 s _
  case recvAvail c =>
    simp only [lineStep, lineRecvAvail]
    cases acc <;> first | rfl | skip
    simp only
    split_ifs <;> simp only [h1]
  case recvLoop c m n => simp only [lineStep, lineRecvLoop]; split_ifs <;> simp only [h1]
  case recvMagic c m n => simp only [lineStep, lineRecvMagic]; split_ifs <;> simp only [h1]
  case recvLength c m n => simp only [lineStep, lineRecvLength]; split <;> simp only [h1]
  case recvSize c d m n => simp only [lineStep, lineRecvSize]; split_ifs <;> simp only [h1]
  case frameRxTest c d => simp only [lineStep, lineFrameRxTest]; split_ifs <;> simp only [h1]
  case frameRxSize c d =>
    simp only [lineStep, lineFrameRxSize]
    cases acc <;> first | rfl | skip
    simp only
    split_ifs <;> simp only [h1]
  case ackReq c w => simp only [lineStep, lineAckReq]; split_ifs <;> rfl
  case ackDec c => simp only [lineStep, lineAckDec, h2]
  case noncmd w => simp only [lineStep, lineNoncmd]; split_ifs <;> rfl
  case noncmdReady w => simp only [lineStep, lineNoncmdReady]; split_ifs <;> simp only [h1]
  case phoneStart => simp only [lineStep, linePhoneStart]; split_ifs <;> rfl
  case phoneRing => simp only [lineStep, linePhoneRing]; split_ifs <;> simp only [h4]
  case crashExit => simp only [lineStep, lineCrashExit]; split_ifs <;> rfl
  case crashAct => exact h1 s .crashCmd
  case crash cause c => simp only [lineStep, lineCrash, h5]
  case doorbell w => exact h4 s w
  case startReturn => exact h3 s _
  case saveDone => exact h3 s _
  all_goals rfl

/-- SHM is written by store lines only. -/
theorem lineStep_mem {a : Agent} {l : Line} {acc : Value} {k : List Line} {s : State}
    (h8 : ∀ off b, l ≠ .store8 off b) (h32 : ∀ off v, l ≠ .store32 off v) : (lineStep a l acc k s).st.mem = s.mem := by
  by_cases hw : l.writes = false
  · exact lineStep_field (f := State.mem) (by simp) (by simp) (by simp) (by simp) (by simp) hw
  · cases l <;> first | (exact absurd rfl hw) | skip
    case store8 off b => exact absurd rfl (h8 off b)
    case store32 off v => exact absurd rfl (h32 off v)
    case work => simp only [lineStep, lineWork]; cases s.wq <;> rfl
    case setOnline => simp only [lineStep, lineSetOnline]; split_ifs <;> rfl
    case isrPush w => simp only [lineStep, lineIsrPush]; split_ifs <;> simp
    all_goals rfl

/-- The queues are written by their own pushes and pops only. -/
theorem lineStep_queues {a : Agent} {l : Line} {acc : Value} {k : List Line} {s : State} (hp : ∀ d, l ≠ .recvPush d)
    (hw : l ≠ .work) (hi : ∀ w, l ≠ .isrPush w) :
    (lineStep a l acc k s).st.wq = s.wq ∧ (lineStep a l acc k s).st.rxq = s.rxq := by
  by_cases h : l.writes = false
  · exact ⟨lineStep_field (f := State.wq) (by simp) (by simp) (by simp) (by simp) (by simp) h,
      lineStep_field (f := State.rxq) (by simp) (by simp) (by simp) (by simp) (by simp) h⟩
  · cases l <;> first | (exact absurd rfl h) | skip
    case recvPush d => exact absurd rfl (hp d)
    case work => exact absurd rfl hw
    case isrPush w => exact absurd rfl (hi w)
    case setOnline => simp only [lineStep, lineSetOnline]; split_ifs <;> exact ⟨rfl, rfl⟩
    all_goals exact ⟨rfl, rfl⟩

/-! ### The invariants that Onward carries along -/

/-- A predicate that Onward carries along is kept by everything but `LD.SAVE`'s admission, hardware reset and `PEER`. -/
theorem KeepsBut.of_onward {P : State → Prop} (h : ∀ s t, Onward s t → P s → P t) : KeepsBut P where
  sched := fun s _ => h s _ (.of_eq rfl rfl id rfl rfl id rfl rfl)
  ret := fun s _ => h s _ (.of_eq rfl rfl id rfl rfl id rfl rfl)
  respond := fun s _ _ _ _ => h s _ (.emit s _)
  begins := fun s a _ _ _ => h s _ (.setThread s a _)
  send := fun s _ _ _ _ _ =>
    h s _ ((Onward.of_eq (s := s) (t := { s with nextSnd := s.nextSnd + 1 }) rfl rfl id rfl rfl id rfl rfl).trans
      (.setThread _ _ _))
  skip := fun s => h s _ (.of_eq rfl rfl id rfl rfl id rfl rfl)
  line := fun a l acc k s _ _ _ => h _ _ ((Onward.line a l acc k s).trans (.settle a _))
  dispatch := fun s => h s _ (.dispatch s)

/-- And by everything a placed pattern is made of beside. -/
theorem KeepsPlaced.of_onward {P : State → Prop} (h : ∀ s t, Onward s t → P s → P t) : KeepsPlaced P where
  unplace := fun s => h s _ (.of_eq rfl rfl id rfl rfl id rfl rfl)
  begins := fun s a _ _ _ => h s _ (.setThread s a _)
  badHeader := fun s _ _ hp => ⟨h s _ (.raise s _) hp, h s _ (.raise s _) hp⟩

/-- No line places a pattern. -/
theorem lineStep_placed (a : Agent) (l : Line) (acc : Value) (k : List Line) (s : State) :
    (lineStep a l acc k s).st.placed = s.placed := by
  rw [lineStep_phases]; rfl

/-- A step of `PEER` writes SHM, `MBX_IN` and the two pending bits, and records what it reads and does; it touches no private
register and no phase (60_exceptions.md R270, R286). -/
theorem peerStep_private {p : PeerAct} {s t : State} (h : peerStep p s = .next t) :
    t = { s with mem := t.mem, mbxIn := t.mbxIn, irqInPending := t.irqInPending, irqOutPending := t.irqOutPending
                 events := t.events }
    ∧ (memWf s.mem = true → memWf t.mem = true) := by
  cases p <;> simp only [peerStep, peerByte, peerWord] at h
  all_goals (try split_ifs at h)
  all_goals cases h
  all_goals refine ⟨rfl, fun hm => ?_⟩
  all_goals first | exact hm | exact memWf_memWrite hm _ _ | exact memWf_memWrite32 hm _ _

end Sys2Proof.Machine
end

