-- ==== Sys2Proof/Laws/PerInstr.lean ====
section
/-! SUPPORT. The per-instruction family: whatever a received status word decodes to is well-formed, so that nothing in
a status word can be outside an operation's contract (30_encoding.md R111, R115). -/

namespace Sys2Proof.Laws.ReceivedWellFormed

/-- The operation, if some received status word decodes to it, is well-formed. -/
def Statement (i : Instr) : Prop :=
  ∀ (cfg : Cfg) (w : Half), decode cfg (.mbxIn w) = .instr i → i.wf cfg = true

/-- Every received word decodes to one of the five received operations (R111). -/
theorem received_cases {cfg : Cfg} {w : Half} {i : Instr} (h : decode cfg (.mbxIn w) = .instr i) :
    (i = .dbInvalid w ∧ w &&& cfg.stValid = 0)
    ∨ i = .cmdPhoneStart ∨ i = .cmdCrashExit
    ∨ (i = .cmdOther (w &&& cfg.stCodeMask) ∧ w &&& cfg.stCodeMask ≠ cfg.codePhoneStart
        ∧ w &&& cfg.stCodeMask ≠ cfg.codeCrashExit)
    ∨ (i = .dbNoncmd w ∧ w &&& cfg.stValid ≠ 0 ∧ w &&& cfg.stCmd = 0) := by
  simp only [decode, decodeStatus, decodeCommand, Decoded.instr.injEq] at h
  split_ifs at h with h1 h2 h3 h4 <;> subst h <;> simp_all

/-- The five received operations are well-formed. -/
theorem received_wf {cfg : Cfg} {w : Half} {i : Instr} (h : decode cfg (.mbxIn w) = .instr i) : i.wf cfg = true := by
  rcases received_cases h with ⟨rfl, h1⟩ | rfl | rfl | ⟨rfl, h1, h2⟩ | ⟨rfl, h1, h2⟩
  · simp [Instr.wf, h1]
  · rfl
  · rfl
  · simp [Instr.wf, h1, h2, BitVec.and_assoc]
  · simpa [Instr.wf, h2] using h1

theorem ldStatus : Statement .ldStatus := fun _ _ h => received_wf h

theorem ldStart : Statement .ldStart := fun _ _ h => received_wf h

theorem chSend (c : Nat) (chid : Byte) (payload : List Byte) : Statement (.chSend c chid payload) :=
  fun _ _ h => received_wf h

theorem ldSave : Statement .ldSave := fun _ _ h => received_wf h

theorem cmdPhoneStart : Statement .cmdPhoneStart := fun _ _ h => received_wf h

theorem cmdCrashExit : Statement .cmdCrashExit := fun _ _ h => received_wf h

theorem cmdOther (code : Half) : Statement (.cmdOther code) := fun _ _ h => received_wf h

theorem dbNoncmd (w : Half) : Statement (.dbNoncmd w) := fun _ _ h => received_wf h

theorem dbInvalid (w : Half) : Statement (.dbInvalid w) := fun _ _ h => received_wf h

theorem cmdInitEnd : Statement .cmdInitEnd := fun _ _ h => received_wf h

theorem dbSend (c : Nat) : Statement (.dbSend c) := fun _ _ h => received_wf h

theorem dbResAck (c : Nat) : Statement (.dbResAck c) := fun _ _ h => received_wf h

theorem frameTx (c : Nat) (chid cseq : Byte) (fseq : Half) (payload : List Byte) :
    Statement (.frameTx c chid cseq fseq payload) :=
  fun _ _ h => received_wf h

theorem frameRx (c : Nat) (d : Header) : Statement (.frameRx c d) := fun _ _ h => received_wf h

theorem ldOnDoorbell : Statement .ldOnDoorbell := fun _ _ h => received_wf h

theorem rqSpace (r : RingId) : Statement (.rqSpace r) := fun _ _ h => received_wf h

theorem rqAvail (r : RingId) : Statement (.rqAvail r) := fun _ _ h => received_wf h

theorem rqWrite (r : RingId) (src : List Byte) : Statement (.rqWrite r src) := fun _ _ h => received_wf h

theorem rqRead (r : RingId) (len : Nat) : Statement (.rqRead r len) := fun _ _ h => received_wf h

theorem rqPeek (r : RingId) (off len : Nat) : Statement (.rqPeek r off len) := fun _ _ h => received_wf h

theorem rqInit (r : RingId) : Statement (.rqInit r) := fun _ _ h => received_wf h

theorem fhPad (n : Nat) : Statement (.fhPad n) := fun _ _ h => received_wf h

theorem fhFrameSize (totalLen : Nat) : Statement (.fhFrameSize totalLen) := fun _ _ h => received_wf h

theorem fhEncode (chid cseq : Byte) (fseq : Half) (payloadLen : Nat) :
    Statement (.fhEncode chid cseq fseq payloadLen) :=
  fun _ _ h => received_wf h

theorem fhTailBytes (payload : List Byte) (pad : Nat) : Statement (.fhTailBytes payload pad) :=
  fun _ _ h => received_wf h

theorem fhDecode (b : Vector Byte 12) : Statement (.fhDecode b) := fun _ _ h => received_wf h

theorem chInit (c : Nat) : Statement (.chInit c) := fun _ _ h => received_wf h

theorem chRecvPending (c : Nat) : Statement (.chRecvPending c) := fun _ _ h => received_wf h

theorem chAckReq (c : Nat) (w : Half) : Statement (.chAckReq c w) := fun _ _ h => received_wf h

theorem chResAck (c : Nat) (w : Half) : Statement (.chResAck c w) := fun _ _ h => received_wf h

theorem ldWork : Statement .ldWork := fun _ _ h => received_wf h

theorem ldCheckReady : Statement .ldCheckReady := fun _ _ h => received_wf h

theorem ldCrash (cause : CrashCause) (c : Nat) : Statement (.ldCrash cause c) := fun _ _ h => received_wf h

theorem dwStep : Statement .dwStep := fun _ _ h => received_wf h

end Sys2Proof.Laws.ReceivedWellFormed
end

