-- ==== Sys2Proof/Laws/Rights.lean ====
section
/-! SUPPORT. Each agent comes only to lines of its own column of 60_exceptions.md R270: the programs it begins with,
and the lines that one of its lines leads to. -/

namespace Sys2Proof.Machine

/-! ### Ring copies -/

theorem mem_storeLines {off : Nat} {bs : List Byte} {l : Line} (h : l ∈ storeLines off bs) :
    ∃ k b, k < bs.length ∧ b ∈ bs ∧ l = .store8 (off + k) b := by
  induction bs generalizing off with
  | nil => simp at h
  | cons b bs ih =>
    rw [storeLines_cons, List.mem_cons] at h
    rcases h with rfl | h
    · exact ⟨0, b, by simp, by simp, rfl⟩
    · obtain ⟨k, b', hk, hb, rfl⟩ := ih h
      exact ⟨k + 1, b', by simp; omega, by simp [hb], by rw [Nat.add_assoc, Nat.add_comm 1 k]⟩

theorem mem_loadLines {off n : Nat} {l : Line} (h : l ∈ loadLines off n) : ∃ k, k < n ∧ l = .load8 (off + k) := by
  induction n generalizing off with
  | zero => simp at h
  | succ n ih =>
    rw [loadLines_succ, List.mem_cons] at h
    rcases h with rfl | h
    · exact ⟨0, by omega, rfl⟩
    · obtain ⟨k, hk, rfl⟩ := ih h
      exact ⟨k + 1, by omega, by rw [Nat.add_assoc, Nat.add_comm 1 k]⟩

/-- A byte copied into a ring goes into the ring's buffer (20_memory.md R68). -/
theorem mem_ringStoreLines {g : Ring} {i : Nat} {src : List Byte} {l : Line} (hi : i < g.cap) (hl : src.length < g.cap)
    (h : l ∈ ringStoreLines g i src) : ∃ off b, g.base ≤ off ∧ off < g.base + g.cap ∧ l = .store8 off b := by
  rcases List.mem_append.1 h with h | h
  · obtain ⟨k, b, hk, _, rfl⟩ := mem_storeLines h
    simp only [List.length_take, firstSpan] at hk
    exact ⟨_, b, by omega, by omega, rfl⟩
  · obtain ⟨k, b, hk, _, rfl⟩ := mem_storeLines h
    simp only [List.length_drop] at hk
    exact ⟨_, b, by omega, by omega, rfl⟩

/-- A byte copied out of a ring comes from the ring's buffer. -/
theorem mem_ringLoadLines {g : Ring} {i len : Nat} {l : Line} (hi : i < g.cap) (hl : len < g.cap)
    (h : l ∈ ringLoadLines g i len) : ∃ off, g.base ≤ off ∧ off < g.base + g.cap ∧ l = .load8 off := by
  rcases List.mem_append.1 h with h | h
  · obtain ⟨k, hk, rfl⟩ := mem_loadLines h
    simp only [firstSpan] at hk
    exact ⟨_, by omega, by omega, rfl⟩
  · obtain ⟨k, hk, rfl⟩ := mem_loadLines h
    exact ⟨_, by omega, by omega, rfl⟩

/-! ### Programs -/

theorem lineOk_chInit_lw {cfg : Cfg} {c : Nat} (hc : c < cfg.nCh) {l : Line} (h : l ∈ chInitLines cfg c) :
    lineOk cfg .lw l := by
  simp only [chInitLines, rqInitLines, ringOf, List.mem_append, List.mem_cons, List.not_mem_nil, or_false] at h
  rcases h with (rfl | rfl) | (rfl | rfl) <;> exact .inr ⟨⟨c, hc, by simp⟩, rfl⟩

theorem lineOk_chInit_host {cfg : Cfg} {c : Nat} (hc : c < cfg.nCh) {l : Line} (h : l ∈ chInitLines cfg c) :
    lineOk cfg .host l := by
  simp only [chInitLines, rqInitLines, ringOf, List.mem_append, List.mem_cons, List.not_mem_nil, or_false] at h
  rcases h with (rfl | rfl) | (rfl | rfl) <;> exact .inr (.inr ⟨⟨c, hc, by simp⟩, rfl⟩)

theorem lineOk_rqInit_lw {cfg : Cfg} {r : RingId} (hc : r.c < cfg.nCh) {l : Line} (h : l ∈ rqInitLines cfg r) :
    lineOk cfg .lw l := by
  obtain ⟨d, c⟩ := r
  cases d <;> simp only [rqInitLines, ringOf, List.mem_cons, List.not_mem_nil, or_false] at h <;>
    rcases h with rfl | rfl <;> exact .inr ⟨⟨c, hc, by simp⟩, rfl⟩

/-- `HOST`'s two programs (43_link_device.md R211, R226). -/
theorem lineOk_region {cfg : Cfg} (magic : Word) {last : Line} (hlast : lineOk cfg .host last) {l : Line}
    (h : l ∈ regionLines cfg magic last) : lineOk cfg .host l := by
  simp only [regionLines, zeroLines, List.mem_cons, List.mem_append, List.not_mem_nil, or_false,
    List.mem_flatMap] at h
  have hf : lineOk cfg .host .fence := .inr (.inl rfl)
  rcases h with rfl | rfl | (⟨c, hc, h⟩ | h) | rfl | rfl | rfl | rfl | rfl
  · exact .inr (.inl rfl)
  · exact hf
  · exact lineOk_chInit_host (by simpa using hc) h
  · obtain ⟨k, b, hk, hb, rfl⟩ := mem_storeLines h
    simp only [List.length_replicate] at hk
    exact ⟨by omega, by omega, (List.mem_replicate.1 hb).2⟩
  · exact hf
  · exact .inl rfl
  · exact hf
  · exact .inr (.inl rfl)
  · exact hlast

/-- What a status word's operation begins with is the link worker's. -/
theorem lineOk_status {cfg : Cfg} {i : Instr} {l : Line} (h : l ∈ statusLines i) : lineOk cfg .lw l := by
  cases i <;> simp only [statusLines, List.mem_singleton, List.not_mem_nil] at h <;> subst h <;> rfl

/-- Every program an agent begins with lies in its column. -/
theorem Begins.ok {s : State} {a : Agent} {prog : List Line} (hb : Begins s a prog) {l : Line} (h : l ∈ prog) :
    lineOk s.cfg a l := by
  cases hb with
  | onDoorbell =>
    simp only [List.mem_cons, List.not_mem_nil, or_false] at h
    rcases h with rfl | rfl <;> rfl
  | work => simp only [List.mem_singleton] at h; subst h; rfl
  | start _ => exact lineOk_region (last := .startDone) _ rfl h

/-! ### One line -/

/-- What is left to run after a drain pass ended inside a primitive was there before. -/
theorem passExit_sub {k : List Line} {l : Line} (h : l ∈ (passExit k).2) : l ∈ k := by
  unfold passExit at h
  split at h
  · exact List.mem_cons_of_mem _ h
  · exact List.mem_cons_of_mem _ (List.mem_cons_of_mem _ h)
  · exact List.mem_cons_of_mem _ h
  · exact h

theorem ringCorruptExit_sub {a : Agent} {r : RingId} {k : List Line} {s : State} {l : Line}
    (h : l ∈ (ringCorruptExit a r k s).todo) : l ∈ k := by
  cases a <;> simp only [ringCorruptExit, sendAbort, List.not_mem_nil] at h
  exact passExit_sub h

/-- The stores of `RQ.WRITE` with a valid head: bytes of the TX buffer, and the head word with a valid index. -/
theorem lineOk_write {cfg : Cfg} (hw : cfg.wf = true) {a : Agent} (ha : ∃ k, a = .snd k) {r : RingId}
    (hd : r.dir = .tx) (hc : r.c < cfg.nCh) {h : Word} (hh : indexCorrupt (ringOf cfg r).cap h = false) {src : List Byte}
    (hl : src.length < cfg.capOf r) {l : Line}
    (hm : l ∈ ringStoreLines (ringOf cfg r) h.toNat src
      ++ [.fence, .store32 (ringOf cfg r).offH (advance (ringOf cfg r).cap h.toNat src.length)]) : lineOk cfg a l := by
  obtain ⟨d, c⟩ := r
  obtain ⟨j, rfl⟩ := ha
  simp only at hd hc
  subst hd
  have hcap := Cfg.capOf_ok hw (r := txRing c) hc
  rw [ringOf_cap, indexCorrupt_false_iff] at hh
  rcases List.mem_append.1 hm with hm | hm
  · obtain ⟨off, b, h1, h2, rfl⟩ := mem_ringStoreLines (by rw [ringOf_cap]; exact hh) (by rw [ringOf_cap]; exact hl) hm
    exact ⟨c, hc, h1, h2⟩
  · simp only [List.mem_cons, List.not_mem_nil, or_false] at hm
    rcases hm with rfl | rfl
    · exact .inr (.inr ⟨j, rfl⟩)
    · refine ⟨c, hc, rfl, ?_⟩
      rw [ringOf_cap, advance_toNat (by omega) hcap.2.2]
      exact Nat.mod_lt _ (show 0 < cfg.capOf (txRing c) by omega)

/-- The lines of `RQ.READ` with a valid tail: bytes of the RX buffer, and the tail word with a valid index. -/
theorem lineOk_read {cfg : Cfg} (hw : cfg.wf = true) {r : RingId} (hd : r.dir = .rx) (hc : r.c < cfg.nCh) {t : Word}
    (ht : indexCorrupt (ringOf cfg r).cap t = false) {len : Nat} (hl : len < cfg.capOf r) {l : Line}
    (hm : l ∈ ringLoadLines (ringOf cfg r) t.toNat len
      ++ [.fence, .store32 (ringOf cfg r).offT (advance (ringOf cfg r).cap t.toNat len)]) : lineOk cfg .lw l := by
  obtain ⟨d, c⟩ := r
  simp only at hd hc
  subst hd
  have hcap := Cfg.capOf_ok hw (r := rxRing c) hc
  rw [ringOf_cap, indexCorrupt_false_iff] at ht
  rcases List.mem_append.1 hm with hm | hm
  · obtain ⟨off, h1, h2, rfl⟩ := mem_ringLoadLines (by rw [ringOf_cap]; exact ht) (by rw [ringOf_cap]; exact hl) hm
    exact ⟨rfl, c, hc, h1, h2⟩
  · simp only [List.mem_cons, List.not_mem_nil, or_false] at hm
    rcases hm with rfl | rfl
    · exact .inl rfl
    · refine .inl ⟨c, hc, rfl, ?_⟩
      rw [ringOf_cap, advance_toNat (by omega) hcap.2.2]
      exact Nat.mod_lt _ (show 0 < cfg.capOf (rxRing c) by omega)

/-- The lines of `RQ.PEEK` with a valid tail. -/
theorem lineOk_peek {cfg : Cfg} (hw : cfg.wf = true) {r : RingId} (hd : r.dir = .rx) (hc : r.c < cfg.nCh) {i len : Nat}
    (hl : len < cfg.capOf r) {l : Line} (hm : l ∈ ringLoadLines (ringOf cfg r) (i % (ringOf cfg r).cap) len) :
    lineOk cfg .lw l := by
  obtain ⟨d, c⟩ := r
  simp only at hd hc
  subst hd
  have hcap := Cfg.capOf_ok hw (r := rxRing c) hc
  have hi : i % (ringOf cfg (rxRing c)).cap < (ringOf cfg (rxRing c)).cap :=
    Nat.mod_lt _ (by rw [ringOf_cap]; omega)
  obtain ⟨off, h1, h2, rfl⟩ := mem_ringLoadLines hi (by rw [ringOf_cap]; exact hl) hm
  exact ⟨rfl, c, hc, h1, h2⟩

/-- One line of an agent leads only to lines of the agent's column. -/
theorem lineStep_ok {a : Agent} {l : Line} {acc : Value} {k : List Line} {s : State} (hw : s.cfg.wf = true)
    (hr : lineReady a l s = true) (hl : lineOk s.cfg a l) (hk : ∀ x ∈ k, lineOk s.cfg a x) :
    ∀ x ∈ (lineStep a l acc k s).todo, lineOk s.cfg a x := by
  have hen : lineEnabled l s = true := by
    simp only [lineReady, Bool.and_eq_true] at hr; exact hr.2
  have one : ∀ {y : Line} {ys : List Line}, lineOk s.cfg a y → (∀ x ∈ ys, lineOk s.cfg a x) →
      ∀ x ∈ y :: ys, lineOk s.cfg a x := by
    intro y ys h1 h2 x hx
    rcases List.mem_cons.1 hx with rfl | hx
    · exact h1
    · exact h2 x hx
  have none : ∀ x ∈ ([] : List Line), lineOk s.cfg a x := by simp
  cases l with
  | load8 off => exact hk
  | store8 off b => exact hk
  | store32 off v => exact hk
  | fence => exact hk
  | doorbell w => exact hk
  | spaceHead r => exact one hl hk
  | spaceTail r h => exact hk
  | availHead r => exact one hl hk
  | availTail r h => exact hk
  | rqWrite r src =>
    simp only [lineStep, lineRqWrite]
    split_ifs with h1 h2
    · exact hk
    · exact one ⟨hl.2.2, .inr ⟨hl.1, hl.2.1⟩⟩ hk
    · intro x hx
      have hx' : x ∈ (ringStoreLines (ringOf s.cfg r) (s.head r).toNat src
          ++ [.fence, .store32 (ringOf s.cfg r).offH (advance (ringOf s.cfg r).cap (s.head r).toNat src.length)]) ++ k := by
        simpa using hx
      rcases List.mem_append.1 hx' with hx | hx
      · exact lineOk_write hw hl.1 hl.2.1 hl.2.2 (by simpa using h2) (by simpa [lineEnabled] using hen) hx
      · exact hk x hx
  | rqRead r len =>
    obtain ⟨rfl, hd, hc⟩ := hl
    simp only [lineStep, lineRqRead]
    split_ifs with h1 h2
    · exact hk
    · exact one ⟨hc, .inl ⟨rfl, hd⟩⟩ hk
    · intro x hx
      have hx' : x ∈ (ringLoadLines (ringOf s.cfg r) (s.tail r).toNat len
          ++ [.fence, .store32 (ringOf s.cfg r).offT (advance (ringOf s.cfg r).cap (s.tail r).toNat len)]) ++ k := by
        simpa using hx
      rcases List.mem_append.1 hx' with hx | hx
      · exact lineOk_read hw hd hc (by simpa using h2) (by simpa [lineEnabled] using hen) hx
      · exact hk x hx
  | rqPeek r off len =>
    obtain ⟨rfl, hd, hc⟩ := hl
    simp only [lineStep, lineRqPeek]
    split_ifs with h2
    · exact one ⟨hc, .inl ⟨rfl, hd⟩⟩ hk
    · intro x hx
      rcases List.mem_append.1 hx with hx | hx
      · have : off + len < s.cfg.capOf r := by simpa [lineEnabled] using hen
        exact lineOk_peek hw hd hc (by omega) hx
      · exact hk x hx
  | ringCorrupt r => exact fun x hx => hk x (ringCorruptExit_sub hx)
  | readyMagic => exact one hl hk
  | readyAccess m => exact hk
  | sendLock c chid payload =>
    obtain ⟨⟨j, rfl⟩, hc⟩ := hl
    exact one (.inr ⟨j, rfl⟩) (one ⟨⟨j, rfl⟩, hc⟩ hk)
  | sendReady c chid payload =>
    obtain ⟨⟨j, rfl⟩, hc⟩ := hl
    simp only [lineStep, lineSendReady]
    split_ifs
    · exact one ⟨⟨j, rfl⟩, rfl, hc⟩ (one ⟨⟨j, rfl⟩, hc⟩ hk)
    · exact none
  | sendTest c chid payload =>
    obtain ⟨⟨j, rfl⟩, hc⟩ := hl
    simp only [lineStep, lineSendTest]
    split_ifs
    · exact none
    · exact one ⟨⟨j, rfl⟩, hc⟩ hk
  | sendFit c chid payload =>
    obtain ⟨⟨j, rfl⟩, hc⟩ := hl
    simp only [lineStep, lineSendFit]
    cases acc with
    | int v =>
      simp only
      split_ifs
      · exact one ⟨⟨j, rfl⟩, hc⟩ hk
      · exact one ⟨⟨j, rfl⟩, hc⟩ hk
    | _ => exact one ⟨⟨j, rfl⟩, hc⟩ hk
  | sendPark c chid payload =>
    obtain ⟨⟨j, rfl⟩, hc⟩ := hl
    exact one ⟨⟨j, rfl⟩, rfl, hc⟩ (one ⟨⟨j, rfl⟩, hc⟩ hk)
  | sendCommit c chid payload => exact one hl hk
  | sendEncode c chid payload =>
    obtain ⟨⟨j, rfl⟩, hc⟩ := hl
    exact one ⟨⟨j, rfl⟩, rfl, hc⟩ (one ⟨⟨j, rfl⟩, rfl, hc⟩ (one (.inr (.inr ⟨j, rfl⟩))
      (one (.inl ⟨j, rfl⟩) (one ⟨⟨j, rfl⟩, hc⟩ hk))))
  | sendUnlock c len => exact one hl hk
  | sendReturn c len => exact hk
  | recvAvail c =>
    simp only [lineStep, lineRecvAvail]
    cases acc with
    | int v =>
      simp only
      split_ifs
      · exact hk
      · exact one hl hk
    | _ => exact hk
  | recvLoop c m n =>
    simp only [lineStep, lineRecvLoop]
    split_ifs
    · exact hk
    · exact hk
    · exact one ⟨hl.1, rfl, hl.2⟩ (one hl hk)
  | recvDecode c m n => exact one hl hk
  | recvMagic c m n =>
    simp only [lineStep, lineRecvMagic]
    split_ifs
    · exact hk
    · exact one hl hk
  | recvLength c m n =>
    simp only [lineStep, lineRecvLength]
    split
    · exact one hl hk
    · exact hk
  | recvSize c d m n =>
    simp only [lineStep, lineRecvSize]
    split_ifs
    · exact hk
    · exact one hl.1 (one ⟨hl.1, rfl, hl.2⟩ (one hl.1 (one hl hk)))
  | recvHold => exact hk
  | recvPush d => exact hk
  | frameRxTest c d =>
    simp only [lineStep, lineFrameRxTest]
    split_ifs
    · exact hk
    · exact one hl hk
  | frameRxSize c d =>
    simp only [lineStep, lineFrameRxSize]
    cases acc with
    | int v =>
      simp only
      split_ifs
      · exact hk
      · exact one hl.1 (one ⟨hl.1, rfl, hl.2⟩ (one hl.1 hk))
    | _ => exact hk
  | resAck c w => exact hk
  | ackReq c w =>
    simp only [lineStep, lineAckReq]
    split_ifs
    · exact hk
    · exact one (.inl hl.1) (one (.inr ⟨hl.1, c, hl.2, rfl⟩) (one hl hk))
  | ackDec c => exact hk
  | work =>
    have ha : a = .lw := hl
    subst ha
    simp only [lineStep, lineWork]
    cases s.wq with
    | nil => exact hk
    | cons w q =>
      intro x hx
      rcases List.mem_append.1 hx with hx | hx
      · exact lineOk_status hx
      · exact hk x hx
  | noncmd w =>
    have ha : a = .lw := hl
    simp only [lineStep, lineNoncmd]
    split_ifs
    · exact one (.inl ha) (one hl hk)
    · exact hk
  | noncmdReady w =>
    have ha : a = .lw := hl
    simp only [lineStep, lineNoncmdReady]
    split_ifs
    · intro x hx
      rcases List.mem_append.1 hx with hx | hx
      · simp only [channelLines, visitLines, List.mem_flatMap, List.mem_range, List.mem_cons, List.not_mem_nil, or_false] at hx
        obtain ⟨c, hc, hx⟩ := hx
        rcases hx with rfl | rfl | rfl | rfl
        · exact ⟨ha, hc⟩
        · exact ⟨ha, hc⟩
        · exact ⟨ha, rfl, hc⟩
        · exact ⟨ha, hc⟩
      · exact hk x hx
    · exact hk
  | phoneStart =>
    have ha : a = .lw := hl
    subst ha
    simp only [lineStep, linePhoneStart]
    split_ifs
    · exact hk
    · intro x hx
      rcases List.mem_append.1 hx with hx | hx
      · obtain ⟨c, hc, hx⟩ := List.mem_flatMap.1 hx
        exact lineOk_chInit_lw (by simpa using hc) hx
      · exact one (show lineOk s.cfg .lw .setOnline from rfl) hk x hx
  | setOnline =>
    have ha : a = .lw := hl
    subst ha
    simp only [lineStep, lineSetOnline]
    split_ifs
    · exact hk
    · exact one (.inl rfl) (one (show lineOk s.cfg .lw .phoneRing from rfl) hk)
  | phoneRing =>
    simp only [lineStep, linePhoneRing]
    split_ifs <;> exact hk
  | crashExit =>
    simp only [lineStep, lineCrashExit]
    split_ifs
    · exact hk
    · exact one hl hk
  | crashAct => exact hk
  | crash cause c => exact hk
  | isrClear => exact hk
  | isrGet => exact one hl hk
  | isrPush w =>
    simp only [lineStep, lineIsrPush]
    split_ifs <;> exact hk
  | startDone => exact one hl hk
  | startReturn => exact hk
  | saveDone => exact hk

/-! ### The rights, phase by phase -/

/-- An owned state's agents stand at lines of their own. -/
theorem owned_thread {s : State} (h : s.owned) (a : Agent) : ∀ l ∈ (s.thread a).todo, lineOk s.cfg a l := by
  obtain ⟨_, _, h1, h2, h3, h4, h5⟩ := h
  cases a with
  | snd k =>
    intro l hl
    exact h5 _ (thread_sender_mem (List.ne_nil_of_mem hl)) l hl
  | isr => exact h1
  | lw => exact h2
  | host => exact h3
  | call => simp [State.thread, h4]
  | dw => simp [State.thread, Thread.idle]

/-- The model's own agent has no line in the table (R270). -/
theorem not_lineOk_call {cfg : Cfg} {l : Line} : ¬ lineOk cfg .call l := by
  cases l <;> simp [lineOk]

theorem lineOk_call {cfg : Cfg} {k : List Line} (h : ∀ l ∈ k, lineOk cfg .call l) : k = [] := by
  cases k with
  | nil => rfl
  | cons l k => exact absurd (h l (List.mem_cons_self ..)) not_lineOk_call

/-- A phase made of the agent's own lines may be written. -/
theorem owned_setThread {s : State} {a : Agent} {th : Thread} (h : s.owned) (hok : ∀ l ∈ th.todo, lineOk s.cfg a l) :
    (s.setThread a th).owned := by
  obtain ⟨hw, hn, h1, h2, h3, h4, h5⟩ := h
  cases a with
  | snd k =>
    refine ⟨hw, hn, h1, h2, h3, h4, fun p hp => ?_⟩
    rcases mem_setSender hp with hp | ⟨rfl, _⟩
    · exact h5 p hp
    · exact hok
  | isr => exact ⟨hw, hn, hok, h2, h3, h4, h5⟩
  | lw => exact ⟨hw, hn, h1, hok, h3, h4, h5⟩
  | host => exact ⟨hw, hn, h1, h2, hok, h4, h5⟩
  | call => exact ⟨hw, hn, h1, h2, h3, lineOk_call hok, h5⟩
  | dw => exact ⟨hw, hn, h1, h2, h3, h4, h5⟩

/-- An agent that is put back at lines of its own leaves the state owned. -/
theorem owned_settle {a : Agent} {o : Out} (h : o.st.owned) (hok : ∀ l ∈ o.todo, lineOk o.st.cfg a l) :
    (settle a o).owned := by
  obtain ⟨s, acc, todo⟩ := o
  cases todo with
  | nil => exact owned_setThread (th := .idle) h (by simp [Thread.idle])
  | cons l k => exact owned_setThread h hok

end Sys2Proof.Machine
end

