-- ==== Sys2Proof/Tests/Slice0.lean ====
section
/-! SUPPORT. Tests. Expected values are those of spec/95_test_vectors.md (named V-…, P…, E…) or worked out by hand
from the rule named; none is the model's own answer. -/

namespace Sys2Proof.Tests

open Sys2Proof.Machine

/-! ### Helpers: small states -/

/-- The outcome is a next state of which `p` holds. -/
def next (o : Host.Outcome State Fault Refusal) (p : State → Bool) : Bool :=
  match o with
  | .next s => p s
  | .fault _ => false
  | .refused _ => false

/-- The outcome is this refusal. -/
def refusedAs (o : Host.Outcome State Fault Refusal) (r : Refusal) : Bool :=
  match o with
  | .next _ => false
  | .fault _ => false
  | .refused r' => r' == r

/-- The state after boot (95_test_vectors.md part 4): started, `ONLINE`, the sentinel words in place, all else 0. -/
def boot : State :=
  { State.reset with mem := [(0, 0xAA), (4, 0x01)], started := true, lstate := .online }

/-- The two index words of a ring. -/
def setIndices (s : State) (r : RingId) (h t : Word) : State :=
  (s.store32 (ringOf s.cfg r).offH h).store32 (ringOf s.cfg r).offT t

/-- Bytes written at an offset of SHM. -/
def putBytes (s : State) (off : Nat) (bs : List Byte) : State := { s with mem := memWriteBytes s.mem off bs }

/-- Bytes read at an offset of SHM. -/
def getBytes (s : State) (off n : Nat) : List Byte := memReadBytes s.mem off n

/-- `boot` with one frame of 16 bytes in `RX(0)`: `chid 1, fseq 1, cseq 1, [01]` (V-CH-1, frame A). -/
def oneFrame : State :=
  putBytes (setIndices boot (rxRing 0) 16 0) 128 [0xCD, 0xAB, 1, 0, 0, 0xC0, 0x0D, 0, 1, 1, 0, 0, 1, 0, 0, 0]

/-- The header of that frame. -/
def headerA : Header := ⟨0xABCD, 1, 0xC000, 13, 1, 1, 0⟩

/-- Frames enough to fill `RXQ` in REF. -/
def fullRxq : List Frame := List.replicate 8 ⟨1, []⟩

/-! ### The configuration and WellFormed: each check refuses (00_scope.md R8) -/

theorem test_ref_wf : Cfg.ref.wf = true := by decide

theorem test_cfg_no_channel : ({ Cfg.ref with chans := [] } : Cfg).wf = false := by decide

theorem test_cfg_capacity_unaligned :
    ({ Cfg.ref with chans := [⟨66, 64, 2, 0x20, 8⟩, ⟨64, 64, 1, 0x10, 4⟩] } : Cfg).wf = false := by decide

theorem test_cfg_capacity_small :
    ({ Cfg.ref with chans := [⟨64, 12, 2, 0x20, 8⟩, ⟨64, 64, 1, 0x10, 4⟩] } : Cfg).wf = false := by decide

theorem test_cfg_capacity_large :
    ({ Cfg.ref with chans := [⟨2 ^ 31, 64, 2, 0x20, 8⟩, ⟨64, 64, 1, 0x10, 4⟩] } : Cfg).wf = false := by decide

theorem test_cfg_reserved_unaligned : ({ Cfg.ref with rsvdLen := 22 } : Cfg).wf = false := by decide

theorem test_cfg_magics_equal : ({ Cfg.ref with saveMagic := 0xAA } : Cfg).wf = false := by decide

theorem test_cfg_codes_equal : ({ Cfg.ref with codeInitEnd := 0x8 } : Cfg).wf = false := by decide

theorem test_cfg_code_outside_field : ({ Cfg.ref with codeInitEnd := 0x12 } : Cfg).wf = false := by decide

theorem test_cfg_mask_two_bits :
    ({ Cfg.ref with chans := [⟨64, 64, 3, 0x20, 8⟩, ⟨64, 64, 1, 0x10, 4⟩] } : Cfg).wf = false := by decide

theorem test_cfg_masks_equal :
    ({ Cfg.ref with chans := [⟨64, 64, 2, 0x20, 8⟩, ⟨64, 64, 2, 0x10, 4⟩] } : Cfg).wf = false := by decide

theorem test_cfg_mask_is_marker :
    ({ Cfg.ref with chans := [⟨64, 64, 0x80, 0x20, 8⟩, ⟨64, 64, 1, 0x10, 4⟩] } : Cfg).wf = false := by decide

theorem test_cfg_marker_two_bits : ({ Cfg.ref with stValid := 0x180 } : Cfg).wf = false := by decide

theorem test_cfg_markers_equal : ({ Cfg.ref with stCmd := 0x80 } : Cfg).wf = false := by decide

theorem test_cfg_marker_in_code_field :
    ({ Cfg.ref with stCodeMask := 0x4F } : Cfg).wf = false
    ∧ ({ Cfg.ref with stCodeMask := 0x8F } : Cfg).wf = false := by decide

theorem test_cfg_depths : ({ Cfg.ref with wqDepth := 0 } : Cfg).wf = false
    ∧ ({ Cfg.ref with rxqDepth := 0 } : Cfg).wf = false := by decide

theorem test_wf_send_channel : (Instr.chSend 2 1 []).wf Cfg.ref = false := by decide

theorem test_wf_send_length : lenFits 65523 = true ∧ lenFits 65524 = false := by decide

theorem test_wf_other_code : (Instr.cmdOther 0x8).wf Cfg.ref = false ∧ (Instr.cmdOther 0xC).wf Cfg.ref = false
    ∧ (Instr.cmdOther 0x10).wf Cfg.ref = false := by decide

theorem test_wf_status_words : (Instr.dbNoncmd 0x02).wf Cfg.ref = false ∧ (Instr.dbNoncmd 0xC2).wf Cfg.ref = false
    ∧ (Instr.dbInvalid 0x80).wf Cfg.ref = false := by decide

theorem test_wf_sent_channel : (Instr.dbSend 2).wf Cfg.ref = false ∧ (Instr.dbResAck 2).wf Cfg.ref = false := by
  decide

theorem test_wf_frames : (Instr.frameTx 2 1 1 1 []).wf Cfg.ref = false ∧ (Instr.frameRx 2 headerA).wf Cfg.ref = false
    ∧ (Instr.frameRx 0 { headerA with startMagic := 0xABCC }).wf Cfg.ref = false
    ∧ (Instr.frameRx 0 { headerA with totalLen := 11 }).wf Cfg.ref = false := by decide

theorem test_wf_ring_direction : (Instr.rqSpace (rxRing 0)).wf Cfg.ref = false
    ∧ (Instr.rqAvail (txRing 0)).wf Cfg.ref = false ∧ (Instr.rqWrite (rxRing 0) []).wf Cfg.ref = false
    ∧ (Instr.rqRead (txRing 0) 0).wf Cfg.ref = false ∧ (Instr.rqPeek (txRing 0) 0 0).wf Cfg.ref = false := by
  decide

theorem test_wf_ring_channel : (Instr.rqSpace (txRing 2)).wf Cfg.ref = false
    ∧ (Instr.rqAvail (rxRing 2)).wf Cfg.ref = false ∧ (Instr.rqInit (txRing 2)).wf Cfg.ref = false
    ∧ (Instr.chInit 2).wf Cfg.ref = false ∧ (Instr.chRecvPending 2).wf Cfg.ref = false
    ∧ (Instr.ldCrash .crashCmd 2).wf Cfg.ref = false := by decide

theorem test_wf_ring_length : (Instr.rqWrite (txRing 0) (List.replicate 64 0)).wf Cfg.ref = false
    ∧ (Instr.rqRead (rxRing 0) 64).wf Cfg.ref = false ∧ (Instr.rqPeek (rxRing 0) 52 12).wf Cfg.ref = false := by
  decide

theorem test_wf_codec : (Instr.fhFrameSize 11).wf Cfg.ref = false ∧ (Instr.fhFrameSize 65536).wf Cfg.ref = false
    ∧ (Instr.fhEncode 1 1 1 65524).wf Cfg.ref = false ∧ (Instr.fhTailBytes [1, 2, 3, 4] 4).wf Cfg.ref = false
    ∧ (Instr.fhTailBytes [1] 1).wf Cfg.ref = false := by decide

theorem test_wf_handshake : (Instr.chAckReq 2 0x80).wf Cfg.ref = false ∧ (Instr.chAckReq 0 0xC0).wf Cfg.ref = false
    ∧ (Instr.chResAck 2 0x80).wf Cfg.ref = false ∧ (Instr.chResAck 0 0x20).wf Cfg.ref = false := by decide

/-! ### Decoding: words written from 30_encoding.md, bit by bit -/

/-- R120: the four opcodes, and a reserved one. -/
theorem test_decode_requests :
    decode Cfg.ref (.req ⟨0b0000, 0, 0, []⟩) = .instr .ldStatus
    ∧ decode Cfg.ref (.req ⟨0b0001, 0, 0, []⟩) = .instr .ldStart
    ∧ decode Cfg.ref (.req ⟨0b0010, 1, 0x02, [0x55, 0x66]⟩) = .instr (.chSend 1 0x02 [0x55, 0x66])
    ∧ decode Cfg.ref (.req ⟨0b0011, 0, 0, []⟩) = .instr .ldSave
    ∧ decode Cfg.ref (.req ⟨0b0111, 0, 0, []⟩) = .reject .badRequest := by decide

/-- V-LD-1, `DB.INVALID`: bit 7 clear. -/
theorem test_decode_invalid :
    decode Cfg.ref (.mbxIn 0b0000000000000000) = .instr (.dbInvalid 0)
    ∧ decode Cfg.ref (.mbxIn 0b0000000001001000) = .instr (.dbInvalid 0x48) := by decide

/-- V-LD-1, `DB.NONCMD`: bit 7 set, bit 6 clear. -/
theorem test_decode_noncmd :
    decode Cfg.ref (.mbxIn 0b0000000010100010) = .instr (.dbNoncmd 0x00A2)
    ∧ decode Cfg.ref (.mbxIn 0b1111111110000001) = .instr (.dbNoncmd 0xFF81) := by decide

/-- V-LD-1, the commands: bits 7 and 6 set, the code in bits 3 to 0, the rest ignored. -/
theorem test_decode_commands :
    decode Cfg.ref (.mbxIn 0b0000000011001000) = .instr .cmdPhoneStart
    ∧ decode Cfg.ref (.mbxIn 0b1111111111001000) = .instr .cmdPhoneStart
    ∧ decode Cfg.ref (.mbxIn 0b0000000011001100) = .instr .cmdCrashExit
    ∧ decode Cfg.ref (.mbxIn 0b0000000011000010) = .instr (.cmdOther 2)
    ∧ decode Cfg.ref (.mbxIn 0b0000000011000101) = .instr (.cmdOther 5) := by decide

/-- R113, R114: the words the engine sends, and one it never sends. -/
theorem test_decode_sent :
    decode Cfg.ref (.mbxOut 0b0000000011000010) = .instr .cmdInitEnd
    ∧ decode Cfg.ref (.mbxOut 0b0000000010000010) = .instr (.dbSend 0)
    ∧ decode Cfg.ref (.mbxOut 0b0000000010000001) = .instr (.dbSend 1)
    ∧ decode Cfg.ref (.mbxOut 0b0000000010001000) = .instr (.dbResAck 0)
    ∧ decode Cfg.ref (.mbxOut 0b0000000010000100) = .instr (.dbResAck 1)
    ∧ decode Cfg.ref (.mbxOut 0b0000000010010000) = .reject .notSent := by decide

/-- P1: the frame of the source's example payload. -/
theorem test_decode_frame_tx :
    decode Cfg.ref (.txFrame 0 [0xCD, 0xAB, 1, 0, 0, 0xC0, 0x0F, 0, 1, 1, 0, 0, 1, 2, 3, 0])
      = .instr (.frameTx 0 1 1 1 [1, 2, 3]) := by decide

/-- V-CH-5: fields that are not checked; V-FH-5: magic before length. -/
theorem test_decode_frame_rx :
    decode Cfg.ref (.rxFrame 1 [0xCD, 0xAB, 7, 0, 1, 0x80, 0x0E, 0, 2, 9, 0xEF, 0xBE])
      = .instr (.frameRx 1 ⟨0xABCD, 7, 0x8001, 14, 2, 9, 0xBEEF⟩)
    ∧ decode Cfg.ref (.rxFrame 1 [0xCC, 0xAB, 7, 0, 1, 0x80, 0x0B, 0, 2, 9, 0, 0]) = .reject .badMagic
    ∧ decode Cfg.ref (.rxFrame 1 [0xCD, 0xAB, 7, 0, 1, 0x80, 0x0B, 0, 2, 9, 0, 0]) = .reject .badLength := by
  decide

/-- R126: words of the opcode table; a frame row's bytes count up from bit 0. -/
theorem test_table_words :
    decodeTableWord 8 0xC8 = some .cmdPhoneStart ∧ decodeTableWord 16 0x0088 = some (.dbResAck 0)
    ∧ decodeTableWord 96 0x00000902000B80010007ABCD = none
    ∧ decodeTableWord 96 0xBEEF0902000E80010007ABCD = some (.frameRx 0 ⟨0xABCD, 7, 0x8001, 14, 2, 9, 0xBEEF⟩)
    ∧ decodeTableWord 96 0x00000101000CC0000001ABCD = some (.frameTx 0 1 1 1 []) := by decide

/-! ### The step: a placed pattern, and each kind of choice -/

theorem test_step_fetches : next (step (State.reset.withFetchWord 8 0xC8)) (fun t =>
    t.lstate == .online && t.events == [.doorbellOut 0x00C2] && t.placed == none) = true := by decide

theorem test_step_idle : next (step State.reset) (· == State.reset) = true := by decide

/-- R120: a request with a reserved opcode. -/
theorem test_step_request : next (step { boot with sched := [.request ⟨7, 0, 0, []⟩] }) (fun t =>
    t.events == [.response none 7 .badRequest (.num 0)] && t.sched == []) = true := by decide

/-- R211, R216: an idle worker told to run an operation runs the oldest word's. -/
theorem test_step_op : next (step { boot with wq := [0x00CC], sched := [.op .lw] }) (fun t =>
    t.errstat == 0x40 && t.wq == [] && t.sched == []) = true := by decide

/-- R286 E2, recorded. -/
theorem test_step_peer : next (step { boot with sched := [.peer (.write8 128 7)] }) (fun t =>
    t.load8 128 == 7 && t.events == [.peerDid (.write8 128 7)]) = true := by decide

/-- R145: the read of a corrupt head is one line and stores nothing, the raise is the next. -/
theorem test_corrupt_two_lines :
    next (step { setIndices boot (rxRing 0) 0 64 with
        lw := ⟨.unit, [.rqRead (rxRing 0) 4]⟩, sched := [.line .lw] }) (fun t =>
      t.errstat == 0 && t.events == [] && t.lw.todo == [.ringCorrupt (rxRing 0)])
    ∧ next (step { setIndices boot (rxRing 0) 0 64 with
        lw := ⟨.unit, [.ringCorrupt (rxRing 0)]⟩, sched := [.line .lw] }) (fun t =>
      t.errstat == 0x01 && t.events == [.crashNotify .ringCorruptRx 0] && t.lw.todo == []) := by decide

/-- A bad magic at the tail, presented on its own: on channel 0, on a channel the engine has not got, with no byte. -/
theorem test_bad_header_presented :
    next (runWord (.rxFrame 0 [0xCC, 0xAB, 1, 0, 0, 0xC0, 0x0C, 0, 1, 1, 0, 0]) boot) (fun t => t.errstat == 0x02)
    ∧ refusedAs (runWord (.rxFrame 2 [0xCC, 0xAB, 1, 0, 0, 0xC0, 0x0C, 0, 1, 1, 0, 0]) boot) (.noSuchRing 2)
    ∧ next (runWord (.rxFrame 0 []) boot) (· == boot) := by decide

/-! ### Requests -/

/-- P8, line 11. -/
theorem test_status : next (exec .ldStatus { boot with lstate := .offline, halted := true, errstat := 0x08 }) (fun t =>
    t.events == [.response none 0 .ok (.status ⟨0, true, true, 0x08, 0, 0, [⟨0, 0, 0, false⟩, ⟨0, 0, 0, false⟩]⟩)])
      = true := by decide

set_option maxRecDepth 20000 in
/-- V-LD-2: what was in SHM is gone, whatever it was. -/
theorem test_start : next (exec .ldStart { State.reset with mem := [(0, 0xEE), (5, 0xEE), (8, 0xEE), (319, 0xEE)] })
    (fun t => t.mem == [(0, 0xAA), (4, 0x01)] && t.started && t.lstate == .offline
      && t.events == [.response none 1 .ok (.num 0)]) = true := by decide

/-- V-CH-9: `START` again. -/
theorem test_start_again : next (exec .ldStart boot) (fun t =>
    t.events == [.response none 1 .badState (.num 0)] && t.mem == boot.mem) = true := by decide

/-- P1, line 5. -/
theorem test_send : next (exec (.chSend 0 0x01 [1, 2, 3]) boot) (fun t =>
    getBytes t 64 16 == [0xCD, 0xAB, 1, 0, 0, 0xC0, 0x0F, 0, 1, 1, 0, 0, 1, 2, 3, 0]
    && getBytes t 8 8 == [0x10, 0, 0, 0, 0, 0, 0, 0] && t.mbxOut == 0x0082 && (t.chan 0).txlock == .free
    && t.events == [.doorbellOut 0x0082, .response (some 0) 2 .ok (.num 3)]) = true := by decide

/-- V-CH-6: both sequence numbers wrap. -/
theorem test_send_wraps : next (exec (.chSend 0 0x01 [])
      { boot with chans := [⟨0xFFFF, 0xFF, 0, .free⟩, ChanRegs.reset] }) (fun t =>
    getBytes t 64 12 == [0xCD, 0xAB, 0, 0, 0, 0xC0, 0x0C, 0, 1, 0, 0, 0]
    && (t.chan 0).fseq == 0 && (t.chan 0).cseq == 0 && t.head (txRing 0) == 12) = true := by decide

set_option maxRecDepth 20000 in
/-- P9, line 6. -/
theorem test_save : next (exec .ldSave (setIndices boot (txRing 0) 16 0)) (fun t =>
    t.mem == [(0, 0x56), (1, 0x53), (2, 0x56), (3, 0x4E), (4, 0x01)] && t.lstate == .nvSave
    && t.events == [.response none 3 .ok (.num 0)]) = true := by decide

/-- V-CH-9: `SAVE` while `OFFLINE`. -/
theorem test_save_offline : next (exec .ldSave { boot with lstate := .offline }) (fun t =>
    t.events == [.response none 3 .badState (.num 0)] && t.lstate == .offline) = true := by decide

/-! ### Status words -/

/-- E3: index words, a corrupt one too, are zeroed, one doorbell goes out. -/
theorem test_phone_start : next (exec .cmdPhoneStart
      { setIndices (setIndices boot (rxRing 1) 16 4) (txRing 0) 64 0 with lstate := .offline }) (fun t =>
    t.mem == [(0, 0xAA), (4, 0x01)] && t.lstate == .online && t.events == [.doorbellOut 0x00C2]) = true := by
  decide

/-- P9, line 7. -/
theorem test_phone_start_saved : next (exec .cmdPhoneStart { boot with lstate := .nvSave }) (fun t =>
    t.lstate == .nvSave && t.events == []) = true := by decide

/-- V-LD-3. -/
theorem test_crash_exit : next (exec .cmdCrashExit boot) (fun t =>
    t.lstate == .offline && t.errstat == 0x40 && t.events == [.crashNotify .crashCmd 0]) = true := by decide

/-- V-LD-1: `INIT_END` received is ignored. -/
theorem test_other : next (exec (.cmdOther 2) boot) (· == boot) = true := by decide

/-- P7. -/
theorem test_noncmd_acks : next (exec (.dbNoncmd 0x00B0) boot) (fun t =>
    t.events == [.doorbellOut 0x0088, .doorbellOut 0x0084] && t.mbxOut == 0x0084
    && (t.chan 0).pendingAck == 0xFFFFFFFF && (t.chan 1).pendingAck == 0xFFFFFFFF) = true := by decide

/-- V-CH-4, from channel 1: its index is corrupt, channel 0 is drained all the same. -/
theorem test_noncmd_goes_on : next (exec (.dbNoncmd 0x0080) (setIndices oneFrame (rxRing 1) 0x40 0)) (fun t =>
    t.rxq == [⟨1, [1]⟩] && t.errstat == 0x01 && t.lstate == .offline
    && t.events == [.crashNotify .ringCorruptRx 1]) = true := by decide

theorem test_invalid : next (exec (.dbInvalid 0x0048) boot) (· == boot) = true := by decide

/-- R221. -/
theorem test_init_end : next (exec .cmdInitEnd boot) (fun t =>
    t.mbxOut == 0x00C2 && t.irqOutPending && t.events == [.doorbellOut 0x00C2]) = true := by decide

/-- R113: channel 1's send bit. -/
theorem test_db_send : next (exec (.dbSend 1) boot) (fun t => t.mbxOut == 0x0081) = true := by decide

/-- R113: channel 1's response-ack bit. -/
theorem test_db_res_ack : next (exec (.dbResAck 1) boot) (fun t => t.mbxOut == 0x0084) = true := by decide

/-! ### Frames -/

/-- P1's bytes, from the frame pattern alone. -/
theorem test_frame_tx : next (exec (.frameTx 0 1 1 1 [1, 2, 3]) boot) (fun t =>
    getBytes t 64 16 == [0xCD, 0xAB, 1, 0, 0, 0xC0, 0x0F, 0, 1, 1, 0, 0, 1, 2, 3, 0]
    && t.head (txRing 0) == 16 && t.events == []) = true := by decide

/-- V-CH-1, frame A. -/
theorem test_frame_rx : next (exec (.frameRx 0 headerA) oneFrame) (fun t =>
    t.rxq == [⟨1, [1]⟩] && t.tail (rxRing 0) == 16) = true := by decide

/-- V-CH-3: `total_len` 40 with 12 bytes there. -/
theorem test_frame_rx_short : next (exec (.frameRx 0 { headerA with totalLen := 40 })
      (setIndices boot (rxRing 0) 12 0)) (fun t =>
    t.errstat == 0x04 && t.rxq == [] && t.tail (rxRing 0) == 0) = true := by decide

/-! ### The interrupt context -/

/-- P10: the ninth word is dropped. -/
theorem test_doorbell_full : next (exec .ldOnDoorbell
      { boot with wq := List.replicate 8 0x0082, mbxIn := 0x0081, irqInPending := true }) (fun t =>
    t.wq == List.replicate 8 0x0082 && t.errstat == 0x10 && !t.irqInPending) = true := by decide

theorem test_doorbell : next (exec .ldOnDoorbell { boot with mbxIn := 0x00C8, irqInPending := true, wq := [0x81] })
    (fun t => t.wq == [0x0081, 0x00C8] && !t.irqInPending && t.errstat == 0) = true := by decide

/-! ### The ring queue -/

/-- V-RQ-1, the row of R143 and the row of a corrupt head. -/
theorem test_space : next (exec (.rqSpace (txRing 0)) (setIndices boot (txRing 0) 60 8)) (fun t => t.ret == .int 11)
    ∧ next (exec (.rqSpace (txRing 0)) (setIndices boot (txRing 0) 64 0)) (fun t => t.ret == .int (-1)) := by
  decide

/-- V-RQ-1. -/
theorem test_avail : next (exec (.rqAvail (rxRing 1)) (setIndices boot (rxRing 1) 60 8)) (fun t => t.ret == .int 52)
    ∧ next (exec (.rqAvail (rxRing 1)) (setIndices boot (rxRing 1) 0 0x80000000)) (fun t => t.ret == .int (-1)) := by
  decide

/-- V-RQ-2: a write that wraps. -/
theorem test_write : next (exec (.rqWrite (txRing 0) [0, 1, 2, 3, 4, 5, 6, 7, 8, 9, 10, 11, 12, 13, 14, 15])
      (setIndices boot (txRing 0) 56 40)) (fun t =>
    getBytes t 120 8 == [0, 1, 2, 3, 4, 5, 6, 7] && getBytes t 64 8 == [8, 9, 10, 11, 12, 13, 14, 15]
    && t.head (txRing 0) == 8 && t.tail (txRing 0) == 40) = true := by decide

/-- V-RQ-6: nothing is written at a corrupt head. -/
theorem test_write_corrupt : next (exec (.rqWrite (txRing 0) [7]) (setIndices boot (txRing 0) 64 0)) (fun t =>
    t.errstat == 0x01 && t.events == [.crashNotify .ringCorruptTx 0] && t.head (txRing 0) == 64
    && getBytes t 64 1 == [0]) = true := by decide

/-- The ring of V-RQ-3. -/
def wrapped : State :=
  putBytes (putBytes (setIndices boot (rxRing 1) 24 56) 312 [0xCD, 0xAB, 2, 0, 0, 0xC0, 0x11, 0]) 256 [2, 2, 0, 0]

/-- V-RQ-3: a read that wraps. -/
theorem test_read : next (exec (.rqRead (rxRing 1) 20) wrapped) (fun t =>
    t.ret == .bytes [0xCD, 0xAB, 2, 0, 0, 0xC0, 0x11, 0, 2, 2, 0, 0, 0, 0, 0, 0, 0, 0, 0, 0]
    && t.tail (rxRing 1) == 12 && t.head (rxRing 1) == 24) = true := by decide

/-- V-RQ-3: a peek writes nothing. -/
theorem test_peek : next (exec (.rqPeek (rxRing 1) 0 12) wrapped) (fun t =>
    t.ret == .bytes [0xCD, 0xAB, 2, 0, 0, 0xC0, 0x11, 0, 2, 2, 0, 0] && t.mem == wrapped.mem) = true := by
  decide

/-- V-RQ-5: corrupt indices become 0, other rings keep theirs. -/
theorem test_rq_init : next (exec (.rqInit (rxRing 1)) (setIndices wrapped (rxRing 0) 4 4)) (fun t =>
    t.head (rxRing 1) == 0 && t.tail (rxRing 1) == 0 && t.head (rxRing 0) == 4 && getBytes t 256 2 == [2, 2])
      = true := by decide

/-! ### The codec -/

/-- V-FH-1. -/
theorem test_pad : next (exec (.fhPad 13) boot) (fun t => t.ret == .nat 3)
    ∧ next (exec (.fhPad 16) boot) (fun t => t.ret == .nat 0) := by decide

/-- E1, and the last row of V-FH-2. -/
theorem test_frame_size : next (exec (.fhFrameSize 15) boot) (fun t => t.ret == .nat 16)
    ∧ next (exec (.fhFrameSize 65535) boot) (fun t => t.ret == .nat 65536) := by decide

/-- V-FH-2, the last row. -/
theorem test_encode : next (exec (.fhEncode 0xFF 0x80 0x1234 65523) boot) (fun t =>
    t.ret == .encoded [0xCD, 0xAB, 0x34, 0x12, 0, 0xC0, 0xFF, 0xFF, 0xFF, 0x80, 0, 0] 1) = true := by decide

/-- V-FH-2: one byte more is `TooLong`. -/
theorem test_encode_too_long : next (exec (.fhEncode 1 1 1 65524) boot) (fun t => t.ret == .code .tooLong) = true := by
  decide

/-- V-FH-3. -/
theorem test_tail_bytes : next (exec (.fhTailBytes [1, 2, 3] 1) boot) (fun t => t.ret == .bytes [1, 2, 3, 0]) = true := by
  decide

/-- V-FH-4, the second header. -/
theorem test_decode : next (exec (.fhDecode #v[0xCD, 0xAB, 7, 0, 1, 0x80, 0x0E, 0, 2, 9, 0xEF, 0xBE]) boot) (fun t =>
    t.ret == .header (.ok ⟨0xABCD, 7, 0x8001, 14, 2, 9, 0xBEEF⟩)) = true := by decide

/-- V-FH-5. -/
theorem test_decode_bad :
    next (exec (.fhDecode #v[0xCC, 0xAB, 1, 0, 0, 0xC0, 0x0B, 0, 1, 1, 0, 0]) boot) (fun t => t.ret == .header .badMagic)
    ∧ next (exec (.fhDecode #v[0xCD, 0xAB, 1, 0, 0, 0xC0, 0x0B, 0, 1, 1, 0, 0]) boot)
        (fun t => t.ret == .header .badLength) := by decide

/-! ### Channels -/

/-- R181. -/
theorem test_ch_init : next (exec (.chInit 1) (setIndices wrapped (txRing 1) 64 9)) (fun t =>
    t.head (rxRing 1) == 0 && t.tail (rxRing 1) == 0 && t.head (txRing 1) == 0 && t.tail (txRing 1) == 0) = true := by
  decide

/-- V-CH-1: a good frame is delivered, the bad one after it stops the pass with the tail in front of it. -/
theorem test_recv : next (exec (.chRecvPending 0)
      (putBytes (setIndices oneFrame (rxRing 0) 28 0) 144 [0xCC, 0xAB, 3, 0, 0, 0xC0, 0x0C, 0, 1, 3, 0, 0])) (fun t =>
    t.rxq == [⟨1, [1]⟩] && t.errstat == 0x02 && t.tail (rxRing 0) == 16 && t.ret == .nat 1) = true := by decide

/-- V-DW-2: with `RXQ` full the frame is not consumed. -/
theorem test_recv_holds : next (exec (.chRecvPending 0) { oneFrame with rxq := fullRxq }) (fun t =>
    t.tail (rxRing 0) == 0 && t.rxq == fullRxq && !t.lw.todo.isEmpty) = true := by decide

/-- P7, channel 0 alone. -/
theorem test_ack_req : next (exec (.chAckReq 0 0x00A0) boot) (fun t =>
    t.events == [.doorbellOut 0x0088] && (t.chan 0).pendingAck == 0xFFFFFFFF && (t.chan 1).pendingAck == 0) = true := by
  decide

/-- In `NV_SAVE` a `DB.NONCMD` past N1 answers as R194 says; R227: a `CMD.PHONE_START` rings no more; R324: a sender does. -/
theorem test_nv_save_doorbells :
    next (.next (advanceAgent 4 .lw { boot with lstate := .nvSave, lw := ⟨.unit, [.ackReq 0 0x00A0]⟩ }))
      (fun t => t.events == [.doorbellOut 0x0088] && (t.chan 0).pendingAck == 0xFFFFFFFF) = true
    ∧ advanceAgent 1 .lw { boot with lstate := .nvSave, lw := ⟨.unit, [.phoneRing]⟩ } = { boot with lstate := .nvSave }
    ∧ (advanceAgent 1 (.snd 0) { boot with lstate := .nvSave, snds := [(0, ⟨.unit, [.doorbell 0x0082]⟩)] }).events
        = [.doorbellOut 0x0082] := by decide

/-- D36: S5 is one line and the return of `LD.START` the next; so are C1 and C2, and V5 to V7 before V8. -/
theorem test_lines_are_steps :
    advanceAgent 1 .host { State.reset with host := ⟨.unit, [.startDone]⟩ }
        = { State.reset with started := true, host := ⟨.unit, [.startReturn]⟩ }
    ∧ ((advanceAgent 1 (.snd 0) { boot with snds := [(0, ⟨.unit, [.sendCommit 1 7 []]⟩)] }).thread (.snd 0)).todo
        = [.sendEncode 1 7 []]
    ∧ (advanceAgent 3 .lw { boot with lw := ⟨.bytes (headerBytes headerA), [.recvDecode 0 16 0]⟩ }).lw.todo
        = [.recvSize 0 headerA 16 0] := by decide

/-- R195: observed, nothing changes. -/
theorem test_res_ack : next (exec (.chResAck 0 0x0088) boot) (· == boot) = true := by decide

/-! ### The link and the dispatch worker -/

/-- R216: the older of two words. -/
theorem test_work : next (exec .ldWork { boot with wq := [0x00CC, 0x00C8] }) (fun t =>
    t.wq == [0x00C8] && t.errstat == 0x40 && t.lstate == .offline) = true := by decide

/-- R214: both words are tested. -/
theorem test_check_ready : next (exec .ldCheckReady boot) (fun t => t.ret == .bool true)
    ∧ next (exec .ldCheckReady (boot.store32 4 0)) (fun t => t.ret == .bool false) := by decide

/-- R266: `NV_SAVE` is kept. -/
theorem test_crash : next (exec (.ldCrash .ringCorruptTx 1) boot) (fun t =>
      t.lstate == .offline && t.events == [.crashNotify .ringCorruptTx 1])
    ∧ next (exec (.ldCrash .ringCorruptTx 1) { boot with lstate := .nvSave }) (fun t => t.lstate == .nvSave) := by
  decide

/-- V-DW-1, its first two steps, in a halted engine. -/
theorem test_dispatch : next (exec .dwStep { boot with halted := true, rxq := [⟨1, [1, 2, 3]⟩, ⟨7, []⟩] }) (fun t =>
      t.events == [.deliver 1 [1, 2, 3]] && t.rxq == [⟨7, []⟩] && t.errstat == 0)
    ∧ next (exec .dwStep { boot with halted := true, rxq := [⟨7, []⟩] }) (fun t =>
      t.events == [] && t.rxq == [] && t.errstat == 0x20) := by decide

/-! ### Witnesses: states and operands that meet the hypotheses of the obligations, clause by clause -/

/-- A sender parked on channel 0 with the lock held (V-CH-7: 49 bytes never fit), and its turn. -/
def parked : State :=
  { boot with
    chans := [{ ChanRegs.reset with txlock := .held 0 }, ChanRegs.reset]
    snds := [(0, ⟨.unit, [.sendPark 0 1 (List.replicate 49 0)]⟩)]
    nextSnd := 1
    sched := [.line (.snd 0)] }

/-- The same sender once its frame fits. -/
def unparked : State := { parked with snds := [(0, ⟨.unit, [.sendPark 0 1 (List.replicate 48 0)]⟩)] }

/-- A sender at the lock, which is free. -/
def atLock : State := { boot with snds := [(0, ⟨.unit, [.sendLock 1 1 [7]]⟩)], nextSnd := 1 }

/-- A pass that holds in front of its only frame. -/
def held : State :=
  { oneFrame with
    rxq := fullRxq, lw := ⟨.unit, [.recvHold, .rqRead (rxRing 0) 16, .recvPush headerA, .recvLoop 0 0 1]⟩ }

/-- Two frames in `RX(0)` (V-CH-2 without its third), and room for one in `RXQ`. -/
def twoFrames : State :=
  { putBytes (setIndices oneFrame (rxRing 0) 28 0) 144 [0xCD, 0xAB, 2, 0, 0, 0xC0, 0x0C, 0, 1, 2, 0, 0] with
    rxq := List.replicate 7 ⟨1, []⟩ }

/-- `PEER` has stored the first 12 of the 20 bytes of P4's frame. -/
def halfFrame : State :=
  { putBytes boot 128 [0xCD, 0xAB, 1, 0, 0, 0xC0, 20, 0, 1, 1, 0, 0] with
    events := (List.range 12).map (fun i => .peerDid (.write8 (128 + i) 0)) }

/-- The link worker about to ring, in `NV_SAVE`, and its turn. -/
def ringing : State :=
  { boot with lstate := .nvSave, lw := ⟨.unit, [.phoneRing]⟩, sched := [.line .lw] }

/-- The link worker in the middle of a `DB.NONCMD`, about to answer, in `NV_SAVE`, and its turn. -/
def answering : State :=
  { boot with lstate := .nvSave, lw := ⟨.unit, [.doorbell 0x0088]⟩, sched := [.line .lw] }

/-- The link worker in front of a full `RXQ`, and its turn. -/
def holding : State :=
  { oneFrame with
    rxq := fullRxq
    lw := ⟨.unit, [.recvHold, .rqRead (rxRing 0) 16, .recvPush headerA]⟩
    sched := [.line .lw] }

/-- `PEER` has seen 16 bytes in `TX(0)` and is about to consume them. -/
def consuming : State :=
  { setIndices boot (txRing 0) 16 0 with
    events := [.peerRead 8 4 16, .peerRead 12 4 0]
    sched := [.peer (.write32 12 16)] }

theorem boot_sane : boot.sane := ⟨by decide, by decide, by decide, by decide⟩

theorem oneFrame_sane : oneFrame.sane := ⟨by decide, by decide, by decide, by decide⟩

theorem parked_sane : parked.sane := ⟨by decide, by decide, by decide, by decide⟩

theorem unparked_sane : unparked.sane := ⟨by decide, by decide, by decide, by decide⟩

theorem atLock_sane : atLock.sane := ⟨by decide, by decide, by decide, by decide⟩

theorem held_sane : held.sane := ⟨by decide, by decide, by decide, by decide⟩

theorem twoFrames_sane : twoFrames.sane := ⟨by decide, by decide, by decide, by decide⟩

theorem consuming_sane : consuming.sane := ⟨by decide, by decide, by decide, by decide⟩

/-- With every agent idle there is no line to be out of place. -/
theorem idle_owned {s : State} (hw : s.cfg.wf = true) (h0 : s.placed = none) (h1 : s.isr.todo = []) (h2 : s.lw.todo = [])
    (h3 : s.host.todo = []) (h4 : s.call.todo = []) (h5 : s.snds = []) : s.owned :=
  ⟨hw, h0, by simp [h1], by simp [h2], by simp [h3], h4, by simp [h5]⟩

theorem consuming_owned : consuming.owned := idle_owned (by decide) rfl rfl rfl rfl rfl rfl

theorem holding_owned : holding.owned := by
  refine ⟨by decide, rfl, by simp [holding, oneFrame, putBytes, setIndices, State.store32, boot, State.reset, State.launch, Thread.idle], ?_,
    by simp [holding, oneFrame, putBytes, setIndices, State.store32, boot, State.reset, State.launch, Thread.idle], rfl,
    by simp [holding, oneFrame, putBytes, setIndices, State.store32, boot, State.reset, State.launch]⟩
  intro l hl
  simp only [holding, List.mem_cons, List.not_mem_nil, or_false] at hl
  rcases hl with rfl | rfl | rfl
  · rfl
  · exact ⟨rfl, rfl, by decide⟩
  · rfl

theorem ringing_owned : ringing.owned := by
  refine ⟨by decide, rfl, by simp [ringing, boot, State.reset, State.launch, Thread.idle], ?_,
    by simp [ringing, boot, State.reset, State.launch, Thread.idle], rfl,
    by simp [ringing, boot, State.reset, State.launch]⟩
  intro l hl
  simp only [ringing, List.mem_singleton] at hl
  subst hl
  rfl

theorem answering_owned : answering.owned := by
  refine ⟨by decide, rfl, by simp [answering, boot, State.reset, State.launch, Thread.idle], ?_,
    by simp [answering, boot, State.reset, State.launch, Thread.idle], rfl,
    by simp [answering, boot, State.reset, State.launch]⟩
  intro l hl
  simp only [answering, List.mem_singleton] at hl
  subst hl
  exact .inr ⟨rfl, 0, by decide, by decide⟩

theorem parked_owned : parked.owned := by
  refine ⟨by decide, rfl, by simp [parked, boot, State.reset, State.launch, Thread.idle],
    by simp [parked, boot, State.reset, State.launch, Thread.idle],
    by simp [parked, boot, State.reset, State.launch, Thread.idle], rfl, ?_⟩
  intro p hp l hl
  simp only [parked, List.mem_singleton] at hp
  subst hp
  simp only [List.mem_singleton] at hl
  subst hl
  exact ⟨⟨0, rfl⟩, by decide⟩

theorem test_witness_DecodeEncodeAgree :
    Cfg.ref.wf = true ∧ ∀ i ∈ [Instr.ldStatus, .ldStart, .chSend 1 0xFF [0], .ldSave, .cmdPhoneStart, .cmdCrashExit,
      .cmdOther 0xF, .dbNoncmd 0xFFBF, .dbInvalid 0xFF7F, .cmdInitEnd, .dbSend 1, .dbResAck 1,
      .frameTx 1 0xFF 0xFF 0xFFFF [1], .frameRx 1 ⟨0xABCD, 0xFFFF, 0xFFFF, 12, 0xFF, 0xFF, 0xFFFF⟩],
      i.wf Cfg.ref = true ∧ (encode Cfg.ref i).isSome = true := by decide

theorem test_witness_StatusReservedBits :
    (0xFFC8 : Half) &&& Cfg.ref.stValid ≠ 0 ∧ (0xFFC8 : Half) &&& Cfg.ref.stCmd ≠ 0
    ∧ (0x00C8 : Half) &&& (Cfg.ref.stValid ||| Cfg.ref.stCmd ||| Cfg.ref.stCodeMask)
        = 0xFFC8 &&& (Cfg.ref.stValid ||| Cfg.ref.stCmd ||| Cfg.ref.stCodeMask) := by decide

/-- The longest payload, the one byte more, and the round trip's. -/
theorem test_witness_EncodeBuildsHeader_CodecRoundTrip : 12 + 65523 ≤ 65535 ∧ 65535 < 12 + 65524 := by decide

theorem test_witness_DecodeHeaderCases :
    ((0xCC : Byte).toNat + 256 * (0xAB : Byte).toNat ≠ boot.cfg.startMagic.toNat)
    ∧ ((0xCD : Byte).toNat + 256 * (0xAB : Byte).toNat = boot.cfg.startMagic.toNat
        ∧ (11 : Byte).toNat + 256 * (0 : Byte).toNat < 12)
    ∧ ((0xCD : Byte).toNat + 256 * (0xAB : Byte).toNat = boot.cfg.startMagic.toNat
        ∧ 12 ≤ (12 : Byte).toNat + 256 * (0 : Byte).toNat) := by decide

theorem test_witness_FlippedMagicRejected : headerA.startMagic = boot.cfg.startMagic ∧ 15 < 16
    ∧ (#v[0xCD, 0x2B, 1, 0, 0, 0xC0, 0x0D, 0, 1, 1, 0, 0] : Vector Byte 12).toList
        = headerBytes { headerA with startMagic := headerA.startMagic ^^^ (1#16 <<< 15) } := by decide

theorem test_witness_RingIndexLaws : 60 < 64 ∧ 0 < 64 ∧ 64 < 2 ^ 31 ∧ ((3 : Nat) : Int) ≤ spaceOf 64 60 0
    ∧ ((60 : Nat) : Int) ≤ availOf 64 60 0 := by decide

/-- A head equal to the capacity, a tail with bit 31 set, and the last valid indices. -/
theorem test_witness_SpaceAnswer_AvailAnswer : boot.cfg.wf = true
    ∧ (txRing 1).c < boot.cfg.nCh ∧ boot.free (ringAgent (txRing 1)) = true ∧ boot.free (ringAgent (rxRing 1)) = true
    ∧ boot.cfg.capOf (txRing 1) ≤ ((setIndices boot (txRing 1) 64 0).head (txRing 1)).toNat
    ∧ boot.cfg.capOf (rxRing 1) ≤ ((setIndices boot (rxRing 1) 0 0x80000000).tail (rxRing 1)).toNat
    ∧ ((setIndices boot (txRing 1) 63 63).head (txRing 1)).toNat < boot.cfg.capOf (txRing 1)
    ∧ ((setIndices boot (txRing 1) 63 63).tail (txRing 1)).toNat < boot.cfg.capOf (txRing 1)
    ∧ ((setIndices boot (rxRing 1) 63 63).head (rxRing 1)).toNat < boot.cfg.capOf (rxRing 1)
    ∧ ((setIndices boot (rxRing 1) 63 63).tail (rxRing 1)).toNat < boot.cfg.capOf (rxRing 1) := by decide

/-- A write that fills the ring. -/
theorem test_witness_WriteStoresAndPublishes : boot.sane ∧ (txRing 0).c < boot.cfg.nCh
    ∧ boot.free (ringAgent (txRing 0)) = true ∧ (List.replicate 63 (7 : Byte)) ≠ []
    ∧ ((List.replicate 63 (7 : Byte)).length : Int) ≤ boot.space (txRing 0) := ⟨boot_sane, by decide⟩

theorem test_witness_WriteAppends : boot.sane ∧ (txRing 0).c < boot.cfg.nCh
    ∧ boot.free (ringAgent (txRing 0)) = true ∧ ([7] : List Byte).length ≤ boot.space (txRing 0)
    ∧ next (exec (.rqWrite (txRing 0) [7]) boot) (fun _ => true) = true := ⟨boot_sane, by decide⟩

/-- A read of everything, a peek up to the last byte. -/
theorem test_witness_ReadTakesOldest_PeekLeavesTail : oneFrame.sane ∧ (rxRing 0).c < oneFrame.cfg.nCh
    ∧ oneFrame.free (ringAgent (rxRing 0)) = true ∧ 16 ≠ 0 ∧ ((16 : Nat) : Int) ≤ oneFrame.avail (rxRing 0)
    ∧ ((4 + 12 : Nat) : Int) ≤ oneFrame.avail (rxRing 0) := ⟨oneFrame_sane, by decide⟩

theorem test_witness_InitZeroesIndices : boot.sane ∧ boot.free .lw = true ∧ (rxRing 1).c < boot.cfg.nCh
    ∧ 1 < boot.cfg.nCh := ⟨boot_sane, by decide⟩

theorem test_witness_CorruptIndexRaises : boot.cfg.wf = true ∧ (txRing 0).c < boot.cfg.nCh
    ∧ (setIndices boot (txRing 0) 64 0).free (ringAgent (txRing 0)) = true
    ∧ (setIndices boot (rxRing 0) 0 64).free (ringAgent (rxRing 0)) = true
    ∧ (List.replicate 63 (7 : Byte)).length < boot.cfg.capOf (txRing 0)
    ∧ boot.cfg.capOf (txRing 0) ≤ ((setIndices boot (txRing 0) 64 0).head (txRing 0)).toNat
    ∧ 63 < boot.cfg.capOf (rxRing 0) ∧ 51 + 12 < boot.cfg.capOf (rxRing 0)
    ∧ boot.cfg.capOf (rxRing 0) ≤ ((setIndices boot (rxRing 0) 0 64).tail (rxRing 0)).toNat := by decide

/-- One byte into a full ring, one byte out of an empty one, the smallest frame with too little space, and the capacity
itself. -/
theorem test_witness_MisuseRefused : boot.cfg.wf = true ∧ (txRing 0).c < boot.cfg.nCh
    ∧ boot.cfg.capOf (txRing 0) ≤ (List.replicate 64 (7 : Byte)).length
    ∧ ((setIndices boot (txRing 0) 63 0).head (txRing 0)).toNat < boot.cfg.capOf (txRing 0)
    ∧ (setIndices boot (txRing 0) 63 0).space (txRing 0) < (([7] : List Byte).length : Int)
    ∧ boot.cfg.capOf (rxRing 0) ≤ 64 ∧ (boot.tail (rxRing 0)).toNat < boot.cfg.capOf (rxRing 0)
    ∧ boot.avail (rxRing 0) < ((1 : Nat) : Int) ∧ boot.avail (rxRing 0) < ((0 + 1 : Nat) : Int)
    ∧ (boot.cfg.chan 0).capTx ≤ fhFrameSize (12 + (List.replicate 49 (7 : Byte)).length)
    ∧ ((setIndices boot (txRing 0) 52 0).head (txRing 0)).toNat < (boot.cfg.chan 0).capTx
    ∧ (setIndices boot (txRing 0) 52 0).space (txRing 0) < (fhFrameSize (12 + ([] : List Byte).length) : Int) := by
  decide

/-- The largest frame that fits (V-CH-7). -/
theorem test_witness_FrameTxWritesImage : boot.sane ∧ 0 < boot.cfg.nCh ∧ boot.free .call = true
    ∧ 12 + (List.replicate 48 (7 : Byte)).length ≤ 65535
    ∧ (fhFrameSize (12 + (List.replicate 48 (7 : Byte)).length) : Int) ≤ boot.space (txRing 0) := ⟨boot_sane, by decide⟩

theorem test_witness_FrameRxTakesFrame : oneFrame.sane ∧ (Instr.frameRx 0 headerA).wf oneFrame.cfg = true
    ∧ oneFrame.free .lw = true
    ∧ (setIndices oneFrame (rxRing 0) 64 0).avail (rxRing 0) = -1
    ∧ (0 ≤ (setIndices oneFrame (rxRing 0) 15 0).avail (rxRing 0)
        ∧ (setIndices oneFrame (rxRing 0) 15 0).avail (rxRing 0) < (fhFrameSize headerA.totalLen.toNat : Int))
    ∧ ((fhFrameSize headerA.totalLen.toNat : Int) ≤ oneFrame.avail (rxRing 0)
        ∧ oneFrame.rxq.length < oneFrame.cfg.rxqDepth)
    ∧ oneFrame.cfg.rxqDepth ≤ fullRxq.length := ⟨oneFrame_sane, by decide⟩

/-- The largest payload that fits, on channel 1. -/
theorem test_witness_SendDelivers : boot.sane ∧ boot.started = true ∧ boot.halted = false ∧ 1 < boot.cfg.nCh
    ∧ 12 + (List.replicate 48 (7 : Byte)).length ≤ 65535 ∧ boot.lstate = .online ∧ (boot.chan 1).txlock = .free
    ∧ boot.ready = true
    ∧ (fhFrameSize (12 + (List.replicate 48 (7 : Byte)).length) : Int) ≤ boot.space (txRing 1) :=
  ⟨boot_sane, by decide⟩

theorem test_witness_SendWaits : boot.sane ∧ parked.sane ∧ (parked.chan 0).txlock = .held 0
    ∧ (parked.started = true ∧ parked.halted = false ∧ 0 < parked.cfg.nCh ∧ parked.lstate = .online)
    ∧ ((boot.chan 0).txlock = .free ∧ boot.ready = true ∧ 0 ≤ boot.space (txRing 0)
        ∧ boot.space (txRing 0) < (fhFrameSize (12 + (List.replicate 49 (0 : Byte)).length) : Int))
    ∧ parked.thread (.snd 0) = ⟨.unit, [.sendPark 0 1 (List.replicate 49 0)]⟩
    ∧ 0 ≤ parked.space (txRing 0)
    ∧ parked.space (txRing 0) < (fhFrameSize (12 + (List.replicate 49 (0 : Byte)).length) : Int)
    ∧ (parked.setThread (.snd 1) ⟨.unit, [.sendLock 0 1 []]⟩).thread (.snd 1) = ⟨.unit, [.sendLock 0 1 []]⟩ :=
  ⟨boot_sane, parked_sane, by decide⟩

/-- The largest frame that fits, of a parked sender; a frame of a sender at the free lock. -/
theorem test_witness_SendWaits_lifted :
    (unparked.sane ∧ agentLive unparked (.snd 0) = true ∧ 0 < unparked.cfg.nCh ∧ 12 + (List.replicate 48 (0 : Byte)).length ≤ 65535
      ∧ (fhFrameSize (12 + (List.replicate 48 (0 : Byte)).length) : Int) ≤ unparked.space (txRing 0)
      ∧ unparked.thread (.snd 0) = ⟨.unit, [.sendPark 0 1 (List.replicate 48 0)]⟩)
    ∧ (atLock.sane ∧ agentLive atLock (.snd 0) = true ∧ 1 < atLock.cfg.nCh ∧ 12 + ([7] : List Byte).length ≤ 65535
      ∧ (fhFrameSize (12 + ([7] : List Byte).length) : Int) ≤ atLock.space (txRing 1)
      ∧ atLock.thread (.snd 0) = ⟨.unit, [.sendLock 1 1 [7]]⟩ ∧ (atLock.chan 1).txlock = .free ∧ atLock.ready = true) :=
  ⟨⟨unparked_sane, by decide⟩, atLock_sane, by decide⟩

/-- R185, R189: the sender at the lock sends as a request at once would (P1, on channel 1). -/
theorem test_waiting_sends : next (step { atLock with sched := [.op (.snd 0)] }) (fun t =>
    t.events == [.doorbellOut 0x0081, .response (some 0) 2 .ok (.num 1)] && (t.chan 1).txlock == .free && t.snds == []
      && getBytes t 192 16 == [0xCD, 0xAB, 1, 0, 0, 0xC0, 13, 0, 1, 1, 0, 0, 7, 0, 0, 0] && t.head (txRing 1) == 16) = true := by
  decide

theorem test_witness_SendErrors : (boot.store32 4 0).sane ∧ (boot.store32 4 0).ready = false
    ∧ (setIndices boot (txRing 0) 0 64).sane ∧ (setIndices boot (txRing 0) 0 64).ready = true
    ∧ (setIndices boot (txRing 0) 0 64).space (txRing 0) = -1 ∧ boot.started = true ∧ boot.halted = false
    ∧ 0 < boot.cfg.nCh ∧ boot.lstate = .online ∧ (boot.chan 0).txlock = .free :=
  ⟨⟨by decide, by decide, by decide, by decide⟩, by decide, ⟨by decide, by decide, by decide, by decide⟩, by decide⟩

/-- The requests that are refused, at the edges: opcode 4, channel 2, one byte too long. -/
theorem test_witness_RequestRefusals : 4 ≤ (4 : BitVec 4).toNat ∧ State.reset.halted = false
    ∧ boot.started = true ∧ boot.halted = false ∧ boot.cfg.nCh ≤ 2 ∧ 1 < boot.cfg.nCh ∧ 65535 < 12 + 65524
    ∧ 12 + 65523 ≤ 65535 ∧ ({ boot with lstate := .offline } : State).lstate ≠ .online
    ∧ ({ boot with halted := true } : State).halted = true ∧ State.reset.started = false := by decide

/-- Each place a pass stops at: a corrupt index, nothing, 1 and 11 bytes, a bad magic, a bad length, a frame one byte
larger than what is there. -/
theorem test_witness_DrainStopsClean : boot.cfg.wf = true ∧ 0 < boot.cfg.nCh ∧ boot.free .lw = true
    ∧ (setIndices boot (rxRing 0) 0x40 0).avail (rxRing 0) = -1
    ∧ boot.avail (rxRing 0) = 0
    ∧ (setIndices boot (rxRing 0) 1 0).avail (rxRing 0) = 1
    ∧ (setIndices boot (rxRing 0) 11 0).avail (rxRing 0) = 11
    ∧ ((setIndices boot (rxRing 0) 12 0).avail (rxRing 0) = 12
        ∧ (setIndices boot (rxRing 0) 12 0).rxHeader 0 = .badMagic)
    ∧ (putBytes (setIndices boot (rxRing 0) 12 0) 128 [0xCD, 0xAB, 1, 0, 0, 0xC0, 11, 0]).rxHeader 0 = .badLength
    ∧ ((setIndices oneFrame (rxRing 0) 15 0).avail (rxRing 0) = 15
        ∧ (setIndices oneFrame (rxRing 0) 15 0).rxHeader 0 = .ok headerA
        ∧ fhFrameSize headerA.totalLen.toNat = 16) := by decide

/-- One frame and nothing after it; one frame and 12 bytes after it; a full queue in front of it. -/
theorem test_witness_DrainTakesFrames_DrainEndsOrHolds : oneFrame.sane ∧ 0 < oneFrame.cfg.nCh
    ∧ oneFrame.free .lw = true ∧ 12 ≤ oneFrame.avail (rxRing 0) ∧ oneFrame.rxHeader 0 = .ok headerA
    ∧ oneFrame.avail (rxRing 0) = (fhFrameSize headerA.totalLen.toNat : Int)
    ∧ (fhFrameSize headerA.totalLen.toNat : Int) ≤ (setIndices oneFrame (rxRing 0) 28 0).avail (rxRing 0)
    ∧ (setIndices oneFrame (rxRing 0) 28 0).rxHeader 0 = .ok headerA
    ∧ oneFrame.rxq.length < oneFrame.cfg.rxqDepth ∧ oneFrame.cfg.rxqDepth ≤ fullRxq.length := ⟨oneFrame_sane, by decide⟩

/-- The pass over the rest ends, and holds at a full `RXQ`; a held pass, and the frame it waits for. -/
theorem test_witness_DrainTakesFrames_held_DrainEndsOrHolds_held :
    (twoFrames.sane ∧ 0 < twoFrames.cfg.nCh ∧ twoFrames.free .lw = true ∧ 12 ≤ twoFrames.avail (rxRing 0)
      ∧ twoFrames.rxHeader 0 = .ok headerA ∧ (fhFrameSize headerA.totalLen.toNat : Int) ≤ twoFrames.avail (rxRing 0)
      ∧ twoFrames.rxq.length < twoFrames.cfg.rxqDepth
      ∧ next (exec (.frameRx 0 headerA) twoFrames) (fun s1 =>
          next (exec (.chRecvPending 0) s1) (fun s2 => !s2.lw.todo.isEmpty)) = true
      ∧ next (exec (.frameRx 0 headerA) oneFrame) (fun s1 =>
          next (exec (.chRecvPending 0) s1) (fun s2 => s2.lw.todo.isEmpty)) = true)
    ∧ (held.sane ∧ 0 < held.cfg.nCh ∧ agentLive held .lw = true ∧ held.rxq.length = held.cfg.rxqDepth
      ∧ held.rxq = ⟨1, []⟩ :: List.replicate 7 ⟨1, []⟩ ∧ fhFrameSize headerA.totalLen.toNat = 16
      ∧ (16 : Int) ≤ held.avail (rxRing 0)) :=
  ⟨⟨twoFrames_sane, by decide⟩, held_sane, by decide⟩

/-- R192 (d), V-DW-2: one frame out of `RXQ`, and the held pass goes on and ends. -/
theorem test_held_goes_on : next (exec .dwStep held) (fun s1 => next (step { s1 with sched := [.op .lw] }) (fun t =>
    t.rxq == List.replicate 7 ⟨1, []⟩ ++ [⟨1, [1]⟩] && t.tail (rxRing 0) == 16 && t.lw.todo == [] && t.ret == .nat 1)) = true := by
  decide

theorem test_witness_Handshake_SentDoorbells : boot.sane ∧ 1 < boot.cfg.nCh ∧ boot.free .lw = true
    ∧ boot.free .call = true ∧ (0x0080 : Half) &&& (boot.cfg.chan 1).maskReqAck = 0
    ∧ (0x0090 : Half) &&& (boot.cfg.chan 1).maskReqAck ≠ 0 :=
  ⟨boot_sane, by decide, by decide, by decide, by decide, by decide⟩

theorem test_witness_StartInitialises_SaveRetags : State.reset.sane ∧ State.reset.started = false
    ∧ State.reset.halted = false ∧ State.reset.host.todo = []
    ∧ boot.sane ∧ boot.started = true ∧ boot.halted = false ∧ boot.lstate = .online ∧ boot.host.todo = [] :=
  ⟨⟨by decide, by decide, by decide, by decide⟩, by decide, by decide, by decide, boot_sane, by decide⟩

/-- `WQ` with room for one word, and full. -/
theorem test_witness_InterruptService : boot.free .isr = true
    ∧ ({ boot with irqInPending := true } : State).irqInPending = true
    ∧ (List.replicate 7 (0 : Half)).length < boot.cfg.wqDepth
    ∧ boot.cfg.wqDepth ≤ (List.replicate 8 (0 : Half)).length ∧ boot.irqInPending = false := by decide

theorem test_witness_WorkRunsItsWord : boot.sane ∧ boot.free .lw = true ∧ boot.wq = []
    ∧ ({ boot with wq := [0x00C8] } : State).wq = 0x00C8 :: [] := ⟨boot_sane, by decide⟩

/-- For `ReadinessCheck`, `CrashPathActs`, `WordsDropped`, `NoncmdGates` and `CrashExitTakesDown`. -/
theorem test_witness_gates : boot.free .call = true ∧ 1 < boot.cfg.nCh ∧ boot.free .lw = true
    ∧ ({ boot with lstate := .nvSave } : State).free .lw = true
    ∧ ({ boot with lstate := .offline } : State).lstate ≠ .online
    ∧ (boot.store32 4 0).free .lw = true ∧ (boot.store32 4 0).lstate = .online ∧ (boot.store32 4 0).ready = false
    ∧ boot.lstate ≠ .nvSave := by decide

theorem test_witness_NoncmdVisitsChannels_PhoneStartBringsUp : boot.sane ∧ boot.free .lw = true
    ∧ boot.lstate = .online ∧ boot.ready = true ∧ (∀ c, c < boot.cfg.nCh → boot.avail (rxRing c) = 0)
    ∧ boot.lstate ≠ .nvSave := ⟨boot_sane, by decide⟩

theorem test_witness_DispatchDelivers : boot.rxq = [] ∧ oneFrame.cfg = boot.cfg ∧ (0x02 : Byte) ∈ boot.cfg.sinks
    ∧ (0x07 : Byte) ∉ boot.cfg.sinks := by decide

theorem test_witness_HardwareReset : ({ parked with sched := [.reset] } : State).placed = none
    ∧ ({ parked with sched := [.reset] } : State).sched = .reset :: [] := by decide

/-- A placed word; then, nothing placed, a request, an operation of each agent that has one, a busy agent told to run its
operation, each other choice, and no choice. -/
theorem test_witness_StepRunsTheOperation :
    (State.reset.withFetchWord 16 0x00CC).placed = some (.mbxIn 0x00CC)
    ∧ decode (State.reset.withFetchWord 16 0x00CC).cfg (.mbxIn 0x00CC) = .instr .cmdCrashExit
    ∧ boot.placed = none
    ∧ ({ boot with sched := [.request ⟨3, 0, 0, []⟩] } : State).sched = .request ⟨3, 0, 0, []⟩ :: []
    ∧ decode boot.cfg (.req ⟨3, 0, 0, []⟩) = .instr .ldSave
    ∧ ({ boot with sched := [.op .isr] } : State).isr.todo = [] ∧ ({ boot with sched := [.op .lw] } : State).lw.todo = []
    ∧ ({ boot with sched := [.op .dw] } : State).sched = .op .dw :: [] ∧ boot.sched = []
    ∧ (({ parked with sched := [.op (.snd 0)] } : State).thread (.snd 0)).todo ≠ [] ∧ parked.sched = .line (.snd 0) :: []
    ∧ ({ boot with sched := [.run .lw] } : State).sched = .run .lw :: []
    ∧ ({ boot with sched := [.submit ⟨2, 1, 1, [7]⟩] } : State).sched = .submit ⟨2, 1, 1, [7]⟩ :: []
    ∧ ({ boot with sched := [.peer .raiseIrq] } : State).sched = .peer .raiseIrq :: []
    ∧ ({ boot with sched := [.reset] } : State).sched = .reset :: [] := by decide

/-- The last byte and the last word of the region, the first of each beyond it, a misaligned word. -/
theorem test_witness_PeerSteps : boot.sane ∧ 319 < boot.cfg.shmSize ∧ 316 + 4 ≤ boot.cfg.shmSize ∧ 316 % 4 = 0
    ∧ boot.cfg.shmSize ≤ 320 ∧ boot.cfg.shmSize < 320 + 4 ∧ 320 % 4 = 0 ∧ 317 % 4 ≠ 0 := ⟨boot_sane, by decide⟩

theorem test_witness_HaltFreezes_IdleBeforeStart : ({ parked with halted := true } : State).halted = true
    ∧ State.reset.started = false ∧ Agent.snd 0 ≠ .dw ∧ Agent.lw ≠ .host
    ∧ needsLiveAgent (.rqInit (rxRing 1)) = true ∧ needsLiveAgent (.frameTx 0 1 1 1 []) = true
    ∧ needsLiveAgent (.chRecvPending 5) = true := by decide

/-- A last line, and a line with one after it. -/
theorem test_witness_RunsLineByLine : (parked.snds.map Prod.fst).Nodup
    ∧ (({ boot with lw := ⟨.unit, [.fence]⟩ } : State).thread .lw).todo ≠ []
    ∧ ((advanceAgent 1 .lw { boot with lw := ⟨.unit, [.fence]⟩ }).thread .lw).todo = []
    ∧ ((advanceAgent 1 .lw { boot with lw := ⟨.unit, [.fence, .fence]⟩ }).thread .lw).todo ≠ [] := by decide

/-- The parked sender is past L1 on channel 0. -/
theorem parked_phase : sendPhase parked.cfg 0 true [.sendPark 0 1 (List.replicate 49 0)] :=
  ⟨[], _, rfl, rfl, by simp, by simp⟩

/-- A sender in progress whose turn it is. -/
theorem test_witness_PlainFactsKept_RightsKept_AgentsStayInColumn : parked.sane ∧ parked.owned
    ∧ memWf parked.mem = true ∧ sendPhase parked.cfg 0 true (parked.thread (.snd 0)).todo
    ∧ next (step parked) (fun _ => true) = true :=
  ⟨parked_sane, parked_owned, by decide, parked_phase, by decide⟩

theorem test_witness_LocksKept : parked.owned ∧ parked.locksOk ∧ next (step parked) (fun _ => true) = true := by
  have hp := parked_phase
  refine ⟨parked_owned, ⟨by decide, by decide, by decide, ?_, ?_⟩, by decide⟩
  · intro p h
    simp only [parked, List.mem_singleton] at h
    subst h
    exact ⟨0, true, by decide, hp⟩
  · intro c k hc
    have hn : parked.cfg.nCh = 2 := by decide
    rw [hn] at hc
    have h0 : (parked.chan 0).txlock = .held 0 := by decide
    have h1 : (parked.chan 1).txlock = .free := by decide
    constructor
    · intro h
      rcases (by omega : c = 0 ∨ c = 1) with rfl | rfl
      · rw [h0] at h
        cases h
        exact ⟨_, List.mem_cons_self .., hp⟩
      · rw [h1] at h
        cases h
    · rintro ⟨th, hm, pre, l, ht, hl, _⟩
      simp only [parked, List.mem_singleton, Prod.mk.injEq] at hm
      obtain ⟨rfl, rfl⟩ := hm
      rcases List.eq_nil_or_concat pre with rfl | ⟨pre', b, rfl⟩
      · simp only [List.nil_append, List.cons.injEq, and_true] at ht
        subst ht
        simp only [sendMark, Option.some.injEq, Prod.mk.injEq, and_true] at hl
        rw [← hl, h0]
      · have := congrArg List.length ht
        simp at this

theorem test_witness_QueuesKept : holding.owned ∧ holding.queuesOk ∧ next (step holding) (fun _ => true) = true :=
  ⟨holding_owned, ⟨by decide, by decide, by decide⟩, by decide⟩

theorem test_witness_NothingBeforeStart : ({ State.reset with sched := [.request ⟨0, 0, 0, []⟩] } : State).owned
    ∧ ({ State.reset with sched := [.request ⟨0, 0, 0, []⟩] } : State).preStart
    ∧ next (step { State.reset with sched := [.request ⟨0, 0, 0, []⟩] }) (fun _ => true) = true :=
  ⟨idle_owned (by decide) rfl rfl rfl rfl rfl rfl, fun _ => by decide, by decide⟩

/-- The disciplined peer takes the 16 bytes of one frame out of `TX(0)`. -/
theorem test_witness_RegionRespected : consuming.owned ∧ consuming.sane ∧ consuming.memInside ∧ nextPeerOk consuming
    ∧ consuming.indicesValid ∧ next (step consuming) (fun t => t.tail (txRing 0) == 16) = true := by
  refine ⟨consuming_owned, consuming_sane, by unfold State.memInside; decide, ?_, ?_, by decide⟩
  · intro _ p rest h
    simp only [consuming, List.cons.injEq, Choice.peer.injEq] at h
    obtain ⟨rfl, rfl⟩ := h
    exact ⟨by decide, 0, by decide, .inl ⟨by decide, 16, 0, by decide, by decide, ⟨16, by decide⟩, by decide⟩⟩
  · rintro ⟨d, c⟩ hc
    have hn : consuming.cfg.nCh = 2 := by decide
    have hc : c < 2 := hn ▸ hc
    rcases (by omega : c = 0 ∨ c = 1) with rfl | rfl <;> cases d <;> unfold indexValid <;> decide

/-- R286 (c): of `[RXH, RXH + space)` and nothing beyond it, by the indices as they stand. -/
theorem test_peer_room : rxRoom (setIndices boot (rxRing 0) 60 62) 0 188
    ∧ ¬ rxRoom (setIndices boot (rxRing 0) 60 62) 0 189 := by
  refine ⟨⟨0, by decide, by decide⟩, fun ⟨k, hk, h⟩ => ?_⟩
  have hs : (setIndices boot (rxRing 0) 60 62).space (rxRing 0) = 1 := by decide
  have h0 : k = 0 := by omega
  rw [h0] at h
  exact absurd h (by decide)

/-- R286 (g): with `PHONE_START` sent no ring is touched until `INIT_END` is observed: neither a word left from before
nor one read with no doorbell pending is that. -/
theorem test_peer_quiet :
    ¬ peerOk { boot with events := [.doorbellOut 0x00C2, .peerDid (.setStatus 0x00C8), .peerDid .raiseIrq,
        .peerTook true 0x00C2] } (.read32 8)
    ∧ ¬ peerOk { boot with events := [.peerDid (.setStatus 0x00C8), .peerDid .raiseIrq, .doorbellOut 0x00C2,
        .peerTook false 0x00C2] } (.read32 8)
    ∧ peerOk { boot with events := [.peerDid (.setStatus 0x00C8), .peerDid .raiseIrq, .doorbellOut 0x00C2,
        .peerTook true 0x00C2] } (.read32 8) := by
  refine ⟨fun h => h (by decide) (.inl (by decide)), fun h => h (by decide) (.inl (by decide)), fun h => ?_⟩
  exact absurd h (by decide)

set_option maxRecDepth 20000 in
/-- P4, line 5: a header may be published before its payload; R286 (c): not more than was written. -/
theorem test_peer_half_frame : peerOk halfFrame (.write32 16 12) ∧ ¬ peerProduces halfFrame 0 16 := by
  constructor
  · refine ⟨by decide, 0, by decide, .inr (.inl ⟨by decide, ⟨12, by decide, by decide, by decide, ?_⟩, ?_, by decide⟩)⟩
    · have h : ∀ off < 192, 128 ≤ off → (off ∈ halfFrame.peerView.fresh ↔
          ∃ k < 12, off = ringAt (ringOf halfFrame.cfg (rxRing 0)) (halfFrame.head (rxRing 0)).toNat k) := by decide
      intro off ho
      have hb : 128 ≤ off ∧ off < 192 := by
        have h1 : halfFrame.cfg.baseRx 0 = 128 := by decide
        have h2 : halfFrame.cfg.baseRx 0 + (halfFrame.cfg.chan 0).capRx = 192 := by decide
        simp only [inRxBuf, Bool.and_eq_true, decide_eq_true_eq, h1] at ho
        omega
      exact h off hb.2 hb.1
    · exact ⟨List.replicate 8 0, [[0xCD, 0xAB, 1, 0, 0, 0xC0, 20, 0, 1, 1, 0, 0] ++ List.replicate 8 0], by decide,
        fun f hf => by rw [List.mem_singleton.1 hf]; exact ⟨⟨0xABCD, 1, 0xC000, 20, 1, 1, 0⟩, by decide, by decide⟩⟩
  · rintro ⟨⟨n, hn, hs, hv, h⟩, -, -⟩
    have hs' : halfFrame.space (rxRing 0) = 63 := by decide
    have h16 : n = 16 := by
      have hlt : n < 64 := by omega
      have all : ∀ n < 64, (16 : Word) = advance (halfFrame.cfg.chan 0).capRx (halfFrame.head (rxRing 0)).toNat n →
          n = 16 := by decide
      exact all n hlt hv
    have h0 := (h 143 (by decide)).2 ⟨15, by omega, by decide⟩
    exact absurd h0 (by decide)

set_option maxRecDepth 20000 in
/-- `NV_SAVE` with the link worker about to ring, which it does not, and about to answer, which it does; a save while
`ONLINE`. -/
theorem test_witness_NvSaveTerminal_FlagsSticky :
    next (step ringing) (fun t => t.lstate == .nvSave && t.events == [] && !t.irqOutPending) = true
    ∧ (ringing.lstate = .nvSave ∧ ringing.owned ∧ ringing.noAnswerDue
      ∧ ∀ ch a, ringing.sched.head? = some ch → ch.mover = some a → a.sends = false)
    ∧ (answering.lstate = .nvSave ∧ answering.owned ∧ answering.sched = ringing.sched
      ∧ next (step answering) (fun t => t.events == [.doorbellOut 0x0088]) = true)
    ∧ next (step { boot with sched := [.request ⟨3, 0, 0, []⟩] }) (fun t => t.lstate == .nvSave) = true
    ∧ boot.errstat.getLsbD 7 = false := by
  refine ⟨by decide, ⟨rfl, ringing_owned, by simp [State.noAnswerDue, ringing, Line.mayAnswer], fun ch a h h' => ?_⟩,
    ⟨rfl, answering_owned, rfl, by decide⟩, by decide, by decide⟩
  cases h
  cases h'
  rfl

end Sys2Proof.Tests
end

section
/-! SUPPORT. What one step is (00_scope.md R11): the choice that is due; a run of several lines as its lines one after the
other; and the plain facts of R7, R8 and 10_state.md R39, which every step keeps. -/

namespace Sys2Proof.Machine

/-! ### A step runs what is due -/

/-- A pattern that decodes to an operation is run as that operation. -/
theorem runWord_instr {s : State} {f : Fetch} {i : Instr} (h : decode s.cfg f = .instr i) : runWord f s = exec i s := by
  unfold runWord; rw [h]

/-- An agent in the middle of something, told to run an operation, runs that. -/
theorem runOp_busy {s : State} {a : Agent} (h : (s.thread a).todo ≠ []) :
    runOp a s = .next (advanceAgent (longRun s a) a s) := by
  cases a with
  | isr => exact if_neg h
  | lw => exact if_neg h
  | dw => exact absurd rfl h
  | host => rfl
  | snd k => rfl
  | call => rfl

/-- Settles O47: what is placed comes first, then the next choice, each by its own case. -/
theorem stepRunsTheOperation : Obligations.StepRunsTheOperation := by
  intro s rest
  refine ⟨fun f i hf hd => ?_, fun hn => ⟨fun r i hs hd => ?_, fun hs hi => ?_, fun hs hi => ?_, fun hs => ?_,
    fun a hs _ hb => ?_, fun a hs => ?_, fun a hs => ?_, fun r hs => ?_, fun p hs => ?_, fun hs => ?_, fun hs => ?_⟩⟩
  · rw [step_placed hf]; exact runWord_instr hd
  · rw [step_choice hn hs]; exact runWord_instr hd
  · rw [step_choice hn hs]; exact if_pos hi
  · rw [step_choice hn hs]; exact if_pos hi
  · rw [step_choice hn hs]; rfl
  · rw [step_choice hn hs]; exact runOp_busy (s := { s with sched := rest }) hb
  · rw [step_choice hn hs]; rfl
  · rw [step_choice hn hs]; rfl
  · rw [step_choice hn hs]; rfl
  · rw [step_choice hn hs]; rfl
  · rw [step_choice hn hs]; rfl
  · exact step_idle hn hs

/-! ### Lines in two goes -/

/-- A sender that has ended is gone: its number is nobody else's. -/
theorem setSender_lookup_ended {ps : List (Nat × Thread)} {k : Nat} {th : Thread} (hn : (ps.map Prod.fst).Nodup)
    (h : th.todo = []) : (setSender ps k th).lookup k = none := by
  induction ps with
  | nil => simp [setSender, h]
  | cons p ps ih =>
    obtain ⟨j, u⟩ := p
    obtain ⟨hj, hps⟩ := List.nodup_cons.1 hn
    by_cases hk : j = k
    · subst hk
      simp only [setSender, if_true, h]
      refine List.lookup_eq_none_iff.2 fun q hq => ?_
      have hq : j ≠ q.1 := fun e => hj (List.mem_map.2 ⟨q, hq, e.symm⟩)
      simpa using hq
    · have hk' : (k == j) = false := by simpa using fun e => hk e.symm
      simp [setSender, hk, List.lookup_cons, hk', ih hps]

/-- What an agent has still to run is what its last line left. -/
theorem thread_settle_todo {a : Agent} (ha : a ≠ .dw) {o : Out} (hn : (o.st.snds.map Prod.fst).Nodup) :
    ((settle a o).thread a).todo = o.todo := by
  obtain ⟨s, acc, todo⟩ := o
  cases todo with
  | cons l k => rw [settle_cons, thread_setThread ha (by simp)]
  | nil =>
    rw [settle_nil]
    cases a with
    | snd k =>
      have hk : (setSender s.snds k .idle).lookup k = none := setSender_lookup_ended hn rfl
      simp only [State.thread, State.done, setThread_snd_snds, hk]
      rfl
    | dw => exact absurd rfl ha
    | isr => rfl
    | lw => rfl
    | host => rfl
    | call => rfl

/-- Putting a phase back over one that was put back before is putting it back once. -/
theorem settle_rephase_setThread {a : Agent} (ha : a ≠ .dw) {s : State} {th : Thread} (h : th.todo ≠ []) {o : Out}
    (ho : o.st = o.st.rephase s) : settle a (o.rephase (s.setThread a th)) = settle a o := by
  obtain ⟨t, acc, todo⟩ := o
  simp only at ho
  rw [ho]
  cases todo <;> cases a
  case nil.dw | cons.dw => exact absurd rfl ha
  case nil.snd j | cons.snd j =>
    simp [Out.rephase, State.done, State.setThread, State.rephase, setSender_twice h]
  all_goals rfl

section TwoGoes

variable {s : State} {a : Agent} {m : Nat} (n : Nat) (ha : a ≠ .dw) (hn : (s.snds.map Prod.fst).Nodup)
  (hb : (s.thread a).todo ≠ [])

include ha hn hb

/-- What an agent in the middle of something has still to run after `m` lines. -/
theorem thread_advanceAgent_todo :
    ((advanceAgent m a s).thread a).todo = (runLines m a ⟨s, (s.thread a).acc, (s.thread a).todo⟩).todo := by
  rw [advanceAgent_busy hb]
  refine thread_settle_todo ha ?_
  rw [runLines_phases]
  exact hn

/-- An agent whose operation has ended within `m` lines runs no further in the same go. -/
theorem advanceAgent_add_ended (h : ((advanceAgent m a s).thread a).todo = []) :
    advanceAgent (m + n) a s = advanceAgent m a s := by
  rw [thread_advanceAgent_todo ha hn hb] at h
  rw [advanceAgent_busy hb, advanceAgent_busy hb, runLines_add]
  generalize runLines m a _ = o at *
  obtain ⟨t, acc, todo⟩ := o
  subst h
  rw [runLines_nil]

/-- An agent whose operation has not ended within `m` lines goes on from where it stands: its phase, put back and read
again, leads on as the run itself does. -/
theorem advanceAgent_add_busy (h : ((advanceAgent m a s).thread a).todo ≠ []) :
    advanceAgent (m + n) a s = advanceAgent n a (advanceAgent m a s) := by
  have ht : (runLines m a ⟨s, (s.thread a).acc, (s.thread a).todo⟩).todo ≠ [] :=
    thread_advanceAgent_todo ha hn hb ▸ h
  rw [advanceAgent_busy h, advanceAgent_busy hb, advanceAgent_busy hb, runLines_add]
  generalize runLines m a _ = o at *
  obtain ⟨t, acc, todo⟩ := o
  obtain ⟨l, k, rfl⟩ := List.exists_cons_of_ne_nil ht
  rw [settle_cons, thread_setThread ha ht,
    ← settle_rephase_setThread (th := ⟨acc, l :: k⟩) ha ht (runLines_phases n a ⟨t, acc, l :: k⟩),
    ← runLines_rephase, Out.rephase, ← setThread_rephase]

end TwoGoes

/-- Settles O51: lines in two goes, the first of one line. -/
theorem runsLineByLine : Obligations.RunsLineByLine := by
  intro s a n ha hn hb
  rw [Nat.add_comm]
  exact ⟨advanceAgent_add_ended n ha hn hb, advanceAgent_add_busy n ha hn hb⟩

/-! ### The plain facts -/

/-- The plain facts about data that any agent's line may write: with the configuration `cfg`, SHM in canonical form and
registers for every channel (R7; 10_state.md R25, R39). -/
def State.plainUnder (cfg : Cfg) (s : State) : Prop :=
  s.cfg = cfg ∧ memWf s.mem = true ∧ s.chans.length = cfg.nCh

/-- Every sender in progress has a number already given out (log 5). -/
def State.sendersBelow (s : State) : Prop := ∀ p ∈ s.snds, p.1 < s.nextSnd

theorem sane_iff (s : State) : s.sane ↔ s.cfg.wf = true ∧ s.plainUnder s.cfg ∧ s.sendersBelow := by
  simp only [State.sane, State.plainUnder, State.sendersBelow, true_and, and_assoc]

/-! ### The configuration, SHM, the registers -/

theorem plainUnder_of_onward {cfg : Cfg} {s t : State} (h : Onward s t) (hs : s.plainUnder cfg) : t.plainUnder cfg := by
  obtain ⟨hcfg, hmem, hchans⟩ := hs
  exact ⟨h.cfg.trans hcfg, h.wf hmem, h.chans.trans hchans⟩

theorem plainUnder_hwReset {cfg : Cfg} {s : State} (h : s.plainUnder cfg) : (hwReset s).plainUnder cfg := by
  obtain ⟨rfl, hmem, -⟩ := h
  exact ⟨rfl, hmem, by simp⟩

theorem plainUnder_peerStep {cfg : Cfg} {p : PeerAct} {s t : State} (he : peerStep p s = .next t)
    (h : s.plainUnder cfg) : t.plainUnder cfg := by
  obtain ⟨hcfg, hmem, hchans⟩ := h
  obtain ⟨ht, hwf⟩ := peerStep_private he
  have ht1 : t.cfg = s.cfg := by rw [ht]
  have ht2 : t.chans = s.chans := by rw [ht]
  exact ⟨ht1.trans hcfg, hwf hmem, ht2 ▸ hchans⟩

theorem plainUnder_keeps (cfg : Cfg) : Keeps (State.plainUnder cfg) where
  toKeepsBut := .of_onward fun _ _ => plainUnder_of_onward
  save := fun _ _ _ h => h

theorem step_keeps_plainUnder {cfg : Cfg} {s t : State} (he : step s = .next t) (h : s.plainUnder cfg) :
    t.plainUnder cfg :=
  (plainUnder_keeps cfg).step (.of_onward fun _ _ => plainUnder_of_onward)
    (fun _ _ _ => plainUnder_hwReset) (fun _ _ _ _ _ => plainUnder_peerStep) he h

/-! ### The numbers of the senders -/

/-- Writing the phase of an agent: a sender's number must have been given out. -/
theorem sendersBelow_setThread {s : State} {a : Agent} (th : Thread) (h : s.sendersBelow)
    (ha : ∀ k, a = .snd k → k < s.nextSnd) : (s.setThread a th).sendersBelow := by
  cases a with
  | snd k =>
    intro p hp
    rcases mem_setSender hp with hp | ⟨rfl, -⟩
    · exact h p hp
    · exact ha k rfl
  | isr => exact h
  | lw => exact h
  | dw => exact h
  | host => exact h
  | call => exact h

theorem sendersBelow_settle {a : Agent} {o : Out} (h : o.st.sendersBelow) (ha : ∀ k, a = .snd k → k < o.st.nextSnd) :
    (settle a o).sendersBelow := by
  obtain ⟨s, acc, todo⟩ := o
  cases todo <;> exact sendersBelow_setThread _ h ha

/-- A line neither admits a sender nor writes another agent's phase. -/
theorem sendersBelow_line {a : Agent} {l : Line} {acc : Value} {k : List Line} {s : State}
    (ht : s.thread a = ⟨acc, l :: k⟩) (h : s.sendersBelow) : (settle a (lineStep a l acc k s)).sendersBelow := by
  apply sendersBelow_settle
  · rw [lineStep_phases]; exact h
  · rintro j rfl
    rw [lineStep_phases]
    exact h _ (thread_sender_mem (by rw [ht]; simp))

theorem sendersBelow_raise {s : State} (k : Condition) (h : s.sendersBelow) : (raise s k).sendersBelow := by
  simpa [State.sendersBelow] using h

theorem sendersBelow_dispatchFrame {s : State} (h : s.sendersBelow) : (dispatchFrame s).sendersBelow := by
  unfold dispatchFrame
  cases s.rxq with
  | nil => exact h
  | cons f q =>
    simp only
    split_ifs
    · exact h
    · exact sendersBelow_raise _ h

/-- A number more given out, whether its sender begins or not. -/
theorem sendersBelow_nextSnd {s : State} (h : s.sendersBelow) :
    ({ s with nextSnd := s.nextSnd + 1 } : State).sendersBelow :=
  fun p hp => Nat.lt_succ_of_lt (h p hp)

theorem sendersBelow_keeps : Keeps State.sendersBelow where
  sched := fun _ _ h => h
  ret := fun _ _ h => h
  respond := fun _ _ _ _ _ h => h
  begins := fun _ _ _ _ hb h => sendersBelow_setThread _ h (by rintro k rfl; cases hb)
  send := fun s _ _ _ _ _ h =>
    sendersBelow_setThread _ (sendersBelow_nextSnd h) (by rintro k ⟨⟩; exact Nat.lt_succ_self s.nextSnd)
  skip := fun _ => sendersBelow_nextSnd
  line := fun _ _ _ _ _ _ ht _ => sendersBelow_line ht
  dispatch := fun _ => sendersBelow_dispatchFrame
  save := fun _ _ _ h => h

theorem sendersBelow_keepsPlaced : KeepsPlaced State.sendersBelow where
  unplace := fun _ h => h
  begins := fun _ _ _ _ hb h => sendersBelow_setThread _ h (by rintro k rfl; cases hb)
  badHeader := fun _ _ _ h => ⟨sendersBelow_raise _ h, sendersBelow_raise _ h⟩

theorem sendersBelow_hwReset (s : State) : (hwReset s).sendersBelow := by simp [State.sendersBelow]

theorem sendersBelow_peerStep {p : PeerAct} {s t : State} (he : peerStep p s = .next t) (h : s.sendersBelow) :
    t.sendersBelow := by
  rw [(peerStep_private he).1]; exact h

theorem step_keeps_sendersBelow {s t : State} (he : step s = .next t) (h : s.sendersBelow) : t.sendersBelow :=
  sendersBelow_keeps.step sendersBelow_keepsPlaced (fun _ _ _ _ => sendersBelow_hwReset _)
    (fun _ _ _ _ _ => sendersBelow_peerStep) he h

/-- Settles O52: the data by what any line may write, the senders by who begins and who goes on. -/
theorem plainFactsKept : Obligations.PlainFactsKept := by
  intro s t hs he
  obtain ⟨hwf, hplain, hsnds⟩ := (sane_iff s).1 hs
  have ht := step_keeps_plainUnder he hplain
  have hcfg : t.cfg = s.cfg := ht.1
  exact ⟨(sane_iff t).2 (hcfg ▸ ⟨hwf, ht, step_keeps_sendersBelow he hsnds⟩), hcfg⟩

end Sys2Proof.Machine
end

section
/-! SUPPORT. What is sticky and what stands still (10_state.md R32, R33, R37): no step but hardware reset clears a flag;
an engine that is halted or not started has no agent that moves. -/

namespace Sys2Proof.Machine

/-! ### Sticky flags -/

/-- No bit of `ERRSTAT`, not `started` and not `halted` has been cleared from `s` to `t`. -/
def State.flagsKept (s t : State) : Prop :=
  s.errstat &&& t.errstat = s.errstat ∧ (s.started = true → t.started = true) ∧ (s.halted = true → t.halted = true)

theorem flagsKept_self (s : State) : s.flagsKept s := ⟨BitVec.and_self, id, id⟩

theorem flagsKept_of_onward {s t u : State} (h : Onward t u) (ht : s.flagsKept t) : s.flagsKept u := by
  obtain ⟨herr, hstarted, hhalted⟩ := ht
  refine ⟨?_, h.started ∘ hstarted, h.halted ∘ hhalted⟩
  rw [← herr, BitVec.and_assoc, h.flags]

theorem flagsKept_keeps (s : State) : Keeps s.flagsKept where
  toKeepsBut := .of_onward fun _ _ => flagsKept_of_onward
  save := fun _ _ _ h => h

theorem step_keeps_flags {s t : State} (hr : s.placed ≠ none ∨ s.sched.head? ≠ some .reset) (he : step s = .next t) :
    s.flagsKept t := by
  refine (flagsKept_keeps s).step (.of_onward fun _ _ => flagsKept_of_onward) (fun rest hn hs => ?_)
    (fun p rest u _ _ hu h => ?_) he (flagsKept_self s)
  · exact absurd hr (by simp [hn, hs])
  · rw [(peerStep_private hu).1]; exact h

/-- Bit 7 of `ERRSTAT` is reserved (R37). -/
def State.bit7Clear (s : State) : Prop := s.errstat.getLsbD 7 = false

theorem bit7Clear_of_onward {s t : State} (h : Onward s t) (hs : s.bit7Clear) : t.bit7Clear := h.bit7.trans hs

theorem bit7Clear_keeps : Keeps State.bit7Clear where
  toKeepsBut := .of_onward fun _ _ => bit7Clear_of_onward
  save := fun _ _ _ h => h

theorem bit7Clear_hwReset (s : State) : (hwReset s).bit7Clear := by simp [State.bit7Clear]

theorem step_keeps_bit7Clear {s t : State} (he : step s = .next t) (h : s.bit7Clear) : t.bit7Clear :=
  bit7Clear_keeps.step (.of_onward fun _ _ => bit7Clear_of_onward) (fun _ _ _ _ => bit7Clear_hwReset _)
    (fun _ _ _ _ _ hu h => by rw [(peerStep_private hu).1]; exact h) he h

/-- Settles O60: flags and bit 7 go by what any line may write; hardware reset clears bit 7 with the rest. -/
theorem flagsSticky : Obligations.FlagsSticky :=
  fun _ _ he => ⟨fun hr => step_keeps_flags hr he, step_keeps_bit7Clear he⟩

/-! ### An engine that stands still -/

/-- An agent that may not step stays where it is, in the middle of an operation or idle. -/
theorem advanceAgent_not_live {a : Agent} {s : State} (h : agentLive s a = false) (n : Nat) : advanceAgent n a s = s := by
  have hd : a ≠ .dw := by rintro rfl; cases h
  by_cases ht : (s.thread a).todo = []
  · rw [advanceAgent_idle hd ht, if_neg (by simp [h])]
  · rw [advanceAgent_busy ht]
    obtain ⟨l, k, hlk⟩ := List.exists_cons_of_ne_nil ht
    rw [hlk, runLines_held (by simp [lineReady, h]), settle_cons, ← hlk]
    exact setThread_self ht

theorem runAgent_not_live {a : Agent} {s : State} (h : agentLive s a = false) (n : Nat) : runAgent n a s = s := by
  induction n with
  | zero => rfl
  | succ n ih => rw [runAgent, advanceAgent_not_live h, ih]

/-- An agent that may not step begins nothing. -/
theorem invoke_not_live {a : Agent} {s : State} (h : agentLive s a = false) (fuel : Nat) (prog : List Line) :
    invoke a fuel prog s = s :=
  invoke_busy (by simp [State.free, h]) fuel prog

/-- The engine is not started, or has halted: only `HOST`, before the start, and `DW` may step (R32, R33). -/
def State.stopped (s : State) : Prop := (s.started && !s.halted) = false

/-- The operation has not begun: nothing has changed, or it is refused for what the engine has not got. -/
def State.waits (s : State) (o : Host.Outcome State Fault Refusal) : Prop := o = .next s ∨ ∃ r, o = .refused r

theorem waits_unless {s : State} {p : Prop} [Decidable p] {r : Refusal} {o : Host.Outcome State Fault Refusal}
    (h : s.waits o) : s.waits (if p then .refused r else o) := by
  by_cases hp : p
  · exact .inr ⟨r, if_pos hp⟩
  · rwa [if_neg hp]

theorem waits_when {s : State} {p : Prop} [Decidable p] {r : Refusal} {o : Host.Outcome State Fault Refusal}
    (h : s.waits o) : s.waits (if p then o else .refused r) := by
  by_cases hp : p
  · rwa [if_pos hp]
  · exact .inr ⟨r, if_neg hp⟩

section Stopped

variable {s : State} (hs : s.stopped)

include hs

theorem agentLive_stopped {a : Agent} (hd : a ≠ .dw) (hh : a ≠ .host) : agentLive s a = false := by
  cases a with
  | dw => exact absurd rfl hd
  | host => exact absurd rfl hh
  | isr => exact hs
  | lw => exact hs
  | snd k => exact hs
  | call => exact hs

theorem invoke_stopped {a : Agent} (hd : a ≠ .dw) (hh : a ≠ .host) (fuel : Nat) (prog : List Line) :
    invoke a fuel prog s = s :=
  invoke_not_live (agentLive_stopped hs hd hh) fuel prog

theorem invoke_isr_stopped (fuel : Nat) (prog : List Line) : invoke .isr fuel prog s = s :=
  invoke_stopped hs (by decide) (by decide) fuel prog

theorem invoke_lw_stopped (fuel : Nat) (prog : List Line) : invoke .lw fuel prog s = s :=
  invoke_stopped hs (by decide) (by decide) fuel prog

theorem invoke_call_stopped (fuel : Nat) (prog : List Line) : invoke .call fuel prog s = s :=
  invoke_stopped hs (by decide) (by decide) fuel prog

theorem invoke_ringAgent_stopped (r : RingId) (fuel : Nat) (prog : List Line) :
    invoke (ringAgent r) fuel prog s = s := by
  unfold ringAgent
  cases r.dir
  · exact invoke_call_stopped hs fuel prog
  · exact invoke_lw_stopped hs fuel prog

theorem execLdOnDoorbell_stopped : exec .ldOnDoorbell s = .next s := by
  simp [exec, execLdOnDoorbell, invoke_isr_stopped hs]

theorem execLdWork_stopped : exec .ldWork s = .next s := by
  simp [exec, execLdWork, invoke_lw_stopped hs]

theorem execCmdPhoneStart_stopped : exec .cmdPhoneStart s = .next s := by
  simp [exec, execCmdPhoneStart, invoke_lw_stopped hs]

theorem execDbNoncmd_stopped (w : Half) : exec (.dbNoncmd w) s = .next s := by
  simp [exec, execDbNoncmd, invoke_lw_stopped hs]

/-- An operation that needs its agent waits, or names what the engine has not got. -/
theorem exec_stopped {i : Instr} (hi : needsLiveAgent i = true) : s.waits (exec i s) := by
  have lw : ∀ fuel prog, s.waits (.next (invoke .lw fuel prog s)) :=
    fun fuel prog => .inl (congrArg _ (invoke_lw_stopped hs fuel prog))
  have call : ∀ fuel prog, s.waits (.next (invoke .call fuel prog s)) :=
    fun fuel prog => .inl (congrArg _ (invoke_call_stopped hs fuel prog))
  have ring : ∀ r fuel prog, s.waits (.next (invoke (ringAgent r) fuel prog s)) :=
    fun r fuel prog => .inl (congrArg _ (invoke_ringAgent_stopped hs r fuel prog))
  cases i with
  | ldStatus => cases hi
  | ldStart => cases hi
  | chSend c chid payload => cases hi
  | ldSave => cases hi
  | fhPad n => cases hi
  | fhFrameSize totalLen => cases hi
  | fhEncode chid cseq fseq payloadLen => cases hi
  | fhTailBytes payload pad => cases hi
  | fhDecode b => cases hi
  | dwStep => cases hi
  | cmdPhoneStart => exact lw _ _
  | cmdCrashExit => exact lw _ _
  | cmdOther code => exact lw _ _
  | dbNoncmd w => exact lw _ _
  | dbInvalid w => exact lw _ _
  | cmdInitEnd => exact lw _ _
  | dbSend c => exact waits_unless (call _ _)
  | dbResAck c => exact waits_unless (lw _ _)
  | frameTx c chid cseq fseq payload =>
    have hfits : lenFits payload.length = true := hi
    simp only [exec, execFrameTx, hfits, Bool.not_true, Bool.false_eq_true, if_false]
    exact waits_unless (waits_when (call _ _))
  | frameRx c d => exact waits_unless (lw _ _)
  | ldOnDoorbell => exact .inl (execLdOnDoorbell_stopped hs)
  | rqSpace r => exact waits_unless (ring r _ _)
  | rqAvail r => exact waits_unless (ring r _ _)
  | rqWrite r src => exact waits_unless (waits_when (ring r _ _))
  | rqRead r len => exact waits_unless (waits_when (ring r _ _))
  | rqPeek r off len => exact waits_unless (waits_when (ring r _ _))
  | rqInit r => exact waits_unless (lw _ _)
  | chInit c => exact waits_unless (lw _ _)
  | chRecvPending c => exact waits_unless (lw _ _)
  | chAckReq c w => exact waits_unless (lw _ _)
  | chResAck c w => exact waits_unless (lw _ _)
  | ldWork => exact .inl (execLdWork_stopped hs)
  | ldCheckReady => exact call _ _
  | ldCrash cause c => exact waits_unless (call _ _)

end Stopped

/-- An agent other than `DW` stands still in a halted engine, `HOST` included (R33). -/
theorem agentLive_halted {s : State} (h : s.halted = true) {a : Agent} (hd : a ≠ .dw) : agentLive s a = false := by
  cases a with
  | dw => exact absurd rfl hd
  | host => simp [agentLive, h]
  | isr => simp [agentLive, h]
  | lw => simp [agentLive, h]
  | snd k => simp [agentLive, h]
  | call => simp [agentLive, h]

/-- Settles O49: a halted engine is stopped, and `HOST` does not move either. -/
theorem haltFreezes : Obligations.HaltFreezes := by
  intro s h
  have hs : s.stopped := by simp [State.stopped, h]
  refine ⟨fun a n hd => ?_, fun i => exec_stopped hs, execLdOnDoorbell_stopped hs, execLdWork_stopped hs,
    execCmdPhoneStart_stopped hs, execDbNoncmd_stopped hs⟩
  have hl := agentLive_halted h hd
  exact ⟨advanceAgent_not_live hl n, runAgent_not_live hl n⟩

/-- Settles O50: an engine that is not started is stopped; only `HOST` may move in it. -/
theorem idleBeforeStart : Obligations.IdleBeforeStart := by
  intro s h
  have hs : s.stopped := by simp [State.stopped, h]
  refine ⟨fun a n hd hh => ?_, fun i => exec_stopped hs, execLdOnDoorbell_stopped hs, execLdWork_stopped hs,
    execCmdPhoneStart_stopped hs⟩
  have hl := agentLive_stopped hs hd hh
  exact ⟨advanceAgent_not_live hl n, runAgent_not_live hl n⟩

end Sys2Proof.Machine
end

section
/-! SUPPORT. Invariants of a machine whose agents stand at lines of their own (60_exceptions.md R270): the rights are kept
by every step with nothing placed, and with them whatever the agents' own lines keep. -/

namespace Sys2Proof.Machine

/-! ### The rights -/

theorem owned_raise {s : State} (k : Condition) (h : s.owned) : (raise s k).owned := by
  simpa [State.owned] using h

theorem owned_dispatchFrame {s : State} (h : s.owned) : (dispatchFrame s).owned := by
  unfold dispatchFrame
  cases s.rxq with
  | nil => exact h
  | cons f q =>
    simp only
    split_ifs
    · exact h
    · exact owned_raise .noSink (s := { s with rxq := q }) h

/-- A state with the phases of an owned one, under the same configuration. -/
theorem owned_rephase {s t : State} (hc : t.cfg = s.cfg) (h : s.owned) : (t.rephase s).owned := by
  unfold State.owned at *
  rw [show (t.rephase s).cfg = s.cfg from hc]
  exact h

theorem owned_line {a : Agent} {l : Line} {acc : Value} {k : List Line} {s : State} (ht : s.thread a = ⟨acc, l :: k⟩)
    (hr : lineReady a l s = true) (h : s.owned) : (settle a (lineStep a l acc k s)).owned := by
  have hcfg := (Onward.line a l acc k s).cfg
  have hlines : ∀ x ∈ l :: k, lineOk s.cfg a x := fun x hx => owned_thread h a x (by rwa [ht])
  refine owned_settle ?_ ?_
  · rw [lineStep_phases]; exact owned_rephase hcfg h
  · rw [hcfg]
    exact lineStep_ok h.1 hr (hlines l (by simp)) fun x hx => hlines x (by simp [hx])

/-- An admitted send names a channel the engine has (R267). -/
theorem refuseSend_channel {s : State} {c len : Nat} (h : refuseSend s c len = none) : c < s.cfg.nCh := by
  unfold refuseSend at h
  split_ifs at h with _ _ hc
  exact Nat.lt_of_not_le hc

theorem owned_keeps : Keeps State.owned where
  sched := fun _ _ h => h
  ret := fun _ _ h => h
  respond := fun _ _ _ _ _ h => h
  begins := fun _ _ _ _ hb h => owned_setThread h fun _ => hb.ok
  send := fun s c _ _ hr _ h =>
    owned_setThread (s := { s with nextSnd := s.nextSnd + 1 }) h fun _ hl => by
      rw [List.mem_singleton.1 hl]
      exact ⟨⟨_, rfl⟩, refuseSend_channel hr⟩
  skip := fun _ h => h
  line := fun _ _ _ _ _ _ ht hr => owned_line ht hr
  dispatch := fun _ => owned_dispatchFrame
  save := fun s _ _ h =>
    owned_setThread (s := { s with lstate := .nvSave }) h fun _ => lineOk_region (last := .saveDone) _ rfl

theorem owned_hwReset {s : State} (h : s.cfg.wf = true) : (hwReset s).owned := by
  simp [State.owned, h, Thread.idle]

theorem owned_peerStep {p : PeerAct} {s t : State} (he : peerStep p s = .next t) (h : s.owned) : t.owned := by
  rw [(peerStep_private he).1]; exact h

/-! ### What the agents' own lines keep -/

/-- Everything a step of a machine with nothing placed is made of, each keeping `P`; a line of an agent and what it
begins with are in its column. -/
structure KeepsOwned (P : State → Prop) : Prop where
  sched : ∀ s l, P s → P { s with sched := l }
  ret : ∀ s v, P s → P { s with ret := v }
  respond : ∀ s k op code v, P s → P (s.respond k op code v)
  begins : ∀ s a prog, s.free a = true → Begins s a prog → P s → P (s.setThread a ⟨.unit, prog⟩)
  send : ∀ s c chid payload, refuseSend s c payload.length = none → P s →
    P (({ s with nextSnd := s.nextSnd + 1 } : State).setThread (.snd s.nextSnd) ⟨.unit, [.sendLock c chid payload]⟩)
  skip : ∀ s, P s → P { s with nextSnd := s.nextSnd + 1 }
  line : ∀ a l acc k s, a ≠ .dw → s.thread a = ⟨acc, l :: k⟩ → lineReady a l s = true → s.cfg.wf = true →
    (∀ x ∈ l :: k, lineOk s.cfg a x) → P s → P (settle a (lineStep a l acc k s))
  dispatch : ∀ s, P s → P (dispatchFrame s)
  save : ∀ s, refuseSave s = none → s.host.todo = [] → P s →
    P (({ s with lstate := .nvSave } : State).setThread .host ⟨.unit, saveLines s.cfg⟩)
  reset : ∀ s, s.cfg.wf = true → P s → P (hwReset s)
  peer : ∀ p s t, peerStep p s = .next t → P s → P t

namespace KeepsOwned

variable {P : State → Prop}

theorem keeps (K : KeepsOwned P) : Keeps fun s => s.owned ∧ P s where
  sched := fun s l h => ⟨owned_keeps.sched s l h.1, K.sched s l h.2⟩
  ret := fun s v h => ⟨owned_keeps.ret s v h.1, K.ret s v h.2⟩
  respond := fun s k op code v h => ⟨owned_keeps.respond s k op code v h.1, K.respond s k op code v h.2⟩
  begins := fun s a prog hf hb h => ⟨owned_keeps.begins s a prog hf hb h.1, K.begins s a prog hf hb h.2⟩
  send := fun s c chid payload hr ht h =>
    ⟨owned_keeps.send s c chid payload hr ht h.1, K.send s c chid payload hr h.2⟩
  skip := fun s h => ⟨owned_keeps.skip s h.1, K.skip s h.2⟩
  line := fun a l acc k s hd ht hr h =>
    ⟨owned_line ht hr h.1, K.line a l acc k s hd ht hr h.1.1 (fun x hx => owned_thread h.1 a x (by rwa [ht])) h.2⟩
  dispatch := fun s h => ⟨owned_dispatchFrame h.1, K.dispatch s h.2⟩
  save := fun s hr ht h => ⟨owned_keeps.save s hr ht h.1, K.save s hr ht h.2⟩

/-- Every step of a machine whose agents stand at lines of their own keeps `P`, and the rights. -/
theorem step (K : KeepsOwned P) {s t : State} (ho : s.owned) (he : Machine.step s = .next t) (h : P s) :
    t.owned ∧ P t :=
  K.keeps.stepOwn ho.2.1 (fun _ _ h => ⟨owned_hwReset h.1.1, K.reset _ h.1.1 h.2⟩)
    (fun p _ u _ hu h => ⟨owned_peerStep hu h.1, K.peer p _ u hu h.2⟩) he ⟨ho, h⟩

end KeepsOwned

end Sys2Proof.Machine
end

section
/-! SUPPORT. The two queues (10_state.md R40, R41): a push to `WQ` tests for room itself (R212), a push to `RXQ` comes
after a hold of the drain pass that pushes (42_channel.md R191). -/

namespace Sys2Proof.Machine

/-! ### Room in `RXQ` along a phase of the link worker -/

/-- The push of a drain pass. -/
def Line.isPush : Line → Bool
  | .recvPush _ => true
  | _ => false

/-- The lines that may stand between a hold of the drain pass and its push. -/
def Line.keepsRoom : Line → Bool
  | .load8 _ => true
  | .fence => true
  | .store32 _ _ => true
  | .rqRead _ _ => true
  | .ringCorrupt _ => true
  | _ => false

/-- After a line that neither holds nor pushes there is room if there was and the line keeps it. -/
theorem pushesHeld_cons {l : Line} (hp : l.isPush = false) (hh : l ≠ .recvHold) (room : Bool) (k : List Line) :
    pushesHeld room (l :: k) = pushesHeld (room && l.keepsRoom) k := by
  cases l
  case recvPush d => cases hp
  case recvHold => exact absurd rfl hh
  all_goals simp [pushesHeld, Line.keepsRoom]

theorem pushesHeld_hold (room : Bool) (k : List Line) : pushesHeld room (.recvHold :: k) = pushesHeld true k := rfl

theorem pushesHeld_push (room : Bool) (d : Header) (k : List Line) :
    pushesHeld room (.recvPush d :: k) = (room && pushesHeld false k) := rfl

/-- More room does no harm. -/
theorem pushesHeld_mono {room room' : Bool} (hr : room = true → room' = true) {k : List Line}
    (h : pushesHeld room k = true) : pushesHeld room' k = true := by
  induction k generalizing room room' with
  | nil => rfl
  | cons l k ih =>
    by_cases hh : l = .recvHold
    · subst hh; exact h
    · cases hp : l.isPush with
      | true =>
        cases l <;> cases hp
        rw [pushesHeld_push, Bool.and_eq_true] at h ⊢
        exact h.imp_left hr
      | false =>
        rw [pushesHeld_cons hp hh] at h ⊢
        exact ih (by simpa using fun h1 h2 => ⟨hr h1, h2⟩) h

/-- Lines that do not push, put in front of a phase that counts on no room. -/
theorem pushesHeld_append {pre k : List Line} (hp : ∀ l ∈ pre, l.isPush = false) (h : pushesHeld false k = true)
    (room : Bool) : pushesHeld room (pre ++ k) = true := by
  induction pre generalizing room with
  | nil => exact pushesHeld_mono (by simp) h
  | cons l pre ih =>
    have ih := ih fun x hx => hp x (List.mem_cons_of_mem _ hx)
    rw [List.cons_append]
    by_cases hh : l = .recvHold
    · subst hh; exact ih true
    · rw [pushesHeld_cons (hp l (List.mem_cons_self ..)) hh]; exact ih _

/-- Lines that keep room, put in front of a phase that may count on it. -/
theorem pushesHeld_append_room {pre k : List Line} (hp : ∀ l ∈ pre, l.keepsRoom = true) {room : Bool}
    (h : pushesHeld room k = true) : pushesHeld room (pre ++ k) = true := by
  induction pre with
  | nil => exact h
  | cons l pre ih =>
    have hl := hp l (List.mem_cons_self ..)
    have hpush : l.isPush = false := by cases l <;> first | rfl | cases hl
    have hhold : l ≠ .recvHold := by rintro rfl; cases hl
    rw [List.cons_append, pushesHeld_cons hpush hhold, hl, Bool.and_true]
    exact ih fun x hx => hp x (List.mem_cons_of_mem _ hx)

/-- What is left of a drain pass that ended inside a primitive: its push is gone with it (R191). -/
theorem pushesHeld_passExit {room : Bool} {k : List Line} (h : pushesHeld room k = true) :
    pushesHeld room (passExit k).2 = true := by
  unfold passExit
  split
  · exact pushesHeld_mono (by simp) h
  · rw [pushesHeld_push, Bool.and_eq_true] at h
    exact pushesHeld_mono (by simp) h.2
  · rw [pushesHeld_push, Bool.and_eq_true] at h
    exact pushesHeld_mono (by simp) h.2
  · exact h

/-! ### Programs without a push -/

theorem ringLoadLines_load8 {g : Ring} {i len : Nat} {l : Line} (h : l ∈ ringLoadLines g i len) :
    ∃ off, l = .load8 off := by
  rcases List.mem_append.1 h with h | h <;>
    · obtain ⟨k, -, rfl⟩ := mem_loadLines h
      exact ⟨_, rfl⟩

theorem chInitLines_isPush {cfg : Cfg} {c : Nat} {l : Line} (h : l ∈ chInitLines cfg c) : l.isPush = false := by
  simp only [chInitLines, rqInitLines, List.mem_append, List.mem_cons, List.not_mem_nil, or_false] at h
  rcases h with (rfl | rfl) | rfl | rfl <;> rfl

theorem statusLines_isPush {i : Instr} {l : Line} (h : l ∈ statusLines i) : l.isPush = false := by
  cases i <;> simp only [statusLines, List.mem_singleton, List.not_mem_nil] at h <;> subst h <;> rfl

theorem channelLines_isPush {cfg : Cfg} {w : Half} {l : Line} (h : l ∈ channelLines cfg w) : l.isPush = false := by
  obtain ⟨c, -, h⟩ := List.mem_flatMap.1 h
  simp only [visitLines, List.mem_cons, List.not_mem_nil, or_false] at h
  rcases h with rfl | rfl | rfl | rfl <;> rfl

/-! ### One line -/

/-- What a line of the link worker, no hold and no push, leaves to run counts on no more room than there was. -/
theorem pushesHeld_todo {l : Line} {acc : Value} {k : List Line} {s : State} {room : Bool} (hok : lineOk s.cfg .lw l)
    (hp : l.isPush = false) (hh : l ≠ .recvHold) (h : pushesHeld room (l :: k) = true) :
    pushesHeld room (lineStep .lw l acc k s).todo = true := by
  rw [pushesHeld_cons hp hh] at h
  have kept : l.keepsRoom = true → pushesHeld room k = true := fun hl => by rwa [hl, Bool.and_true] at h
  have after : l.keepsRoom = false → ∀ pre : List Line, (∀ x ∈ pre, x.isPush = false) →
      pushesHeld room (pre ++ k) = true := fun hl pre hpre => by
    rw [hl, Bool.and_false] at h
    exact pushesHeld_append hpre h room
  have one : ∀ {x : Line}, x.isPush = false → ∀ y ∈ [x], y.isPush = false := by simp
  have goesOn : l.keepsRoom = false → pushesHeld room k = true := fun hl => after hl [] (by simp)
  have becomes : l.keepsRoom = false → ∀ x : Line, x.isPush = false → pushesHeld room (x :: k) = true :=
    fun hl x hx => after hl [x] (one hx)
  cases l with
  | load8 off => exact kept rfl
  | store8 off b => exact hok.elim
  | store32 off v => exact kept rfl
  | fence => exact kept rfl
  | doorbell w => exact goesOn rfl
  | spaceHead r => simp [lineOk] at hok
  | spaceTail r h => simp [lineOk] at hok
  | availHead r => exact becomes rfl _ rfl
  | availTail r h => exact goesOn rfl
  | rqWrite r src => simp [lineOk] at hok
  | rqRead r len =>
    simp only [lineStep, lineRqRead]
    split_ifs
    · exact kept rfl
    · exact pushesHeld_append_room (pre := [.ringCorrupt r]) (by simp [Line.keepsRoom]) (kept rfl)
    · refine pushesHeld_append_room (fun x hx => ?_)
        (pushesHeld_append_room (pre := [.fence, .store32 _ _]) (by simp [Line.keepsRoom]) (kept rfl))
      obtain ⟨off, rfl⟩ := ringLoadLines_load8 hx
      rfl
  | rqPeek r off len =>
    simp only [lineStep, lineRqPeek]
    split_ifs
    · exact becomes rfl _ rfl
    · refine after rfl _ fun x hx => ?_
      obtain ⟨off, rfl⟩ := ringLoadLines_load8 hx
      rfl
  | ringCorrupt r => exact pushesHeld_passExit (kept rfl)
  | readyMagic => exact becomes rfl _ rfl
  | readyAccess m => exact goesOn rfl
  | sendLock c chid payload => simp [lineOk] at hok
  | sendReady c chid payload => simp [lineOk] at hok
  | sendTest c chid payload => simp [lineOk] at hok
  | sendFit c chid payload => simp [lineOk] at hok
  | sendPark c chid payload => simp [lineOk] at hok
  | sendCommit c chid payload => simp [lineOk] at hok
  | sendEncode c chid payload => simp [lineOk] at hok
  | sendUnlock c len => simp [lineOk] at hok
  | sendReturn c len => simp [lineOk] at hok
  | recvAvail c =>
    simp only [lineStep, lineRecvAvail]
    cases acc with
    | int v =>
      simp only
      split_ifs
      · exact goesOn rfl
      · exact becomes rfl _ rfl
    | _ => exact goesOn rfl
  | recvLoop c m n =>
    simp only [lineStep, lineRecvLoop]
    split_ifs
    · exact goesOn rfl
    · exact goesOn rfl
    · exact after rfl [.rqPeek _ _ _, .recvDecode _ _ _] (by simp [Line.isPush])
  | recvDecode c m n => exact becomes rfl _ rfl
  | recvMagic c m n =>
    simp only [lineStep, lineRecvMagic]
    split_ifs
    · exact goesOn rfl
    · exact becomes rfl _ rfl
  | recvLength c m n =>
    simp only [lineStep, lineRecvLength]
    split
    · exact becomes rfl _ rfl
    · exact goesOn rfl
  | recvSize c d m n =>
    simp only [lineStep, lineRecvSize]
    split_ifs
    · exact goesOn rfl
    · simpa [pushesHeld, Line.keepsRoom] using h
  | recvHold => exact absurd rfl hh
  | recvPush d => cases hp
  | frameRxTest c d =>
    simp only [lineStep, lineFrameRxTest]
    split_ifs
    · exact goesOn rfl
    · exact becomes rfl _ rfl
  | frameRxSize c d =>
    simp only [lineStep, lineFrameRxSize]
    cases acc with
    | int v =>
      simp only
      split_ifs
      · exact goesOn rfl
      · simpa [pushesHeld, Line.keepsRoom] using h
    | _ => exact goesOn rfl
  | resAck c w => exact goesOn rfl
  | ackReq c w =>
    simp only [lineStep, lineAckReq]
    split_ifs
    · exact goesOn rfl
    · exact after rfl [.fence, .doorbell _, .ackDec c] (by simp [Line.isPush])
  | ackDec c => exact goesOn rfl
  | work =>
    simp only [lineStep, lineWork]
    cases s.wq with
    | nil => exact goesOn rfl
    | cons w q => exact after rfl _ fun _ => statusLines_isPush
  | noncmd w =>
    simp only [lineStep, lineNoncmd]
    split_ifs
    · exact after rfl [.readyMagic, .noncmdReady w] (by simp [Line.isPush])
    · exact goesOn rfl
  | noncmdReady w =>
    simp only [lineStep, lineNoncmdReady]
    split_ifs
    · exact after rfl _ fun _ => channelLines_isPush
    · exact goesOn rfl
  | phoneStart =>
    simp only [lineStep, linePhoneStart]
    split_ifs
    · exact goesOn rfl
    · refine pushesHeld_append (fun x hx => ?_) (by simpa [pushesHeld, Line.keepsRoom] using h) room
      obtain ⟨c, -, hx⟩ := List.mem_flatMap.1 hx
      exact chInitLines_isPush hx
  | setOnline =>
    simp only [lineStep, lineSetOnline]
    split_ifs
    · exact goesOn rfl
    · exact after rfl [.fence, .phoneRing] (by simp [Line.isPush])
  | phoneRing =>
    simp only [lineStep, linePhoneRing]
    split_ifs <;> exact goesOn rfl
  | crashExit =>
    simp only [lineStep, lineCrashExit]
    split_ifs
    · exact goesOn rfl
    · exact becomes rfl _ rfl
  | crashAct => exact goesOn rfl
  | crash cause c => exact hok.elim
  | isrClear => cases hok
  | isrGet => cases hok
  | isrPush w => cases hok
  | startDone => cases hok
  | startReturn => cases hok
  | saveDone => cases hok

/-- Only the interrupt context's push makes `WQ` longer, and only where there is room (R212). -/
theorem lineStep_wq_le {a : Agent} {l : Line} {acc : Value} {k : List Line} {s : State}
    (h : s.wq.length ≤ s.cfg.wqDepth) : (lineStep a l acc k s).st.wq.length ≤ s.cfg.wqDepth := by
  cases l
  case recvPush d => exact h
  case work =>
    simp only [lineStep, lineWork]
    split
    · exact h
    next w q hq => rw [hq] at h; exact Nat.le_of_succ_le h
  case isrPush w =>
    simp only [lineStep, lineIsrPush]
    split_ifs with hroom
    · simpa using hroom
    · simpa using h
  all_goals rwa [(lineStep_queues (by simp) (by simp) (by simp)).1]

/-- Only the drain pass's push changes `RXQ` (60_exceptions.md R270). -/
theorem lineStep_rxq {a : Agent} {l : Line} {acc : Value} {k : List Line} {s : State} (hp : l.isPush = false) :
    (lineStep a l acc k s).st.rxq = s.rxq := by
  cases l
  case recvPush d => cases hp
  case work => simp only [lineStep, lineWork]; cases s.wq <;> rfl
  case isrPush w => simp only [lineStep, lineIsrPush]; split_ifs <;> simp
  all_goals exact (lineStep_queues (by simp) (by simp) (by simp)).2

/-- There is room in `RXQ`. -/
def State.rxRoomLeft (s : State) : Bool := decide (s.rxq.length < s.cfg.rxqDepth)

/-- A line of the link worker leaves `RXQ` within its depth, and every push still to come held. -/
theorem lineStep_lw_rxq {l : Line} {acc : Value} {k : List Line} {s : State} (hok : lineOk s.cfg .lw l)
    (hr : lineReady .lw l s = true) (hle : s.rxq.length ≤ s.cfg.rxqDepth)
    (h : pushesHeld s.rxRoomLeft (l :: k) = true) :
    (lineStep .lw l acc k s).st.rxq.length ≤ s.cfg.rxqDepth
    ∧ pushesHeld (lineStep .lw l acc k s).st.rxRoomLeft (lineStep .lw l acc k s).todo = true := by
  cases hp : l.isPush with
  | true =>
    cases l <;> cases hp
    rw [pushesHeld_push, Bool.and_eq_true] at h
    obtain ⟨hroom, hk⟩ := h
    exact ⟨by simpa [State.rxRoomLeft, lineStep, lineRecvPush] using hroom, pushesHeld_mono (by simp) hk⟩
  | false =>
    have hrxq := lineStep_rxq (a := .lw) (acc := acc) (k := k) (s := s) hp
    have hcfg := (Onward.line .lw l acc k s).cfg
    rw [State.rxRoomLeft, hrxq, hcfg]
    refine ⟨hle, ?_⟩
    by_cases hh : l = .recvHold
    · subst hh
      have hroom : s.rxRoomLeft = true := by
        simp only [lineReady, Bool.and_eq_true] at hr; exact hr.2
      exact pushesHeld_mono (fun _ => hroom) h
    · exact pushesHeld_todo hok hp hh h

/-! ### The invariant -/

theorem queuesOk_settle_lw {o : Out} (hw : o.st.wq.length ≤ o.st.cfg.wqDepth) (hr : o.st.rxq.length ≤ o.st.cfg.rxqDepth)
    (hp : pushesHeld o.st.rxRoomLeft o.todo = true) : (settle .lw o).queuesOk := by
  obtain ⟨s, acc, todo⟩ := o
  cases todo <;> exact ⟨hw, hr, hp⟩

theorem queuesOk_setThread {s : State} {a : Agent} (ha : a ≠ .lw) (th : Thread) (h : s.queuesOk) :
    (s.setThread a th).queuesOk := by
  cases a
  case lw => exact absurd rfl ha
  all_goals exact h

theorem queuesOk_settle {a : Agent} (ha : a ≠ .lw) {o : Out} (h : o.st.queuesOk) : (settle a o).queuesOk := by
  obtain ⟨s, acc, todo⟩ := o
  cases todo <;> exact queuesOk_setThread ha _ h

theorem queuesOk_begins {s : State} {a : Agent} {prog : List Line} (hb : Begins s a prog) (h : s.queuesOk) :
    (s.setThread a ⟨.unit, prog⟩).queuesOk := by
  cases hb with
  | onDoorbell => exact queuesOk_setThread (by simp) _ h
  | start _ => exact queuesOk_setThread (by simp) _ h
  | work => exact ⟨h.1, h.2.1, rfl⟩

theorem queuesOk_line {a : Agent} {l : Line} {acc : Value} {k : List Line} {s : State} (ht : s.thread a = ⟨acc, l :: k⟩)
    (hr : lineReady a l s = true) (hok : lineOk s.cfg a l) (h : s.queuesOk) :
    (settle a (lineStep a l acc k s)).queuesOk := by
  obtain ⟨hwq, hrxq, hheld⟩ := h
  have hcfg := (Onward.line a l acc k s).cfg
  have hwq' : (lineStep a l acc k s).st.wq.length ≤ (lineStep a l acc k s).st.cfg.wqDepth := by
    rw [hcfg]; exact lineStep_wq_le hwq
  by_cases ha : a = .lw
  · subst ha
    have hlw : s.lw = ⟨acc, l :: k⟩ := ht
    rw [hlw] at hheld
    obtain ⟨hle, hheld'⟩ := lineStep_lw_rxq (acc := acc) hok hr hrxq hheld
    exact queuesOk_settle_lw hwq' (by rwa [hcfg]) hheld'
  · have hp : l.isPush = false := by
      cases l with
      | recvPush d => exact absurd hok ha
      | _ => rfl
    have hlw : (lineStep a l acc k s).st.lw = s.lw := by rw [lineStep_phases]; rfl
    refine queuesOk_settle ha ⟨hwq', ?_, ?_⟩
    · rw [lineStep_rxq hp, hcfg]; exact hrxq
    · rw [lineStep_rxq hp, hcfg, hlw]; exact hheld

/-- A frame taken from `RXQ` only makes room. -/
theorem queuesOk_popRxq {s : State} {f : Frame} {q : List Frame} (hq : s.rxq = f :: q) (h : s.queuesOk) :
    ({ s with rxq := q } : State).queuesOk := by
  obtain ⟨hwq, hrxq, hheld⟩ := h
  rw [hq, List.length_cons] at hrxq hheld
  refine ⟨hwq, Nat.le_of_succ_le hrxq, pushesHeld_mono (fun hroom => ?_) hheld⟩
  rw [decide_eq_true_eq] at hroom ⊢
  exact Nat.lt_of_succ_lt hroom

theorem queuesOk_dispatchFrame {s : State} (h : s.queuesOk) : (dispatchFrame s).queuesOk := by
  unfold dispatchFrame
  cases hq : s.rxq with
  | nil => exact h
  | cons f q =>
    have hpop := queuesOk_popRxq hq h
    simp only
    split_ifs
    · exact hpop
    · simpa [State.queuesOk] using hpop

theorem queuesOk_hwReset (s : State) : (hwReset s).queuesOk := by
  simp [State.queuesOk, Thread.idle, pushesHeld]

theorem queuesOk_keeps : KeepsOwned State.queuesOk where
  sched := fun _ _ h => h
  ret := fun _ _ h => h
  respond := fun _ _ _ _ _ h => h
  begins := fun _ _ _ _ hb => queuesOk_begins hb
  send := fun _ _ _ _ _ h => queuesOk_setThread (by simp) _ h
  skip := fun _ h => h
  line := fun _ l _ _ _ _ ht hr _ hok => queuesOk_line ht hr (hok l (List.mem_cons_self ..))
  dispatch := fun _ => queuesOk_dispatchFrame
  save := fun _ _ _ h => queuesOk_setThread (by simp) _ h
  reset := fun s _ _ => queuesOk_hwReset s
  peer := fun _ _ _ he h => by rw [(peerStep_private he).1]; exact h

/-- Settles O56: with `pushesHeld` the depths are an invariant. -/
theorem queuesKept : Obligations.QueuesKept :=
  fun _ _ ho hq he => (queuesOk_keeps.step ho he hq).2

end Sys2Proof.Machine
end

section
/-! SUPPORT. The transmit locks (10_state.md R28; 60_exceptions.md R278): what one line of a sender does to its phase and
to the lock of its channel, that no other agent's line touches a lock, and the discipline as an invariant. -/

namespace Sys2Proof.Machine

/-! ### The registers of a channel -/

/-- The transmit lock of channel `c`. -/
def State.lock (s : State) (c : Nat) : Lock := (s.chan c).txlock

theorem chan_setChan_same {s : State} {c : Nat} (hc : c < s.chans.length) (q : ChanRegs) : (s.setChan c q).chan c = q :=
  getD_set_same hc q

theorem chan_setChan_other {c c' : Nat} (h : c' ≠ c) (s : State) (q : ChanRegs) :
    (s.setChan c q).chan c' = s.chan c' :=
  getD_set_other h q

/-- A channel the engine does not have has no registers to write. -/
theorem setChan_beyond {s : State} {c : Nat} (hc : s.chans.length ≤ c) (q : ChanRegs) : s.setChan c q = s := by
  rw [State.setChan, List.set_eq_of_length_le hc]

theorem lock_congr {s t : State} (h : t.chans = s.chans) (c : Nat) : t.lock c = s.lock c := by
  simp [State.lock, State.chan, h]

theorem lock_setLock_same {s : State} {c : Nat} (hc : c < s.chans.length) (x : Lock) : (s.setLock c x).lock c = x := by
  rw [State.lock, State.setLock, chan_setChan_same hc]

theorem lock_setLock_other {c c' : Nat} (h : c' ≠ c) (s : State) (x : Lock) : (s.setLock c x).lock c' = s.lock c' := by
  rw [State.lock, State.setLock, chan_setChan_other h]; rfl

/-- Writing the other registers of a channel leaves every lock alone. -/
theorem lock_setChan_self {s : State} {c : Nat} {q : ChanRegs} (hq : q.txlock = s.lock c) (c' : Nat) :
    (s.setChan c q).lock c' = s.lock c' := by
  by_cases hc : s.chans.length ≤ c
  · rw [setChan_beyond hc]
  · by_cases h : c' = c
    · subst h; rw [State.lock, chan_setChan_same (by omega), hq]
    · rw [State.lock, chan_setChan_other h]; rfl

/-- No line of an agent other than a sender touches a lock. -/
theorem lineStep_lock_other {a : Agent} {l : Line} {acc : Value} {k : List Line} {s : State} (ha : ∀ j, a ≠ .snd j)
    (hok : lineOk s.cfg a l) (c : Nat) : (lineStep a l acc k s).st.lock c = s.lock c := by
  have foreign : ∀ {p : Prop}, ((∃ j, a = .snd j) ∧ p) → (lineStep a l acc k s).st.lock c = s.lock c :=
    fun ⟨⟨j, hj⟩, _⟩ => absurd hj (ha j)
  cases l
  case spaceHead r => exact foreign hok
  case spaceTail r h => exact foreign hok
  case sendLock c' chid payload => exact foreign hok
  case sendReady c' chid payload => exact foreign hok
  case sendTest c' chid payload => exact foreign hok
  case sendFit c' chid payload => exact foreign hok
  case sendPark c' chid payload => exact foreign hok
  case sendCommit c' chid payload => exact foreign hok
  case sendEncode c' chid payload => exact foreign hok
  case sendUnlock c' len => exact foreign hok
  case sendReturn c' len => exact foreign hok
  case rqWrite r src => exact foreign hok
  case ackDec c' => exact lock_setChan_self (q := { s.chan c' with pendingAck := (s.chan c').pendingAck - 1 }) rfl c
  all_goals refine lock_congr ?_ c
  case rqRead r len => simp only [lineStep, lineRqRead]; split_ifs <;> rfl
  case rqPeek r off len => simp only [lineStep, lineRqPeek]; split_ifs <;> rfl
  case ringCorrupt r => exact (congrArg State.chans (ringCorruptExit_other ha r k s)).trans (raise_chans _ _)
  case recvAvail c =>
    simp only [lineStep, lineRecvAvail]
    cases acc
    case int v => simp only; split_ifs <;> simp
    all_goals rfl
  case recvLoop c m n => simp only [lineStep, lineRecvLoop]; split_ifs <;> simp
  case recvMagic c m n => simp only [lineStep, lineRecvMagic]; split_ifs <;> simp
  case recvLength c m n => simp only [lineStep, lineRecvLength]; split <;> simp
  case recvSize c d m n => simp only [lineStep, lineRecvSize]; split_ifs <;> simp
  case frameRxTest c d => simp only [lineStep, lineFrameRxTest]; split_ifs <;> simp
  case frameRxSize c d =>
    simp only [lineStep, lineFrameRxSize]
    cases acc
    case int v => simp only; split_ifs <;> simp
    all_goals rfl
  case ackReq c w => simp only [lineStep, lineAckReq]; split_ifs <;> rfl
  case work => simp only [lineStep, lineWork]; split <;> rfl
  case noncmd w => simp only [lineStep, lineNoncmd]; split_ifs <;> rfl
  case noncmdReady w => simp only [lineStep, lineNoncmdReady]; split_ifs <;> simp
  case phoneStart => simp only [lineStep, linePhoneStart]; split_ifs <;> rfl
  case setOnline => simp only [lineStep, lineSetOnline]; split_ifs <;> rfl
  case phoneRing => simp only [lineStep, linePhoneRing]; split_ifs <;> rfl
  case crashExit => simp only [lineStep, lineCrashExit]; split_ifs <;> rfl
  case crashAct => exact raise_chans s .crashCmd
  case crash cause c => exact hok.elim
  case isrPush w => simp only [lineStep, lineIsrPush]; split_ifs <;> simp
  all_goals rfl

/-! ### The phase of a sender -/

theorem sendPhase_cons {cfg : Cfg} {c : Nat} {past : Bool} {l : Line} {k : List Line} :
    sendPhase cfg c past (l :: k) ↔
      (k = [] ∧ sendMark l = some (c, past)) ∨ (past = true ∧ sendInner cfg c l = true ∧ sendPhase cfg c true k) := by
  constructor
  · rintro ⟨pre, m, htodo, hmark, hinner, hpast⟩
    cases pre with
    | nil =>
      simp only [List.nil_append, List.cons.injEq] at htodo
      obtain ⟨rfl, rfl⟩ := htodo
      exact .inl ⟨rfl, hmark⟩
    | cons x pre =>
      simp only [List.cons_append, List.cons.injEq] at htodo
      obtain ⟨rfl, rfl⟩ := htodo
      have hp : past = true := by
        cases past with
        | true => rfl
        | false => cases hpast rfl
      subst hp
      exact .inr ⟨rfl, hinner l (by simp), pre, m, rfl, hmark, fun y hy => hinner y (by simp [hy]), by simp⟩
  · rintro (⟨rfl, hmark⟩ | ⟨rfl, hl, pre, m, rfl, hmark, hinner, -⟩)
    · exact ⟨[], l, rfl, hmark, by simp, by simp⟩
    · exact ⟨l :: pre, m, rfl, hmark, by simpa [hl] using hinner, by simp⟩

theorem not_sendPhase_nil {cfg : Cfg} {c : Nat} {past : Bool} : ¬ sendPhase cfg c past [] := by
  rintro ⟨pre, m, h, -⟩; simp at h

/-- A marked line alone is a phase. -/
theorem sendPhase_mark {cfg : Cfg} {c : Nat} {past : Bool} {l : Line} (h : sendMark l = some (c, past)) :
    sendPhase cfg c past [l] := sendPhase_cons.2 (.inl ⟨rfl, h⟩)

/-- Inner lines in front of what is past L1 are past L1. -/
theorem sendPhase_append {cfg : Cfg} {c : Nat} {pre k : List Line} (hp : ∀ l ∈ pre, sendInner cfg c l = true)
    (h : sendPhase cfg c true k) : sendPhase cfg c true (pre ++ k) := by
  induction pre with
  | nil => exact h
  | cons l pre ih =>
    exact sendPhase_cons.2 (.inr ⟨rfl, hp l (List.mem_cons_self ..), ih fun x hx => hp x (List.mem_cons_of_mem _ hx)⟩)

/-- The lines left tell the channel and the side of the lock. -/
theorem sendPhase_unique {cfg : Cfg} {c c' : Nat} {past past' : Bool} {todo : List Line}
    (h : sendPhase cfg c past todo) (h' : sendPhase cfg c' past' todo) : c' = c ∧ past' = past := by
  obtain ⟨pre, m, rfl, hmark, -, -⟩ := h
  obtain ⟨pre', m', htodo, hmark', -, -⟩ := h'
  obtain ⟨-, hm⟩ := List.append_inj' htodo rfl
  simp only [List.cons.injEq, and_true] at hm
  rw [← hm, hmark, Option.some.injEq, Prod.mk.injEq] at hmark'
  exact ⟨hmark'.1.symm, hmark'.2.symm⟩

/-! ### One line of a sender -/

/-- What the lock of a channel becomes while sender `k` goes from one side of it to the other: taken when it was free on
the way in, freed on the way out, untouched otherwise (R28). -/
def lockTurn (k : Nat) : Bool → Bool → Lock → Lock → Prop
  | false, true, x, y => x = .free ∧ y = .held k
  | true, false, _, y => y = .free
  | false, false, x, y => y = x
  | true, true, x, y => y = x

theorem lockTurn_self (k : Nat) (past : Bool) (x : Lock) : lockTurn k past past x x := by cases past <;> rfl

/-- A lock that tells where sender `k` stands still does. -/
theorem lockTurn_held {k : Nat} {past past' : Bool} {x y : Lock} (h : lockTurn k past past' x y)
    (hx : x = .held k ↔ past = true) : y = .held k ↔ past' = true := by
  cases past <;> cases past'
  case false.true => exact ⟨fun _ => rfl, fun _ => h.2⟩
  case true.false => rw [show y = .free from h]; simp
  all_goals rw [show y = x from h]; exact hx

/-- No other sender comes to hold the lock, or to lose it. -/
theorem lockTurn_held_other {k j : Nat} (hj : j ≠ k) {past past' : Bool} {x y : Lock} (h : lockTurn k past past' x y)
    (hx : x = .held k ↔ past = true) : y = .held j ↔ x = .held j := by
  cases past <;> cases past'
  case false.true =>
    obtain ⟨rfl, rfl⟩ := h
    simp [hj.symm]
  case true.false => rw [show y = .free from h, hx.2 rfl]; simp [hj.symm]
  all_goals rw [show y = x from h]

/-- From `s` to `t` sender `k`, in a phase of channel `c`, has come from the side `past` of the lock to the side `past'`,
with the lines `todo` left; no lock but its channel's has changed. -/
structure SenderMoves (s t : State) (k c : Nat) (past past' : Bool) (todo : List Line) : Prop where
  phase : (todo = [] ∧ past' = false) ∨ sendPhase s.cfg c past' todo
  own : lockTurn k past past' (s.lock c) (t.lock c)
  others : ∀ c', c' ≠ c → t.lock c' = s.lock c'

/-- A line that touches no lock. -/
theorem SenderMoves.stays {s t : State} {k c : Nat} {past : Bool} {todo : List Line}
    (h : ∀ c', t.lock c' = s.lock c') (hp : sendPhase s.cfg c past todo) : SenderMoves s t k c past past todo where
  phase := .inr hp
  own := by rw [h]; exact lockTurn_self k past _
  others := fun c' _ => h c'

/-- A send that ends in an error has let go of its lock (R189, R190). -/
theorem SenderMoves.aborts {s : State} {c : Nat} (hc : c < s.chans.length) (k : Nat) (e : Condition) (code : RespCode) :
    SenderMoves s (sendAbort s (.snd k) c e code).st k c true false (sendAbort s (.snd k) c e code).todo := by
  have hchans : (sendAbort s (.snd k) c e code).st.chans = (s.setLock c .free).chans := by simp [sendAbort]
  refine ⟨.inl ⟨rfl, rfl⟩, ?_, fun c' h => ?_⟩
  · exact (lock_congr hchans c).trans (lock_setLock_same hc _)
  · exact (lock_congr hchans c').trans (lock_setLock_other h _ _)

/-- The lines of `RQ.WRITE` on the sender's own ring store into `TXBUF[c]` and `TXH[c]` (R278). -/
theorem sendInner_write {cfg : Cfg} {c : Nat} {h : Word} (hh : indexCorrupt (ringOf cfg (txRing c)).cap h = false)
    {src : List Byte} (hl : src.length < cfg.capOf (txRing c)) {x : Line}
    (hx : x ∈ ringStoreLines (ringOf cfg (txRing c)) h.toNat src
      ++ [.fence, .store32 (ringOf cfg (txRing c)).offH (advance (ringOf cfg (txRing c)).cap h.toNat src.length)]) :
    sendInner cfg c x = true := by
  rw [ringOf_cap, indexCorrupt_false_iff] at hh
  rcases List.mem_append.1 hx with hx | hx
  · obtain ⟨off, b, h1, h2, rfl⟩ := mem_ringStoreLines (by rwa [ringOf_cap]) (by rwa [ringOf_cap]) hx
    rw [ringOf_cap] at h2
    have hbuf : cfg.baseTx c ≤ off ∧ off < cfg.baseTx c + (cfg.chan c).capTx := ⟨h1, h2⟩
    simpa [sendInner] using hbuf
  · simp only [List.mem_cons, List.not_mem_nil, or_false] at hx
    rcases hx with rfl | rfl <;> simp [sendInner, ringOf]

section SenderLine

variable {s : State} {k c : Nat} (hcl : c < s.chans.length) {l : Line} (acc : Value)

include hcl

/-- A line before the marked one, which is a line of a primitive: still past L1, or the send ends in an error. -/
theorem lineStep_inner {rest : List Line} (hr : lineEnabled l s = true) (hl : sendInner s.cfg c l = true)
    (hrest : sendPhase s.cfg c true rest) :
    ∃ past', SenderMoves s (lineStep (.snd k) l acc rest s).st k c true past' (lineStep (.snd k) l acc rest s).todo := by
  have goesOn : ∀ {t : State} {pre : List Line}, t.chans = s.chans → (∀ x ∈ pre, sendInner s.cfg c x = true) →
      ∃ past', SenderMoves s t k c true past' (pre ++ rest) :=
    fun ht hpre => ⟨true, .stays (lock_congr ht) (sendPhase_append hpre hrest)⟩
  cases l <;> first | (simp only [sendInner, Bool.false_eq_true] at hl; done) | skip
  case readyMagic => exact goesOn (pre := [.readyAccess _]) rfl (by simp [sendInner])
  case spaceHead r => exact goesOn (pre := [.spaceTail r _]) rfl (by simpa [sendInner] using hl)
  case rqWrite r src =>
    have hring : r = txRing c := by simpa [sendInner] using hl
    subst hring
    simp only [lineStep, lineRqWrite]
    split_ifs with hnil hcorrupt
    · exact goesOn (pre := []) rfl (by simp)
    · exact goesOn (pre := [.ringCorrupt _]) rfl (by simp [sendInner])
    · have hlen : src.length < s.cfg.capOf (txRing c) := by simpa [lineEnabled] using hr
      have hw := goesOn (t := s) rfl fun x => sendInner_write (x := x) (by simpa using hcorrupt) hlen
      simpa using hw
  case ringCorrupt r =>
    have hring : r = txRing c := by simpa [sendInner] using hl
    subst hring
    exact ⟨false, .aborts hcl k _ _⟩
  all_goals exact goesOn (pre := []) rfl (by simp)

/-- The marked line, which is a line of `CH.SEND` itself (R182): the lock is taken at L1 and released at U1 or with an
error, and on no other line. -/
theorem lineStep_marked {past : Bool} (hr : lineEnabled l s = true) (hl : sendMark l = some (c, past)) :
    ∃ past', SenderMoves s (lineStep (.snd k) l acc [] s).st k c past past' (lineStep (.snd k) l acc [] s).todo := by
  have goesOn : ∀ {t : State} {x : Line}, (∀ c', t.lock c' = s.lock c') → sendMark x = some (c, true) →
      ∃ past', SenderMoves s t k c true past' [x] :=
    fun ht hx => ⟨true, .stays ht (sendPhase_mark hx)⟩
  have polls : ∀ {x : Line}, sendMark x = some (c, true) →
      ∃ past', SenderMoves s s k c true past' [.spaceHead (txRing c), x] :=
    fun hx => ⟨true, .stays (fun _ => rfl)
      (sendPhase_append (pre := [.spaceHead (txRing c)]) (by simp [sendInner]) (sendPhase_mark hx))⟩
  cases l <;> simp only [sendMark, Option.some.injEq, Prod.mk.injEq, reduceCtorEq] at hl
  all_goals obtain ⟨rfl, rfl⟩ := hl
  case sendLock chid payload =>
    exact ⟨true, .inr (sendPhase_append (pre := [.readyMagic]) (by simp [sendInner]) (sendPhase_mark rfl)),
      ⟨by simpa [lineEnabled, State.lock] using hr, lock_setLock_same hcl _⟩, fun _ h => lock_setLock_other h _ _⟩
  case sendReady chid payload =>
    simp only [lineStep, lineSendReady]
    split_ifs
    · exact polls rfl
    · exact ⟨false, .aborts hcl k _ _⟩
  case sendTest chid payload =>
    simp only [lineStep, lineSendTest]
    split_ifs
    · exact ⟨false, .aborts hcl k _ _⟩
    · exact goesOn (fun _ => rfl) rfl
  case sendFit chid payload =>
    simp only [lineStep, lineSendFit, raise_txNoSpace]
    cases acc
    case int v =>
      simp only
      split_ifs <;> exact goesOn (fun _ => rfl) rfl
    all_goals exact goesOn (fun _ => rfl) rfl
  case sendPark chid payload => exact polls rfl
  case sendCommit chid payload => exact goesOn (lock_setChan_self rfl) rfl
  case sendEncode chid payload =>
    exact ⟨true, .stays (fun _ => rfl) (sendPhase_append (pre := [.rqWrite _ _, .rqWrite _ _, .fence, .doorbell _])
      (by simp [sendInner]) (sendPhase_mark rfl))⟩
  case sendUnlock len =>
    exact ⟨false, .inr (sendPhase_mark rfl), lock_setLock_same hcl _, fun _ h => lock_setLock_other h _ _⟩
  case sendReturn len => exact ⟨false, .inl ⟨rfl, rfl⟩, rfl, fun _ _ => rfl⟩

/-- One line of a sender. -/
theorem lineStep_sender {past : Bool} {rest : List Line} (hr : lineReady (.snd k) l s = true)
    (hp : sendPhase s.cfg c past (l :: rest)) :
    ∃ past', SenderMoves s (lineStep (.snd k) l acc rest s).st k c past past'
      (lineStep (.snd k) l acc rest s).todo := by
  have hen : lineEnabled l s = true := by
    simp only [lineReady, Bool.and_eq_true] at hr; exact hr.2
  rcases sendPhase_cons.1 hp with ⟨rfl, hmark⟩ | ⟨rfl, hinner, hrest⟩
  · exact lineStep_marked hcl acc hen hmark
  · exact lineStep_inner hcl acc hen hinner hrest

end SenderLine

/-! ### The senders in progress -/

/-- The senders after one of them took a step, each under its own number: the others, and that one unless it has
ended. -/
theorem mem_setSender_iff {ps : List (Nat × Thread)} (hn : (ps.map Prod.fst).Nodup) {k : Nat} {th : Thread}
    {p : Nat × Thread} : p ∈ setSender ps k th ↔ (p ∈ ps ∧ p.1 ≠ k) ∨ (p = (k, th) ∧ th.todo ≠ []) := by
  induction ps with
  | nil => by_cases ht : th.todo = [] <;> simp [setSender, ht]
  | cons q ps ih =>
    rw [List.map_cons, List.nodup_cons] at hn
    obtain ⟨hq, hps⟩ := hn
    by_cases hk : q.1 = k
    · have hne : p ∈ ps → p.1 ≠ k := fun hp e => hq (List.mem_map.2 ⟨p, hp, e.trans hk.symm⟩)
      have hqk : p = q → p.1 = k := by rintro rfl; exact hk
      by_cases ht : th.todo = []
      · simp only [setSender, hk, ht, if_true, List.mem_cons]
        tauto
      · simp only [setSender, hk, ht, if_true, if_false, List.mem_cons]
        tauto
    · have hqk : p = q → p.1 ≠ k := by rintro rfl; exact hk
      simp only [setSender, hk, if_false, List.mem_cons, ih hps]
      tauto

theorem nodup_setSender {ps : List (Nat × Thread)} (hn : (ps.map Prod.fst).Nodup) (k : Nat) (th : Thread) :
    ((setSender ps k th).map Prod.fst).Nodup := by
  induction ps with
  | nil => by_cases ht : th.todo = [] <;> simp [setSender, ht]
  | cons q ps ih =>
    have hn' := hn
    rw [List.map_cons, List.nodup_cons] at hn
    obtain ⟨hq, hps⟩ := hn
    simp only [setSender]
    split_ifs with hk ht
    · exact hps
    · subst hk; exact hn'
    · rw [List.map_cons, List.nodup_cons]
      refine ⟨fun hmem => ?_, ih hps⟩
      obtain ⟨p, hp, hpq⟩ := List.mem_map.1 hmem
      rcases mem_setSender hp with hp | ⟨rfl, -⟩
      · exact hq (List.mem_map.2 ⟨p, hp, hpq⟩)
      · exact hk hpq.symm

/-- Sender `k` is between L1 and its release on channel `c`. -/
def State.holds (s : State) (c k : Nat) : Prop := ∃ th, (k, th) ∈ s.snds ∧ sendPhase s.cfg c true th.todo

/-- A sender in a phase of channel `c` is past L1 on that channel or on none. -/
theorem holds_iff_of_phase {s : State} (hn : (s.snds.map Prod.fst).Nodup) {k c : Nat} {past : Bool} {th : Thread}
    (hm : (k, th) ∈ s.snds) (hp : sendPhase s.cfg c past th.todo) (c' : Nat) :
    s.holds c' k ↔ c' = c ∧ past = true := by
  constructor
  · rintro ⟨th', hm', hp'⟩
    have hth : (k, th') = (k, th) := List.inj_on_of_nodup_map hn hm' hm rfl
    obtain ⟨-, rfl⟩ := Prod.mk.inj hth
    obtain ⟨hc, hpast⟩ := sendPhase_unique hp hp'
    exact ⟨hc, hpast.symm⟩
  · rintro ⟨rfl, rfl⟩
    exact ⟨th, hm, hp⟩

/-! ### The invariant -/

/-- Whoever holds what held the locks before, and holds them in the same places, meets the discipline. -/
theorem locksOk_congr {s t : State} (hcfg : t.cfg = s.cfg) (hlen : t.chans.length = s.chans.length)
    (hlock : ∀ c, t.lock c = s.lock c) (hsnds : t.snds = s.snds) (hnext : s.nextSnd ≤ t.nextSnd) (h : s.locksOk) :
    t.locksOk := by
  obtain ⟨hchans, hnodup, hbelow, hphase, hheld⟩ := h
  unfold State.locksOk
  rw [hcfg, hsnds, hlen]
  refine ⟨hchans, hnodup, fun p hp => Nat.lt_of_lt_of_le (hbelow p hp) hnext, hphase, fun c k hc => ?_⟩
  rw [← hheld c k hc]
  exact iff_of_eq (congrArg (· = Lock.held k) (hlock c))

/-- The discipline survives a move of one sender, in progress or new. -/
theorem locksOk_moves {s t : State} {k c : Nat} {past past' : Bool} {th : Thread} (h : s.locksOk) (hc : c < s.cfg.nCh)
    (hbefore : ∀ c', s.holds c' k ↔ c' = c ∧ past = true) (hm : SenderMoves s t k c past past' th.todo)
    (hcfg : t.cfg = s.cfg) (hlen : t.chans.length = s.chans.length) (hsnds : t.snds = setSender s.snds k th)
    (hnext : s.nextSnd ≤ t.nextSnd) (hk : k < t.nextSnd) : t.locksOk := by
  obtain ⟨hchans, hnodup, hbelow, hphase, hheld⟩ := h
  have hmem : ∀ {p}, p ∈ t.snds ↔ (p ∈ s.snds ∧ p.1 ≠ k) ∨ (p = (k, th) ∧ th.todo ≠ []) := by
    rw [hsnds]; exact mem_setSender_iff hnodup
  have hself : ∀ c', t.holds c' k ↔ c' = c ∧ past' = true := by
    intro c'
    rcases hm.phase with ⟨hended, rfl⟩ | hphase'
    · simp [State.holds, hmem, hended]
    · have hne : th.todo ≠ [] := fun e => not_sendPhase_nil (e ▸ hphase')
      exact holds_iff_of_phase (hsnds ▸ nodup_setSender hnodup k th) (hmem.2 (.inr ⟨rfl, hne⟩)) (hcfg ▸ hphase') c'
  have hother : ∀ c' j, j ≠ k → (t.holds c' j ↔ s.holds c' j) := by
    intro c' j hj
    simp [State.holds, hmem, hj, hcfg]
  have hlock : ∀ c' j, c' < s.cfg.nCh → (s.lock c' = .held j ↔ s.holds c' j) := hheld
  have howner : s.lock c = .held k ↔ past = true := by simpa [hbefore] using hlock c k hc
  refine ⟨by rw [hlen, hcfg, hchans], hsnds ▸ nodup_setSender hnodup k th, fun p hp => ?_, fun p hp => ?_,
    fun c' j hc' => ?_⟩
  · rcases hmem.1 hp with ⟨hp, -⟩ | ⟨rfl, -⟩
    · exact Nat.lt_of_lt_of_le (hbelow p hp) hnext
    · exact hk
  · rw [hcfg]
    rcases hmem.1 hp with ⟨hp, -⟩ | ⟨rfl, hne⟩
    · exact hphase p hp
    · rcases hm.phase with ⟨hended, -⟩ | hphase'
      · exact absurd hended hne
      · exact ⟨c, past', hc, hphase'⟩
  · show t.lock c' = .held j ↔ t.holds c' j
    rw [hcfg] at hc'
    by_cases hcc : c' = c
    · subst hcc
      by_cases hj : j = k
      · subst hj
        simpa [hself] using lockTurn_held hm.own howner
      · rw [hother c' j hj, lockTurn_held_other hj hm.own howner]
        exact hlock c' j hc'
    · rw [hm.others c' hcc, hlock c' j hc']
      by_cases hj : j = k
      · subst hj; simp [hself, hbefore, hcc]
      · exact (hother c' j hj).symm

theorem locksOk_setThread {s : State} {a : Agent} (ha : ∀ k, a ≠ .snd k) (th : Thread) (h : s.locksOk) :
    (s.setThread a th).locksOk := by
  cases a
  case snd k => exact absurd rfl (ha k)
  all_goals exact h

theorem locksOk_settle {a : Agent} (ha : ∀ k, a ≠ .snd k) {o : Out} (h : o.st.locksOk) : (settle a o).locksOk := by
  obtain ⟨s, acc, todo⟩ := o
  cases todo <;> exact locksOk_setThread ha _ h

/-- What putting back the phase of a sender writes. -/
theorem settle_sender (k : Nat) (o : Out) :
    ∃ th : Thread, th.todo = o.todo ∧ (settle (.snd k) o).snds = setSender o.st.snds k th
      ∧ (settle (.snd k) o).cfg = o.st.cfg ∧ (settle (.snd k) o).chans = o.st.chans
      ∧ (settle (.snd k) o).nextSnd = o.st.nextSnd := by
  obtain ⟨s, acc, todo⟩ := o
  cases todo with
  | nil => exact ⟨.idle, rfl, rfl, rfl, rfl, rfl⟩
  | cons l k => exact ⟨⟨acc, l :: k⟩, rfl, rfl, rfl, rfl, rfl⟩

theorem locksOk_line_sender {k : Nat} {l : Line} {acc : Value} {rest : List Line} {s : State}
    (ht : s.thread (.snd k) = ⟨acc, l :: rest⟩) (hr : lineReady (.snd k) l s = true) (h : s.locksOk) :
    (settle (.snd k) (lineStep (.snd k) l acc rest s)).locksOk := by
  have hmem : (k, ⟨acc, l :: rest⟩) ∈ s.snds := ht ▸ thread_sender_mem (by rw [ht]; simp)
  obtain ⟨hchans, hnodup, hbelow, hphase, -⟩ := id h
  obtain ⟨c, past, hc, hp⟩ := hphase _ hmem
  obtain ⟨past', hm⟩ := lineStep_sender (hchans ▸ hc) acc hr hp
  have hon := Onward.line (.snd k) l acc rest s
  have hph := lineStep_phases (.snd k) l acc rest s
  have hsnds : (lineStep (.snd k) l acc rest s).st.snds = s.snds := by rw [hph]; rfl
  have hnext : (lineStep (.snd k) l acc rest s).st.nextSnd = s.nextSnd := by rw [hph]; rfl
  generalize lineStep (.snd k) l acc rest s = o at *
  obtain ⟨th, htodo, hs1, hs2, hs3, hs4⟩ := settle_sender k o
  have hlock : ∀ c', (settle (.snd k) o).lock c' = o.st.lock c' := lock_congr hs3
  refine locksOk_moves h hc (holds_iff_of_phase hnodup hmem hp) (past' := past') (th := th) ?_ (hs2.trans hon.cfg)
    (by rw [hs3, hon.chans]) (hs1.trans (by rw [hsnds])) (by rw [hs4, hnext]) ?_
  · rw [htodo]
    exact ⟨hm.phase, by rw [hlock]; exact hm.own, fun c' hcc => by rw [hlock]; exact hm.others c' hcc⟩
  · rw [hs4, hnext]; exact hbelow _ hmem

theorem locksOk_line {a : Agent} {l : Line} {acc : Value} {k : List Line} {s : State} (ht : s.thread a = ⟨acc, l :: k⟩)
    (hr : lineReady a l s = true) (hok : lineOk s.cfg a l) (h : s.locksOk) :
    (settle a (lineStep a l acc k s)).locksOk := by
  by_cases ha : ∃ j, a = .snd j
  · obtain ⟨j, rfl⟩ := ha
    exact locksOk_line_sender ht hr h
  · have ha : ∀ j, a ≠ .snd j := fun j hj => ha ⟨j, hj⟩
    have hon := Onward.line a l acc k s
    refine locksOk_settle ha (locksOk_congr hon.cfg hon.chans (lineStep_lock_other ha hok) ?_ ?_ h)
    · rw [lineStep_phases]; rfl
    · rw [lineStep_phases]; exact Nat.le_refl _

/-- A new sender stands before L1, under a number that nobody had (log 5). -/
theorem locksOk_send {s : State} {c : Nat} {chid : Byte} {payload : List Byte} (hc : c < s.cfg.nCh) (h : s.locksOk) :
    (({ s with nextSnd := s.nextSnd + 1 } : State).setThread (.snd s.nextSnd)
      ⟨.unit, [.sendLock c chid payload]⟩).locksOk := by
  obtain ⟨-, -, hbelow, -, -⟩ := id h
  refine locksOk_moves (past := false) (past' := false) h hc (fun c' => ?_)
    (.stays (fun _ => rfl) (sendPhase_mark rfl)) rfl rfl rfl (Nat.le_succ _) (Nat.lt_succ_self _)
  simp only [Bool.false_eq_true, and_false, iff_false]
  rintro ⟨th, hm, -⟩
  exact absurd (hbelow _ hm) (Nat.lt_irrefl _)

theorem locksOk_dispatchFrame {s : State} (h : s.locksOk) : (dispatchFrame s).locksOk := by
  unfold dispatchFrame
  cases s.rxq with
  | nil => exact h
  | cons f q =>
    simp only
    split_ifs
    · exact h
    · exact locksOk_congr (s := s) (by simp) (by simp) (lock_congr (by simp)) (by simp) (by simp) h

theorem locksOk_hwReset (s : State) : (hwReset s).locksOk := by
  have hfree : ∀ c, (hwReset s).lock c = .free := by
    intro c
    simp only [State.lock, State.chan, hwReset_chans, List.getD_eq_getElem?_getD, List.getElem?_replicate]
    split_ifs <;> rfl
  refine ⟨by simp, by simp, by simp, by simp, fun c k _ => ?_⟩
  have hne : ((hwReset s).chan c).txlock ≠ .held k := by
    show (hwReset s).lock c ≠ .held k
    rw [hfree]; simp
  simpa using hne

theorem locksOk_keeps : KeepsOwned State.locksOk where
  sched := fun _ _ h => h
  ret := fun _ _ h => h
  respond := fun _ _ _ _ _ h => h
  begins := fun _ _ _ _ hb h => locksOk_setThread (by cases hb <;> simp) _ h
  send := fun _ _ _ _ hr => locksOk_send (refuseSend_channel hr)
  skip := fun s h => locksOk_congr (s := s) rfl rfl (fun _ => rfl) rfl (Nat.le_succ _) h
  line := fun _ l _ _ _ _ ht hr _ hok => locksOk_line ht hr (hok l (List.mem_cons_self ..))
  dispatch := fun _ => locksOk_dispatchFrame
  save := fun _ _ _ h => locksOk_setThread (by simp) _ h
  reset := fun s _ _ => locksOk_hwReset s
  peer := fun _ _ _ he h => by rw [(peerStep_private he).1]; exact h

/-- Settles O55: a sender's line moves one lock with its phase, every other line moves none. -/
theorem locksKept : Obligations.LocksKept :=
  fun _ _ ho hl he => (locksOk_keeps.step ho he hl).2

end Sys2Proof.Machine
end

section
/-! SUPPORT. The machine right after reset (10_state.md R50): its values, and that it meets every invariant, most of them as
any machine does after hardware reset. -/

namespace Sys2Proof.Machine

/-- Hardware reset finds nothing to reset in the machine right after reset. -/
theorem hwReset_reset : hwReset State.reset = State.reset := rfl

theorem reset_cfg_wf : State.reset.cfg.wf = true := by decide

/-- Settles O45: the values of R50, and the model's choices for what R50 leaves open (logs 2 and 4). -/
theorem stateAfterReset : Obligations.StateAfterReset :=
  ⟨rfl, rfl, rfl, rfl, rfl, rfl, rfl, rfl, fun _ => rfl, rfl, rfl, rfl⟩

theorem reset_sane : State.reset.sane := ⟨reset_cfg_wf, rfl, rfl, by simp [State.reset, State.launch]⟩

theorem preStart_hwReset (s : State) : (hwReset s).preStart := by simp [State.preStart, Thread.idle]

/-- Nothing is listed in SHM, so every word of it reads as 0 (log 4). -/
theorem reset_load32 (off : Nat) : State.reset.load32 off = 0 := by
  change unlistedByte ++ unlistedByte ++ unlistedByte ++ unlistedByte = (0 : Word)
  decide

/-- An index of 0 is valid in every ring. -/
theorem indexValid_zero {s : State} (hw : s.cfg.wf = true) {r : RingId} (hc : r.c < s.cfg.nCh) : indexValid s r 0 := by
  have hcap := Cfg.capOf_ok hw hc
  show 0 < s.cfg.capOf r
  omega

theorem reset_indicesValid : State.reset.indicesValid := by
  intro r hc
  simp only [State.head, State.tail, reset_load32]
  exact ⟨indexValid_zero reset_cfg_wf hc, indexValid_zero reset_cfg_wf hc⟩

/-- Settles O46: the machine right after reset is one that hardware reset leads to, and its SHM is empty. -/
theorem resetMeetsInvariants : Obligations.ResetMeetsInvariants :=
  ⟨reset_sane, hwReset_reset ▸ owned_hwReset reset_cfg_wf, hwReset_reset ▸ locksOk_hwReset State.reset,
    hwReset_reset ▸ queuesOk_hwReset State.reset, hwReset_reset ▸ preStart_hwReset State.reset,
    List.forall_mem_nil _, reset_indicesValid⟩

end Sys2Proof.Machine
end

section
/-! SUPPORT. What may be stored where (20_memory.md R74; 10_state.md R22): the stores of the agents and of the disciplined
peer are safe, and safe stores keep SHM inside the region and every index word valid. -/

namespace Sys2Proof.Machine

/-! ### Safe stores -/

/-- A byte store into the reserved block or a buffer: it touches neither a sentinel nor an index word. -/
def safeByte (cfg : Cfg) (off : Nat) : Prop := cfg.offRsvd ≤ off ∧ off < cfg.shmSize

/-- A word store inside the region that leaves a valid index in whatever index word it hits. -/
structure SafeWord (cfg : Cfg) (off : Nat) (v : Word) : Prop where
  aligned : off % 4 = 0
  inside : off + 4 ≤ cfg.shmSize
  valid : ∀ r : RingId, r.c < cfg.nCh → off = (ringOf cfg r).offH ∨ off = (ringOf cfg r).offT → v.toNat < cfg.capOf r

/-- A ring position lies among the buffers. -/
theorem ringAt_in_buffers {cfg : Cfg} (hw : cfg.wf = true) {r : RingId} (hc : r.c < cfg.nCh) (i k : Nat) :
    cfg.bufBase ≤ ringAt (ringOf cfg r) i k ∧ ringAt (ringOf cfg r) i k < cfg.shmSize := by
  have hcap := Cfg.capOf_ok hw hc
  have hat := ringAt_bounds (g := ringOf cfg r) (by rw [ringOf_cap]; omega) i k
  have hr := ringOf_bounds hc
  rw [ringOf_cap] at hat
  omega

/-- The sentinels lie in front of every index word. -/
theorem SafeWord.sentinel {cfg : Cfg} {off : Nat} (h : off = offMagic ∨ off = offAccess) (v : Word) :
    SafeWord cfg off v := by
  have hoff : off % 4 = 0 ∧ off + 4 ≤ 8 := by rcases h with rfl | rfl <;> decide
  have hr : 8 ≤ cfg.offRsvd := Nat.le_add_right _ _
  have hb := cfg.offRsvd_le_bufBase
  have hs := cfg.bufBase_le_shmSize
  refine ⟨hoff.1, by omega, fun r hc hi => ?_⟩
  have := ringOf_bounds hc
  omega

/-- The buffers lie behind every index word. -/
theorem SafeWord.buffer {cfg : Cfg} {off : Nat} (ha : off % 4 = 0) (hlo : cfg.bufBase ≤ off) (hhi : off + 3 < cfg.shmSize)
    (v : Word) : SafeWord cfg off v := by
  refine ⟨ha, hhi, fun r hc hi => ?_⟩
  have := ringOf_bounds hc
  omega

/-- An index word belongs to one ring only, so that an index valid there is all it takes. -/
theorem SafeWord.index {cfg : Cfg} {r : RingId} (hc : r.c < cfg.nCh) {off : Nat} {v : Word}
    (hoff : off = (ringOf cfg r).offH ∨ off = (ringOf cfg r).offT) (hv : v.toNat < cfg.capOf r) : SafeWord cfg off v := by
  have hr := ringOf_bounds hc
  have ha := ringOf_aligned cfg r
  refine ⟨by omega, by omega, fun r' hc' hoff' => ?_⟩
  by_cases he : r = r'
  · exact he ▸ hv
  · have hr' := ringOf_bounds hc'
    have := ringOf_words_apart cfg he
    omega

/-- An index of 0 may go into any index word. -/
theorem SafeWord.indexZero {cfg : Cfg} (hw : cfg.wf = true) {off : Nat} (h : indexOffset cfg off) : SafeWord cfg off 0 := by
  have pos : ∀ r : RingId, r.c < cfg.nCh → (0 : Word).toNat < cfg.capOf r := fun r hc => by
    have := Cfg.capOf_ok hw hc
    show 0 < cfg.capOf r
    omega
  obtain ⟨c, hc, h | h | h | h⟩ := h
  · exact .index (r := txRing c) hc (.inl h) (pos _ hc)
  · exact .index (r := txRing c) hc (.inr h) (pos _ hc)
  · exact .index (r := rxRing c) hc (.inl h) (pos _ hc)
  · exact .index (r := rxRing c) hc (.inr h) (pos _ hc)

/-! ### Who stores safely -/

/-- A byte that an agent may store goes into the reserved block or a TX buffer (60_exceptions.md R270). -/
theorem lineOk_store8_safe {cfg : Cfg} {a : Agent} {off : Nat} {b : Byte} (h : lineOk cfg a (.store8 off b)) :
    safeByte cfg off := by
  cases a with
  | host => exact ⟨h.1, h.2.1⟩
  | snd k =>
    obtain ⟨c, hc, hlo, hhi⟩ := h
    have hr := ringOf_bounds (r := txRing c) hc
    simp only [ringOf, Cfg.capOf] at hr
    unfold safeByte
    omega
  | isr => exact h.elim
  | lw => exact h.elim
  | dw => exact h.elim
  | call => exact h.elim

/-- A word that an agent may store is a sentinel or a valid index in an index word of its own. -/
theorem lineOk_store32_safe {cfg : Cfg} (hw : cfg.wf = true) {a : Agent} {off : Nat} {v : Word}
    (h : lineOk cfg a (.store32 off v)) : SafeWord cfg off v := by
  cases a with
  | host =>
    obtain h | h | ⟨h, rfl⟩ := h
    · exact .sentinel (.inl h) v
    · exact .sentinel (.inr h) v
    · exact .indexZero hw h
  | snd k =>
    obtain ⟨c, hc, h, hv⟩ := h
    exact .index (r := txRing c) hc (.inl h) hv
  | lw =>
    obtain ⟨c, hc, h, hv⟩ | ⟨h, rfl⟩ := h
    · exact .index (r := rxRing c) hc (.inr h) hv
    · exact .indexZero hw h
  | isr => exact h.elim
  | dw => exact h.elim
  | call => exact h.elim

/-- The disciplined peer stores bytes into the RX buffers only (60_exceptions.md R286 (c)). -/
theorem peerOk_write8_safe {s : State} (hw : s.cfg.wf = true) {off : Nat} {b : Byte} (h : peerOk s (.write8 off b)) :
    safeByte s.cfg off := by
  obtain ⟨-, c, hc, k, -, rfl⟩ := h
  have hat := ringAt_in_buffers hw (r := rxRing c) hc (s.head (rxRing c)).toNat k
  exact ⟨s.cfg.offRsvd_le_bufBase.trans hat.1, hat.2⟩

/-- The disciplined peer stores words into the RX buffers, and valid indices into `TXT` and `RXH` (R286 (b), (c)). -/
theorem peerOk_write32_safe {s : State} (hw : s.cfg.wf = true) {off : Nat} {v : Word} (h : peerOk s (.write32 off v)) :
    SafeWord s.cfg off v := by
  obtain ⟨-, c, hc, ⟨hoff, -, -, -, -, -, hv⟩ | ⟨hoff, -, -, hv⟩ | ⟨ha, hroom⟩⟩ := h
  · exact .index (r := txRing c) hc (.inr hoff) hv
  · exact .index (r := rxRing c) hc (.inl hoff) hv
  · obtain ⟨k, -, h0⟩ := hroom 0 (by decide)
    obtain ⟨j, -, h3⟩ := hroom 3 (by decide)
    have hlo := (ringAt_in_buffers hw (r := rxRing c) hc (s.head (rxRing c)).toNat k).1
    have hhi := (ringAt_in_buffers hw (r := rxRing c) hc (s.head (rxRing c)).toNat j).2
    rw [← h0] at hlo
    rw [← h3] at hhi
    exact .buffer ha hlo hhi v

/-! ### What safe stores keep -/

/-- What a step of `PEER` may store, and that it lies inside the region (60_exceptions.md R286 E2; 20_memory.md R74). -/
theorem peerStep_shm {p : PeerAct} {s t : State} (h : peerStep p s = .next t) :
    t.cfg = s.cfg ∧ (t.mem = s.mem
      ∨ (∃ off b, p = .write8 off b ∧ off < s.cfg.shmSize ∧ t.mem = (s.store8 off b).mem)
      ∨ ∃ off v, p = .write32 off v ∧ off + 4 ≤ s.cfg.shmSize ∧ t.mem = (s.store32 off v).mem) := by
  cases p with
  | write8 off b =>
    simp only [peerStep, peerByte] at h
    split_ifs at h with hoff
    cases h
    exact ⟨rfl, .inr (.inl ⟨off, b, rfl, hoff, rfl⟩)⟩
  | write32 off v =>
    simp only [peerStep, peerWord] at h
    split_ifs at h with _ hoff
    cases h
    exact ⟨rfl, .inr (.inr ⟨off, v, rfl, hoff, rfl⟩)⟩
  | read8 off =>
    simp only [peerStep, peerByte] at h
    split_ifs at h
    cases h
    exact ⟨rfl, .inl rfl⟩
  | read32 off =>
    simp only [peerStep, peerWord] at h
    split_ifs at h
    cases h
    exact ⟨rfl, .inl rfl⟩
  | setStatus w => cases h; exact ⟨rfl, .inl rfl⟩
  | raiseIrq => cases h; exact ⟨rfl, .inl rfl⟩
  | takeDoorbell => cases h; exact ⟨rfl, .inl rfl⟩

theorem dispatchFrame_shm (s : State) : (dispatchFrame s).cfg = s.cfg ∧ (dispatchFrame s).mem = s.mem := by
  unfold dispatchFrame
  cases s.rxq with
  | nil => exact ⟨rfl, rfl⟩
  | cons f q => simp only; split_ifs <;> simp

theorem settle_shm (a : Agent) (o : Out) : (settle a o).cfg = o.st.cfg ∧ (settle a o).mem = o.st.mem := by
  obtain ⟨s, acc, todo⟩ := o
  cases todo <;> simp

/-- `P` speaks of the configuration and SHM alone, and every safe store keeps it. -/
structure KeptBySafeStores (P : State → Prop) : Prop where
  congr : ∀ {s t : State}, t.cfg = s.cfg → t.mem = s.mem → P s → P t
  byte : ∀ (s : State) (off : Nat) (b : Byte), safeByte s.cfg off → P s → P (s.store8 off b)
  word : ∀ (s : State) (off : Nat) (v : Word), SafeWord s.cfg off v → P s → P (s.store32 off v)

namespace KeptBySafeStores

variable {P : State → Prop}

/-- A line of an agent stores safely or not at all. -/
theorem line (K : KeptBySafeStores P) {a : Agent} {l : Line} {acc : Value} {k : List Line} {s : State}
    (hw : s.cfg.wf = true) (hl : lineOk s.cfg a l) (h : P s) : P (settle a (lineStep a l acc k s)) := by
  obtain ⟨hcfg, hmem⟩ := settle_shm a (lineStep a l acc k s)
  refine K.congr hcfg hmem ?_
  by_cases h8 : ∃ off b, l = .store8 off b
  · obtain ⟨off, b, rfl⟩ := h8
    exact K.byte s off b (lineOk_store8_safe hl) h
  · by_cases h32 : ∃ off v, l = .store32 off v
    · obtain ⟨off, v, rfl⟩ := h32
      exact K.word s off v (lineOk_store32_safe hw hl) h
    · exact K.congr (Onward.line a l acc k s).cfg
        (lineStep_mem (fun off b e => h8 ⟨off, b, e⟩) (fun off v e => h32 ⟨off, v, e⟩)) h

/-- So does everything the engine itself does. -/
theorem keeps (K : KeptBySafeStores P) : Keeps fun s => s.owned ∧ P s where
  sched := fun s l h => ⟨owned_keeps.sched s l h.1, K.congr (s := s) rfl rfl h.2⟩
  ret := fun s v h => ⟨owned_keeps.ret s v h.1, K.congr (s := s) rfl rfl h.2⟩
  respond := fun s k op code v h => ⟨owned_keeps.respond s k op code v h.1, K.congr (s := s) rfl rfl h.2⟩
  begins := fun s a prog hf hb h => ⟨owned_keeps.begins s a prog hf hb h.1, K.congr (by simp) (by simp) h.2⟩
  send := fun s c chid payload hr ht h =>
    ⟨owned_keeps.send s c chid payload hr ht h.1, K.congr (by simp) (by simp) h.2⟩
  skip := fun s h => ⟨owned_keeps.skip s h.1, K.congr (s := s) rfl rfl h.2⟩
  line := fun a l acc k s _ ht hr h =>
    ⟨owned_line ht hr h.1, K.line h.1.1 (owned_thread h.1 a l (by simp [ht])) h.2⟩
  dispatch := fun s h =>
    ⟨owned_dispatchFrame h.1, K.congr (dispatchFrame_shm s).1 (dispatchFrame_shm s).2 h.2⟩
  save := fun s hr ht h => ⟨owned_keeps.save s hr ht h.1, K.congr (by simp) (by simp) h.2⟩

/-- Every step keeps `P` if the step of `PEER` that may come next does. -/
theorem step (K : KeptBySafeStores P) {s t : State} (ho : s.owned)
    (hp : ∀ p rest u, s.sched = .peer p :: rest → peerStep p { s with sched := rest } = .next u →
      P { s with sched := rest } → P u)
    (he : Machine.step s = .next t) (h : P s) : P t :=
  (K.keeps.stepOwn ho.2.1
    (fun _ _ h => ⟨owned_hwReset h.1.1, K.congr (hwReset_cfg _) (hwReset_mem _) h.2⟩)
    (fun p rest u hc hu h => ⟨owned_peerStep hu h.1, hp p rest u hc hu h.2⟩) he ⟨ho, h⟩).2

/-- The disciplined peer stores safely or not at all. -/
theorem peer (K : KeptBySafeStores P) {p : PeerAct} {s t : State} (hw : s.cfg.wf = true) (hok : peerOk s p)
    (he : peerStep p s = .next t) (h : P s) : P t := by
  obtain ⟨hcfg, hmem | ⟨off, b, rfl, -, hmem⟩ | ⟨off, v, rfl, -, hmem⟩⟩ := peerStep_shm he
  · exact K.congr hcfg hmem h
  · exact K.congr (s := s.store8 off b) hcfg hmem (K.byte s off b (peerOk_write8_safe hw hok) h)
  · exact K.congr (s := s.store32 off v) hcfg hmem (K.word s off v (peerOk_write32_safe hw hok) h)

end KeptBySafeStores

/-! ### The region -/

theorem memInside_store8 {s : State} {off : Nat} (hoff : off < s.cfg.shmSize) (b : Byte) (h : s.memInside) :
    (s.store8 off b).memInside := by
  intro p hp
  rcases mem_memWrite hp with hp | hp
  · exact h p hp
  · exact hp ▸ hoff

theorem memInside_store32 {s : State} {off : Nat} (hoff : off + 4 ≤ s.cfg.shmSize) (v : Word) (h : s.memInside) :
    (s.store32 off v).memInside := by
  intro p hp
  rcases mem_memWriteBytes hp with hp | ⟨-, hp⟩
  · exact h p hp
  · exact lt_of_lt_of_le hp hoff

theorem memInside_kept : KeptBySafeStores State.memInside where
  congr := fun hcfg hmem h => by unfold State.memInside; rw [hcfg, hmem]; exact h
  byte := fun _ _ b hs => memInside_store8 hs.2 b
  word := fun _ _ v hs => memInside_store32 hs.inside v

/-- Whatever `PEER` stores, outside the region it has no step (20_memory.md R74). -/
theorem memInside_peerStep {p : PeerAct} {s t : State} (he : peerStep p s = .next t) (h : s.memInside) : t.memInside := by
  obtain ⟨hcfg, hmem | ⟨off, b, -, hoff, hmem⟩ | ⟨off, v, -, hoff, hmem⟩⟩ := peerStep_shm he
  · exact memInside_kept.congr hcfg hmem h
  · exact memInside_kept.congr (s := s.store8 off b) hcfg hmem (memInside_store8 hoff b h)
  · exact memInside_kept.congr (s := s.store32 off v) hcfg hmem (memInside_store32 hoff v h)

/-! ### The index words -/

/-- An aligned word after an aligned word store. -/
theorem load32_store32 {s : State} (hm : memWf s.mem = true) {off off' : Nat} (ha : off % 4 = 0) (ha' : off' % 4 = 0)
    (v : Word) : (s.store32 off v).load32 off' = if off = off' then v else s.load32 off' := by
  split_ifs with he
  · subst he; exact memRead32_memWrite32_same hm off v
  · exact memRead32_memWrite32_other hm v (by omega)

theorem indicesValid_store32 {s : State} (hm : memWf s.mem = true) {off : Nat} {v : Word} (hs : SafeWord s.cfg off v)
    (h : s.indicesValid) : (s.store32 off v).indicesValid := by
  intro r hc
  obtain ⟨haH, haT⟩ := ringOf_aligned s.cfg r
  obtain ⟨hH, hT⟩ := h r hc
  simp only [State.head, State.tail, store32_cfg, load32_store32 hm hs.aligned haH, load32_store32 hm hs.aligned haT]
  constructor
  · split_ifs with he
    · exact hs.valid r hc (.inl he)
    · exact hH
  · split_ifs with he
    · exact hs.valid r hc (.inr he)
    · exact hT

/-- A word in front of a safe byte reads as before. -/
theorem load32_store8 {s : State} (hm : memWf s.mem = true) {off off' : Nat} (h : off' + 4 ≤ off) (b : Byte) :
    (s.store8 off b).load32 off' = s.load32 off' :=
  memRead32_congr fun _ _ _ => memRead_memWrite_other hm (by omega) b

theorem indicesValid_store8 {s : State} (hm : memWf s.mem = true) {off : Nat} (hs : safeByte s.cfg off) (b : Byte)
    (h : s.indicesValid) : (s.store8 off b).indicesValid := by
  intro r hc
  have hr := ringOf_bounds (cfg := s.cfg) hc
  have hoff := hs.1
  simp only [State.head, State.tail, store8_cfg]
  rw [load32_store8 hm (by omega), load32_store8 hm (by omega)]
  exact h r hc

/-- Every index word is valid, in an SHM in canonical form. -/
def State.indicesSound (s : State) : Prop := memWf s.mem = true ∧ s.indicesValid

theorem indicesSound_kept : KeptBySafeStores State.indicesSound where
  congr := fun {s t} hcfg hmem h => by
    have hload : ∀ off, t.load32 off = s.load32 off := fun off => by unfold State.load32; rw [hmem]
    refine ⟨hmem ▸ h.1, fun r hc => ?_⟩
    simp only [State.head, State.tail, indexValid, hcfg, hload]
    exact h.2 r (hcfg ▸ hc)
  byte := fun _ off b hs h => ⟨memWf_memWrite h.1 off b, indicesValid_store8 h.1 hs b h.2⟩
  word := fun _ off v hs h => ⟨memWf_memWrite32 h.1 off v, indicesValid_store32 h.1 hs h.2⟩

/-- Settles O58: every store of an agent is safe, so is one of the disciplined peer, and no store of any peer is outside
the region. -/
theorem regionRespected : Obligations.RegionRespected := by
  intro s t ho hsane he
  obtain ⟨hw, hm, -, -⟩ := hsane
  refine ⟨memInside_kept.step ho (fun _ _ _ _ => memInside_peerStep) he, fun hpeer hidx => ?_⟩
  have hok : ∀ p rest u, s.sched = .peer p :: rest → peerStep p { s with sched := rest } = .next u →
      State.indicesSound { s with sched := rest } → u.indicesSound := fun p rest _ hc =>
    indicesSound_kept.peer hw (hpeer ho.2.1 p rest hc)
  exact (indicesSound_kept.step ho hok he ⟨hm, hidx⟩).2

end Sys2Proof.Machine
end

section
/-! SUPPORT. Decoding what the encoder gives (30_encoding.md R100 to R126): a received command word by the bits that matter in
it, a sent word by its markers and its one mask, a frame by the fields of its image; and the words of the opcode table by
the carrier they stand on. -/

namespace Sys2Proof

/-! ### Received status words (R110, R111, R114) -/

/-- Two words that agree under a mask agree under every part of it. -/
theorem and_eq_of_and_mask {v w m part : Half} (hp : m &&& part = part) (h : v &&& m = w &&& m) :
    v &&& part = w &&& part := by
  rw [← hp, ← BitVec.and_assoc, h, BitVec.and_assoc]

/-- Both markers make a command, whose code is under the code mask. -/
theorem decodeStatus_command {cfg : Cfg} {w : Half} (hv : w &&& cfg.stValid ≠ 0) (hc : w &&& cfg.stCmd ≠ 0) :
    decodeStatus cfg w = decodeCommand cfg (w &&& cfg.stCodeMask) := by
  rw [decodeStatus, if_neg hv, if_pos hc]

/-- The valid marker without the command marker makes a doorbell-mask word. -/
theorem decodeStatus_noncmd {cfg : Cfg} {w : Half} (hv : w &&& cfg.stValid ≠ 0) (hc : w &&& cfg.stCmd = 0) :
    decodeStatus cfg w = .dbNoncmd w := by
  rw [decodeStatus, if_neg hv, if_neg (not_not.2 hc)]

/-- A word without the valid marker is invalid, whatever else it has. -/
theorem decodeStatus_invalid {cfg : Cfg} {w : Half} (hv : w &&& cfg.stValid = 0) : decodeStatus cfg w = .dbInvalid w :=
  if_pos hv

/-- Settles O3: the markers and the code are parts of the mask under which the two words agree. -/
theorem statusReservedBits : Obligations.StatusReservedBits := by
  intro cfg w v hv hc h
  have hvalid : v &&& cfg.stValid = w &&& cfg.stValid :=
    and_eq_of_and_mask (by rw [BitVec.or_assoc, and_or_self]) h
  have hcmd : v &&& cfg.stCmd = w &&& cfg.stCmd :=
    and_eq_of_and_mask (by rw [BitVec.or_comm cfg.stValid, BitVec.or_assoc, and_or_self]) h
  have hcode : v &&& cfg.stCodeMask = w &&& cfg.stCodeMask :=
    and_eq_of_and_mask (by rw [BitVec.or_comm, and_or_self]) h
  simp only [decode, decodeStatus_command hv hc, decodeStatus_command (hvalid ▸ hv) (hcmd ▸ hc), hcode]

/-- The two markers are two bits (00_scope.md R8 (f)). -/
theorem Cfg.markers {cfg : Cfg} (hw : cfg.wf = true) :
    oneBit cfg.stValid = true ∧ oneBit cfg.stCmd = true ∧ cfg.stValid &&& cfg.stCmd = 0 := by
  obtain ⟨-, -, -, -, -, -, -, -, -, hvalid, hcmd, hne, -⟩ := (Cfg.wf_iff cfg).1 hw
  exact ⟨hvalid, hcmd, oneBit_and hvalid hcmd hne⟩

theorem intCmd_and_stValid (cfg : Cfg) (code : Half) : intCmd cfg code &&& cfg.stValid = cfg.stValid := by
  rw [intCmd, BitVec.or_assoc, and_or_self]

theorem intCmd_and_stCmd (cfg : Cfg) (code : Half) : intCmd cfg code &&& cfg.stCmd = cfg.stCmd := by
  rw [intCmd, BitVec.or_comm cfg.stValid, BitVec.or_assoc, and_or_self]

/-- The markers lie outside the code (00_scope.md R8 (f)). -/
theorem intCmd_and_stCodeMask {cfg : Cfg} (hw : cfg.wf = true) (code : Half) :
    intCmd cfg code &&& cfg.stCodeMask = code &&& cfg.stCodeMask := by
  obtain ⟨-, -, -, -, -, -, -, -, -, -, -, -, hvalid, hcmd, -, -⟩ := (Cfg.wf_iff cfg).1 hw
  rw [intCmd, BitVec.or_assoc, or_and_of_zero hvalid, or_and_of_zero hcmd]

/-- A command word is received as its own code. -/
theorem decodeStatus_intCmd {cfg : Cfg} (hw : cfg.wf = true) {code : Half} (hc : code &&& cfg.stCodeMask = code) :
    decodeStatus cfg (intCmd cfg code) = decodeCommand cfg code := by
  obtain ⟨hvalid, hcmd, -⟩ := Cfg.markers hw
  have hv : intCmd cfg code &&& cfg.stValid ≠ 0 := by rw [intCmd_and_stValid]; exact oneBit_ne_zero hvalid
  have hm : intCmd cfg code &&& cfg.stCmd ≠ 0 := by rw [intCmd_and_stCmd]; exact oneBit_ne_zero hcmd
  rw [decodeStatus_command hv hm, intCmd_and_stCodeMask hw, hc]

theorem decodeCommand_phoneStart (cfg : Cfg) : decodeCommand cfg cfg.codePhoneStart = .cmdPhoneStart := if_pos rfl

theorem decodeCommand_crashExit {cfg : Cfg} (hw : cfg.wf = true) :
    decodeCommand cfg cfg.codeCrashExit = .cmdCrashExit := by
  obtain ⟨-, -, -, -, hcodes, -⟩ := (Cfg.wf_iff cfg).1 hw
  have hne : cfg.codeCrashExit ≠ cfg.codePhoneStart := fun e => by simp [e] at hcodes
  rw [decodeCommand, if_neg hne, if_pos rfl]

theorem decodeCommand_other {cfg : Cfg} {code : Half} (hs : code ≠ cfg.codePhoneStart) (he : code ≠ cfg.codeCrashExit) :
    decodeCommand cfg code = .cmdOther code := by
  rw [decodeCommand, if_neg hs, if_neg he]

/-- The code of every named command fits the code field (00_scope.md R8 (d)). -/
theorem Cfg.code_and_mask {cfg : Cfg} (hw : cfg.wf = true) {k : Half}
    (hk : k ∈ [cfg.codePhoneStart, cfg.codeInitEnd, cfg.codeCrashExit]) : k &&& cfg.stCodeMask = k := by
  obtain ⟨-, -, -, -, -, hcodes, -⟩ := (Cfg.wf_iff cfg).1 hw
  exact hcodes k hk

/-! ### Sent status words (R113, R114) -/

/-- A mask is a bit apart from both markers. -/
theorem Cfg.marker_and_mask {cfg : Cfg} (hw : cfg.wf = true) {m : Half} (hm : m ∈ cfg.masks) :
    cfg.stValid &&& m = 0 ∧ m &&& cfg.stCmd = 0 := by
  obtain ⟨-, -, -, -, -, -, hbits, -, hmarks, -⟩ := (Cfg.wf_iff cfg).1 hw
  obtain ⟨hvalid, hcmd, -⟩ := Cfg.markers hw
  exact ⟨oneBit_and hvalid (hbits m hm) (hmarks m hm).1.symm, oneBit_and (hbits m hm) hcmd (hmarks m hm).2⟩

theorem Cfg.masks_nodup {cfg : Cfg} (hw : cfg.wf = true) : cfg.masks.Nodup := by
  obtain ⟨-, -, -, -, -, -, -, hnodup, -⟩ := (Cfg.wf_iff cfg).1 hw
  exact hnodup

/-- A mask belongs to one channel. -/
theorem Cfg.mask_channel_unique {cfg : Cfg} (hw : cfg.wf = true) {c c' : Nat} (hc : c < cfg.nCh) (hc' : c' < cfg.nCh)
    {m : Half} (hm : m ∈ (cfg.chan c).masks) (hm' : m ∈ (cfg.chan c').masks) : c = c' := by
  have hapart := List.pairwise_iff_getElem.1 (List.nodup_flatMap.1 (Cfg.masks_nodup hw)).2
  rw [Cfg.chan, List.getD_eq_getElem _ _ hc] at hm
  rw [Cfg.chan, List.getD_eq_getElem _ _ hc'] at hm'
  rcases Nat.lt_trichotomy c c' with h | h | h
  · exact (hapart c c' hc hc' h hm hm').elim
  · exact h
  · exact (hapart c' c hc' hc h hm' hm).elim

theorem ChanCfg.maskSend_mem (k : ChanCfg) : k.maskSend ∈ k.masks := by simp [ChanCfg.masks]

theorem ChanCfg.maskResAck_mem (k : ChanCfg) : k.maskResAck ∈ k.masks := by simp [ChanCfg.masks]

theorem Cfg.maskSend_ne_maskResAck {cfg : Cfg} (hw : cfg.wf = true) {c : Nat} (hc : c < cfg.nCh) :
    (cfg.chan c).maskSend ≠ (cfg.chan c).maskResAck := by
  have hone : (cfg.chan c).masks.Nodup := (List.nodup_flatMap.1 (Cfg.masks_nodup hw)).1 _ (Cfg.chan_mem hc)
  intro e
  simp [ChanCfg.masks, e] at hone

/-- A doorbell word tells its mask, and with it its channel. -/
theorem intNonCmd_inj {cfg : Cfg} (hw : cfg.wf = true) {c d : Nat} (hc : c < cfg.nCh) (hd : d < cfg.nCh) {m m' : Half}
    (hm : m ∈ (cfg.chan c).masks) (hm' : m' ∈ (cfg.chan d).masks) (h : intNonCmd cfg m = intNonCmd cfg m') :
    m = m' ∧ c = d := by
  obtain rfl : m = m' := or_right_cancel_of_disjoint (Cfg.marker_and_mask hw (Cfg.masks_mem hc hm)).1
    (Cfg.marker_and_mask hw (Cfg.masks_mem hd hm')).1 h
  exact ⟨rfl, Cfg.mask_channel_unique hw hc hd hm hm'⟩

/-- A doorbell word lacks the command marker, which every command word has. -/
theorem intNonCmd_ne_intCmd {cfg : Cfg} (hw : cfg.wf = true) {m : Half} (hm : m ∈ cfg.masks) (code : Half) :
    intNonCmd cfg m ≠ intCmd cfg code := by
  obtain ⟨-, hcmd, hdisjoint⟩ := Cfg.markers hw
  intro e
  have hzero : intNonCmd cfg m &&& cfg.stCmd = 0 := by
    rw [intNonCmd, or_and_of_zero hdisjoint, (Cfg.marker_and_mask hw hm).2]
  rw [e, intCmd_and_stCmd] at hzero
  exact oneBit_ne_zero hcmd hzero

theorem sendWord_inj {cfg : Cfg} (hw : cfg.wf = true) {c d : Nat} (hc : c < cfg.nCh) (hd : d < cfg.nCh)
    (h : sendWord cfg c = sendWord cfg d) : c = d :=
  (intNonCmd_inj hw hc hd (ChanCfg.maskSend_mem _) (ChanCfg.maskSend_mem _) h).2

theorem resAckWord_inj {cfg : Cfg} (hw : cfg.wf = true) {c d : Nat} (hc : c < cfg.nCh) (hd : d < cfg.nCh)
    (h : resAckWord cfg c = resAckWord cfg d) : c = d :=
  (intNonCmd_inj hw hc hd (ChanCfg.maskResAck_mem _) (ChanCfg.maskResAck_mem _) h).2

/-- No word acknowledges for one channel and sends for the same or another. -/
theorem sendWord_ne_resAckWord {cfg : Cfg} (hw : cfg.wf = true) {c d : Nat} (hc : c < cfg.nCh) (hd : d < cfg.nCh) :
    sendWord cfg c ≠ resAckWord cfg d := by
  intro h
  obtain ⟨hm, rfl⟩ := intNonCmd_inj hw hc hd (ChanCfg.maskSend_mem _) (ChanCfg.maskResAck_mem _) h
  exact Cfg.maskSend_ne_maskResAck hw hc hm

theorem sendWord_ne_initEndWord {cfg : Cfg} (hw : cfg.wf = true) {c : Nat} (hc : c < cfg.nCh) :
    sendWord cfg c ≠ initEndWord cfg :=
  intNonCmd_ne_intCmd hw (Cfg.masks_mem hc (ChanCfg.maskSend_mem _)) _

theorem resAckWord_ne_initEndWord {cfg : Cfg} (hw : cfg.wf = true) {c : Nat} (hc : c < cfg.nCh) :
    resAckWord cfg c ≠ initEndWord cfg :=
  intNonCmd_ne_intCmd hw (Cfg.masks_mem hc (ChanCfg.maskResAck_mem _)) _

/-- A search below `n` for a word that only index `c` has finds `c`. -/
theorem find?_range_word {word : Nat → Half} {n c : Nat} (hc : c < n)
    (hinj : ∀ d, d < n → word c = word d → c = d) : (List.range n).find? (fun d => word c == word d) = some c := by
  refine List.find?_range_eq_some.2 ⟨beq_self_eq_true _, List.mem_range.2 hc, fun d hd => ?_⟩
  have hne : word c ≠ word d := fun h => by have := hinj d (by omega) h; omega
  simpa using hne

theorem decodeSent_initEndWord (cfg : Cfg) : decodeSent cfg (initEndWord cfg) = .instr .cmdInitEnd := if_pos rfl

theorem decodeSent_sendWord {cfg : Cfg} (hw : cfg.wf = true) {c : Nat} (hc : c < cfg.nCh) :
    decodeSent cfg (sendWord cfg c) = .instr (.dbSend c) := by
  have hsend := find?_range_word hc fun _ hd => sendWord_inj hw hc hd
  rw [decodeSent, if_neg (sendWord_ne_initEndWord hw hc), hsend]

theorem decodeSent_resAckWord {cfg : Cfg} (hw : cfg.wf = true) {c : Nat} (hc : c < cfg.nCh) :
    decodeSent cfg (resAckWord cfg c) = .instr (.dbResAck c) := by
  have hsend : (List.range cfg.nCh).find? (fun d => resAckWord cfg c == sendWord cfg d) = none :=
    List.find?_eq_none.2 fun d hd h => sendWord_ne_resAckWord hw (List.mem_range.1 hd) hc (eq_of_beq h).symm
  have hack := find?_range_word hc fun _ hd => resAckWord_inj hw hc hd
  rw [decodeSent, if_neg (resAckWord_ne_initEndWord hw hc), hsend, hack]

/-! ### Frames (R116, R165) -/

/-- A transmitted image is the image of the fields read from it. -/
theorem decodeTxFrame_frameImage (cfg : Cfg) (c : Nat) (chid cseq : Byte) (fseq : Half) {payload : List Byte}
    (h : lenFits payload.length = true) :
    decodeTxFrame cfg c (frameImage cfg chid cseq fseq payload) = .instr (.frameTx c chid cseq fseq payload) := by
  have hlen : (sentHeader cfg chid cseq fseq payload.length).totalLen.toNat - headerSize = payload.length := by
    rw [sentHeader_totalLen h, Nat.add_sub_cancel_left]
  rw [decodeTxFrame, frameImage_take, decodeHeader_encodeHeader cfg chid cseq fseq h]
  simp only [hlen, frameImage_payload]
  exact if_pos rfl

theorem decodeRxFrame_headerBytes {cfg : Cfg} (c : Nat) {d : Header} (hm : d.startMagic = cfg.startMagic)
    (hl : headerSize ≤ d.totalLen.toNat) : decodeRxFrame cfg c (headerBytes d) = .instr (.frameRx c d) := by
  have hd : decodeHeader cfg ((headerBytes d).take headerSize) = .ok d := by
    rw [List.take_of_length_le (by simp), decodeHeader_headerBytes, if_neg (not_not.2 hm), if_neg (by omega)]
  rw [decodeRxFrame, hd]

/-! ### The round trip -/

/-- Settles O2: the fourteen operations with a pattern, each by the lemma of its carrier; the others have no pattern. -/
theorem decodeEncodeAgree : Obligations.DecodeEncodeAgree := by
  intro cfg i f hw hi he
  cases i with
  | ldStatus | ldStart | chSend _ _ _ | ldSave => cases he; rfl
  | cmdPhoneStart =>
    cases he
    exact congrArg _ ((decodeStatus_intCmd hw (Cfg.code_and_mask hw (by simp))).trans (decodeCommand_phoneStart cfg))
  | cmdCrashExit =>
    cases he
    exact congrArg _ ((decodeStatus_intCmd hw (Cfg.code_and_mask hw (by simp))).trans (decodeCommand_crashExit hw))
  | cmdOther code =>
    cases he
    simp only [Instr.wf, Bool.and_eq_true, beq_iff_eq, bne_iff_ne] at hi
    obtain ⟨⟨hmask, hstart⟩, hexit⟩ := hi
    exact congrArg _ ((decodeStatus_intCmd hw hmask).trans (decodeCommand_other hstart hexit))
  | dbNoncmd w =>
    cases he
    simp only [Instr.wf, Bool.and_eq_true, beq_iff_eq, bne_iff_ne] at hi
    exact congrArg _ (decodeStatus_noncmd hi.1 hi.2)
  | dbInvalid w =>
    cases he
    exact congrArg _ (decodeStatus_invalid (by simpa [Instr.wf] using hi))
  | cmdInitEnd =>
    cases he
    exact decodeSent_initEndWord cfg
  | dbSend c =>
    cases he
    exact decodeSent_sendWord hw (by simpa [Instr.wf] using hi)
  | dbResAck c =>
    cases he
    exact decodeSent_resAckWord hw (by simpa [Instr.wf] using hi)
  | frameTx c chid cseq fseq payload =>
    cases he
    simp only [Instr.wf, Bool.and_eq_true] at hi
    exact decodeTxFrame_frameImage cfg c chid cseq fseq hi.2
  | frameRx c d =>
    cases he
    simp only [Instr.wf, Bool.and_eq_true, beq_iff_eq, decide_eq_true_eq] at hi
    obtain ⟨⟨-, hmagic⟩, hlen⟩ := hi
    exact decodeRxFrame_headerBytes c hmagic hlen
  | ldOnDoorbell | rqSpace _ | rqAvail _ | rqWrite _ _ | rqRead _ _ | rqPeek _ _ _ | rqInit _ | fhPad _ | fhFrameSize _
  | fhEncode _ _ _ _ | fhTailBytes _ _ | fhDecode _ | chInit _ | chRecvPending _ | chAckReq _ _ | chResAck _ _ | ldWork
  | ldCheckReady | ldCrash _ _ | dwStep => cases he

/-! ### The words of the opcode table (R126, log 11) -/

/-- A word of at most one byte below 16 is an opcode of the REQ port. -/
theorem decodeTableWord_request {w : Nat} {i : Instr} (hw : w < 16)
    (h : decodeRequest ⟨BitVec.ofNat 4 w, 0, 0, []⟩ = .instr i) : decodeTableWord 8 w = some i := by
  have hf : tableFetch Cfg.ref 8 w = .req ⟨BitVec.ofNat 4 w, 0, 0, []⟩ := if_pos ⟨by decide, hw⟩
  simp only [decodeTableWord, hf, decode, h]

/-- A reserved opcode is no operation. -/
theorem decodeTableWord_reserved {w : Nat} {e : DecodeError} (hw : w < 16)
    (h : decodeRequest ⟨BitVec.ofNat 4 w, 0, 0, []⟩ = .reject e) : decodeTableWord 8 w = none := by
  have hf : tableFetch Cfg.ref 8 w = .req ⟨BitVec.ofNat 4 w, 0, 0, []⟩ := if_pos ⟨by decide, hw⟩
  simp only [decodeTableWord, hf, decode, h]

/-- A 16-bit word that the engine sends is the operation that sends it. -/
theorem decodeTableWord_sent {w : Nat} {i : Instr} (h : decodeSent Cfg.ref (BitVec.ofNat 16 w) = .instr i) :
    decodeTableWord 16 w = some i := by
  have hf : tableFetch Cfg.ref 16 w = .mbxOut (BitVec.ofNat 16 w) := by simp [tableFetch, h]
  simp only [decodeTableWord, hf, decode, h]

/-- A 16-bit word that the engine never sends is received. -/
theorem decodeTableWord_received {w : Nat} {e : DecodeError} (h : decodeSent Cfg.ref (BitVec.ofNat 16 w) = .reject e) :
    decodeTableWord 16 w = some (decodeStatus Cfg.ref (BitVec.ofNat 16 w)) := by
  have hf : tableFetch Cfg.ref 16 w = .mbxIn (BitVec.ofNat 16 w) := by simp [tableFetch, h]
  simp only [decodeTableWord, hf, decode]

/-- Settles O1: each word by its carrier. -/
theorem tableWordsDecode : Obligations.TableWordsDecode :=
  ⟨decodeTableWord_request (by decide) rfl, decodeTableWord_request (by decide) rfl,
    decodeTableWord_request (by decide) rfl, decodeTableWord_request (by decide) rfl,
    decodeTableWord_reserved (by decide) rfl,
    decodeTableWord_received rfl, decodeTableWord_received rfl, decodeTableWord_sent rfl, decodeTableWord_received rfl,
    decodeTableWord_received rfl, decodeTableWord_received rfl, decodeTableWord_sent rfl, decodeTableWord_sent rfl⟩

end Sys2Proof
end

section
/-! SUPPORT. The doorbells the engine sends (60_exceptions.md R282): one rule for the barrier and the word behind it. -/

namespace Sys2Proof.Machine

/-- The barrier and the doorbell behind it. -/
theorem Runs.doorbell {a : Agent} {s : State} (ha : agentLive s a = true) (w : Half) (acc : Value) (k : List Line) :
    Runs a 2 ⟨s, acc, .fence :: .doorbell w :: k⟩ ⟨doorbellOut s w, acc, k⟩ :=
  Runs.head (lineReady_of_live ha rfl) (Runs.line (lineReady_of_live ha rfl) acc k)

/-- A free agent sends a word and is done. -/
theorem invoke_doorbell {a : Agent} {s : State} (h : s.free a = true) (w : Half) :
    invoke a 2 [.fence, .doorbell w] s = (doorbellOut s w).done a .unit :=
  invoke_of_runs h (Runs.doorbell ((free_iff s a).1 h).1 w .unit []) (Nat.le_refl 2)

theorem exec_dbSend {c : Nat} {s : State} (hc : c < s.cfg.nCh) :
    exec (.dbSend c) s = .next (invoke .call 2 [.fence, .doorbell (sendWord s.cfg c)] s) := if_neg (Nat.not_le.2 hc)

theorem exec_dbResAck {c : Nat} {s : State} (hc : c < s.cfg.nCh) :
    exec (.dbResAck c) s = .next (invoke .lw 2 [.fence, .doorbell (resAckWord s.cfg c)] s) := if_neg (Nat.not_le.2 hc)

theorem exec_cmdInitEnd (s : State) :
    exec .cmdInitEnd s = .next (invoke .lw 2 [.fence, .doorbell (initEndWord s.cfg)] s) := rfl

/-- Settles O30: each of the three is a barrier and a doorbell, by an agent that is free. -/
theorem sentDoorbells : Obligations.SentDoorbells := by
  intro s
  refine ⟨fun c hc hf => ?_, fun c hc hf => ?_, fun hf => ?_⟩
  · rw [exec_dbSend hc, invoke_doorbell hf]; rfl
  · rw [exec_dbResAck hc, invoke_doorbell hf]; rfl
  · rw [exec_cmdInitEnd, invoke_doorbell hf]; rfl

end Sys2Proof.Machine
end

section
/-! SUPPORT. The ring queue (40_ring_queue.md): the laws of index arithmetic without a case for the wrap; each primitive run
alone, as the contract it is taken under and the run of its lines; and what a write, a read and a peek mean for the unread
bytes of their ring. -/

namespace Sys2Proof.Machine

/-! ### Index arithmetic (R141, R149) -/

/-- `space` and `avail` share what a ring can hold, one byte less than its capacity (R149 (b)). -/
theorem spaceOf_add_availOf {cap : Nat} (hc : 0 < cap) (h t : Nat) : spaceOf cap h t + availOf cap h t = cap - 1 := by
  have hb := availOf_bounds hc h t
  have hdiv := Int.mul_ediv_add_emod ((h : Int) - t) cap
  have hs : spaceOf cap h t = cap - 1 - availOf cap h t := by
    have e : (t : Int) - h - 1 = cap - 1 - availOf cap h t + cap * (-(((h : Int) - t) / cap) - 1) := by
      unfold availOf; linarith
    rw [spaceOf, e, Int.add_mul_emod_self_left, Int.emod_eq_of_lt (by omega) (by omega)]
  omega

/-- Advancing both indices alike leaves `avail` as it was, wrapped or not. -/
theorem availOf_advance_both (cap h t k : Nat) : availOf cap ((h + k) % cap) ((t + k) % cap) = availOf cap h t := by
  unfold availOf
  push_cast
  rw [← Int.sub_emod, add_sub_add_right_eq_sub]

/-- Advancing the head by what fits makes that many bytes available. -/
theorem availOf_advance_head {cap : Nat} (hc : 0 < cap) {h t k : Nat} (hk : availOf cap h t + k < cap) :
    availOf cap ((h + k) % cap) t = availOf cap h t + k := by
  have hb := availOf_bounds hc h t
  unfold availOf at *
  push_cast
  rw [Int.emod_sub_emod, add_sub_right_comm, ← Int.emod_add_emod, Int.emod_eq_of_lt (by omega) hk]

/-- Advancing the tail over available bytes takes them off what is available (R149 (e)). -/
theorem availOf_advance_tail {cap : Nat} (hc : 0 < cap) {h t k : Nat} (hk : (k : Int) ≤ availOf cap h t) :
    availOf cap h ((t + k) % cap) = availOf cap h t - k := by
  have hb := availOf_bounds hc h t
  unfold availOf at *
  push_cast
  rw [Int.sub_emod_emod, sub_add_eq_sub_sub, ← Int.emod_sub_emod, Int.emod_eq_of_lt (by omega) (by omega)]

/-- Settles O10: the laws of `avail`, and those of `space` by what the two add up to. -/
theorem ringIndexLaws : Obligations.RingIndexLaws := by
  intro cap h t k hh ht hcap
  have hc : 0 < cap := by omega
  have hs := spaceOf_bounds hc h t
  have ha := availOf_bounds hc h t
  have hsum := spaceOf_add_availOf hc h t
  rw [advance_toNat hc hcap, advance_toNat hc hcap]
  refine ⟨hs.1, by omega, ha.1, by omega, hsum, fun hk => ?_, availOf_advance_tail hc⟩
  have hboth := availOf_advance_both cap h t k
  have hhead : availOf cap ((h + k) % cap) t = availOf cap h t + k := availOf_advance_head hc (by omega)
  have hsum_both := spaceOf_add_availOf hc ((h + k) % cap) ((t + k) % cap)
  have hsum_head := spaceOf_add_availOf hc ((h + k) % cap) t
  exact ⟨by omega, hhead, by omega⟩

/-! ### The primitives run alone: the agent, the contract, the lines -/

/-- A primitive run alone that meets a corrupt index raises and hands back nothing (R142; log 13). -/
theorem ringCorruptExit_ringAgent (r : RingId) (s : State) :
    ringCorruptExit (ringAgent r) r [] s = ⟨raise s (.ringCorrupt r), .unit, []⟩ := by
  obtain ⟨d, c⟩ := r
  cases d <;> rfl

/-- What `writeContract` says (R145, R150). -/
theorem writeContract_iff (s : State) (r : RingId) (len : Nat) :
    writeContract s r len = true ↔
      len = 0 ∨ len < s.cfg.capOf r ∧ (s.cfg.capOf r ≤ (s.head r).toNat ∨ (len : Int) ≤ s.space r) := by
  simp [writeContract, indexCorrupt]

/-- What `readContract` says (R146, R147, R150). -/
theorem readContract_iff (s : State) (r : RingId) (len : Nat) :
    readContract s r len = true ↔
      len < s.cfg.capOf r ∧ (s.cfg.capOf r ≤ (s.tail r).toNat ∨ (len : Int) ≤ s.avail r) := by
  simp [readContract, indexCorrupt]

/-- A write that fits the space is within its contract. -/
theorem writeContract_of_space {s : State} {r : RingId} (hcap : 0 < s.cfg.capOf r) {len : Nat}
    (h : (len : Int) ≤ s.space r) : writeContract s r len = true := by
  obtain ⟨_, _, _, hlt⟩ := space_valid hcap (by omega : 0 ≤ s.space r)
  exact (writeContract_iff s r len).2 (.inr ⟨by omega, .inr h⟩)

/-- An access to what is available is within its contract. -/
theorem readContract_of_avail {s : State} {r : RingId} (hcap : 0 < s.cfg.capOf r) {len : Nat}
    (h : (len : Int) ≤ s.avail r) : readContract s r len = true := by
  obtain ⟨_, _, _, hlt⟩ := avail_valid hcap (by omega : 0 ≤ s.avail r)
  exact (readContract_iff s r len).2 ⟨by omega, .inr h⟩

/-- A write of the capacity or more, or beyond the space of a ring whose head is valid, is outside the contract. -/
theorem writeContract_misuse {s : State} {r : RingId} {len : Nat} (h0 : len ≠ 0)
    (h : s.cfg.capOf r ≤ len ∨ ((s.head r).toNat < s.cfg.capOf r ∧ s.space r < (len : Int))) :
    ¬ writeContract s r len = true := by
  rw [writeContract_iff]; omega

/-- An access of the capacity or more, or beyond what is available in a ring whose tail is valid, is outside the
contract. -/
theorem readContract_misuse {s : State} {r : RingId} {len : Nat}
    (h : s.cfg.capOf r ≤ len ∨ ((s.tail r).toNat < s.cfg.capOf r ∧ s.avail r < (len : Int))) :
    ¬ readContract s r len = true := by
  rw [readContract_iff]; omega

section
variable {s : State} {r : RingId} (hc : r.c < s.cfg.nCh)
include hc

theorem exec_rqSpace : exec (.rqSpace r) s = .next (invoke (ringAgent r) 2 [.spaceHead r] s) := if_neg (Nat.not_le.2 hc)

theorem exec_rqAvail : exec (.rqAvail r) s = .next (invoke (ringAgent r) 2 [.availHead r] s) := if_neg (Nat.not_le.2 hc)

theorem exec_rqWrite {src : List Byte} (h : writeContract s r src.length = true) :
    exec (.rqWrite r src) s = .next (invoke (ringAgent r) (src.length + 3) [.rqWrite r src] s) :=
  (if_neg (Nat.not_le.2 hc)).trans (if_pos h)

theorem exec_rqWrite_refused {src : List Byte} (h : ¬ writeContract s r src.length = true) :
    exec (.rqWrite r src) s = .refused (.outsideContract "RQ.WRITE") :=
  (if_neg (Nat.not_le.2 hc)).trans (if_neg h)

theorem exec_rqRead {len : Nat} (h : len = 0 ∨ readContract s r len = true) :
    exec (.rqRead r len) s = .next (invoke (ringAgent r) (len + 3) [.rqRead r len] s) :=
  (if_neg (Nat.not_le.2 hc)).trans (if_pos (by simpa using h))

theorem exec_rqRead_refused {len : Nat} (h0 : len ≠ 0) (h : ¬ readContract s r len = true) :
    exec (.rqRead r len) s = .refused (.outsideContract "RQ.READ") :=
  (if_neg (Nat.not_le.2 hc)).trans (if_neg (by simpa [h0] using h))

theorem exec_rqPeek {off len : Nat} (h : readContract s r (off + len) = true) :
    exec (.rqPeek r off len) s = .next (invoke (ringAgent r) (len + 2) [.rqPeek r off len] s) :=
  (if_neg (Nat.not_le.2 hc)).trans (if_pos h)

theorem exec_rqPeek_refused {off len : Nat} (h : ¬ readContract s r (off + len) = true) :
    exec (.rqPeek r off len) s = .refused (.outsideContract "RQ.PEEK") :=
  (if_neg (Nat.not_le.2 hc)).trans (if_neg h)

theorem exec_rqInit : exec (.rqInit r) s = .next (invoke .lw 2 (rqInitLines s.cfg r) s) := if_neg (Nat.not_le.2 hc)

end

theorem exec_chInit {s : State} {c : Nat} (hc : c < s.cfg.nCh) :
    exec (.chInit c) s = .next (invoke .lw 4 (chInitLines s.cfg c) s) := if_neg (Nat.not_le.2 hc)

theorem exec_frameTx_refused {s : State} {c : Nat} {payload : List Byte} (hc : c < s.cfg.nCh)
    (hl : 12 + payload.length ≤ 65535) (h : ¬ writeContract s (txRing c) (needOf payload.length) = true)
    (chid cseq : Byte) (fseq : Half) :
    exec (.frameTx c chid cseq fseq payload) s = .refused (.outsideContract "FRAME.TX") := by
  have hfits : ¬ (!lenFits payload.length) = true := by simp [lenFits, headerSize, hl]
  exact (if_neg (Nat.not_le.2 hc)).trans ((if_neg hfits).trans (if_neg h))

/-- Settles O19: each contract fails. -/
theorem misuseRefused : Obligations.MisuseRefused := by
  intro s r _ hc
  refine ⟨fun src hs h => ?_, fun len h0 h => ?_, fun off len h => ?_, fun c chid cseq fseq payload hc' hl => ?_⟩
  · exact exec_rqWrite_refused hc (writeContract_misuse (by simpa using hs) h)
  · exact exec_rqRead_refused hc h0 (readContract_misuse h)
  · exact exec_rqPeek_refused hc (readContract_misuse h)
  · intro need h
    have h0 : needOf payload.length ≠ 0 := by unfold needOf headerSize; omega
    exact exec_frameTx_refused hc' hl (writeContract_misuse h0 h) chid cseq fseq

/-! ### The answers (R143, R144) -/

theorem exec_rqSpace_free {s : State} {r : RingId} (hc : r.c < s.cfg.nCh) (hf : s.free (ringAgent r) = true) :
    exec (.rqSpace r) s = .next (s.done (ringAgent r) (.int (s.space r))) := by
  rw [exec_rqSpace hc, (RunsIn.space (live_of_free hf) r .unit []).invoke hf (Nat.le_refl 2)]

theorem exec_rqAvail_free {s : State} {r : RingId} (hc : r.c < s.cfg.nCh) (hf : s.free (ringAgent r) = true) :
    exec (.rqAvail r) s = .next (s.done (ringAgent r) (.int (s.avail r))) := by
  rw [exec_rqAvail hc, (RunsIn.avail (live_of_free hf) r .unit []).invoke hf (Nat.le_refl 2)]

/-- Settles O11: the answer is `State.space`, which is `CORRUPT` for a corrupt index and a remainder for two valid ones. -/
theorem spaceAnswer : Obligations.SpaceAnswer := by
  intro s r hw hc hf
  obtain ⟨_, hcap, _⟩ := Cfg.capOf_ok hw hc
  rw [exec_rqSpace_free hc hf]
  refine ⟨fun h => ?_, fun hh ht => ?_⟩
  · have e : s.space r = -1 := (spaceResult_corrupt_iff (by omega) _ _).2 h
    rw [e]
  · have e : s.space r = spaceOf (s.cfg.capOf r) (s.head r).toNat (s.tail r).toNat := spaceResult_valid hh ht
    obtain ⟨hlo, hhi⟩ := spaceOf_bounds (show 0 < s.cfg.capOf r by omega) (s.head r).toNat (s.tail r).toNat
    exact ⟨_, _, by rw [e], hlo, hhi, (Int.ediv_mul_add_emod _ _).symm⟩

/-- Settles O12: the answer is `State.avail`, which is `CORRUPT` for a corrupt index and a remainder for two valid ones. -/
theorem availAnswer : Obligations.AvailAnswer := by
  intro s r hw hc hf
  obtain ⟨_, hcap, _⟩ := Cfg.capOf_ok hw hc
  rw [exec_rqAvail_free hc hf]
  refine ⟨fun h => ?_, fun hh ht => ?_⟩
  · have e : s.avail r = -1 := (availResult_corrupt_iff (by omega) _ _).2 h
    rw [e]
  · have e : s.avail r = availOf (s.cfg.capOf r) (s.head r).toNat (s.tail r).toNat := availResult_valid hh ht
    obtain ⟨hlo, hhi⟩ := availOf_bounds (show 0 < s.cfg.capOf r by omega) (s.head r).toNat (s.tail r).toNat
    exact ⟨_, _, by rw [e], hlo, hhi, (Int.ediv_mul_add_emod _ _).symm⟩

/-! ### A corrupt index (R142) -/

/-- A primitive whose lines come to the raise leaves what `raise` leaves. -/
theorem invoke_ringCorrupt {s : State} {r : RingId} (hf : s.free (ringAgent r) = true) {prog : List Line}
    (hr : RunsIn (ringAgent r) 2 ⟨s, .unit, prog⟩ (ringCorruptExit (ringAgent r) r [] s)) {fuel : Nat} (hn : 2 ≤ fuel) :
    invoke (ringAgent r) fuel prog s = (raise s (.ringCorrupt r)).done (ringAgent r) .unit := by
  rw [ringCorruptExit_ringAgent] at hr
  exact hr.invoke hf hn

/-- Settles O18: a length below the capacity with a corrupt index is within the contract, and the lines come to the
raise. -/
theorem corruptIndexRaises : Obligations.CorruptIndexRaises := by
  intro s r _ hc hf
  have ha := live_of_free hf
  rw [← raise_ringCorrupt]
  refine ⟨fun src hs hl hh => ?_, fun len h0 hl ht => ?_, fun off len hl ht => ?_⟩
  · rw [exec_rqWrite hc ((writeContract_iff _ _ _).2 (.inr ⟨hl, .inl hh⟩)),
      invoke_ringCorrupt hf (RunsIn.rqWriteCorrupt ha hs hl hh .unit []) (by omega)]
  · rw [exec_rqRead hc (.inr ((readContract_iff _ _ _).2 ⟨hl, .inl ht⟩)),
      invoke_ringCorrupt hf (RunsIn.rqReadCorrupt ha h0 hl ht .unit []) (by omega)]
  · rw [exec_rqPeek hc ((readContract_iff _ _ _).2 ⟨hl, .inl ht⟩),
      invoke_ringCorrupt hf (RunsIn.rqPeekCorrupt ha hl ht .unit []) (by omega)]

/-! ### Initialisation (R148; 42_channel.md R181) -/

/-- SHM after `RQ.INIT(r)`: both index words are 0. -/
def initRingMem (g : Ring) (m : List Host.Cell) : List Host.Cell := memWrite32 (memWrite32 m g.offH 0) g.offT 0

/-- `RQ.INIT` inside an operation. -/
theorem RunsIn.rqInit {a : Agent} {s : State} (ha : agentLive s a = true) (r : RingId) (acc : Value) (k : List Line) :
    RunsIn a 2 ⟨s, acc, rqInitLines s.cfg r ++ k⟩ ⟨{ s with mem := initRingMem (ringOf s.cfg r) s.mem }, acc, k⟩ :=
  (RunsIn.store32 ha _ 0 acc _).trans (RunsIn.store32 (by simpa using ha) _ 0 acc k)

/-- What `RQ.INIT` leaves of SHM. -/
theorem initRingMem_spec {m : List Host.Cell} (hm : memWf m = true) (cfg : Cfg) (r : RingId) :
    memWf (initRingMem (ringOf cfg r) m) = true
    ∧ memRead32 (initRingMem (ringOf cfg r) m) (ringOf cfg r).offH = 0
    ∧ memRead32 (initRingMem (ringOf cfg r) m) (ringOf cfg r).offT = 0
    ∧ ∀ a, ¬ inWord (ringOf cfg r).offH a → ¬ inWord (ringOf cfg r).offT a →
        memRead (initRingMem (ringOf cfg r) m) a = memRead m a := by
  have hm1 := memWf_memWrite32 hm (ringOf cfg r).offH 0
  have hnext : (ringOf cfg r).offH + 4 = (ringOf cfg r).offT := by
    unfold ringOf
    cases r.dir <;> simp only [offTxh, offTxt, offRxh, offRxt] <;> omega
  unfold initRingMem
  refine ⟨memWf_memWrite32 hm1 _ _, ?_, memRead32_memWrite32_same hm1 _ _, fun a h1 h2 => ?_⟩
  · rw [memRead32_memWrite32_other hm1 _ (by omega), memRead32_memWrite32_same hm]
  · unfold inWord at h1 h2
    rw [memRead_memWrite32_outside hm1 _ (by omega), memRead_memWrite32_outside hm _ (by omega)]

/-- After `CH.INIT` every word among the channel's four is 0. -/
theorem memRead32_initChannelMem {m : List Host.Cell} (hm : memWf m = true) {c off : Nat} (h1 : offTxh c ≤ off)
    (h2 : off + 4 ≤ offTxh c + 16) : memRead32 (initChannelMem m c) off = 0 := by
  have hz : ∀ k, k < 4 → memRead (initChannelMem m c) (off + k) = 0 := fun k hk => by
    rw [memRead_initChannelMem hm, if_pos (by omega)]
  rw [memRead32, hz 3 (by omega), hz 2 (by omega), hz 1 (by omega),
    show memRead (initChannelMem m c) off = 0 from hz 0 (by omega)]
  rfl

/-- `CH.INIT` leaves every byte outside the channel's four words alone. -/
theorem memRead_initChannelMem_outside {m : List Host.Cell} (hm : memWf m = true) {c a : Nat} (h1 : ¬ inWord (offTxh c) a)
    (h2 : ¬ inWord (offTxt c) a) (h3 : ¬ inWord (offRxh c) a) (h4 : ¬ inWord (offRxt c) a) :
    memRead (initChannelMem m c) a = memRead m a := by
  unfold inWord offTxh at h1
  unfold inWord offTxt at h2
  unfold inWord offRxh at h3
  unfold inWord offRxt at h4
  rw [memRead_initChannelMem hm, if_neg (by unfold offTxh; omega)]

/-- Settles O17: two word stores for a ring, four for a channel. -/
theorem initZeroesIndices : Obligations.InitZeroesIndices := by
  intro s ⟨_, hm, _, _⟩ hf
  have ha := live_of_free hf
  refine ⟨fun r hc => ⟨initRingMem (ringOf s.cfg r) s.mem, ?_, initRingMem_spec hm s.cfg r⟩,
    fun c hc => ⟨initChannelMem s.mem c, ?_, memWf_initChannelMem hm c, ?_, ?_, ?_, ?_,
      fun a => memRead_initChannelMem_outside hm⟩⟩
  · rw [exec_rqInit hc, ← List.append_nil (rqInitLines s.cfg r),
      (RunsIn.rqInit ha r .unit []).invoke hf (Nat.le_refl 2)]
  · rw [exec_chInit hc, ← List.append_nil (chInitLines s.cfg c),
      (RunsIn.chInit ha c .unit []).invoke hf (Nat.le_refl 4)]
  · exact memRead32_initChannelMem hm (Nat.le_refl _) (by omega)
  · exact memRead32_initChannelMem hm (by unfold offTxh offTxt; omega) (by unfold offTxh offTxt; omega)
  · exact memRead32_initChannelMem hm (by unfold offTxh offRxh; omega) (by unfold offTxh offRxh; omega)
  · exact memRead32_initChannelMem hm (by unfold offTxh offRxt; omega) (by unfold offTxh offRxt; omega)

/-! ### Rings and phases -/

/-- Completing an operation leaves every ring as it was. -/
@[simp] theorem done_head (s : State) (a : Agent) (v : Value) (r : RingId) : (s.done a v).head r = s.head r := by
  simp [State.head, State.load32]

@[simp] theorem done_tail (s : State) (a : Agent) (v : Value) (r : RingId) : (s.done a v).tail r = s.tail r := by
  simp [State.tail, State.load32]

@[simp] theorem done_avail (s : State) (a : Agent) (v : Value) (r : RingId) : (s.done a v).avail r = s.avail r := by
  simp [State.avail]

@[simp] theorem done_space (s : State) (a : Agent) (v : Value) (r : RingId) : (s.done a v).space r = s.space r := by
  simp [State.space]

@[simp] theorem done_ringBytes (s : State) (a : Agent) (v : Value) (r : RingId) (i len : Nat) :
    (s.done a v).ringBytes r i len = s.ringBytes r i len := by
  simp [State.ringBytes, State.load8]

/-! ### RQ.WRITE (R145) -/

theorem exec_rqWrite_nil {s : State} {r : RingId} (hw : s.cfg.wf = true) (hc : r.c < s.cfg.nCh)
    (hf : s.free (ringAgent r) = true) : exec (.rqWrite r []) s = .next (s.done (ringAgent r) .unit) := by
  obtain ⟨_, hcap, _⟩ := Cfg.capOf_ok hw hc
  have hready : lineReady (ringAgent r) (.rqWrite r []) s = true :=
    lineReady_of_live (live_of_free hf) (by simp only [lineEnabled, List.length_nil, decide_eq_true_eq]; omega)
  rw [exec_rqWrite hc ((writeContract_iff _ _ _).2 (.inl rfl)),
    (Runs.line hready .unit []).runsIn.invoke hf (show 1 ≤ [].length + 3 by simp)]

/-- A write that fits the space leaves `State.pushed`. -/
theorem exec_rqWrite_free {s : State} {r : RingId} {src : List Byte} (hw : s.cfg.wf = true) (hc : r.c < s.cfg.nCh)
    (hf : s.free (ringAgent r) = true) (hl : (src.length : Int) ≤ s.space r) :
    exec (.rqWrite r src) s = .next ((s.pushed r src).done (ringAgent r) .unit) := by
  obtain ⟨_, hcap, _⟩ := Cfg.capOf_ok hw hc
  obtain ⟨hh, _, _, hlt⟩ := space_valid (by omega) (by omega : 0 ≤ s.space r)
  rw [exec_rqWrite hc (writeContract_of_space (by omega) hl),
    (RunsIn.rqWrite (live_of_free hf) (by omega) hh .unit []).invoke hf (Nat.le_refl _)]

/-- What `RQ.WRITE` leaves of SHM is `State.appended`. -/
theorem appended_pushed {s : State} (hs : s.sane) {r : RingId} {src : List Byte} (hc : r.c < s.cfg.nCh)
    (hl : src.length < s.cfg.capOf r) (hh : (s.head r).toNat < s.cfg.capOf r) :
    s.appended r src (s.pushed r src).mem := by
  obtain ⟨hw, hm, _, _⟩ := hs
  obtain ⟨_, hcap, hmax⟩ := Cfg.capOf_ok hw hc
  refine ⟨memWf_pushed hm r src, ?_, fun k hk => pushed_at hm hc hl hh hk, fun a => pushed_outside hm hl hh⟩
  have e := pushed_head_toNat hm (src := src) hh hmax
  rw [State.head, pushed_cfg] at e
  exact e

/-- Settles O13: the write leaves `State.pushed`, whose SHM is `State.appended`. -/
theorem writeStoresAndPublishes : Obligations.WriteStoresAndPublishes := by
  intro s r src hs hc hf
  obtain ⟨_, hcap, _⟩ := Cfg.capOf_ok hs.1 hc
  refine ⟨?_, fun h0 hl => ⟨(s.pushed r src).mem, ?_, ?_⟩⟩
  · rintro rfl
    exact exec_rqWrite_nil hs.1 hc hf
  · rw [exec_rqWrite_free hs.1 hc hf hl, ← pushed_eq]
  · obtain ⟨hh, _, _, hlt⟩ := space_valid (by omega) (by omega : 0 ≤ s.space r)
    exact appended_pushed hs hc (by omega) hh

/-! ### What a write means for the unread bytes (R149) -/

/-- Ring positions counted from a later index. -/
theorem ringAt_shift (g : Ring) (i n k : Nat) : ringAt g ((i + n) % g.cap) k = ringAt g i (n + k) := by
  unfold ringAt
  rw [Nat.mod_add_mod, Nat.add_assoc]

/-- The head stands behind the unread bytes. -/
theorem tail_add_availOf {cap h t n : Nat} (hh : h < cap) (ht : t < cap) (hn : availOf cap h t = n) : (t + n) % cap = h := by
  rw [availOf_eq hh ht] at hn
  split_ifs at hn with hle
  · rw [show t + n = h by omega, Nat.mod_eq_of_lt hh]
  · rw [show t + n = h + cap by omega, Nat.add_mod_right, Nat.mod_eq_of_lt hh]

/-- The bytes of a ring depend on the bytes at their positions only. -/
theorem ringBytes_congr {s t : State} (hcfg : t.cfg = s.cfg) {r : RingId} {i n : Nat}
    (h : ∀ k, k < n → t.load8 (ringAt (ringOf s.cfg r) i k) = s.load8 (ringAt (ringOf s.cfg r) i k)) :
    t.ringBytes r i n = s.ringBytes r i n := by
  unfold State.ringBytes
  rw [hcfg]
  exact List.map_congr_left fun k hk => h k (List.mem_range.1 hk)

/-- The bytes of a ring, byte by byte, are a given list. -/
theorem ringBytes_eq_of_at {s : State} {r : RingId} {i : Nat} {src : List Byte}
    (h : ∀ k, k < src.length → s.load8 (ringAt (ringOf s.cfg r) i k) = src.getD k 0) : s.ringBytes r i src.length = src := by
  refine List.ext_getElem (by simp) fun k _ h2 => ?_
  simp only [State.ringBytes, List.getElem_map, List.getElem_range]
  rw [h k h2, List.getD_eq_getElem]

/-- `RQ.WRITE` leaves the tail alone. -/
theorem pushed_tail {s : State} (hm : memWf s.mem = true) {r : RingId} {src : List Byte} (hc : r.c < s.cfg.nCh)
    (hl : src.length < s.cfg.capOf r) (hh : (s.head r).toNat < s.cfg.capOf r) : (s.pushed r src).tail r = s.tail r := by
  have hb := ringOf_bounds hc
  unfold State.tail
  rw [pushed_cfg]
  refine load32_congr fun a ha => pushed_outside hm hl hh ?_ ?_
  · rintro ⟨k, _, rfl⟩
    have hk := ringAt_above_words hc (by omega) (s.head r).toNat k
    unfold inWord at ha; omega
  · unfold inWord at *; omega

/-- `RQ.WRITE` overwrites no unread byte: from the tail on they end where the head, and with it what is written, begins. -/
theorem pushed_unread {s : State} (hm : memWf s.mem = true) {r : RingId} {src : List Byte} (hc : r.c < s.cfg.nCh)
    {t n : Nat} (hh : (s.head r).toNat = (t + n) % s.cfg.capOf r) (hl : n + src.length < s.cfg.capOf r) :
    (s.pushed r src).ringBytes r t n = s.ringBytes r t n := by
  have hb := ringOf_bounds hc
  have hlt : (s.head r).toNat < s.cfg.capOf r := hh ▸ Nat.mod_lt _ (by omega)
  refine ringBytes_congr (pushed_cfg s r src) fun k hk => pushed_outside hm (by omega) hlt ?_ ?_
  · rintro ⟨j, hj, e⟩
    rw [hh, ← ringOf_cap, ringAt_shift] at e
    have := ringAt_inj (by rw [ringOf_cap]; omega) (by rw [ringOf_cap]; omega) e
    omega
  · have hk := ringAt_above_words hc (by omega) t k
    unfold inWord; omega

/-- What is free and what is available in a ring with valid indices (R149 (b)). -/
theorem space_add_avail {s : State} {r : RingId} (hh : (s.head r).toNat < s.cfg.capOf r)
    (ht : (s.tail r).toNat < s.cfg.capOf r) : s.space r + s.avail r = s.cfg.capOf r - 1 := by
  rw [State.space, State.avail, spaceResult_valid hh ht, availResult_valid hh ht, spaceOf_add_availOf (by omega)]

/-- A ring with free space has valid indices; its unread bytes lie from its tail to its head. -/
theorem unread_of_space {s : State} {r : RingId} (hcap : 0 < s.cfg.capOf r) (h : 0 ≤ s.space r) :
    ∃ n : Nat, s.avail r = n ∧ (s.head r).toNat = ((s.tail r).toNat + n) % s.cfg.capOf r
      ∧ s.space r + n = s.cfg.capOf r - 1 := by
  obtain ⟨hh, ht, _, _⟩ := space_valid hcap h
  have hav : s.avail r = availOf (s.cfg.capOf r) (s.head r).toNat (s.tail r).toNat := availResult_valid hh ht
  obtain ⟨n, hn⟩ := Int.eq_ofNat_of_zero_le (hav ▸ (availOf_bounds hcap _ _).1 : 0 ≤ s.avail r)
  exact ⟨n, hn, (tail_add_availOf hh ht (hav ▸ hn)).symm, hn ▸ space_add_avail hh ht⟩

/-- `RQ.WRITE` moves its length from `space` to `avail` (R149 (b)). -/
theorem pushed_avail_space {s : State} (hs : s.sane) {r : RingId} {src : List Byte} (hc : r.c < s.cfg.nCh)
    (hl : (src.length : Int) ≤ s.space r) :
    (s.pushed r src).avail r = s.avail r + src.length ∧ (s.pushed r src).space r = s.space r - src.length := by
  obtain ⟨hw, hm, _, _⟩ := hs
  obtain ⟨_, hcap, hmax⟩ := Cfg.capOf_ok hw hc
  have hc0 : 0 < s.cfg.capOf r := by omega
  obtain ⟨hh, ht, _, hlt⟩ := space_valid hc0 (by omega : 0 ≤ s.space r)
  have hav : s.avail r = availOf (s.cfg.capOf r) (s.head r).toNat (s.tail r).toNat := availResult_valid hh ht
  have hsum := space_add_avail hh ht
  have hhead := pushed_head_toNat hm (src := src) hh hmax
  have htail := pushed_tail hm hc (by omega : src.length < s.cfg.capOf r) hh
  have hh' : ((s.pushed r src).head r).toNat < (s.pushed r src).cfg.capOf r := by
    rw [hhead, pushed_cfg]; exact Nat.mod_lt _ hc0
  have ht' : ((s.pushed r src).tail r).toNat < (s.pushed r src).cfg.capOf r := by rwa [htail, pushed_cfg]
  have havail : (s.pushed r src).avail r = s.avail r + src.length := by
    rw [State.avail, availResult_valid hh' ht', hhead, htail, pushed_cfg, availOf_advance_head hc0 (by omega), hav]
  have hsum' := space_add_avail hh' ht'
  rw [pushed_cfg] at hsum'
  exact ⟨havail, by omega⟩

/-- The unread bytes after `RQ.WRITE` are those before, and behind them the written ones (R149 (c), (d)). -/
theorem pushed_ringBytes {s : State} (hs : s.sane) {r : RingId} {src : List Byte} (hc : r.c < s.cfg.nCh)
    (hl : (src.length : Int) ≤ s.space r) :
    (s.pushed r src).ringBytes r (s.tail r).toNat (s.avail r + src.length).toNat
      = s.ringBytes r (s.tail r).toNat (s.avail r).toNat ++ src := by
  obtain ⟨hw, hm, _, _⟩ := hs
  obtain ⟨_, hcap, _⟩ := Cfg.capOf_ok hw hc
  have h0 : 0 ≤ s.space r := by omega
  obtain ⟨hh, _, _, hlt⟩ := space_valid (by omega) h0
  obtain ⟨n, hn, hhead, hsum⟩ := unread_of_space (by omega) h0
  have hnew : (s.pushed r src).ringBytes r (s.head r).toNat src.length = src :=
    ringBytes_eq_of_at fun k hk => by rw [pushed_cfg]; exact pushed_at hm hc (by omega) hh hk
  rw [hn, show ((n : Int) + src.length).toNat = n + src.length by omega, Int.toNat_natCast, ringBytes_add,
    pushed_unread hm hc hhead (by omega), pushed_cfg, ← hhead, hnew]

/-- Settles O14: the whole next state is `State.pushed`, whose tail is as it was. -/
theorem writeAppends : Obligations.WriteAppends := by
  intro s t r src hs hc hf hl ht
  obtain ⟨_, hcap, _⟩ := Cfg.capOf_ok hs.1 hc
  obtain ⟨hh, _, _, hlt⟩ := space_valid (by omega) (by omega : 0 ≤ s.space r)
  obtain rfl : (s.pushed r src).done (ringAgent r) .unit = t :=
    Host.Outcome.next.inj ((exec_rqWrite_free hs.1 hc hf hl).symm.trans ht)
  obtain ⟨havail, hspace⟩ := pushed_avail_space hs hc hl
  have htail := pushed_tail hs.2.1 hc (by omega : src.length < s.cfg.capOf r) hh
  rw [done_ringBytes, done_tail, done_avail, done_space, htail, havail]
  exact ⟨pushed_ringBytes hs hc hl, rfl, rfl, hspace⟩

/-! ### RQ.READ and RQ.PEEK (R146, R147) -/

/-- The first bytes of a stretch of a ring. -/
theorem ringBytes_take (s : State) (r : RingId) (i : Nat) {n len : Nat} (h : len ≤ n) :
    (s.ringBytes r i n).take len = s.ringBytes r i len := by
  simp [State.ringBytes, ← List.map_take, List.take_range, h]

/-- The later bytes of a stretch of a ring. -/
theorem ringBytes_drop (s : State) (r : RingId) (i off len : Nat) :
    (s.ringBytes r i (off + len)).drop off = s.ringBytes r ((i + off) % s.cfg.capOf r) len := by
  rw [ringBytes_add, List.drop_left' (ringBytes_length s r i off)]

/-- Settles O15: the read leaves `State.pulled`. -/
theorem readTakesOldest : Obligations.ReadTakesOldest := by
  intro s r len ⟨hw, hm, _, _⟩ hc hf
  obtain ⟨_, hcap, hmax⟩ := Cfg.capOf_ok hw hc
  have ha := live_of_free hf
  refine ⟨?_, fun h0 hl => ⟨(s.pulled r len).mem, ?_, memWf_pulled hm r len, ?_, fun a => pulled_outside hm⟩⟩
  · have hready : lineReady (ringAgent r) (.rqRead r 0) s = true :=
      lineReady_of_live ha (by simp only [lineEnabled, decide_eq_true_eq]; omega)
    rw [exec_rqRead hc (.inl rfl), (Runs.line hready .unit []).runsIn.invoke hf (show 1 ≤ 0 + 3 by simp)]
  · obtain ⟨_, ht, _, hlt⟩ := avail_valid (by omega) (by omega : 0 ≤ s.avail r)
    rw [exec_rqRead hc (.inr (readContract_of_avail (by omega) hl)),
      (RunsIn.rqRead ha (by omega) ht .unit []).invoke hf (Nat.le_refl _), ringBytes_take s r _ (by omega), ← pulled_eq]
  · have e := pulled_tail hm h0 (r := r)
    unfold State.tail at e
    rw [pulled_cfg] at e
    rw [← advance_toNat (by omega) hmax]
    exact congrArg BitVec.toNat e

/-- Settles O16: the peek's lines load and store nothing, from where `off` bytes of the unread ones are passed over. -/
theorem peekLeavesTail : Obligations.PeekLeavesTail := by
  intro s r off len hw hc hf hl
  obtain ⟨_, hcap, _⟩ := Cfg.capOf_ok hw hc
  obtain ⟨_, ht, _, hlt⟩ := avail_valid (by omega) (by omega : 0 ≤ s.avail r)
  obtain ⟨rest, hrest⟩ : ∃ rest : Nat, (s.avail r).toNat = off + (len + rest) := ⟨(s.avail r).toNat - off - len, by omega⟩
  rw [exec_rqPeek hc (readContract_of_avail (by omega) hl),
    (RunsIn.rqPeek (live_of_free hf) (by omega) ht .unit []).invoke hf (by omega), hrest, ringBytes_drop,
    ringBytes_take s r _ (by omega)]

end Sys2Proof.Machine
end

section
/-! SUPPORT. The codec functions as operations (41_frame_codec.md R161 to R167) by the rules of the codec's own
functions, and `FRAME.TX` run alone as the two ring writes of a frame (R165; 42_channel.md R187). -/

namespace Sys2Proof.Machine

/-! ### Padding and frame size (R161, R162) -/

theorem exec_fhPad (n : Nat) (s : State) : exec (.fhPad n) s = .next { s with ret := .nat (fhPad n) } := rfl

theorem exec_fhFrameSize (n : Nat) (s : State) :
    exec (.fhFrameSize n) s = .next { s with ret := .nat (fhFrameSize n) } := rfl

/-- The frame size is the least multiple of 4 not below the length, since it is less than 4 above it. -/
theorem fhFrameSize_le_of_multiple {n y : Nat} (hy : y % 4 = 0) (hn : n ≤ y) : fhFrameSize n ≤ y := by
  have hlt := fhFrameSize_lt n
  have hmod := fhFrameSize_mod n
  omega

/-- Settles O4: the answers are `fhPad` and `fhFrameSize`. -/
theorem padAndFrameSize : Obligations.PadAndFrameSize := fun s n =>
  ⟨⟨fhPad n, exec_fhPad n s, fhPad_lt n, fhPad_add n⟩,
    fhFrameSize n, exec_fhFrameSize n s, fhFrameSize_mod n, le_fhFrameSize n, fun _ => fhFrameSize_le_of_multiple⟩

/-! ### Encoding a header (R163) -/

theorem loByte_eq_extractLsb' (f : Half) : loByte f = f.extractLsb' 0 8 := by
  apply BitVec.eq_of_getLsbD_eq
  intro i hi
  simp [loByte, hi]

theorem hiByte_eq_extractLsb' (f : Half) : hiByte f = f.extractLsb' 8 8 := by
  apply BitVec.eq_of_getLsbD_eq
  intro i hi
  simp [hiByte, hi]

theorem exec_fhEncode (chid cseq : Byte) (fseq : Half) (n : Nat) (s : State) :
    exec (.fhEncode chid cseq fseq n) s = .next { s with
      ret := if lenFits n then .encoded (encodeHeader s.cfg chid cseq fseq n) (fhPad (12 + n)) else .code .tooLong } :=
  rfl

/-- Settles O5: the header sent, byte by byte, and its padding; or `TooLong`. -/
theorem encodeBuildsHeader : Obligations.EncodeBuildsHeader := by
  intro s chid cseq fseq n
  rw [exec_fhEncode]
  refine ⟨fun hn => ?_, fun hn => ?_⟩
  · have hfits : lenFits n = true := (lenFits_iff n).2 hn
    refine ⟨(sentHeader s.cfg chid cseq fseq n).totalLen, fhPad (12 + n), sentHeader_totalLen hfits, fhPad_lt _,
      fhPad_add _, ?_⟩
    simp only [if_pos hfits, encodeHeader, loByte_eq_extractLsb', hiByte_eq_extractLsb', sentHeader]
  · have hlong : ¬ lenFits n = true := fun h => Nat.not_le.2 hn ((lenFits_iff n).1 h)
    rw [if_neg hlong]

/-! ### Tail and frame image (R164, R165) -/

theorem exec_fhTailBytes (payload : List Byte) (pad : Nat) (s : State) :
    exec (.fhTailBytes payload pad) s = .next { s with ret := .bytes (tailBytes payload pad) } := rfl

/-- The tail begins with the payload. -/
theorem tailBytes_getD_payload {payload : List Byte} (pad : Nat) {k : Nat} (h : k < payload.length) :
    (tailBytes payload pad).getD k 0 = payload.getD k 0 :=
  List.getD_append _ _ _ _ h

/-- Behind the payload the tail is 0. -/
theorem tailBytes_getD_padding {payload : List Byte} (pad : Nat) {k : Nat} (h : payload.length ≤ k) :
    (tailBytes payload pad).getD k 0 = 0 := by
  rw [tailBytes, List.getD_append_right _ _ _ _ h, List.getD_eq_getElem?_getD]
  exact List.getElem?_getD_replicate_default_eq _ _ _

/-- Settles O6: the tail is the payload and zeros, and the image is as long as `FRAME_SIZE` says. -/
theorem tailAndFrameImage : Obligations.TailAndFrameImage := by
  intro s payload pad
  refine ⟨⟨tailBytes payload pad, exec_fhTailBytes payload pad s, tailBytes_length payload pad,
    fun _ => tailBytes_getD_payload pad, fun _ => tailBytes_getD_padding pad⟩, fun chid cseq fseq => ?_⟩
  have hlen : (frameImage s.cfg chid cseq fseq payload).length = fhFrameSize (12 + payload.length) :=
    frameImage_length s.cfg chid cseq fseq payload
  exact ⟨hlen, hlen ▸ fhFrameSize_mod _, rfl⟩

/-! ### Decoding a header (R166) -/

theorem exec_fhDecode (b : Vector Byte 12) (s : State) :
    exec (.fhDecode b) s = .next { s with ret := .header (decodeHeader s.cfg b.toList) } := rfl

/-- `FH.DECODE` of the bytes of a header: the magic is tested, then the length, and nothing else. -/
theorem exec_fhDecode_headerBytes {b : Vector Byte 12} {h : Header} (hb : b.toList = headerBytes h) (s : State) :
    exec (.fhDecode b) s = .next { s with ret := .header (
      if h.startMagic ≠ s.cfg.startMagic then .badMagic
      else if h.totalLen.toNat < 12 then .badLength else .ok h) } := by
  rw [exec_fhDecode, hb, decodeHeader_headerBytes]
  rfl

theorem loByte_mkHalf (lo hi : Byte) : loByte (mkHalf lo hi) = lo := (mkHalf_inj (mkHalf_bytes (mkHalf lo hi))).1

theorem hiByte_mkHalf (lo hi : Byte) : hiByte (mkHalf lo hi) = hi := (mkHalf_inj (mkHalf_bytes (mkHalf lo hi))).2

/-- Any twelve bytes are those of the header whose fields they assemble to, low byte first (R102). -/
theorem headerBytes_mkHalf (b0 b1 b2 b3 b4 b5 b6 b7 b8 b9 b10 b11 : Byte) :
    headerBytes ⟨mkHalf b0 b1, mkHalf b2 b3, mkHalf b4 b5, mkHalf b6 b7, b8, b9, mkHalf b10 b11⟩
      = [b0, b1, b2, b3, b4, b5, b6, b7, b8, b9, b10, b11] := by
  simp only [headerBytes, loByte_mkHalf, hiByte_mkHalf]

/-- Settles O7: twelve bytes are the bytes of a header, whose magic and length are tested as numbers. -/
theorem decodeHeaderCases : Obligations.DecodeHeaderCases := by
  intro s b0 b1 b2 b3 b4 b5 b6 b7 b8 b9 b10 b11 e
  have he : e = _ := exec_fhDecode_headerBytes (b := #v[b0, b1, b2, b3, b4, b5, b6, b7, b8, b9, b10, b11])
    (headerBytes_mkHalf b0 b1 b2 b3 b4 b5 b6 b7 b8 b9 b10 b11).symm s
  have hmagic : mkHalf b0 b1 = s.cfg.startMagic ↔ b0.toNat + 256 * b1.toNat = s.cfg.startMagic.toNat := by
    rw [← BitVec.toNat_inj, mkHalf_toNat]
  simp only [← mkHalf_toNat b6 b7, ne_eq, ← hmagic]
  refine ⟨fun hm => ?_, fun hm hl => ?_, fun hm hl => ?_⟩
  · rw [he, if_pos hm]
  · rw [he, if_neg (not_not.2 hm), if_pos hl]
  · rw [he, if_neg (not_not.2 hm), if_neg (Nat.not_lt.2 hl)]
    exact ⟨_, rfl, hm, mkHalf_toNat b2 b3, mkHalf_toNat b4 b5, rfl, rfl, rfl, mkHalf_toNat b10 b11⟩

/-! ### Codec laws (R166, R167) -/

/-- Settles O8: both are about `sentHeader`, the header that was encoded. -/
theorem codecRoundTrip : Obligations.CodecRoundTrip := by
  intro s chid cseq fseq n hn
  have hfits : lenFits n = true := (lenFits_iff n).2 hn
  obtain ⟨hdr, hhdr⟩ : ∃ v : Vector Byte 12, v.toList = encodeHeader s.cfg chid cseq fseq n :=
    ⟨⟨(encodeHeader s.cfg chid cseq fseq n).toArray, encodeHeader_length s.cfg chid cseq fseq n⟩, rfl⟩
  refine ⟨hdr, fhPad (12 + n), sentHeader s.cfg chid cseq fseq n, ?_, ?_, rfl, rfl, rfl,
    sentHeader_totalLen hfits, rfl, rfl⟩
  · rw [exec_fhEncode, if_pos hfits, hhdr]
  · rw [exec_fhDecode, hhdr, decodeHeader_encodeHeader _ _ _ _ hfits]

/-- Flipping one bit changes a field. -/
theorem xor_bit_ne (f : Half) {i : Nat} (hi : i < 16) : f ^^^ (1#16 <<< i) ≠ f := by
  intro h
  have hbit := congrArg (fun w => BitVec.getLsbD w i) h
  simp [hi] at hbit

/-- Settles O9: the flipped magic is not the magic, and the magic is tested first. -/
theorem flippedMagicRejected : Obligations.FlippedMagicRejected := by
  intro s h i b hm hi hb
  have hne : h.startMagic ^^^ (1#16 <<< i) ≠ s.cfg.startMagic := hm ▸ xor_bit_ne h.startMagic hi
  rw [exec_fhDecode_headerBytes hb, if_pos hne]

/-! ### FRAME.TX (R165; 42_channel.md R187) -/

/-- Two writes in a row append both byte lists as one. -/
theorem Pushed2.appended {s t : State} {r : RingId} {bs : List Byte} (h : Pushed2 s t r bs) : s.appended r bs t.mem := by
  have hcfg : t.cfg = s.cfg := by rw [h.only]
  have hhead := h.head
  rw [State.head, State.load32, hcfg] at hhead
  exact ⟨h.wf, hhead, h.bytes, h.outside⟩

theorem exec_frameTx {s : State} {c : Nat} {payload : List Byte} (hc : c < s.cfg.nCh)
    (hl : lenFits payload.length = true) (h : writeContract s (txRing c) (needOf payload.length) = true)
    (chid cseq : Byte) (fseq : Half) :
    exec (.frameTx c chid cseq fseq payload) s = .next (invoke .call (needOf payload.length + 6)
      [.rqWrite (txRing c) (encodeHeader s.cfg chid cseq fseq payload.length),
       .rqWrite (txRing c) (tailBytes payload (fhPad (headerSize + payload.length)))] s) :=
  (if_neg (Nat.not_le.2 hc)).trans ((if_neg (by simp [hl])).trans (if_pos h))

/-- Settles O20: W1 and W2, the writes of header and tail, append the image they make together. -/
theorem frameTxWritesImage : Obligations.FrameTxWritesImage := by
  intro s c chid cseq fseq payload ⟨hw, hm, _, _⟩ hc hf hlen hsp
  have hr : (txRing c).c < s.cfg.nCh := hc
  obtain ⟨_, hcap, hmax⟩ := Cfg.capOf_ok hw hr
  have himage : (frameImage s.cfg chid cseq fseq payload).length = fhFrameSize (12 + payload.length) :=
    frameImage_length s.cfg chid cseq fseq payload
  obtain ⟨hh, _, _, hlt⟩ := space_valid (by omega) (by omega : 0 ≤ s.space (txRing c))
  have hfit : (frameImage s.cfg chid cseq fseq payload).length < s.cfg.capOf (txRing c) := by omega
  have htwo := pushed2 hm hr hmax hh hfit
  have hwrites := RunsIn.frameWrites (live_of_free hf) hm hmax hh hfit .unit []
  refine ⟨_, ?_, himage, htwo.appended⟩
  rw [exec_frameTx hc ((lenFits_iff _).2 hlen) (writeContract_of_space (by omega) hsp),
    hwrites.invoke (fuel := needOf payload.length + 6) hf (Nat.add_le_add_right (Nat.le_of_eq himage) 6), ← htwo.only]

end Sys2Proof.Machine
end

section
/-! SUPPORT. The channel operations run alone: the handshake, `FRAME.RX` as the end of one turn of a drain pass, and the
drain pass by what its first turn meets (42_channel.md R191 to R195). -/

namespace Sys2Proof.Machine

/-! ### The lines of each operation -/

section
variable {s : State} {c : Nat} (hc : c < s.cfg.nCh)
include hc

theorem exec_chAckReq (w : Half) : exec (.chAckReq c w) s = .next (invoke .lw 4 [.ackReq c w] s) :=
  if_neg (Nat.not_le.2 hc)

theorem exec_chResAck (w : Half) : exec (.chResAck c w) s = .next (invoke .lw 1 [.resAck c w] s) :=
  if_neg (Nat.not_le.2 hc)

theorem exec_frameRx (d : Header) :
    exec (.frameRx c d) s =
      .next (invoke .lw (fhFrameSize d.totalLen.toNat + 9) [.availHead (rxRing c), .frameRxTest c d] s) :=
  if_neg (Nat.not_le.2 hc)

theorem exec_chRecvPending :
    exec (.chRecvPending c) s =
      .next (invoke .lw (recvFuel (s.cfg.capOf (rxRing c))) [.availHead (rxRing c), .recvAvail c] s) :=
  if_neg (Nat.not_le.2 hc)

end

/-! ### The handshake (R194, R195) -/

/-- Settles O29: `CH.ACK_REQ` leaves `State.acked`, and `CH.RES_ACK` is one line that changes nothing. -/
theorem handshake : Obligations.Handshake := by
  intro s c w _ hc hf
  have ha := live_of_free hf
  rw [exec_chAckReq hc, (RunsIn.ackReq ha c w .unit []).invoke hf (Nat.le_refl 4), exec_chResAck hc,
    (Runs.line (lineReady_of_live (l := .resAck c w) ha rfl) .unit []).runsIn.invoke hf (Nat.le_refl 1)]
  unfold State.acked
  refine ⟨fun h => ?_, fun h => ?_, rfl⟩
  · rw [if_pos h]
  · rw [if_neg h]; rfl

/-! ### What a consumed frame leaves -/

/-- The tail after a read, as a number; also for a read of nothing. -/
theorem pulled_tail_toNat {s : State} (hm : memWf s.mem = true) {r : RingId} {len : Nat}
    (ht : (s.tail r).toNat < s.cfg.capOf r) (hcap : s.cfg.capOf r < 2 ^ 31) :
    ((s.pulled r len).tail r).toNat = ((s.tail r).toNat + len) % s.cfg.capOf r := by
  by_cases h0 : len = 0
  · subst h0
    exact (Nat.mod_eq_of_lt ht).symm
  · rw [pulled_tail hm h0, advance_toNat (by omega) hcap]

/-- Consuming a frame moves the tail of its ring over the whole frame, padding included (R192 (c)). -/
theorem took_offRxt {s : State} (hm : memWf s.mem = true) {c : Nat} (d : Header)
    (ht : (s.tail (rxRing c)).toNat < s.cfg.capOf (rxRing c)) (hcap : s.cfg.capOf (rxRing c) < 2 ^ 31) :
    (memRead32 (s.took c d).mem (offRxt c)).toNat
      = ((s.tail (rxRing c)).toNat + fhFrameSize d.totalLen.toNat) % (s.cfg.chan c).capRx := by
  have h := pulled_tail_toNat hm (len := fhFrameSize d.totalLen.toNat) ht hcap
  rw [State.tail, pulled_cfg] at h
  rw [took_eq]
  exact h

/-- Consuming a frame stores nothing but the tail word of its ring. -/
theorem took_outside {s : State} (hm : memWf s.mem = true) {c : Nat} (d : Header) {a : Nat}
    (h : ¬ inWord (offRxt c) a) : memRead (s.took c d).mem a = memRead s.mem a := by
  rw [took_eq]
  exact pulled_outside hm h

theorem memWf_took {s : State} (hm : memWf s.mem = true) (c : Nat) (d : Header) : memWf (s.took c d).mem = true := by
  rw [took_eq]
  exact memWf_pulled hm _ _

/-! ### FRAME.RX (R191 V8 to V11) -/

/-- V2 of `FRAME.RX` where an index is corrupt. -/
theorem RunsIn.frameRxCorrupt {s : State} (ha : agentLive s .lw = true) {c : Nat} {d : Header}
    (hav : s.avail (rxRing c) = corrupt) (acc : Value) (k : List Line) :
    RunsIn .lw 3 ⟨s, acc, .availHead (rxRing c) :: .frameRxTest c d :: k⟩
      ⟨raise s (.ringCorrupt (rxRing c)), .unit, k⟩ := by
  refine (RunsIn.avail ha (rxRing c) acc _).trans (RunsIn.head (lineReady_of_live ha rfl) (b := 0) ?_)
  simp only [lineStep, lineFrameRxTest, hav, if_true]
  exact RunsIn.refl _ _

/-- V2 and V8 of `FRAME.RX` where the indices are valid: the frame is too large, or it is taken next. -/
theorem RunsIn.frameRxStart {s : State} (ha : agentLive s .lw = true) {c : Nat} {d : Header}
    (hav : 0 ≤ s.avail (rxRing c)) (acc : Value) (k : List Line) :
    RunsIn .lw 4 ⟨s, acc, .availHead (rxRing c) :: .frameRxTest c d :: k⟩
      (if s.avail (rxRing c) < (fhFrameSize d.totalLen.toNat : Int) then ⟨raise s (.badLength c), .unit, k⟩
       else ⟨s, .unit, .recvHold :: .rqRead (rxRing c) (fhFrameSize d.totalLen.toNat) :: .recvPush d :: k⟩) := by
  have hne : ¬ Value.int (s.avail (rxRing c)) = .int corrupt := by simp only [Value.int.injEq, corrupt]; omega
  refine (RunsIn.avail ha (rxRing c) acc _).trans (RunsIn.head (lineReady_of_live ha rfl) (b := 1) ?_)
  simp only [lineStep, lineFrameRxTest, if_neg hne]
  exact RunsIn.head (lineReady_of_live ha rfl) (RunsIn.refl _ _)

/-- `FRAME.RX` on a frame that is all there, with room in `RXQ`, leaves `State.took`. -/
theorem exec_frameRx_took {s : State} {c : Nat} {d : Header} (hw : s.cfg.wf = true) (hc : c < s.cfg.nCh)
    (hf : s.free .lw = true) (hfs : (fhFrameSize d.totalLen.toNat : Int) ≤ s.avail (rxRing c))
    (hroom : s.rxq.length < s.cfg.rxqDepth) : exec (.frameRx c d) s = .next ((s.took c d).done .lw .unit) := by
  have ha := live_of_free hf
  obtain ⟨_, hcap, _⟩ := Cfg.capOf_ok hw (r := rxRing c) hc
  obtain ⟨_, ht, _, hlt⟩ := avail_valid (by omega) (by omega : 0 ≤ s.avail (rxRing c))
  have hstart := RunsIn.frameRxStart ha (d := d) (by omega : 0 ≤ s.avail (rxRing c)) .unit []
  rw [if_neg (by omega)] at hstart
  rw [exec_frameRx hc, (hstart.trans (RunsIn.consume ha hroom (by omega) ht .unit [])).invoke hf (by omega)]

/-- Settles O21: the lines up to V8 decide, and behind them a frame that is all there is taken or waits at V9. -/
theorem frameRxTakesFrame : Obligations.FrameRxTakesFrame := by
  intro s c d ⟨hw, hm, _, _⟩ hwf hf r fs
  have ha := live_of_free hf
  have hc : c < s.cfg.nCh := by
    simp only [Instr.wf, Bool.and_eq_true, decide_eq_true_eq] at hwf
    exact hwf.1.1
  obtain ⟨_, hcap, hmax⟩ := Cfg.capOf_ok hw (r := r) hc
  refine ⟨fun hav => ?_, fun h0 hlt => ?_, fun hfs hroom => ?_, fun hfs hfull => ?_⟩
  · rw [exec_frameRx hc, (RunsIn.frameRxCorrupt ha hav .unit []).invoke hf (by omega), raise_ringCorrupt]
    rfl
  · have hstart := RunsIn.frameRxStart ha (d := d) h0 .unit []
    rw [if_pos hlt] at hstart
    rw [exec_frameRx hc, hstart.invoke hf (by omega), raise_badLength]
  · obtain ⟨_, ht, _, _⟩ := avail_valid (by omega) (by omega : 0 ≤ s.avail r)
    refine ⟨(s.took c d).mem, ?_, memWf_took hm c d, took_offRxt hm d ht hmax, fun a => took_outside hm d⟩
    rw [exec_frameRx_took hw hc hf hfs hroom, took_eq]
    rfl
  · have hstart := RunsIn.frameRxStart ha (d := d) (by omega : 0 ≤ s.avail r) .unit []
    rw [if_neg (Int.not_lt.2 hfs)] at hstart
    rw [exec_frameRx hc, hstart.invokeHold hf (recvHold_held hfull) (by omega)]
    rfl

/-! ### The drain pass, by what its first turn meets (R191 to R193) -/

/-- A pass over a ring with a corrupt index. -/
theorem exec_chRecvPending_corrupt {s : State} {c : Nat} (hc : c < s.cfg.nCh) (hf : s.free .lw = true)
    (hav : s.avail (rxRing c) = corrupt) :
    exec (.chRecvPending c) s = .next ((raise s (.ringCorrupt (rxRing c))).done .lw (.nat 0)) := by
  rw [exec_chRecvPending hc, (RunsIn.recvCorrupt (live_of_free hf) hav .unit []).invoke hf (by unfold recvFuel; omega)]

/-- A pass over a ring with valid indices, whose loop ends within its lines. -/
theorem exec_chRecvPending_ends {s t : State} {c a b n : Nat} (hc : c < s.cfg.nCh) (hf : s.free .lw = true)
    (hav : s.avail (rxRing c) = (a : Int))
    (hr : RunsIn .lw b ⟨s, .unit, [.recvLoop c a 0]⟩ ⟨t, .nat n, []⟩)
    (hb : 3 + b ≤ recvFuel (s.cfg.capOf (rxRing c))) :
    exec (.chRecvPending c) s = .next (t.done .lw (.nat n)) := by
  rw [exec_chRecvPending hc, ((RunsIn.recvStart (live_of_free hf) hav .unit []).trans hr).invoke hf hb]

/-- A pass over a ring with valid indices, whose loop comes to a hold at a full `RXQ`. -/
theorem exec_chRecvPending_holds {s t : State} {c a b : Nat} {rest : List Line} (hc : c < s.cfg.nCh)
    (hf : s.free .lw = true) (hav : s.avail (rxRing c) = (a : Int))
    (hr : RunsIn .lw b ⟨s, .unit, [.recvLoop c a 0]⟩ ⟨t, .unit, .recvHold :: rest⟩)
    (hfull : t.cfg.rxqDepth ≤ t.rxq.length) (hb : 3 + b ≤ recvFuel (s.cfg.capOf (rxRing c))) :
    exec (.chRecvPending c) s = .next { t with lw := ⟨.unit, .recvHold :: rest⟩ } := by
  rw [exec_chRecvPending hc,
    ((RunsIn.recvStart (live_of_free hf) hav .unit []).trans hr).invokeHold hf (recvHold_held hfull) hb]
  rfl

/-- The loop ends where nothing is left (R192 (a)). -/
theorem RunsIn.recvLoopEmpty {s : State} (ha : agentLive s .lw = true) (c n : Nat) (acc : Value) (k : List Line) :
    RunsIn .lw 1 ⟨s, acc, .recvLoop c 0 n :: k⟩ ⟨s, .nat n, k⟩ :=
  RunsIn.head (lineReady_of_live ha rfl) (RunsIn.refl _ _)

/-- V3: what is left is too short for a header (R192 (b)). -/
theorem RunsIn.recvLoopShort {s : State} (ha : agentLive s .lw = true) {c a : Nat} (h0 : a ≠ 0) (h12 : a < headerSize)
    (n : Nat) (acc : Value) (k : List Line) :
    RunsIn .lw 1 ⟨s, acc, .recvLoop c a n :: k⟩ ⟨raise s (.badLength c), .nat n, k⟩ := by
  refine RunsIn.head (lineReady_of_live ha rfl) ?_
  simp only [lineStep, lineRecvLoop, if_neg h0, if_pos h12]
  exact RunsIn.refl _ _

/-- Settles O26: each case is an end of the first turn, in the order of the tests. -/
theorem drainStopsClean : Obligations.DrainStopsClean := by
  intro s c hw hc hf a stop
  have ha := live_of_free hf
  obtain ⟨_, hcap, _⟩ := Cfg.capOf_ok hw (r := rxRing c) hc
  have hfuel : 3 + 18 ≤ recvFuel (s.cfg.capOf (rxRing c)) := by unfold recvFuel; omega
  have htail : 0 ≤ a → (s.tail (rxRing c)).toNat < s.cfg.capOf (rxRing c) := fun h0 => (avail_valid (by omega) h0).2.1
  have hnat : 0 ≤ a → s.avail (rxRing c) = (a.toNat : Int) := fun h0 => (Int.toNat_of_nonneg h0).symm
  have hhdr : headerSize = 12 := rfl
  have bad : ∀ e, 12 ≤ a → ((s.rxHeader c = .badMagic ∧ e = .badMagic c)
      ∨ (s.rxHeader c = .badLength ∧ e = .badLength c) ∨ (∃ d, s.rxHeader c = .ok d
        ∧ a.toNat < fhFrameSize d.totalLen.toNat ∧ e = .badLength c)) →
      exec (.chRecvPending c) s = .next ((raise s e).done .lw (.nat 0)) := fun e h12 he =>
    exec_chRecvPending_ends hc hf (hnat (by omega))
      (RunsIn.peekBad ha (by omega) (by omega) (htail (by omega)) he 0 .unit []) hfuel
  refine ⟨fun h => ?_, fun h => ?_, fun h0 h12 => ?_, fun h12 hd => ?_, fun h12 hd => ?_, fun d h12 hd hlt => ?_⟩
  · rw [exec_chRecvPending_corrupt hc hf h, raise_ringCorrupt]
    rfl
  · exact exec_chRecvPending_ends (a := 0) hc hf h (RunsIn.recvLoopEmpty ha c 0 .unit []) (by omega)
  · rw [exec_chRecvPending_ends hc hf (hnat (by omega))
      (RunsIn.recvLoopShort ha (by omega) (by omega) 0 .unit []) (by omega), raise_badLength]
  · rw [bad _ h12 (.inl ⟨hd, rfl⟩), raise_badMagic]
  · rw [bad _ h12 (.inr (.inl ⟨hd, rfl⟩)), raise_badLength]
  · rw [bad _ h12 (.inr (.inr ⟨d, hd, by omega, rfl⟩)), raise_badLength]

/-! ### The drain pass over a good frame (R191, R192 (d), (e)) -/

/-- One turn of a pass: a good frame that is all there is consumed and pushed, and counted. -/
theorem RunsIn.drainTurn {s : State} (ha : agentLive s .lw = true) {c a : Nat} {d : Header}
    (hcap : headerSize < s.cfg.capOf (rxRing c)) (h12 : headerSize ≤ a) (hav : s.avail (rxRing c) = (a : Int))
    (hd : s.rxHeader c = .ok d) (hfs : fhFrameSize d.totalLen.toNat ≤ a) (hroom : s.rxq.length < s.cfg.rxqDepth)
    (n : Nat) (acc : Value) (k : List Line) :
    RunsIn .lw (fhFrameSize d.totalLen.toNat + 23) ⟨s, acc, .recvLoop c a n :: k⟩
      ⟨s.took c d, .unit, .recvLoop c (a - fhFrameSize d.totalLen.toNat) (n + 1) :: k⟩ := by
  obtain ⟨_, ht, _, hlt⟩ := avail_valid (by omega) (by omega : 0 ≤ s.avail (rxRing c))
  exact ((RunsIn.peekGood ha hcap h12 hd hfs ht n acc k).trans
    (RunsIn.consume ha hroom (by omega) ht .unit _)).mono (by omega)

/-- What a pass has still to run that waits at V9 in front of the frame with header `d`, `rem` bytes behind it, `n` frames
counted with it. -/
abbrev heldLines (c : Nat) (d : Header) (rem n : Nat) : List Line :=
  [.recvHold, .rqRead (rxRing c) (fhFrameSize d.totalLen.toNat), .recvPush d, .recvLoop c rem n]

/-- A pass over one good frame, in front of what its turn leaves: where the pass over the rest ends, it ends there, one
more counted; where that holds, it holds there, one more counted so far. -/
theorem drain_after_turn {s t : State} {c a : Nat} {d : Header} (hw : s.cfg.wf = true) (hm : memWf s.mem = true)
    (hc : c < s.cfg.nCh) (hf : s.free .lw = true) (hav : s.avail (rxRing c) = (a : Int)) (h12 : headerSize ≤ a)
    (hd : s.rxHeader c = .ok d) (hfs : fhFrameSize d.totalLen.toNat ≤ a) (hroom : s.rxq.length < s.cfg.rxqDepth)
    (hpass : PassEnds (s.took c d) t c (a - fhFrameSize d.totalLen.toNat)) :
    let s1 := (s.took c d).done .lw .unit
    (∃ m, exec (.chRecvPending c) s1 = .next ((t.rephase s1).done .lw (.nat m))
      ∧ exec (.chRecvPending c) s = .next ((t.rephase s).done .lw (.nat (m + 1))))
    ∨ t.cfg.rxqDepth ≤ t.rxq.length ∧ ∃ (d' : Header) (rem m : Nat), t.rxHeader c = .ok d'
      ∧ t.avail (rxRing c) = ((fhFrameSize d'.totalLen.toNat + rem : Nat) : Int)
      ∧ exec (.chRecvPending c) s1 = .next { t.rephase s1 with lw := ⟨.unit, heldLines c d' rem m⟩ }
      ∧ exec (.chRecvPending c) s = .next { t.rephase s with lw := ⟨.unit, heldLines c d' rem (m + 1)⟩ } := by
  intro s1
  have ha := live_of_free hf
  obtain ⟨_, hcap, hmax⟩ := Cfg.capOf_ok hw (r := rxRing c) hc
  obtain ⟨_, _, _, hlt⟩ := avail_valid (by omega) (by omega : 0 ≤ s.avail (rxRing c))
  have hhdr : headerSize = 12 := rfl
  have hlen := rxHeader_len hd
  have hturn := RunsIn.drainTurn ha (by omega) h12 hav hd hfs hroom 0 .unit []
  rw [show s.took c d = (s.took c d).rephase s from took_rephase s s c d] at hturn
  have hf1 : s1.free .lw = true := (free_iff s1 .lw).2 ⟨(agentLive_took s c d .lw).trans ha, rfl⟩
  have hcfg : s1.cfg = s.cfg := (done_cfg _ _ _).trans (took_cfg s c d)
  have hc1 : c < s1.cfg.nCh := hcfg ▸ hc
  have hav1 : s1.avail (rxRing c) = ((a - fhFrameSize d.totalLen.toNat : Nat) : Int) :=
    (done_avail _ _ _ _).trans (took_avail hm hmax (by omega) hav (by omega) hfs)
  have hfuel1 := recvFuel_enough (a := a - fhFrameSize d.totalLen.toNat) (cap := s1.cfg.capOf (rxRing c))
    (by rw [hcfg]; omega)
  have hfuel : 3 + (fhFrameSize d.totalLen.toNat + 23 + (a - fhFrameSize d.totalLen.toNat
      + 23 * ((a - fhFrameSize d.totalLen.toNat) / 12) + 18)) ≤ recvFuel (s.cfg.capOf (rxRing c)) := by
    unfold recvFuel; omega
  rcases hpass with ⟨m, hr⟩ | ⟨hfull, d', rem, m, hd', hav', hr⟩
  · refine .inl ⟨m, ?_, ?_⟩
    · rw [exec_chRecvPending_ends hc1 hf1 hav1 (hr s1 0 .unit []) hfuel1, Nat.zero_add]
    · rw [exec_chRecvPending_ends hc hf hav (hturn.trans (hr s 1 .unit [])) hfuel, Nat.add_comm]
  · refine .inr ⟨hfull, d', rem, m, hd', hav', ?_, ?_⟩
    · rw [exec_chRecvPending_holds hc1 hf1 hav1 (hr s1 0 .unit []) hfull hfuel1, Nat.zero_add]
    · rw [exec_chRecvPending_holds hc hf hav (hturn.trans (hr s 1 .unit [])) hfull hfuel, Nat.add_comm]

/-- A pass over one good frame with nothing behind it. -/
theorem exec_chRecvPending_single {s : State} {c : Nat} {d : Header} (hw : s.cfg.wf = true) (hc : c < s.cfg.nCh)
    (hf : s.free .lw = true) (hd : s.rxHeader c = .ok d)
    (hav : s.avail (rxRing c) = (fhFrameSize d.totalLen.toNat : Int)) (hroom : s.rxq.length < s.cfg.rxqDepth) :
    exec (.chRecvPending c) s = .next ((s.took c d).done .lw (.nat 1)) := by
  have ha := live_of_free hf
  obtain ⟨_, hcap, _⟩ := Cfg.capOf_ok hw (r := rxRing c) hc
  obtain ⟨_, _, _, hlt⟩ := avail_valid (by omega) (by omega : 0 ≤ s.avail (rxRing c))
  have hhdr : headerSize = 12 := rfl
  have hlen := rxHeader_len hd
  have hturn := RunsIn.drainTurn ha (by omega) hlen hav hd (Nat.le_refl _) hroom 0 .unit []
  rw [Nat.sub_self] at hturn
  exact exec_chRecvPending_ends hc hf hav
    (hturn.trans (RunsIn.recvLoopEmpty (by rw [agentLive_took]; exact ha) c 1 .unit [])) (by unfold recvFuel; omega)

/-- Settles O27: the first turn is `FRAME.RX`, and the pass over what that leaves ends or holds whatever the count so
far. -/
theorem drainTakesFrames : Obligations.DrainTakesFrames := by
  intro s c d ⟨hw, hm, _, _⟩ hc hf h12 hd hfs hroom r fs
  obtain ⟨_, hcap, hmax⟩ := Cfg.capOf_ok hw (r := rxRing c) hc
  obtain ⟨_, ht, _, _⟩ := avail_valid (by omega) (by omega : 0 ≤ s.avail (rxRing c))
  refine ⟨fun hav => ⟨(s.took c d).mem, ?_, took_offRxt hm d ht hmax, fun a => took_outside hm d⟩, ?_⟩
  · rw [exec_chRecvPending_single hw hc hf hd hav hroom, took_eq]
    rfl
  obtain ⟨a, hav⟩ := Int.eq_ofNat_of_zero_le (by omega : 0 ≤ s.avail (rxRing c))
  have hhdr : headerSize = 12 := rfl
  have hlen := rxHeader_len hd
  obtain ⟨t, _, hpass⟩ := pass_ends (a - fhFrameSize d.totalLen.toNat) (s := s.took c d) (c := c)
    (by rw [took_cfg]; exact hw) (memWf_took hm c d) (by rw [took_cfg]; exact hc)
    (by rw [agentLive_took]; exact live_of_free hf) (took_avail hm hmax (by omega) hav (by omega) (by omega))
  refine ⟨(s.took c d).done .lw .unit, ?_⟩
  rcases drain_after_turn hw hm hc hf hav (by omega) hd (by omega) hroom hpass with
    ⟨n, hrest, hwhole⟩ | ⟨hfull, d', m, n, hd', hav', hrest, hwhole⟩
  · refine ⟨_, exec_frameRx_took hw hc hf hfs hroom, hrest, fun _ => ⟨n, rfl, ?_⟩, fun hbusy => absurd rfl hbusy⟩
    rw [hwhole, took_eq]
    rfl
  · refine ⟨_, exec_frameRx_took hw hc hf hfs hroom, hrest, fun hidle => by simp at hidle, fun _ =>
      ⟨d', m, n, rfl, hfull, hd', hav', ?_⟩⟩
    rw [hwhole, took_eq]
    rfl

/-! ### Holding at a full queue (R192 (d), R232) -/

/-- `DW.STEP` with a frame queued takes it off, and besides writes the event record or `ERRSTAT` only (44_dispatch.md
R251). -/
theorem dispatchFrame_cons {s : State} {f : Frame} {q : List Frame} (hq : s.rxq = f :: q) :
    ∃ e ev, dispatchFrame s = { s with rxq := q, errstat := e, events := ev } := by
  unfold dispatchFrame
  rw [hq]
  by_cases hsink : f.chid ∈ s.cfg.sinks
  · exact ⟨s.errstat, _, if_pos hsink⟩
  · exact ⟨_, s.events, (if_neg hsink).trans (raise_noSink _)⟩

/-- A pass that finds `RXQ` full in front of a good frame consumes nothing and waits. -/
theorem exec_chRecvPending_full {s : State} {c : Nat} {d : Header} (hw : s.cfg.wf = true) (hc : c < s.cfg.nCh)
    (hf : s.free .lw = true) (hd : s.rxHeader c = .ok d)
    (hfs : (fhFrameSize d.totalLen.toNat : Int) ≤ s.avail (rxRing c)) (hfull : s.cfg.rxqDepth ≤ s.rxq.length) :
    exec (.chRecvPending c) s = .next { s with
      lw := ⟨.unit, heldLines c d ((s.avail (rxRing c)).toNat - fhFrameSize d.totalLen.toNat) 1⟩ } := by
  obtain ⟨_, hcap, _⟩ := Cfg.capOf_ok hw (r := rxRing c) hc
  obtain ⟨_, ht, _, _⟩ := avail_valid (by omega) (by omega : 0 ≤ s.avail (rxRing c))
  have hhdr : headerSize = 12 := rfl
  have hlen := rxHeader_len hd
  exact exec_chRecvPending_holds hc hf (Int.toNat_of_nonneg (by omega)).symm
    (RunsIn.peekGood (live_of_free hf) (by omega) (by omega) hd (by omega) ht 0 .unit []) hfull
    (by unfold recvFuel; omega)

/-- A pass leaves the worker idle or `RXQ` full, whatever the ring holds. -/
theorem exec_chRecvPending_bounded {s : State} {c : Nat} (hw : s.cfg.wf = true) (hm : memWf s.mem = true)
    (hc : c < s.cfg.nCh) (hf : s.free .lw = true) :
    ∃ t, exec (.chRecvPending c) s = .next t ∧ (t.lw.todo = [] ∨ t.cfg.rxqDepth ≤ t.rxq.length) := by
  rw [exec_chRecvPending hc]
  obtain ⟨t, _, ⟨v, hr⟩ | ⟨hfull, rest, hr⟩⟩ := recv_goesOn hw hm (live_of_free hf) hc
  · exact ⟨_, congrArg _ ((hr s .unit []).invoke hf (Nat.le_refl _)), .inl rfl⟩
  · exact ⟨_, congrArg _ ((hr s .unit []).invokeHold hf (recvHold_held hfull) (Nat.le_refl _)), .inr hfull⟩

/-- A waiting pass with room in `RXQ` consumes its frame, pushes it and is at its next turn. -/
theorem advanceAgent_consume {s : State} {c m n : Nat} {d : Header} {acc : Value} (hw : s.cfg.wf = true)
    (hc : c < s.cfg.nCh) (ha : agentLive s .lw = true)
    (hlw : s.lw = ⟨acc, heldLines c d m n⟩)
    (hfs : (fhFrameSize d.totalLen.toNat : Int) ≤ s.avail (rxRing c)) (hroom : s.rxq.length < s.cfg.rxqDepth) :
    ∃ lines, lines ≤ fhFrameSize d.totalLen.toNat + 5
      ∧ advanceAgent lines .lw s = { s.took c d with lw := ⟨.unit, [.recvLoop c m n]⟩ } := by
  obtain ⟨_, hcap, _⟩ := Cfg.capOf_ok hw (r := rxRing c) hc
  obtain ⟨_, ht, _, hlt⟩ := avail_valid (by omega) (by omega : 0 ≤ s.avail (rxRing c))
  obtain ⟨lines, hlines, hr⟩ := RunsIn.consume ha hroom (d := d) (by omega) ht acc [.recvLoop c m n]
  have hth : s.thread .lw = s.lw := rfl
  refine ⟨lines, hlines, ?_⟩
  rw [advanceAgent_busy (by rw [hth, hlw]; simp), hth, hlw, hr]
  rfl

/-- Settles O28: a full queue holds at V9; every pass ends or holds there; and `DW.STEP` lifts the hold. -/
theorem drainEndsOrHolds : Obligations.DrainEndsOrHolds := by
  intro s c ⟨hw, hm, _, _⟩ hc r
  refine ⟨fun hf => ⟨fun d _ hd hfs hfull => exec_chRecvPending_full hw hc hf hd hfs hfull,
    exec_chRecvPending_bounded hw hm hc hf⟩, ?_⟩
  intro d acc m n f q fs ha hlw hq hfull hfs
  obtain ⟨_, hcap, hmax⟩ := Cfg.capOf_ok hw (r := r) hc
  obtain ⟨_, ht, _, _⟩ := avail_valid (by omega) (by omega : 0 ≤ s.avail r)
  obtain ⟨e, ev, hdw⟩ := dispatchFrame_cons hq
  let s1 : State := { s with rxq := q, errstat := e, events := ev }
  have hroom : s1.rxq.length < s1.cfg.rxqDepth := by
    show q.length < s.cfg.rxqDepth
    rw [← hfull, hq, List.length_cons]
    exact Nat.lt_succ_self _
  obtain ⟨lines, hlines, hadv⟩ := advanceAgent_consume (s := s1) hw hc ha hlw hfs hroom
  refine ⟨s1, lines, (s1.took c d).mem, congrArg _ hdw, rfl, rfl, hlines, ?_,
    took_offRxt (s := s1) hm d ht hmax, fun a => took_outside (s := s1) hm d⟩
  rw [hadv, took_eq]
  rfl

end Sys2Proof.Machine
end

section
/-! SUPPORT. `CH.SEND` as a whole: what it finds at the lock, the readiness check and the space test, and each of the
ways it then ends or waits (42_channel.md R182 to R190). -/

namespace Sys2Proof.Machine

/-! ### The state a delivered frame leaves -/

/-- The state after sender `k` has delivered a frame on channel `c`, with SHM `m`: sequence numbers advanced, lock free,
doorbell and then response gone out (R186 to R189). -/
def State.delivered (s : State) (k c len : Nat) (m : List Host.Cell) : State :=
  { s with
    mem := m
    chans := s.chans.set c { s.chan c with fseq := (s.chan c).fseq + 1, cseq := (s.chan c).cseq + 1, txlock := .free }
    mbxOut := sendWord s.cfg c
    irqOutPending := true
    events := s.events ++ [.doorbellOut (sendWord s.cfg c), .response (some k) 2 .ok (.num len)] }

/-- Who held the lock makes no difference to what a delivery leaves. -/
theorem delivered_setLock {s : State} {c : Nat} (hc : c < s.chans.length) (l : Lock) (k len : Nat)
    (m : List Host.Cell) : (s.setLock c l).delivered k c len m = s.delivered k c len m := by
  have hq : (s.setLock c l).chan c = { s.chan c with txlock := l } := chan_setChan_same hc _
  simp only [State.delivered, hq, setLock_chans, List.set_set]
  rfl

/-! ### The tests of a send -/

section
variable {s : State} {k c : Nat} (ha : agentLive s (.snd k) = true) (chid : Byte) (payload : List Byte)
include ha

/-- L1 and the readiness check of a send that finds the lock free (R183, R184). -/
theorem RunsIn.sendLock (hlock : (s.chan c).txlock = .free) (acc : Value) :
    RunsIn (.snd k) 3 ⟨s, acc, [.sendLock c chid payload]⟩
      ⟨s.setLock c (.held k), .bool s.ready, [.sendReady c chid payload]⟩ :=
  RunsIn.head (lineReady_of_live ha (by simp [lineEnabled, hlock]))
    (RunsIn.ready (a := .snd k) (s := s.setLock c (.held k)) ha .unit [.sendReady c chid payload])

/-- L2 with the link not ready (R184). -/
theorem RunsIn.sendNotReady :
    RunsIn (.snd k) 1 ⟨s, .bool false, [.sendReady c chid payload]⟩
      (sendAbort s (.snd k) c (.peerNotReady c) .peerNotReady) :=
  RunsIn.head (lineReady_of_live ha rfl) (RunsIn.refl _ _)

/-- L1 and L2 of a send that finds the lock free and the link ready: on to P1, with the lock. -/
theorem RunsIn.sendLockReady (hlock : (s.chan c).txlock = .free) (hready : s.ready = true) (acc : Value) :
    RunsIn (.snd k) 4 ⟨s, acc, [.sendLock c chid payload]⟩
      ⟨s.setLock c (.held k), .unit, [.spaceHead (txRing c), .sendTest c chid payload]⟩ := by
  have hstart := RunsIn.sendLock ha chid payload hlock acc
  rw [hready] at hstart
  have ha1 : agentLive (s.setLock c (.held k)) (.snd k) = true := ha
  exact hstart.trans (RunsIn.head (lineReady_of_live ha1 rfl) (RunsIn.refl _ _))

/-- P1 and P2 with a corrupt index (R184). -/
theorem RunsIn.sendCorrupt (hsp : s.space (txRing c) = corrupt) (acc : Value) :
    RunsIn (.snd k) 3 ⟨s, acc, [.spaceHead (txRing c), .sendTest c chid payload]⟩
      (sendAbort s (.snd k) c (.ringCorrupt (txRing c)) .ringCorrupt) := by
  refine (RunsIn.space ha (txRing c) acc _).trans (RunsIn.head (lineReady_of_live ha rfl) (b := 0) ?_)
  simp only [lineStep, lineSendTest, hsp, if_true]
  exact RunsIn.refl _ _

/-- P1 to P3 with valid indices: the send parks, which changes nothing, or commits (R184, R185). -/
theorem RunsIn.sendFit (hsp : 0 ≤ s.space (txRing c)) (acc : Value) :
    RunsIn (.snd k) 4 ⟨s, acc, [.spaceHead (txRing c), .sendTest c chid payload]⟩ ⟨s, .unit,
      [if s.space (txRing c) < (needOf payload.length : Int) then .sendPark c chid payload
       else .sendCommit c chid payload]⟩ := by
  have hne : ¬ Value.int (s.space (txRing c)) = .int corrupt := by simp only [Value.int.injEq, corrupt]; omega
  refine (RunsIn.space ha (txRing c) acc _).trans (RunsIn.head (lineReady_of_live ha rfl) (b := 1) ?_)
  simp only [lineStep, lineSendTest, if_neg hne]
  refine RunsIn.head (lineReady_of_live ha rfl) (b := 0) ?_
  simp only [lineStep, lineSendFit, raise_txNoSpace]
  split_ifs <;> exact RunsIn.refl _ _

end

/-! ### Delivery -/

section
variable {s : State} {k c : Nat} (hw : s.cfg.wf = true) (hm : memWf s.mem = true) (hchans : s.chans.length = s.cfg.nCh)
  (ha : agentLive s (.snd k) = true) (hc : c < s.cfg.nCh) (chid : Byte) (payload : List Byte)
  (hsp : (needOf payload.length : Int) ≤ s.space (txRing c)) (acc : Value)
include hw hm hchans ha hc hsp

/-- From P1 on, with space enough: the frame is appended to the TX ring and `State.delivered` left. -/
theorem RunsIn.deliver :
    ∃ m, s.appended (txRing c) (frameImage s.cfg chid ((s.chan c).cseq + 1) ((s.chan c).fseq + 1) payload) m
      ∧ RunsIn (.snd k) (needOf payload.length + 16) ⟨s, acc, [.spaceHead (txRing c), .sendTest c chid payload]⟩
          ⟨s.delivered k c payload.length m, .nat payload.length, []⟩ := by
  obtain ⟨m, happ, hrun⟩ := RunsIn.commit ha hw hm hc (hchans ▸ hc) chid payload hsp .unit
  have hfit := RunsIn.sendFit ha chid payload (by omega : 0 ≤ s.space (txRing c)) acc
  rw [if_neg (by omega)] at hfit
  exact ⟨m, happ, (hfit.trans hrun).mono (by omega)⟩

/-- A parked send that finds space enough when it polls again delivers its frame (R185). -/
theorem RunsIn.deliverParked :
    ∃ m, s.appended (txRing c) (frameImage s.cfg chid ((s.chan c).cseq + 1) ((s.chan c).fseq + 1) payload) m
      ∧ RunsIn (.snd k) (needOf payload.length + 20) ⟨s, acc, [.sendPark c chid payload]⟩
          ⟨s.delivered k c payload.length m, .nat payload.length, []⟩ := by
  obtain ⟨m, happ, hrun⟩ := RunsIn.deliver hw hm hchans ha hc chid payload hsp .unit
  have hready : lineReady (.snd k) (.sendPark c chid payload) s = true :=
    lineReady_of_live ha (by simp [lineEnabled, hsp])
  exact ⟨m, happ, (RunsIn.head hready hrun).mono (by omega)⟩

/-- A send that finds the lock free, the link ready and space enough delivers its frame (R182). -/
theorem RunsIn.deliverLocking (hlock : (s.chan c).txlock = .free) (hready : s.ready = true) :
    ∃ m, s.appended (txRing c) (frameImage s.cfg chid ((s.chan c).cseq + 1) ((s.chan c).fseq + 1) payload) m
      ∧ RunsIn (.snd k) (needOf payload.length + 20) ⟨s, acc, [.sendLock c chid payload]⟩
          ⟨s.delivered k c payload.length m, .nat payload.length, []⟩ := by
  have hcl : c < s.chans.length := hchans ▸ hc
  have hq : (s.setLock c (.held k)).chan c = { s.chan c with txlock := .held k } := chan_setChan_same hcl _
  obtain ⟨m, happ, hrun⟩ := RunsIn.deliver (s := s.setLock c (.held k)) hw hm (by simpa using hchans) ha hc chid
    payload hsp .unit
  rw [hq] at happ
  rw [delivered_setLock hcl] at hrun
  exact ⟨m, happ, ((RunsIn.sendLockReady ha chid payload hlock hready acc).trans hrun).mono (by omega)⟩

end

/-! ### A request that is admitted -/

/-- A fresh sender that has ended is not among the senders. -/
theorem done_newSender {s : State} {k : Nat} (h : ∀ p ∈ s.snds, p.1 < k) (v : Value) :
    s.done (.snd k) v = { s with ret := v } := by
  simp only [State.done, State.setThread, setSender_new h, thread_idle_todo, if_true]

/-- A fresh sender with lines left stands last among the senders. -/
theorem setThread_newSender {s : State} {k : Nat} (h : ∀ p ∈ s.snds, p.1 < k) (acc : Value) (l : Line)
    (rest : List Line) :
    s.setThread (.snd k) ⟨acc, l :: rest⟩ = { s with snds := s.snds ++ [(k, ⟨acc, l :: rest⟩)] } := by
  simp only [State.setThread, setSender_new h, reduceCtorEq, if_false]

section
variable {s t : State} {c b : Nat} {chid : Byte} {payload : List Byte} (hs : s.sane)
  (hadm : refuseSend s c payload.length = none)
include hs hadm

/-- A send that ends within its lines. -/
theorem exec_chSend_ends {v : Value}
    (hr : RunsIn (.snd s.nextSnd) b ⟨{ s with nextSnd := s.nextSnd + 1 }, .unit, [.sendLock c chid payload]⟩
      ⟨t, v, []⟩) (hb : b ≤ sendFuel payload.length) (hsnds : t.snds = s.snds) :
    exec (.chSend c chid payload) s = .next { t with ret := v } := by
  have ⟨_, _, _, hbelow⟩ := hs
  refine congrArg Host.Outcome.next ((requestSend_admitted hs hadm _ chid).trans ?_)
  rw [hr.finish hb, settle_nil, done_newSender (hsnds ▸ hbelow)]

/-- A send that comes to a hold within its lines. -/
theorem exec_chSend_holds {acc : Value} {l : Line} {rest : List Line}
    (hr : RunsIn (.snd s.nextSnd) b ⟨{ s with nextSnd := s.nextSnd + 1 }, .unit, [.sendLock c chid payload]⟩
      ⟨t, acc, l :: rest⟩) (hl : lineReady (.snd s.nextSnd) l t = false) (hb : b ≤ sendFuel payload.length)
    (hsnds : t.snds = s.snds) : exec (.chSend c chid payload) s = .next { t with
      snds := s.snds ++ [(s.nextSnd, ⟨acc, l :: rest⟩)] } := by
  have ⟨_, _, _, hbelow⟩ := hs
  obtain ⟨n, hn, hr⟩ := hr
  refine congrArg Host.Outcome.next ((requestSend_admitted hs hadm _ chid).trans ?_)
  rw [hr.hold hl (hn.trans hb), settle_cons, setThread_newSender (hsnds ▸ hbelow), hsnds]

end

theorem agentLive_snd {s : State} (hst : s.started = true) (hh : s.halted = false) (k : Nat) :
    agentLive s (.snd k) = true := by
  simp [agentLive, hst, hh]

/-- A delivery takes no more lines than its request is given. -/
theorem needOf_le_sendFuel (len : Nat) : needOf len + 20 ≤ sendFuel len := by
  have := fhPad_lt (headerSize + len)
  unfold needOf headerSize sendFuel at *
  omega

/-- Settles O22: the lines from the lock to the return, run by a fresh sender. -/
theorem sendDelivers : Obligations.SendDelivers := by
  intro s c chid payload hs hst hh hc hlen hon hlock hready hsp q w
  have ⟨hw, hm, hchans, _⟩ := hs
  obtain ⟨m, happ, hrun⟩ := RunsIn.deliverLocking (s := { s with nextSnd := s.nextSnd + 1 }) (k := s.nextSnd) hw hm
    hchans (agentLive_snd hst hh s.nextSnd) hc chid payload hsp .unit hlock hready
  refine ⟨m, ?_, happ⟩
  rw [exec_chSend_ends hs (refuseSend_none hst hh hc hlen hon) hrun (needOf_le_sendFuel _) rfl, State.delivered,
    ← hlock]
  rfl

/-! ### A send that waits (R183, R185) -/

/-- An agent whose next line is no step has no effect. -/
theorem advanceAgent_waiting {s : State} {a : Agent} {acc : Value} {l : Line} {rest : List Line}
    (hth : s.thread a = ⟨acc, l :: rest⟩) (hl : lineReady a l s = false) (n : Nat) : advanceAgent n a s = s := by
  have hb : (s.thread a).todo ≠ [] := by rw [hth]; simp
  rw [advanceAgent_busy hb, hth, runLines_held hl, settle_cons, ← hth, setThread_self hb]

/-- A held lock is a hold (R183). -/
theorem sendLock_held {s : State} {c : Nat} (h : (s.chan c).txlock ≠ .free) (a : Agent) (chid : Byte)
    (payload : List Byte) : lineReady a (.sendLock c chid payload) s = false := by
  simp [lineReady, lineEnabled, h]

/-- Too little space, with valid indices, is a hold (R185). -/
theorem sendPark_held {s : State} {c : Nat} {payload : List Byte} (h0 : 0 ≤ s.space (txRing c))
    (h : s.space (txRing c) < (needOf payload.length : Int)) (a : Agent) (chid : Byte) :
    lineReady a (.sendPark c chid payload) s = false := by
  have hne : s.space (txRing c) ≠ corrupt := by unfold corrupt; omega
  simp only [lineReady, lineEnabled, beq_eq_false_iff_ne.2 hne, decide_eq_false (Int.not_le.2 h), Bool.or_self,
    Bool.and_false]

/-- A send that finds the lock free, the link ready and too little space parks with the lock held (R185). -/
theorem RunsIn.park {s : State} {k c : Nat} (ha : agentLive s (.snd k) = true) (chid : Byte) (payload : List Byte)
    (hlock : (s.chan c).txlock = .free) (hready : s.ready = true) (h0 : 0 ≤ s.space (txRing c))
    (h : s.space (txRing c) < (needOf payload.length : Int)) (acc : Value) :
    RunsIn (.snd k) 8 ⟨s, acc, [.sendLock c chid payload]⟩
      ⟨s.setLock c (.held k), .unit, [.sendPark c chid payload]⟩ := by
  have hfit := RunsIn.sendFit (s := s.setLock c (.held k)) (k := k) ha chid payload h0 .unit
  rw [if_pos (show (s.setLock c (.held k)).space (txRing c) < _ from h)] at hfit
  exact (RunsIn.sendLockReady ha chid payload hlock hready acc).trans hfit

/-- A sender in progress has lines enough for a delivery. -/
theorem needOf_le_longRun {s : State} {c len : Nat} (hw : s.cfg.wf = true) (hc : c < s.cfg.nCh)
    (hsp : (needOf len : Int) ≤ s.space (txRing c)) (a : Agent) : needOf len + 20 ≤ longRun s a := by
  obtain ⟨_, hcap, _⟩ := Cfg.capOf_ok hw (r := txRing c) hc
  obtain ⟨_, _, _, hlt⟩ := space_valid (by omega) (by omega : 0 ≤ s.space (txRing c))
  have hb := ringOf_bounds (r := txRing c) hc
  unfold longRun
  omega

/-- An agent whose lines end, given lines enough. -/
theorem advanceAgent_ends {s t : State} {a : Agent} {acc v : Value} {prog : List Line} {b n : Nat}
    (hth : s.thread a = ⟨acc, prog⟩) (hne : prog ≠ []) (hr : RunsIn a b ⟨s, acc, prog⟩ ⟨t, v, []⟩) (hb : b ≤ n) :
    advanceAgent n a s = t.done a v := by
  rw [advanceAgent_busy (by rw [hth]; exact hne), hth, hr.finish hb, settle_nil]

/-- Settles O23: the holds are lines that are no step; lifted, the send goes on to its return. -/
theorem sendWaits : Obligations.SendWaits := by
  intro s c chid payload hs
  have ⟨hw, hm, hchans, _⟩ := hs
  refine ⟨fun hst hh hc hlen hon => ⟨fun j hj => ?_, fun hlock hready h0 hlt => ?_⟩, fun k n acc rest =>
    ⟨fun hth hlock => advanceAgent_waiting hth (sendLock_held hlock _ _ _) n,
      fun hth h0 hlt => advanceAgent_waiting hth (sendPark_held h0 hlt _ _) n⟩,
    fun k acc ha hc _ hsp hphase => ?_⟩
  · have hheld : (s.chan c).txlock ≠ .free := by rw [hj]; simp
    exact exec_chSend_holds hs (refuseSend_none hst hh hc hlen hon) (RunsIn.refl _ _)
      (sendLock_held (s := { s with nextSnd := s.nextSnd + 1 }) hheld _ _ _) (Nat.zero_le _) rfl
  · have hpark := RunsIn.park (s := { s with nextSnd := s.nextSnd + 1 }) (k := s.nextSnd)
      (agentLive_snd hst hh s.nextSnd) chid payload hlock hready h0 hlt .unit
    exact exec_chSend_holds hs (refuseSend_none hst hh hc hlen hon) hpark
      (sendPark_held (s := ({ s with nextSnd := s.nextSnd + 1 } : State).setLock c (.held s.nextSnd)) h0 hlt _ _)
      (by unfold sendFuel; omega) rfl
  · have hlong := needOf_le_longRun (len := payload.length) hw hc hsp (.snd k)
    rcases hphase with hth | ⟨hth, hlock, hready⟩
    · obtain ⟨m, happ, hrun⟩ := RunsIn.deliverParked hw hm hchans ha hc chid payload hsp acc
      exact ⟨m, advanceAgent_ends hth (by simp) hrun hlong, happ⟩
    · obtain ⟨m, happ, hrun⟩ := RunsIn.deliverLocking hw hm hchans ha hc chid payload hsp acc hlock hready
      exact ⟨m, advanceAgent_ends hth (by simp) hrun hlong, happ⟩

/-! ### A send that ends in an error (R184, R190) -/

/-- A send that ends in an error gives back the lock it took, and nothing but the condition and the response is left. -/
theorem sendAbort_setLock {s : State} {c : Nat} (hc : c < s.chans.length) (hlock : (s.chan c).txlock = .free) (k : Nat)
    (l : Lock) (e : Condition) (code : RespCode) :
    sendAbort (s.setLock c l) (.snd k) c e code = ⟨(raise s e).respond (some k) 2 code (.num 0), .unit, []⟩ := by
  have hback : (s.setLock c l).setLock c .free = s := by
    have hq : (s.setLock c l).chan c = { s.chan c with txlock := l } := chan_setChan_same hc _
    have hself : s.chans.set c { s.chan c with txlock := .free } = s.chans := set_chan_self (by rw [← hlock]) hc
    rw [State.setLock, hq]
    simp only [State.setChan, setLock_chans, List.set_set, hself]
    rfl
  rw [sendAbort, hback]
  rfl

/-- An admitted send that takes the lock and ends in an error. -/
theorem exec_chSend_aborts {s : State} {c b : Nat} {chid : Byte} {payload : List Byte} {l : Lock} {e : Condition}
    {code : RespCode} (hs : s.sane) (hadm : refuseSend s c payload.length = none) (hc : c < s.cfg.nCh)
    (hlock : (s.chan c).txlock = .free) :
    let s0 : State := { s with nextSnd := s.nextSnd + 1 }
    RunsIn (.snd s.nextSnd) b ⟨s0, .unit, [.sendLock c chid payload]⟩
      (sendAbort (s0.setLock c l) (.snd s.nextSnd) c e code) → b ≤ sendFuel payload.length →
    exec (.chSend c chid payload) s
      = .next { (raise s0 e).respond (some s.nextSnd) 2 code (.num 0) with ret := .unit } := by
  intro s0 hr hb
  have ⟨_, _, hchans, _⟩ := hs
  rw [sendAbort_setLock (s := s0) (hchans ▸ hc) hlock] at hr
  exact exec_chSend_ends hs hadm hr hb (raise_snds s0 e)

/-- Settles O24: the lines up to the error, the lock taken given back, and the entry actions of the condition. -/
theorem sendErrors : Obligations.SendErrors := by
  intro s c chid payload hs hst hh hc hlen hon hlock
  let s0 : State := { s with nextSnd := s.nextSnd + 1 }
  let s1 : State := s0.setLock c (.held s.nextSnd)
  have ha0 : agentLive s0 (.snd s.nextSnd) = true := agentLive_snd hst hh s.nextSnd
  have ha1 : agentLive s1 (.snd s.nextSnd) = true := agentLive_snd hst hh s.nextSnd
  have hoff : s.lstate.crashed = .offline := crashed_of_ne (by rw [hon]; simp)
  have hadm := refuseSend_none hst hh hc hlen hon
  have hfuel : 7 ≤ sendFuel payload.length := by unfold sendFuel; omega
  refine ⟨fun hready => ?_, fun hready hsp => ?_⟩
  · have hstart := RunsIn.sendLock ha0 chid payload hlock .unit
    rw [show s0.ready = false from hready] at hstart
    rw [exec_chSend_aborts hs hadm hc hlock (hstart.trans (RunsIn.sendNotReady ha1 chid payload)) (by omega),
      raise_peerNotReady, ← hoff]
    simp only [State.respond, State.emit, List.append_assoc]
    rfl
  · have hstart := RunsIn.sendLockReady ha0 chid payload hlock hready .unit
    rw [exec_chSend_aborts hs hadm hc hlock (hstart.trans (RunsIn.sendCorrupt ha1 chid payload hsp .unit)) hfuel,
      raise_ringCorrupt, ← hoff]
    simp only [State.respond, State.emit, List.append_assoc]
    rfl

end Sys2Proof.Machine
end

section
/-! SUPPORT. The save (43_link_device.md R227, R230; 70_reset_and_hazards.md R322, R324): `NV_SAVE` is entered by `LD.SAVE`
alone and left by hardware reset alone; while the link is in it, the move of any agent but a sender rings no more than the
answers of a doorbell-mask word that the save found past N1. -/

namespace Sys2Proof.Machine

/-! ### Into `NV_SAVE` and out of it -/

theorem saveKept_keeps : Keeps fun u => u.lstate = .nvSave where
  toKeepsBut := .of_onward fun _ _ h => h.saveKept
  save := fun _ _ _ _ => by simp

/-- `NV_SAVE` is left by hardware reset only (R230). -/
theorem step_keeps_nvSave {s t : State} (hr : s.placed ≠ none ∨ s.sched.head? ≠ some .reset) (he : step s = .next t)
    (h : s.lstate = .nvSave) : t.lstate = .nvSave := by
  refine saveKept_keeps.step (.of_onward fun _ _ h => h.saveKept) (fun rest hn hs => ?_) (fun p rest u _ _ hu h => ?_) he h
  · exact absurd hr (by simp [hn, hs])
  · rw [(peerStep_private hu).1]; exact h

/-- The tests of `LD.SAVE` (R226, R267). -/
theorem refuseSave_none {s : State} (h : refuseSave s = none) :
    s.started = true ∧ s.halted = false ∧ s.lstate = .online := by
  unfold refuseSave at h
  split_ifs at h with hst hh hl
  exact ⟨by simpa using hst, by simpa using hh, by simpa using hl⟩

/-- Test A5 of `CH.SEND` (R182). -/
theorem refuseSend_online {s : State} {c len : Nat} (h : refuseSend s c len = none) : s.lstate = .online := by
  unfold refuseSend at h
  split_ifs at h with _ _ _ _ hl
  simpa using hl

/-- The link is in `NV_SAVE` only if `s` is a state that a save may take there. -/
def State.savedFrom (s u : State) : Prop :=
  u.lstate = .nvSave → s.lstate = .online ∧ s.started = true ∧ s.halted = false

theorem savedFrom_of_onward {s t u : State} (h : Onward t u) (ht : s.savedFrom t) : s.savedFrom u := ht ∘ h.saveEntered

theorem savedFrom_keepsBut (s : State) : KeepsBut s.savedFrom := .of_onward fun _ _ => savedFrom_of_onward

/-- `LD.SAVE` in a state that agrees with `s` in the registers it tests. -/
theorem savedFrom_requestSave {s u : State} (hl : u.lstate = s.lstate) (hst : u.started = s.started)
    (hh : u.halted = s.halted) (h : s.savedFrom u) (n : Nat) : s.savedFrom (requestSave n u) := by
  unfold requestSave
  cases hr : refuseSave u with
  | some code => exact h
  | none =>
    obtain ⟨h1, h2, h3⟩ := refuseSave_none hr
    exact fun _ => ⟨hl ▸ h3, hst ▸ h1, hh ▸ h2⟩

/-- `NV_SAVE` is entered from `ONLINE` only, in a running engine (R227, R230). -/
theorem step_enters_nvSave {s t : State} (he : step s = .next t) (hne : s.lstate ≠ .nvSave) : s.savedFrom t := by
  have hs : s.savedFrom s := fun h => absurd h hne
  exact (savedFrom_keepsBut s).step (.of_onward fun _ _ => savedFrom_of_onward)
    (fun _ n _ => savedFrom_requestSave (u := { s with placed := none }) rfl rfl rfl hs n)
    (fun _ rest n _ _ => savedFrom_requestSave (u := { s with sched := rest }) rfl rfl rfl hs n)
    (fun _ _ _ _ h => by simp at h)
    (fun _ _ _ _ _ hu h => by rw [(peerStep_private hu).1]; exact h) he hs

/-! ### The move of one agent -/

/-- Everything the move of agent `a` is made of, each keeping `P`. -/
structure KeepsMove (a : Agent) (P : State → Prop) : Prop where
  ret : ∀ s v, P s → P { s with ret := v }
  begins : ∀ s prog, Begins s a prog → P s → P (s.setThread a ⟨.unit, prog⟩)
  line : ∀ l acc k s, s.thread a = ⟨acc, l :: k⟩ → lineReady a l s = true → P s → P (settle a (lineStep a l acc k s))
  dispatch : a = .dw → ∀ s, P s → P (dispatchFrame s)

namespace KeepsMove

variable {a : Agent} {P : State → Prop}

theorem runs (K : KeepsMove a P) (ha : a ≠ .dw) (n : Nat) (o : Out) (h : P (settle a o)) : P (settle a (runLines n a o)) := by
  induction n generalizing o with
  | zero => exact h
  | succ n ih =>
    obtain ⟨s, acc, todo⟩ := o
    cases todo with
    | nil => simpa using h
    | cons l k =>
      cases hr : lineReady a l s with
      | false => rwa [runLines_held hr]
      | true =>
        rw [runLines_ready hr]
        refine ih _ ?_
        rw [← settle_lineStep ha]
        exact K.line l acc k _ (thread_setThread ha (by simp)) (by rwa [setThread_rephase, lineReady_rephase]) h

/-- Beginning an operation and running it. -/
theorem runsBegun (K : KeepsMove a P) (n : Nat) {s : State} {prog : List Line} (hb : Begins s a prog) (h : P s) :
    P (settle a (runLines n a ⟨s, .unit, prog⟩)) := by
  have hp := K.begins s prog hb h
  refine K.runs hb.not_dw n _ ?_
  cases prog with
  | nil => exact K.ret _ _ hp
  | cons l k => exact hp

theorem invoke (K : KeepsMove a P) (n : Nat) {s : State} {prog : List Line} (hb : Begins s a prog) (h : P s) :
    P (Machine.invoke a n prog s) := by
  cases hf : s.free a with
  | true => rw [invoke_free hf]; exact K.runsBegun n hb h
  | false => rwa [invoke_busy hf]

theorem advance (K : KeepsMove a P) (n : Nat) {s : State} (h : P s) : P (advanceAgent n a s) := by
  by_cases hd : a = .dw
  · subst hd; exact K.dispatch rfl s h
  by_cases ht : (s.thread a).todo = []
  · rw [advanceAgent_idle hd ht]
    split_ifs with hw
    · exact K.runsBegun n (wakeLines_begins hw.1) h
    · exact h
  · rw [advanceAgent_busy ht]
    refine K.runs hd n _ ?_
    have hback : settle a ⟨s, (s.thread a).acc, (s.thread a).todo⟩ = s := by
      obtain ⟨l, k, hlk⟩ := List.exists_cons_of_ne_nil ht
      rw [hlk, settle_cons, ← hlk]
      exact setThread_self ht
    rwa [hback]

theorem run (K : KeepsMove a P) (n : Nat) {s : State} (h : P s) : P (runAgent n a s) := by
  induction n generalizing s with
  | zero => exact h
  | succ n ih => exact ih (K.advance _ h)

theorem op (K : KeepsMove a P) {s t : State} (he : runOp a s = .next t) (h : P s) : P t := by
  cases a with
  | isr =>
    simp only [runOp, exec, execLdOnDoorbell] at he
    split_ifs at he
    · cases he; exact K.invoke _ .onDoorbell h
    · cases he; exact h
    · cases he; exact K.advance _ h
  | lw =>
    simp only [runOp, exec, execLdWork] at he
    split_ifs at he
    · cases he; exact h
    · cases he; exact K.invoke _ .work h
    · cases he; exact K.advance _ h
  | dw => cases he; exact K.dispatch rfl s h
  | host => cases he; exact K.advance _ h
  | snd k => cases he; exact K.advance _ h
  | call => cases he; exact K.advance _ h

/-- Each choice that gives `a` the move keeps `P`. -/
theorem choice (K : KeepsMove a P) {ch : Choice} (hm : ch.mover = some a) {s t : State} (he : runChoice ch s = .next t)
    (h : P s) : P t := by
  cases ch with
  | line b => cases hm; cases he; exact K.advance 1 h
  | op b => cases hm; exact K.op he h
  | run b => cases hm; cases he; exact K.run _ h
  | request r => cases hm
  | submit r => cases hm
  | peer p => cases hm
  | reset => cases hm

end KeepsMove

/-! ### What rings -/

/-- From `s` to `t` no doorbell was sent: none is recorded, and no trace of one stands in the mailbox (60_exceptions.md
R282). -/
structure Silent (s t : State) : Prop where
  events : ∃ es, t.events = s.events ++ es ∧ ∀ w, Event.doorbellOut w ∉ es
  mbxOut : t.mbxOut = s.mbxOut
  irqOut : t.irqOutPending = true → s.irqOutPending = true

namespace Silent

theorem of_eq {s t : State} (he : t.events = s.events) (hm : t.mbxOut = s.mbxOut)
    (hi : t.irqOutPending = s.irqOutPending) : Silent s t where
  events := ⟨[], by simp [he], by simp⟩
  mbxOut := hm
  irqOut := fun h => hi ▸ h

theorem refl (s : State) : Silent s s := of_eq rfl rfl rfl

theorem trans {s t u : State} (h : Silent s t) (h' : Silent t u) : Silent s u where
  events := by
    obtain ⟨es, he, hn⟩ := h.events
    obtain ⟨es', he', hn'⟩ := h'.events
    exact ⟨es ++ es', by rw [he', he, List.append_assoc], by simp [hn, hn']⟩
  mbxOut := h'.mbxOut.trans h.mbxOut
  irqOut := h.irqOut ∘ h'.irqOut

theorem emit (s : State) {e : Event} (he : ∀ w, e ≠ .doorbellOut w) : Silent s (s.emit e) where
  events := ⟨[e], rfl, fun w h => he w (List.mem_singleton.1 h).symm⟩
  mbxOut := rfl
  irqOut := id

theorem respond (s : State) (k : Option Nat) (op : BitVec 4) (code : RespCode) (v : RespValue) :
    Silent s (s.respond k op code v) := emit s (by simp)

theorem raise (s : State) (k : Condition) : Silent s (raise s k) where
  events := ⟨_, raise_events s k, by cases k.crash <;> simp⟩
  mbxOut := raise_mbxOut s k
  irqOut := fun h => raise_irqOutPending s k ▸ h

theorem crashPath (s : State) (cause : CrashCause) (c : Nat) : Silent s (crashPath s cause c) where
  events := ⟨_, crashPath_events s cause c, by simp⟩
  mbxOut := rfl
  irqOut := id

theorem setThread (s : State) (a : Agent) (th : Thread) : Silent s (s.setThread a th) :=
  of_eq (by simp) (by simp) (by simp)

theorem settle (a : Agent) (o : Out) : Silent o.st (settle a o) := by
  obtain ⟨s, acc, todo⟩ := o
  cases todo with
  | nil => exact of_eq (by simp) (by simp) (by simp)
  | cons l k => exact setThread s a _

theorem sendAbort (s : State) (a : Agent) (c : Nat) (k : Condition) (code : RespCode) :
    Silent s (sendAbort s a c k code).st :=
  ((of_eq rfl rfl rfl : Silent s (s.setLock c .free)).trans (raise _ k)).trans (respond _ _ _ _ _)

theorem ringCorruptExit (a : Agent) (r : RingId) (k : List Line) (s : State) : Silent s (ringCorruptExit a r k s).st := by
  by_cases ha : ∃ j, a = .snd j
  · obtain ⟨j, rfl⟩ := ha; exact sendAbort s (.snd j) ..
  · rw [ringCorruptExit_other fun j hj => ha ⟨j, hj⟩]; exact raise ..

/-- In `NV_SAVE` the doorbell line is the only one that rings: the one of `CMD.PHONE_START` rings no more (R227). -/
theorem line {a : Agent} {l : Line} {acc : Value} {k : List Line} {s : State} (hs : s.lstate = .nvSave)
    (hd : ∀ w, l ≠ .doorbell w) : Silent s (lineStep a l acc k s).st := by
  cases l
  case doorbell w => exact absurd rfl (hd w)
  case phoneRing => simp only [lineStep, linePhoneRing, if_pos hs]; exact refl s
  case ringCorrupt r => exact ringCorruptExit ..
  case sendReady c chid payload =>
    simp only [lineStep, lineSendReady]
    split_ifs
    · exact refl s
    · exact sendAbort ..
  case sendTest c chid payload =>
    simp only [lineStep, lineSendTest]
    split_ifs
    · exact sendAbort ..
    · exact refl s
  case sendFit c chid payload =>
    simp only [lineStep, lineSendFit]
    split
    · split_ifs
      · exact raise s (.txNoSpace c)
      · exact refl s
    · exact refl s
  case sendReturn c len => exact respond s _ _ _ _
  case recvAvail c =>
    simp only [lineStep, lineRecvAvail]
    split
    · split_ifs
      · exact raise s (.ringCorrupt (rxRing c))
      · exact refl s
    · exact refl s
  case recvLoop c m n =>
    simp only [lineStep, lineRecvLoop]
    split_ifs
    · exact refl s
    · exact raise s (.badLength c)
    · exact refl s
  case recvMagic c m n =>
    simp only [lineStep, lineRecvMagic]
    split_ifs
    · exact raise s (.badMagic c)
    · exact refl s
  case recvLength c m n =>
    simp only [lineStep, lineRecvLength]
    split
    · exact refl s
    · exact raise s (.badLength c)
  case recvSize c d m n =>
    simp only [lineStep, lineRecvSize]
    split_ifs
    · exact raise s (.badLength c)
    · exact refl s
  case frameRxTest c d =>
    simp only [lineStep, lineFrameRxTest]
    split_ifs
    · exact raise s (.ringCorrupt (rxRing c))
    · exact refl s
  case frameRxSize c d =>
    simp only [lineStep, lineFrameRxSize]
    split
    · split_ifs
      · exact raise s (.badLength c)
      · exact refl s
    · exact refl s
  case noncmdReady w =>
    simp only [lineStep, lineNoncmdReady]
    split_ifs
    · exact refl s
    · exact raise s (.peerNotReady 0)
  case crashAct => exact raise s .crashCmd
  case crash cause c => exact crashPath s cause c
  case isrPush w =>
    simp only [lineStep, lineIsrPush]
    split_ifs
    · exact of_eq rfl rfl rfl
    · exact raise s .wqOverflow
  case startReturn => exact respond s _ _ _ _
  case saveDone => exact respond s _ _ _ _
  case rqWrite r src => simp only [lineStep, lineRqWrite]; split_ifs <;> exact refl s
  case rqRead r len => simp only [lineStep, lineRqRead]; split_ifs <;> exact refl s
  case rqPeek r off len => simp only [lineStep, lineRqPeek]; split_ifs <;> exact refl s
  case ackReq c w => simp only [lineStep, lineAckReq]; split_ifs <;> exact refl s
  case work => simp only [lineStep, lineWork]; split <;> exact of_eq rfl rfl rfl
  case noncmd w => simp only [lineStep, lineNoncmd]; split_ifs <;> exact refl s
  case phoneStart => simp only [lineStep, linePhoneStart, if_pos hs]; exact refl s
  case setOnline => simp only [lineStep, lineSetOnline, if_pos hs]; exact refl s
  case crashExit => simp only [lineStep, lineCrashExit, if_pos hs]; exact refl s
  all_goals exact of_eq rfl rfl rfl

theorem dispatch (s : State) : Silent s (dispatchFrame s) := by
  unfold dispatchFrame
  split
  · exact refl s
  next f q hq =>
    have hpop : Silent s { s with rxq := q } := of_eq rfl rfl rfl
    split_ifs
    · exact hpop.trans (emit _ (e := .deliver f.chid f.payload) (by simp))
    · exact hpop.trans (raise _ .noSink)

/-- `PEER` takes a pending doorbell, and sends none (60_exceptions.md R286). -/
theorem peer {p : PeerAct} {s t : State} (h : peerStep p s = .next t) : Silent s t := by
  have out : ∀ {u : State} {e : Event}, Silent s u → (∀ w, e ≠ .doorbellOut w) → Silent s (u.emit e) :=
    fun hu he => hu.trans (emit _ he)
  cases p <;> simp only [peerStep, peerByte, peerWord] at h
  case takeDoorbell =>
    cases h
    exact out (u := { s with irqOutPending := false }) ⟨⟨[], by simp, by simp⟩, rfl, by simp⟩ (by simp)
  all_goals (try split_ifs at h)
  all_goals cases h
  all_goals exact out (of_eq rfl rfl rfl) (by simp)

end Silent

/-! ### Answers that are due -/

/-- A line of the link worker in `NV_SAVE` makes no answer due where none was: a doorbell-mask word is dropped at its first
line (R218 N1, R227). -/
theorem lineStep_noAnswer {l : Line} {acc : Value} {k : List Line} {s : State} (hs : s.lstate = .nvSave)
    (hok : lineOk s.cfg .lw l) (h : ∀ x ∈ l :: k, x.mayAnswer = false) :
    ∀ x ∈ (lineStep .lw l acc k s).todo, x.mayAnswer = false := by
  have hl : l.mayAnswer = false := h l (List.mem_cons_self ..)
  have hk : ∀ x ∈ k, x.mayAnswer = false := fun x hx => h x (List.mem_cons_of_mem _ hx)
  have pre : ∀ ys : List Line, (∀ x ∈ ys, x.mayAnswer = false) → ∀ x ∈ ys ++ k, x.mayAnswer = false := by
    intro ys hy x hx
    exact (List.mem_append.1 hx).elim (hy x) (hk x)
  have one : ∀ y : Line, y.mayAnswer = false → ∀ x ∈ y :: k, x.mayAnswer = false := fun y hy => pre [y] (by simpa)
  cases l
  case ackReq c w => cases hl
  case noncmdReady w => cases hl
  case doorbell w => cases hl
  case noncmd w => simpa [lineStep, lineNoncmd, hs] using hk
  case phoneStart => simpa [lineStep, linePhoneStart, hs] using hk
  case setOnline => simpa [lineStep, lineSetOnline, hs] using hk
  case phoneRing => simpa [lineStep, linePhoneRing, hs] using hk
  case crashExit => simpa [lineStep, lineCrashExit, hs] using hk
  case work =>
    simp only [lineStep, lineWork]
    split
    · exact hk
    next w q hq =>
      refine pre _ fun x hx => ?_
      generalize decodeStatus s.cfg w = i at hx
      cases i <;> simp only [statusLines, List.mem_singleton, List.not_mem_nil] at hx <;> subst hx <;> rfl
  case rqRead r len =>
    simp only [lineStep, lineRqRead]
    split_ifs
    · exact hk
    · exact one _ rfl
    · rw [show ∀ (a : List Line) (b c : Line), a ++ b :: c :: k = (a ++ [b, c]) ++ k by simp]
      refine pre _ fun x hx => ?_
      rcases List.mem_append.1 hx with hx | hx
      · obtain ⟨off, rfl⟩ := ringLoadLines_load8 hx; rfl
      · simp only [List.mem_cons, List.not_mem_nil, or_false] at hx
        rcases hx with rfl | rfl <;> rfl
  case rqPeek r off len =>
    simp only [lineStep, lineRqPeek]
    split_ifs
    · exact one _ rfl
    · refine pre _ fun x hx => ?_
      obtain ⟨off, rfl⟩ := ringLoadLines_load8 hx; rfl
  case ringCorrupt r => exact fun x hx => hk x (ringCorruptExit_sub hx)
  case availHead r => exact one _ rfl
  case readyMagic => exact one _ rfl
  case recvAvail c =>
    simp only [lineStep, lineRecvAvail]
    split
    · split_ifs
      · exact hk
      · exact one _ rfl
    · exact hk
  case recvLoop c m n =>
    simp only [lineStep, lineRecvLoop]
    split_ifs
    · exact hk
    · exact hk
    · exact pre [_, _] (by simp [Line.mayAnswer])
  case recvDecode c m n => exact one _ rfl
  case recvMagic c m n =>
    simp only [lineStep, lineRecvMagic]
    split_ifs
    · exact hk
    · exact one _ rfl
  case recvLength c m n =>
    simp only [lineStep, lineRecvLength]
    split
    · exact one _ rfl
    · exact hk
  case recvSize c d m n =>
    simp only [lineStep, lineRecvSize]
    split_ifs
    · exact hk
    · exact pre [_, _, _, _] (by simp [Line.mayAnswer])
  case frameRxTest c d =>
    simp only [lineStep, lineFrameRxTest]
    split_ifs
    · exact hk
    · exact one _ rfl
  case frameRxSize c d =>
    simp only [lineStep, lineFrameRxSize]
    split
    · split_ifs
      · exact hk
      · exact pre [_, _, _] (by simp [Line.mayAnswer])
    · exact hk
  all_goals first | exact hk | (exfalso; simp [lineOk] at hok)

/-- The link worker's lines and no other agent's make an answer due. -/
theorem noAnswerDue_setThread {s : State} {a : Agent} {th : Thread} (ha : a = .lw → ∀ l ∈ th.todo, l.mayAnswer = false)
    (h : s.noAnswerDue) : (s.setThread a th).noAnswerDue := by
  cases a
  case lw => exact ha rfl
  all_goals exact h

theorem noAnswerDue_settle {a : Agent} {o : Out} (ha : a = .lw → ∀ l ∈ o.todo, l.mayAnswer = false)
    (h : o.st.noAnswerDue) : (settle a o).noAnswerDue := by
  obtain ⟨s, acc, todo⟩ := o
  cases todo with
  | nil => exact noAnswerDue_setThread (by simp [Thread.idle]) h
  | cons l k => exact noAnswerDue_setThread ha h

/-! ### While the link is in `NV_SAVE` -/

/-- From `s` to `t` nothing rang but response-acks, and nothing at all, with none coming to be due, if none was due
(R194, R227, R324). -/
def State.ringsAnswers (s t : State) : Prop :=
  ∃ es, t.events = s.events ++ es
    ∧ (∀ w, Event.doorbellOut w ∈ es → ∃ c, c < s.cfg.nCh ∧ w = resAckWord s.cfg c)
    ∧ (s.noAnswerDue →
      (∀ w, Event.doorbellOut w ∉ es) ∧ t.mbxOut = s.mbxOut
      ∧ (t.irqOutPending = true → s.irqOutPending = true) ∧ t.noAnswerDue)

theorem ringsAnswers_of_silent {s t : State} (h : Silent s t) (ht : s.noAnswerDue → t.noAnswerDue) : s.ringsAnswers t := by
  obtain ⟨es, he, hn⟩ := h.events
  exact ⟨es, he, fun w hw => absurd hw (hn w), fun hs => ⟨hn, h.mbxOut, h.irqOut, ht hs⟩⟩

theorem ringsAnswers_trans {s t u : State} (hcfg : t.cfg = s.cfg) (h : s.ringsAnswers t) (h' : t.ringsAnswers u) :
    s.ringsAnswers u := by
  obtain ⟨es, he, hw, hq⟩ := h
  obtain ⟨es', he', hw', hq'⟩ := h'
  rw [hcfg] at hw'
  refine ⟨es ++ es', by rw [he', he, List.append_assoc], fun w hm => (List.mem_append.1 hm).elim (hw w) (hw' w), fun hs => ?_⟩
  obtain ⟨hn, hm, hi, ht⟩ := hq hs
  obtain ⟨hn', hm', hi', hu⟩ := hq' ht
  exact ⟨by simp [hn, hn'], hm'.trans hm, hi ∘ hi', hu⟩

/-- The doorbell of an answer, sent by the link worker while it was due. -/
theorem ringsAnswers_doorbell {s : State} {acc : Value} {w : Half} {k : List Line} (ht : s.lw = ⟨acc, .doorbell w :: k⟩)
    (hok : lineOk s.cfg .lw (.doorbell w)) : s.ringsAnswers (settle .lw (lineStep .lw (.doorbell w) acc k s)) := by
  obtain ⟨j, hj⟩ | ⟨-, c, hc, hw⟩ := hok
  · cases hj
  refine ⟨[.doorbellOut w], ?_, fun w' hw' => ⟨c, hc, ?_⟩, fun hs => ?_⟩
  · cases k <;> simp [lineStep]
  · simp only [List.mem_singleton, Event.doorbellOut.injEq] at hw'
    rw [hw', hw]
  · exact absurd (hs (.doorbell w) (by simp [ht])) (by simp [Line.mayAnswer])

/-- A line of any agent but a sender. -/
theorem ringsAnswers_line {a : Agent} (hns : a.sends = false) {l : Line} {acc : Value} {k : List Line} {s : State}
    (hs : s.lstate = .nvSave) (ht : s.thread a = ⟨acc, l :: k⟩) (hok : lineOk s.cfg a l) :
    s.ringsAnswers (settle a (lineStep a l acc k s)) := by
  by_cases hd : ∃ w, l = .doorbell w
  · obtain ⟨w, rfl⟩ := hd
    obtain ⟨j, rfl⟩ | ⟨rfl, -⟩ := id hok
    · cases hns
    · exact ringsAnswers_doorbell ht hok
  · have hlw : (lineStep a l acc k s).st.lw = s.lw := by rw [lineStep_phases]; rfl
    refine ringsAnswers_of_silent ((Silent.line hs fun w hw => hd ⟨w, hw⟩).trans (.settle a _)) fun hn => ?_
    refine noAnswerDue_settle (fun ha => ?_) (by unfold State.noAnswerDue; rwa [hlw])
    subst ha
    refine lineStep_noAnswer hs hok fun x hx => hn x ?_
    rwa [show s.lw = _ from ht]

/-- A machine in `NV_SAVE` whose agents stand at lines of their own, come to from `s` with nothing rung but answers. -/
structure SavedOn (s t : State) : Prop where
  owned : t.owned
  cfg : t.cfg = s.cfg
  saved : t.lstate = .nvSave
  rings : s.ringsAnswers t

theorem SavedOn.next {s t u : State} (h : SavedOn s t) (ho : u.owned) (hcfg : u.cfg = t.cfg) (hs : u.lstate = .nvSave)
    (hr : t.ringsAnswers u) : SavedOn s u :=
  ⟨ho, hcfg.trans h.cfg, hs, ringsAnswers_trans h.cfg h.rings hr⟩

/-- The move of any agent but a sender. -/
theorem SavedOn.keepsMove (s : State) {a : Agent} (hns : a.sends = false) : KeepsMove a (SavedOn s) where
  ret := fun t v h => h.next (owned_keeps.ret t v h.owned) rfl h.saved (ringsAnswers_of_silent (.of_eq rfl rfl rfl) id)
  begins := fun t prog hb h =>
    h.next (owned_setThread h.owned fun _ => hb.ok) (by simp) (by simpa using h.saved)
      (ringsAnswers_of_silent (.setThread t a _) (noAnswerDue_setThread fun ha l hl => by
        subst ha; cases hb; rw [List.mem_singleton.1 hl]; rfl))
  line := fun l acc k t ht hr h => by
    have hline := (Onward.line a l acc k t).trans (.settle a _)
    have hok : lineOk t.cfg a l := owned_thread h.owned a l (by simp [ht])
    exact h.next (owned_line ht hr h.owned) hline.cfg (hline.saveKept h.saved) (ringsAnswers_line hns h.saved ht hok)
  dispatch := fun _ t h =>
    h.next (owned_dispatchFrame h.owned) (Onward.dispatch t).cfg ((Onward.dispatch t).saveKept h.saved)
      (ringsAnswers_of_silent (.dispatch t) fun hn => by
        unfold dispatchFrame; split
        · exact hn
        · split_ifs
          · exact hn
          · simpa [State.noAnswerDue] using hn)

theorem SavedOn.respond {s t : State} (h : SavedOn s t) (k : Option Nat) (op : BitVec 4) (code : RespCode)
    (v : RespValue) : SavedOn s (t.respond k op code v) :=
  h.next (owned_keeps.respond t k op code v h.owned) rfl h.saved (ringsAnswers_of_silent (.respond t k op code v) id)

/-- `LD.START`: `HOST` rings nothing. -/
theorem SavedOn.start {s t : State} (h : SavedOn s t) (n : Nat) : SavedOn s (requestStart n t) := by
  unfold requestStart
  cases hr : refuseStart t with
  | some code => exact h.respond ..
  | none => exact (SavedOn.keepsMove s rfl).invoke n (.start hr) h

/-- `CH.SEND` is refused: the link is down (R182 A5). -/
theorem SavedOn.send {s t : State} (h : SavedOn s t) (n c : Nat) (chid : Byte) (payload : List Byte) :
    SavedOn s (requestSend n c chid payload t) := by
  unfold requestSend
  cases hr : refuseSend t c payload.length with
  | some code => exact h.respond ..
  | none => exact absurd (h.saved.symm.trans (refuseSend_online hr)) (by simp)

/-- `LD.SAVE` is refused: the link is not `ONLINE` (R226). -/
theorem SavedOn.save {s t : State} (h : SavedOn s t) (n : Nat) : SavedOn s (requestSave n t) := by
  unfold requestSave
  cases hr : refuseSave t with
  | some code => exact h.respond ..
  | none =>
    obtain ⟨-, -, hon⟩ := refuseSave_none hr
    exact absurd (h.saved.symm.trans hon) (by simp)

/-- A request, run or only begun. -/
theorem SavedOn.request {s t u : State} (h : SavedOn s t) {ch : Choice} {r : Request}
    (hch : ch = .request r ∨ ch = .submit r) (he : runChoice ch t = .next u) : SavedOn s u := by
  obtain rfl | rfl := hch
  · simp only [runChoice, runWord, decode, decodeRequest] at he
    split_ifs at he <;> cases he
    · exact h.respond ..
    · exact h.start _
    · exact h.send ..
    · exact h.save _
    · exact h.respond ..
  · cases he
    unfold submitRequest
    split_ifs
    · exact h.respond ..
    · exact h.start _
    · exact h.send ..
    · exact h.save _
    · exact h.respond ..

/-- A step in `NV_SAVE`, no sender moving. -/
theorem step_ringsAnswers {s t : State} (he : step s = .next t) (hs : s.lstate = .nvSave) (ho : s.owned)
    (hmove : ∀ ch a, s.sched.head? = some ch → ch.mover = some a → a.sends = false) : s.ringsAnswers t := by
  have hn : s.placed = none := ho.2.1
  cases hc : s.sched with
  | nil =>
    rw [step_idle hn hc] at he
    cases he
    exact ringsAnswers_of_silent (.refl s) id
  | cons ch rest =>
    rw [step_choice hn hc] at he
    have h : SavedOn s { s with sched := rest } :=
      ⟨owned_keeps.sched s rest ho, rfl, hs, ringsAnswers_of_silent (.of_eq rfl rfl rfl) id⟩
    have move : ∀ a, ch.mover = some a → s.ringsAnswers t := fun a ha =>
      ((SavedOn.keepsMove s (hmove ch a (by rw [hc]; rfl) ha)).choice ha he h).rings
    cases ch with
    | line a => exact move a rfl
    | op a => exact move a rfl
    | run a => exact move a rfl
    | request r => exact (h.request (.inl rfl) he).rings
    | submit r => exact (h.request (.inr rfl) he).rings
    | peer p =>
      have hpeer : peerStep p { s with sched := rest } = .next t := he
      have hlw : t.lw = s.lw := by rw [(peerStep_private hpeer).1]
      exact ringsAnswers_trans (t := { s with sched := rest }) rfl h.rings
        (ringsAnswers_of_silent (.peer hpeer) fun hq => by unfold State.noAnswerDue; rwa [hlw])
    | reset =>
      cases he
      exact ringsAnswers_of_silent (.of_eq rfl rfl rfl) fun _ => by simp [State.noAnswerDue]

/-- Settles O59: leaving and entering go by what any line may write and by the tests of `LD.SAVE`; what rings goes by the
move of one agent, line by line. -/
theorem nvSaveTerminal : Obligations.NvSaveTerminal := fun _ _ he =>
  ⟨fun hs hr => step_keeps_nvSave hr he hs, fun ht hs => step_enters_nvSave he hs ht,
    fun hs ho hmove => step_ringsAnswers he hs ho hmove⟩

end Sys2Proof.Machine
end

section
/-! SUPPORT. The link operations run alone: what each answers or leaves, by the runs of its lines (43_link_device.md R211 to
R228). -/

namespace Sys2Proof.Machine

/-! ### LD.STATUS and LD.CHECK_READY (R214, R228) -/

theorem exec_ldStatus (s : State) :
    exec .ldStatus s = .next { s with events := s.events ++ [.response none 0 .ok (.status (statusRecord s))] } := rfl

/-- What the record shows of one channel. -/
theorem statusRecord_chan (s : State) {c : Nat} (h : c < s.chans.length) :
    (statusRecord s).chans[c]? = some ⟨s.chans[c].fseq, s.chans[c].cseq, s.chans[c].pendingAck, s.chans[c].txlock != .free⟩ := by
  simp [statusRecord, h]

/-- Settles O33: the record is a function of the registers R228 names. -/
theorem statusSnapshot : Obligations.StatusSnapshot := by
  intro s
  refine ⟨statusRecord s, exec_ldStatus s, fun h => ?_, fun h => ?_, fun h => ?_, rfl, rfl, rfl, rfl, rfl,
    by simp [statusRecord], fun c h => ⟨_, statusRecord_chan s h, rfl, rfl, rfl, by simp⟩⟩
  · rw [statusRecord, h]; rfl
  · rw [statusRecord, h]; rfl
  · rw [statusRecord, h]; rfl

theorem exec_ldCheckReady (s : State) : exec .ldCheckReady s = .next (invoke .call 2 [.readyMagic] s) := rfl

theorem ready_iff (s : State) : s.ready = true ↔ memRead32 s.mem 0 = s.cfg.ipcMagic ∧ memRead32 s.mem 4 = 1 := by
  simp [State.ready, readyWords, State.load32, offMagic, offAccess]

/-- Settles O36: two reads and the test of the two words. -/
theorem readinessCheck : Obligations.ReadinessCheck := by
  intro s hf
  refine ⟨s.ready, ?_, ready_iff s⟩
  rw [exec_ldCheckReady, (RunsIn.ready (live_of_free hf) .unit []).invoke hf (Nat.le_refl 2)]

/-! ### LD.ON_DOORBELL (R212, R268) -/

theorem exec_ldOnDoorbell_pending {s : State} (h : s.irqInPending = true) :
    exec .ldOnDoorbell s = .next (invoke .isr 3 [.isrClear, .isrGet] s) := by simp [exec, execLdOnDoorbell, h]

/-- I1 and I2: the bit is cleared, the word captured. -/
theorem RunsIn.isrCapture {s : State} (ha : agentLive s .isr = true) (acc : Value) :
    RunsIn .isr 2 ⟨s, acc, [.isrClear, .isrGet]⟩ ⟨{ s with irqInPending := false }, .unit, [.isrPush s.mbxIn]⟩ :=
  RunsIn.head (lineReady_of_live ha rfl) (RunsIn.head (lineReady_of_live ha rfl) (RunsIn.refl _ _))

/-- Settles O34: three lines, the last a push or an overflow. -/
theorem interruptService : Obligations.InterruptService := by
  intro s hf
  have ha := live_of_free hf
  let s1 : State := { s with irqInPending := false }
  have serve : ∀ {t : State}, lineIsrPush s.mbxIn [] s1 = ⟨t, .unit, []⟩ → s.irqInPending = true →
      exec .ldOnDoorbell s = .next (t.done .isr .unit) := by
    intro t hpush hp
    have hlast : RunsIn .isr 1 ⟨s1, .unit, [.isrPush s.mbxIn]⟩ ⟨t, .unit, []⟩ :=
      RunsIn.head (lineReady_of_live ha rfl) (hpush ▸ RunsIn.refl _ _)
    rw [exec_ldOnDoorbell_pending hp, ((RunsIn.isrCapture ha .unit).trans hlast).invoke hf (Nat.le_refl 3)]
  refine ⟨fun hp hroom => serve ?_ hp, fun hp hfull => serve ?_ hp, fun hp => ?_⟩
  · exact if_pos hroom
  · rw [lineIsrPush, if_neg (Nat.not_lt.2 hfull), raise_wqOverflow]
  · simp [exec, execLdOnDoorbell, hp]

/-! ### The received words -/

theorem exec_dbInvalid (w : Half) (s : State) : exec (.dbInvalid w) s = .next (invoke .lw 1 [] s) := rfl

theorem exec_cmdOther (w : Half) (s : State) : exec (.cmdOther w) s = .next (invoke .lw 1 [] s) := rfl

theorem exec_cmdPhoneStart (s : State) :
    exec .cmdPhoneStart s = .next (invoke .lw (phoneStartFuel s.cfg) [.phoneStart] s) := rfl

theorem exec_cmdCrashExit (s : State) : exec .cmdCrashExit s = .next (invoke .lw 2 [.crashExit] s) := rfl

theorem exec_dbNoncmd (w : Half) (s : State) :
    exec (.dbNoncmd w) s = .next (invoke .lw (noncmdFuel s.cfg) [.noncmd w] s) := rfl

theorem le_noncmdFuel (cfg : Cfg) : 8 ≤ noncmdFuel cfg := Nat.le_add_right _ _

section
variable {s : State} (ha : agentLive s .lw = true) (acc : Value) (k : List Line)
include ha

/-- N1 outside `ONLINE` (R218). -/
theorem RunsIn.noncmdIgnored (h : s.lstate ≠ .online) (w : Half) : RunsIn .lw 1 ⟨s, acc, .noncmd w :: k⟩ ⟨s, .unit, k⟩ := by
  refine RunsIn.head (lineReady_of_live ha rfl) ?_
  simp only [lineStep, lineNoncmd, if_neg h]
  exact RunsIn.refl _ _

/-- N1 while `ONLINE`, and the readiness check. -/
theorem RunsIn.noncmdChecks (h : s.lstate = .online) (w : Half) :
    RunsIn .lw 3 ⟨s, acc, .noncmd w :: k⟩ ⟨s, .bool s.ready, .noncmdReady w :: k⟩ := by
  refine RunsIn.head (lineReady_of_live ha rfl) ?_
  simp only [lineStep, lineNoncmd, if_pos h]
  exact RunsIn.ready ha .unit _

/-- N2 where the link is not ready (R264). -/
theorem RunsIn.noncmdAbandons (h : s.lstate = .online) (hr : s.ready = false) (w : Half) :
    RunsIn .lw 4 ⟨s, acc, .noncmd w :: k⟩ ⟨raise s (.peerNotReady 0), .unit, k⟩ := by
  have hin := RunsIn.noncmdChecks ha acc k h w
  rw [hr] at hin
  exact hin.trans (RunsIn.head (lineReady_of_live ha rfl) (RunsIn.refl _ _))

/-- N2 where it is ready: the channel loop follows. -/
theorem RunsIn.noncmdVisits (h : s.lstate = .online) (hr : s.ready = true) (w : Half) :
    RunsIn .lw 4 ⟨s, acc, .noncmd w :: k⟩ ⟨s, .unit, channelLines s.cfg w ++ k⟩ := by
  have hin := RunsIn.noncmdChecks ha acc k h w
  rw [hr] at hin
  exact hin.trans (RunsIn.head (lineReady_of_live ha rfl) (RunsIn.refl _ _))

/-- The first line of `CMD.PHONE_START` in `NV_SAVE` (R220). -/
theorem RunsIn.phoneStartDropped (h : s.lstate = .nvSave) : RunsIn .lw 1 ⟨s, acc, .phoneStart :: k⟩ ⟨s, .unit, k⟩ := by
  refine RunsIn.head (lineReady_of_live ha rfl) ?_
  simp only [lineStep, linePhoneStart, if_pos h]
  exact RunsIn.refl _ _

/-- The first line of `CMD.CRASH_EXIT` in `NV_SAVE` (R222). -/
theorem RunsIn.crashExitDropped (h : s.lstate = .nvSave) : RunsIn .lw 1 ⟨s, acc, .crashExit :: k⟩ ⟨s, .unit, k⟩ := by
  refine RunsIn.head (lineReady_of_live ha rfl) ?_
  simp only [lineStep, lineCrashExit, if_pos h]
  exact RunsIn.refl _ _

/-- `CMD.CRASH_EXIT` outside `NV_SAVE` (R222). -/
theorem RunsIn.crashExit (h : s.lstate ≠ .nvSave) :
    RunsIn .lw 2 ⟨s, acc, .crashExit :: k⟩ ⟨raise s .crashCmd, .unit, k⟩ := by
  refine RunsIn.head (lineReady_of_live ha rfl) ?_
  simp only [lineStep, lineCrashExit, if_neg h]
  exact RunsIn.head (lineReady_of_live ha rfl) (RunsIn.refl _ _)

/-- `CMD.PHONE_START` outside `NV_SAVE` (R220, R221). -/
theorem RunsIn.phoneStart (h : s.lstate ≠ .nvSave) :
    RunsIn .lw (phoneStartFuel s.cfg) ⟨s, acc, .phoneStart :: k⟩
      ⟨doorbellOut { s with mem := initChannelsMem s.mem s.cfg.nCh, lstate := .online } (initEndWord s.cfg), .unit, k⟩ := by
  have hinit := RunsIn.chInits ha (List.range s.cfg.nCh) .unit (.setOnline :: k)
  have hring : RunsIn .lw 3 ⟨{ s with mem := initChannelsMem s.mem s.cfg.nCh }, .unit, .setOnline :: k⟩
      ⟨doorbellOut { s with mem := initChannelsMem s.mem s.cfg.nCh, lstate := .online } (initEndWord s.cfg), .unit, k⟩ := by
    refine RunsIn.head (lineReady_of_live ha rfl) ?_
    simp only [lineStep, lineSetOnline, if_neg h]
    exact RunsIn.head (lineReady_of_live ha rfl) (RunsIn.head (lineReady_of_live ha rfl) (RunsIn.refl _ _))
  have hfirst : lineStep .lw .phoneStart acc k s
      = ⟨s, .unit, (List.range s.cfg.nCh).flatMap (chInitLines s.cfg) ++ .setOnline :: k⟩ := if_neg h
  rw [List.length_range] at hinit
  exact RunsIn.head (b := 4 * s.cfg.nCh + 3) (lineReady_of_live ha rfl) (hfirst ▸ hinit.trans hring)

end

/-- Settles O38: an empty program, or a first line that drops the word. -/
theorem wordsDropped : Obligations.WordsDropped := by
  intro s w hf
  have ha := live_of_free hf
  have hnone : invoke .lw 1 [] s = s.done .lw .unit := (RunsIn.refl .lw _).invoke hf (Nat.zero_le 1)
  refine ⟨?_, ?_, fun hs => ⟨?_, ?_, ?_⟩⟩
  · rw [exec_dbInvalid, hnone]
  · rw [exec_cmdOther, hnone]
  · rw [exec_cmdPhoneStart, (RunsIn.phoneStartDropped ha .unit [] hs).invoke hf (by unfold phoneStartFuel; omega)]
  · rw [exec_cmdCrashExit, (RunsIn.crashExitDropped ha .unit [] hs).invoke hf (by decide)]
  · have hoff : s.lstate ≠ .online := by rw [hs]; decide
    have hfuel := le_noncmdFuel s.cfg
    rw [exec_dbNoncmd, (RunsIn.noncmdIgnored ha .unit [] hoff w).invoke hf (by omega)]

/-- Settles O39: N1 drops the word, N2 raises. -/
theorem noncmdGates : Obligations.NoncmdGates := by
  intro s w hf
  have ha := live_of_free hf
  have hfuel := le_noncmdFuel s.cfg
  refine ⟨fun hoff => ?_, fun hon hr => ?_⟩
  · rw [exec_dbNoncmd, (RunsIn.noncmdIgnored ha .unit [] hoff w).invoke hf (by omega)]
  · rw [exec_dbNoncmd, (RunsIn.noncmdAbandons ha .unit [] hon hr w).invoke hf (by omega), raise_peerNotReady,
      crashed_of_ne (by rw [hon]; decide)]

/-- Settles O42: the first line drops the word, or the second raises `CrashCmd`. -/
theorem crashExitTakesDown : Obligations.CrashExitTakesDown := by
  intro s hf
  have ha := live_of_free hf
  refine ⟨fun hs => ?_, fun hs => ?_⟩
  · rw [exec_cmdCrashExit, (RunsIn.crashExitDropped ha .unit [] hs).invoke hf (by decide)]
  · rw [exec_cmdCrashExit, (RunsIn.crashExit ha .unit [] hs).invoke hf (Nat.le_refl 2), raise_crashCmd, crashed_of_ne hs]

/-! ### SHM after an initialisation -/

/-- Four bytes of 0 are the word 0. -/
theorem memRead32_zero {m : List Host.Cell} {off : Nat} (h : ∀ a, off ≤ a → a < off + 4 → memRead m a = 0) :
    memRead32 m off = 0 := by
  rw [memRead32, h off (by omega) (by omega), h (off + 1) (by omega) (by omega), h (off + 2) (by omega) (by omega),
    h (off + 3) (by omega) (by omega)]
  rfl

/-- After `CH.INIT` of `n` channels every word among theirs is 0. -/
theorem memRead32_initChannelsMem {m : List Host.Cell} (hm : memWf m = true) {n off : Nat} (h1 : 8 ≤ off)
    (h2 : off + 4 ≤ 8 + 16 * n) : memRead32 (initChannelsMem m n) off = 0 :=
  memRead32_zero fun a ha hb => by
    rw [(memRead_initChannelsMem hm n a).2, if_pos (by omega)]

/-- Settles O41: every channel is initialised, then the link set `ONLINE` and the doorbell sent. -/
theorem phoneStartBringsUp : Obligations.PhoneStartBringsUp := by
  intro s hs hf hl
  obtain ⟨-, hm, -⟩ := hs
  refine ⟨initChannelsMem s.mem s.cfg.nCh, ?_, (memRead_initChannelsMem hm s.cfg.nCh 0).1, fun c hc => ?_, fun a ha => ?_⟩
  · rw [exec_cmdPhoneStart, (RunsIn.phoneStart (live_of_free hf) .unit [] hl).invoke hf (Nat.le_refl _)]
    rfl
  · have word : ∀ off, 8 ≤ off → off + 4 ≤ 8 + 16 * s.cfg.nCh → memRead32 (initChannelsMem s.mem s.cfg.nCh) off = 0 :=
      fun off => memRead32_initChannelsMem hm
    unfold offTxh offTxt offRxh offRxt
    exact ⟨word _ (by omega) (by omega), word _ (by omega) (by omega), word _ (by omega) (by omega),
      word _ (by omega) (by omega)⟩
  · rw [(memRead_initChannelsMem hm s.cfg.nCh a).2, if_neg]
    unfold offTxh Cfg.offRsvd at ha
    omega

/-! ### LD.START and LD.SAVE: the four phases of initialisation (20_memory.md R79) -/

/-- SHM with every index word, the reserved block and every buffer zeroed. -/
def zeroedMem (cfg : Cfg) (m : List Host.Cell) : List Host.Cell :=
  memWriteBytes (initChannelsMem m cfg.nCh) cfg.offRsvd (List.replicate (cfg.shmSize - cfg.offRsvd) 0)

/-- SHM after the four phases: `access` 0, the region zeroed, the magic, `access` 1. -/
def regionMem (cfg : Cfg) (magic : Word) (m : List Host.Cell) : List Host.Cell :=
  memWrite32 (memWrite32 (zeroedMem cfg (memWrite32 m offAccess 0)) offMagic magic) offAccess 1

/-- The zeroes fill the region above the two sentinel words, and nothing else. -/
theorem memRead_zeroedMem {m : List Host.Cell} (hm : memWf m = true) (cfg : Cfg) (a : Nat) :
    memWf (zeroedMem cfg m) = true ∧
    memRead (zeroedMem cfg m) a = if 8 ≤ a ∧ a < cfg.shmSize then 0 else memRead m a := by
  obtain ⟨hwf, hinit⟩ := memRead_initChannelsMem hm cfg.nCh a
  have hle : cfg.offRsvd ≤ cfg.shmSize := cfg.offRsvd_le_bufBase.trans cfg.bufBase_le_shmSize
  have hoff : cfg.offRsvd = 8 + 16 * cfg.nCh := rfl
  refine ⟨memWf_memWriteBytes hwf _ _, ?_⟩
  rw [zeroedMem, memRead_memWriteBytes hwf, hinit, List.length_replicate]
  by_cases h : cfg.offRsvd ≤ a ∧ a < cfg.offRsvd + (cfg.shmSize - cfg.offRsvd)
  · rw [if_pos h, if_pos (by omega), List.getD_eq_getElem?_getD, List.getElem?_replicate_of_lt (by omega)]
    rfl
  · rw [if_neg h]
    by_cases hidx : 8 ≤ a ∧ a < 8 + 16 * cfg.nCh
    · rw [if_pos hidx, if_pos (by omega)]
    · rw [if_neg hidx, if_neg (by omega)]

/-- The region after an initialisation, and what lies outside it (R211, R226). -/
theorem regionMem_spec {m : List Host.Cell} (hm : memWf m = true) (cfg : Cfg) (magic : Word) :
    memWf (regionMem cfg magic m) = true
    ∧ memRead32 (regionMem cfg magic m) 0 = magic ∧ memRead32 (regionMem cfg magic m) 4 = 1
    ∧ (∀ a, 8 ≤ a → a < cfg.shmSize → memRead (regionMem cfg magic m) a = 0)
    ∧ (∀ a, cfg.shmSize ≤ a → memRead (regionMem cfg magic m) a = memRead m a) := by
  have hclosed : memWf (memWrite32 m offAccess 0) = true := memWf_memWrite32 hm _ _
  have hzero := memRead_zeroedMem hclosed cfg
  have hmagic := memWf_memWrite32 (hzero 0).1 offMagic magic
  have hsize : 8 ≤ cfg.shmSize :=
    (show 8 ≤ cfg.offRsvd by unfold Cfg.offRsvd; omega).trans (cfg.offRsvd_le_bufBase.trans cfg.bufBase_le_shmSize)
  have above : ∀ a, 8 ≤ a → memRead (regionMem cfg magic m) a = memRead (zeroedMem cfg (memWrite32 m offAccess 0)) a := by
    intro a ha
    rw [regionMem, memRead_memWrite32_outside hmagic _ (by unfold offAccess; omega),
      memRead_memWrite32_outside (hzero 0).1 _ (by unfold offMagic; omega)]
  refine ⟨memWf_memWrite32 hmagic _ _, ?_, memRead32_memWrite32_same hmagic _ _, fun a h8 hlt => ?_, fun a hge => ?_⟩
  · rw [regionMem, memRead32_memWrite32_other hmagic _ (.inl (by decide))]
    exact memRead32_memWrite32_same (hzero 0).1 _ _
  · rw [above a h8, (hzero a).2, if_pos ⟨h8, hlt⟩]
  · rw [above a (by omega), (hzero a).2, if_neg (by omega), memRead_memWrite32_outside hm _ (by unfold offAccess; omega)]

/-- The zeroing lines of S2 and V3, wherever they stand. -/
theorem RunsIn.zeroes {a : Agent} {s : State} (ha : agentLive s a = true) (acc : Value) (k : List Line) :
    RunsIn a (4 * s.cfg.nCh + (s.cfg.shmSize - s.cfg.offRsvd)) ⟨s, acc, zeroLines s.cfg ++ k⟩
      ⟨{ s with mem := zeroedMem s.cfg s.mem }, acc, k⟩ := by
  have hwords := RunsIn.chInits ha (List.range s.cfg.nCh) acc
    (storeLines s.cfg.offRsvd (List.replicate (s.cfg.shmSize - s.cfg.offRsvd) 0) ++ k)
  have ha' := (agentLive_mem s (initChannelsMem s.mem s.cfg.nCh) a).trans ha
  have hbytes := (Runs.stores ha' s.cfg.offRsvd (List.replicate (s.cfg.shmSize - s.cfg.offRsvd) 0) acc k).runsIn
  rw [List.length_range, ← List.append_assoc] at hwords
  rw [List.length_replicate] at hbytes
  exact hwords.trans hbytes

/-- The lines of the four phases, up to the last line of the operation. -/
theorem RunsIn.region {a : Agent} {s : State} (ha : agentLive s a = true) (magic : Word) (last : Line) (acc : Value) :
    RunsIn a (4 * s.cfg.nCh + (s.cfg.shmSize - s.cfg.offRsvd) + 6) ⟨s, acc, regionLines s.cfg magic last⟩
      ⟨{ s with mem := regionMem s.cfg magic s.mem }, acc, [last]⟩ := by
  have live : ∀ m, agentLive ({ s with mem := m } : State) a = true := fun m => (agentLive_mem s m a).trans ha
  have store : ∀ m off v k, RunsIn a 1 ⟨{ s with mem := m }, acc, .store32 off v :: k⟩
      ⟨{ s with mem := memWrite32 m off v }, acc, k⟩ := fun m off v k => RunsIn.store32 (live m) off v acc k
  have fence : ∀ m k, RunsIn a 1 ⟨{ s with mem := m }, acc, .fence :: k⟩ ⟨{ s with mem := m }, acc, k⟩ :=
    fun m k => RunsIn.head (lineReady_of_live (live m) rfl) (RunsIn.refl _ _)
  let m1 := memWrite32 s.mem offAccess 0
  let m2 := zeroedMem s.cfg m1
  let m3 := memWrite32 m2 offMagic magic
  let closing : List Line := [.fence, .store32 offMagic magic, .fence, .store32 offAccess 1, last]
  have hclosed : RunsIn a 2 ⟨s, acc, regionLines s.cfg magic last⟩ ⟨{ s with mem := m1 }, acc, zeroLines s.cfg ++ closing⟩ :=
    (store s.mem offAccess 0 _).trans (fence m1 _)
  have hzero : RunsIn a (4 * s.cfg.nCh + (s.cfg.shmSize - s.cfg.offRsvd))
      ⟨{ s with mem := m1 }, acc, zeroLines s.cfg ++ closing⟩ ⟨{ s with mem := m2 }, acc, closing⟩ :=
    RunsIn.zeroes (live m1) acc closing
  have hmagic := (fence m2 (.store32 offMagic magic :: _)).trans (store m2 offMagic magic [.fence, .store32 offAccess 1, last])
  have hopen := (fence m3 (.store32 offAccess 1 :: _)).trans (store m3 offAccess 1 [last])
  exact (hclosed.trans (hzero.trans (hmagic.trans hopen))).mono (by omega)

theorem host_free {s : State} (hh : s.halted = false) (ht : s.host.todo = []) : s.free .host = true :=
  (free_iff s .host).2 ⟨by simp [agentLive, hh], ht⟩

/-- Settles O31: the four phases with `IPC_MAGIC`, then S5 and the response. -/
theorem startInitialises : Obligations.StartInitialises := by
  intro s ⟨_, hm, _⟩ hst hh ht
  have hf := host_free hh ht
  have hadm : exec .ldStart s = .next (invoke .host (regionFuel s.cfg) (startLines s.cfg) s) := by
    simp [exec, execLdStart, requestStart, refuseStart, hst, hh]
  have hspec := regionMem_spec hm s.cfg s.cfg.ipcMagic
  have hregion := RunsIn.region (live_of_free hf) s.cfg.ipcMagic .startDone .unit
  generalize regionMem s.cfg s.cfg.ipcMagic s.mem = m at hspec hregion
  have ha : agentLive ({ s with mem := m } : State) .host = true := live_of_free hf
  have hlast : RunsIn .host 2 ⟨{ s with mem := m }, .unit, [.startDone]⟩
      ⟨({ s with mem := m, started := true } : State).respond none 1 .ok (.num 0), .unit, []⟩ :=
    RunsIn.head (lineReady_of_live ha rfl) (RunsIn.head (lineReady_of_live ha rfl) (RunsIn.refl _ _))
  refine ⟨m, ?_, hspec⟩
  rw [hadm]
  exact congrArg Host.Outcome.next ((hregion.trans hlast).invoke hf (Nat.le_refl _))

/-- Settles O32: `NV_SAVE` with the admission, the four phases with `SAVE_MAGIC`, then the response. -/
theorem saveRetags : Obligations.SaveRetags := by
  intro s ⟨_, hm, _⟩ hst hh hon ht
  let s1 : State := { s with lstate := .nvSave }
  have hf : s1.free .host = true := host_free hh ht
  have hadm : exec .ldSave s = .next (invoke .host (regionFuel s.cfg) (saveLines s.cfg) s1) := by
    simp [exec, execLdSave, requestSave, refuseSave, hst, hh, hon, ht, s1]
  have hspec := regionMem_spec hm s.cfg s.cfg.saveMagic
  have hregion := RunsIn.region (s := s1) (live_of_free hf) s.cfg.saveMagic .saveDone .unit
  change RunsIn _ _ _ ⟨{ s1 with mem := regionMem s.cfg s.cfg.saveMagic s.mem }, _, _⟩ at hregion
  generalize regionMem s.cfg s.cfg.saveMagic s.mem = m at hspec hregion
  have ha : agentLive ({ s1 with mem := m } : State) .host = true := live_of_free hf
  have hlast : RunsIn .host 1 ⟨{ s1 with mem := m }, .unit, [.saveDone]⟩
      ⟨({ s1 with mem := m } : State).respond none 3 .ok (.num 0), .unit, []⟩ :=
    RunsIn.head (lineReady_of_live ha rfl) (RunsIn.refl _ _)
  refine ⟨m, ?_, hspec⟩
  rw [hadm]
  exact congrArg Host.Outcome.next ((hregion.trans hlast).invoke hf (Nat.le_succ _))

end Sys2Proof.Machine
end

section
/-! SUPPORT. A doorbell-mask word as a whole (43_link_device.md R218): within its lines it visits every channel or holds at a
full `RXQ`; where no pass holds it is its channels' operations one after the other. And `LD.WORK` as the operation its word
encodes (R216, R219). -/

namespace Sys2Proof.Machine

/-! ### Runs that end or hold -/

/-- The agent has no step left to take: the operation has returned, or its next line is a hold. -/
def Out.stops (a : Agent) (o : Out) : Prop := ∀ l k, o.todo = l :: k → lineReady a l o.st = false

theorem Out.stops.ended {a : Agent} {s : State} {v : Value} : Out.stops a ⟨s, v, []⟩ := fun _ _ h => by cases h

theorem Out.stops.held {a : Agent} {s : State} {v : Value} {l : Line} {k : List Line} (h : lineReady a l s = false) :
    Out.stops a ⟨s, v, l :: k⟩ := fun _ _ e => by cases e; exact h

/-- Lines beyond those it needs make no difference to such a run. -/
theorem RunsIn.stopped {a : Agent} {b m : Nat} {o o' : Out} (h : RunsIn a b o o') (hs : o'.stops a) (hm : b ≤ m) :
    runLines m a o = o' := by
  obtain ⟨n, hn, hr⟩ := h
  obtain ⟨s, v, todo⟩ := o'
  cases todo with
  | nil => exact hr.finish (hn.trans hm)
  | cons l k => exact hr.hold (hs l k rfl) (hn.trans hm)

theorem RunsIn.invokeStopped {a : Agent} {b fuel : Nat} {s : State} {prog : List Line} {o : Out}
    (h : RunsIn a b ⟨s, .unit, prog⟩ o) (hs : o.stops a) (hf : s.free a = true) (hb : b ≤ fuel) :
    Machine.invoke a fuel prog s = settle a o := by
  rw [invoke_free hf, h.stopped hs hb]

/-! ### The lines of a doorbell-mask word -/

/-- Lines enough for the channels of a list. -/
def visitFuel (cfg : Cfg) (cs : List Nat) : Nat := (cs.map fun c => 8 + recvFuel (cfg.chan c).capRx).sum

theorem visitFuel_cons (cfg : Cfg) (c : Nat) (cs : List Nat) :
    visitFuel cfg (c :: cs) = 8 + recvFuel (cfg.chan c).capRx + visitFuel cfg cs := List.sum_cons

/-- The channels by index are the channels. -/
theorem map_chan_range (cfg : Cfg) : (List.range cfg.nCh).map cfg.chan = cfg.chans := by
  refine List.ext_getElem (by simp [Cfg.nCh]) fun c h1 h2 => ?_
  simp [Cfg.chan, h2]

theorem noncmdFuel_eq (cfg : Cfg) : noncmdFuel cfg = 8 + visitFuel cfg (List.range cfg.nCh) := by
  have hmap : (List.range cfg.nCh).map (fun c => 8 + recvFuel (cfg.chan c).capRx)
      = cfg.chans.map fun k => 8 + recvFuel k.capRx := by
    conv_rhs => rw [← map_chan_range cfg, List.map_map]
    rfl
  rw [noncmdFuel, visitFuel, hmap]

theorem chanLines_range (cfg : Cfg) (w : Half) : chanLines w (List.range cfg.nCh) = channelLines cfg w := rfl

/-- The channels of a word, from the first on (R8: there is one). -/
theorem range_nCh_cons {cfg : Cfg} (hw : cfg.wf = true) : ∃ cs, List.range cfg.nCh = 0 :: cs := by
  obtain ⟨n, hn⟩ := Nat.exists_eq_succ_of_ne_zero (Nat.ne_of_gt (Cfg.nCh_pos hw))
  exact ⟨_, by rw [hn, List.range_succ_eq_map]⟩

/-- A doorbell-mask word ends, or holds, within its lines (R218, R232). -/
theorem noncmd_stops {s : State} (hw : s.cfg.wf = true) (hm : memWf s.mem = true) (ha : agentLive s .lw = true) (w : Half) :
    ∃ o, o.stops .lw ∧ RunsIn .lw (noncmdFuel s.cfg) ⟨s, .unit, [.noncmd w]⟩ o := by
  have hfuel := le_noncmdFuel s.cfg
  by_cases hon : s.lstate = .online
  · cases hr : s.ready with
    | false => exact ⟨_, .ended, (RunsIn.noncmdAbandons ha .unit [] hon hr w).mono (by omega)⟩
    | true =>
      obtain ⟨cs, hcs⟩ := range_nCh_cons hw
      have hin := RunsIn.noncmdVisits ha .unit [] hon hr w
      rw [← chanLines_range, hcs] at hin
      have hsum := noncmdFuel_eq s.cfg
      rw [hcs] at hsum
      obtain ⟨t, -, hgo⟩ := channels_goOn w cs 0 hw hm ha fun x hx => List.mem_range.1 (hcs ▸ hx)
      have hle : 4 + visitFuel s.cfg (0 :: cs) ≤ noncmdFuel s.cfg := by omega
      obtain ⟨v, hrun⟩ | ⟨hfull, rest, hrun⟩ := hgo
      · exact ⟨_, .ended, (hin.trans (hrun s .unit [])).mono hle⟩
      · exact ⟨_, .held (recvHold_held (t := t.rephase s) hfull), (hin.trans (hrun s .unit [])).mono hle⟩
  · exact ⟨_, .ended, (RunsIn.noncmdIgnored ha .unit [] hon w).mono (by omega)⟩

/-! ### LD.WORK -/

/-- The operation of a received word is the run of its lines, and that run ends or holds within the lines that `LD.WORK`
has for it. -/
theorem received_stops {s : State} (hw : s.cfg.wf = true) (hm : memWf s.mem = true) (ha : agentLive s .lw = true) (w : Half) :
    ∃ fuel o, exec (decodeStatus s.cfg w) s = .next (invoke .lw fuel (statusLines (decodeStatus s.cfg w)) s)
      ∧ fuel + 1 ≤ workFuel s.cfg ∧ o.stops .lw
      ∧ RunsIn .lw fuel ⟨s, .unit, statusLines (decodeStatus s.cfg w)⟩ o := by
  have hfuel := le_noncmdFuel s.cfg
  have hwork : workFuel s.cfg = 1 + noncmdFuel s.cfg + phoneStartFuel s.cfg := rfl
  obtain ⟨hi, -⟩ | hi | hi | ⟨hi, -⟩ | ⟨hi, -⟩ :=
    Laws.ReceivedWellFormed.received_cases (cfg := s.cfg) (w := w) (i := decodeStatus s.cfg w) rfl
  all_goals rw [hi]
  · exact ⟨1, _, rfl, by omega, .ended, (RunsIn.refl .lw _).mono (by omega)⟩
  · refine ⟨phoneStartFuel s.cfg, ?_⟩
    by_cases hs : s.lstate = .nvSave
    · exact ⟨_, rfl, by omega, .ended,
        (RunsIn.phoneStartDropped ha .unit [] hs).mono (by unfold phoneStartFuel; omega)⟩
    · exact ⟨_, rfl, by omega, .ended, RunsIn.phoneStart ha .unit [] hs⟩
  · refine ⟨2, ?_⟩
    by_cases hs : s.lstate = .nvSave
    · exact ⟨_, rfl, by omega, .ended, (RunsIn.crashExitDropped ha .unit [] hs).mono (by omega)⟩
    · exact ⟨_, rfl, by omega, .ended, RunsIn.crashExit ha .unit [] hs⟩
  · exact ⟨1, _, rfl, by omega, .ended, (RunsIn.refl .lw _).mono (by omega)⟩
  · obtain ⟨o, ho, hr⟩ := noncmd_stops hw hm ha w
    exact ⟨noncmdFuel s.cfg, o, rfl, by unfold phoneStartFuel at hwork; omega, ho, hr⟩

theorem exec_ldWork_nil {s : State} (h : s.wq = []) : exec .ldWork s = .next s := by simp [exec, execLdWork, h]

theorem exec_ldWork_cons {s : State} {w : Half} {q : List Half} (h : s.wq = w :: q) :
    exec .ldWork s = .next (invoke .lw (workFuel s.cfg) [.work] s) := by simp [exec, execLdWork, h]

/-- The pop and the classification (R216). -/
theorem RunsIn.work {s : State} (ha : agentLive s .lw = true) {w : Half} {q : List Half} (hq : s.wq = w :: q) (acc : Value)
    (k : List Line) :
    RunsIn .lw 1 ⟨s, acc, .work :: k⟩ ⟨{ s with wq := q }, .unit, statusLines (decodeStatus s.cfg w) ++ k⟩ := by
  refine RunsIn.head (lineReady_of_live ha rfl) ?_
  simp only [lineStep, lineWork, hq]
  exact RunsIn.refl _ _

/-- Settles O35: after the pop both run the same lines, to the same end or hold. -/
theorem workRunsItsWord : Obligations.WorkRunsItsWord := by
  intro s ⟨hw, hm, _⟩ hf
  have ha := live_of_free hf
  refine ⟨exec_ldWork_nil, fun w q hq => ?_⟩
  let s1 : State := { s with wq := q }
  have hf1 : s1.free .lw = true := hf
  obtain ⟨fuel, o, hexec, hle, ho, hr⟩ := received_stops (s := s1) hw hm ha w
  refine ⟨decodeStatus s.cfg w, settle .lw o, rfl, ?_, ?_⟩
  · exact hexec.trans (congrArg _ (hr.invokeStopped ho hf1 (Nat.le_refl _)))
  · have hpop := RunsIn.work ha hq .unit []
    rw [List.append_nil] at hpop
    rw [exec_ldWork_cons hq, (hpop.trans hr).invokeStopped ho hf (by rw [Nat.add_comm]; exact hle)]

/-! ### The operations of each channel, one after the other -/

theorem exec_chResAck_free {s : State} {c : Nat} (hc : c < s.cfg.nCh) (hf : s.free .lw = true) (w : Half) :
    exec (.chResAck c w) s = .next (s.done .lw .unit) := by
  have hline := Runs.line (lineReady_of_live (l := .resAck c w) (live_of_free hf) rfl) .unit []
  rw [exec_chResAck hc]
  exact congrArg _ (hline.runsIn.invoke hf (Nat.le_refl 1))

theorem exec_chAckReq_free {s : State} {c : Nat} (hc : c < s.cfg.nCh) (hf : s.free .lw = true) (w : Half) :
    exec (.chAckReq c w) s = .next ((s.acked c w).done .lw .unit) := by
  rw [exec_chAckReq hc, (RunsIn.ackReq (live_of_free hf) c w .unit []).invoke hf (Nat.le_refl 4)]

/-- The handshake neither reads nor writes a phase. -/
theorem acked_phases (s : State) (c : Nat) (w : Half) : s.acked c w = (s.acked c w).rephase s := by
  rw [← acked_rephase, rephase_self]

theorem acked_done (s : State) (c : Nat) (w : Half) (v : Value) : (s.done .lw v).acked c w = (s.acked c w).done .lw v := by
  have h := acked_rephase s (s.done .lw v) c w
  rw [acked_phases s c w]
  exact h

/-- The phases that a state is put back in are all that counts of the other one. -/
theorem rephase_of_rephase (t s p : State) : t.rephase (s.rephase p) = t.rephase p := rfl

theorem rephase_done_lw (t s : State) (v v' : Value) :
    (t.rephase (s.done .lw v)).done .lw v' = (t.rephase s).done .lw v' := rfl

theorem done_lw_rephase (s p : State) (v : Value) : (s.done .lw v).rephase p = s.rephase p := rfl

theorem StillGoing.done_lw {s t : State} (h : StillGoing s t) (v : Value) : StillGoing s (t.done .lw v) := h

theorem free_done_lw {s : State} (h : agentLive s .lw = true) (v : Value) : (s.done .lw v).free .lw = true :=
  (free_iff _ _).2 ⟨h, rfl⟩

/-- One channel's operations: the two acknowledgements leave `State.acked`, the drain pass what it leaves. -/
theorem visitChannels_cons {s u : State} {c : Nat} {w : Half} (hc : c < s.cfg.nCh) (hf : s.free .lw = true)
    (he : exec (.chRecvPending c) ((s.acked c w).done .lw .unit) = .next u) (cs : List Nat) :
    visitChannels w (c :: cs) s = visitChannels w cs u := by
  have hack : exec (.chAckReq c w) (s.done .lw .unit) = .next ((s.acked c w).done .lw .unit) := by
    rw [exec_chAckReq_free (s := s.done .lw .unit) hc (free_done_lw (live_of_free hf) .unit), acked_done]
    rfl
  simp only [visitChannels, exec_chResAck_free hc hf, hack, he]

/-- A worker that holds in front of a full `RXQ` begins none of them. -/
theorem visitChannels_busy {s : State} (hf : s.free .lw = false) (w : Half) {cs : List Nat} (hcs : ∀ c ∈ cs, c < s.cfg.nCh) :
    visitChannels w cs s = .next s := by
  induction cs with
  | nil => rfl
  | cons c cs ih =>
    have hc : c < s.cfg.nCh := hcs c (List.mem_cons_self ..)
    simp only [visitChannels, exec_chResAck hc, exec_chAckReq hc, exec_chRecvPending hc, invoke_busy hf]
    exact ih fun x hx => hcs x (List.mem_cons_of_mem _ hx)

/-- The operations of the channels `cs`, run from `s`, end in `u`, and so do the lines of a doorbell-mask word for them,
within their number and whatever the phases. -/
def VisitsTo (w : Half) (cs : List Nat) (s u : State) : Prop :=
  ∃ (t : State) (v : Value), u = (t.rephase s).done .lw v ∧ ∀ (p : State) (acc : Value) (k : List Line),
    RunsIn .lw (visitFuel s.cfg cs) ⟨s.rephase p, acc, chanLines w cs ++ k⟩ ⟨t.rephase p, v, k⟩

theorem VisitsTo.cons {w : Half} {c : Nat} {cs : List Nat} {s u u' : State} (hcfg : u.cfg = s.cfg) (h : VisitsTo w [c] s u)
    (h' : VisitsTo w cs u u') : VisitsTo w (c :: cs) s u' := by
  obtain ⟨t, v, rfl, hr⟩ := h
  obtain ⟨t', v', rfl, hr'⟩ := h'
  refine ⟨t', v', rfl, fun p acc k => ?_⟩
  have hfirst := hr p acc (chanLines w cs ++ k)
  have hrest := hr' p v k
  rw [hcfg] at hrest
  rw [← List.append_assoc] at hfirst
  exact (hfirst.trans hrest).mono (by simp [visitFuel])

/-- One channel: its operations end where its lines do, or hold. -/
theorem visit_channel {s : State} (hw : s.cfg.wf = true) (hm : memWf s.mem = true) (hf : s.free .lw = true) {c : Nat}
    (hc : c < s.cfg.nCh) (w : Half) :
    ∃ u, exec (.chRecvPending c) ((s.acked c w).done .lw .unit) = .next u ∧ StillGoing s u
      ∧ (u.free .lw = false ∨ u.free .lw = true ∧ VisitsTo w [c] s u) := by
  have ha := live_of_free hf
  have hgo1 : StillGoing s ((s.acked c w).done .lw .unit) := (StillGoing.acked s c w).done_lw .unit
  have hback : ∀ (t : State) (v : Value),
      (t.rephase ((s.acked c w).done .lw .unit)).done .lw v = (t.rephase s).done .lw v := fun t v => by
    rw [rephase_done_lw, acked_phases, rephase_of_rephase]
  have hfive : ∀ (p : State) (acc : Value) (k : List Line), RunsIn .lw 5 ⟨s.rephase p, acc, .resAck c w :: .ackReq c w :: k⟩
      ⟨((s.acked c w).done .lw .unit).rephase p, .unit, k⟩ := fun p acc k => by
    rw [done_lw_rephase, ← acked_rephase]
    exact RunsIn.head (lineReady_of_live ha rfl) (RunsIn.ackReq (s := s.rephase p) ha c w .unit k)
  have hf1 : ((s.acked c w).done .lw .unit).free .lw = true := free_done_lw (((StillGoing.acked s c w).live .lw).trans ha) _
  generalize (s.acked c w).done .lw .unit = s1 at hgo1 hback hfive hf1
  have hc1 : c < s1.cfg.nCh := by rw [hgo1.1]; exact hc
  obtain ⟨t, hgo, hr⟩ := recv_goesOn (s := s1) (by rw [hgo1.1]; exact hw) (hgo1.2.1 hm) (live_of_free hf1) hc1
  have hexec := exec_chRecvPending hc1
  obtain ⟨v, hrun⟩ | ⟨hfull, rest, hrun⟩ := hr
  · have hlive : agentLive (t.rephase s1) .lw = true := (hgo.live .lw).trans (live_of_free hf1)
    refine ⟨(t.rephase s1).done .lw v, ?_, hgo1.trans hgo, .inr ⟨free_done_lw hlive v, t, v, hback t v, fun p acc k => ?_⟩⟩
    · exact hexec.trans (congrArg _ ((hrun s1 .unit []).invoke hf1 (Nat.le_refl _)))
    · have hall := (hfive p acc _).trans (hrun p .unit k)
      rw [hgo1.1] at hall
      refine RunsIn.mono ?_ (show 5 + recvFuel (s.cfg.chan c).capRx ≤ visitFuel s.cfg [c] by simp [visitFuel])
      simpa [chanLines, visitLines] using hall
  · refine ⟨(t.rephase s1).setThread .lw ⟨.unit, .recvHold :: rest⟩, ?_, hgo1.trans hgo, .inl ?_⟩
    · have hhold := (hrun s1 .unit []).invokeHold hf1 (recvHold_held (t := t.rephase s1) hfull) (Nat.le_refl _)
      simp only [List.append_nil] at hhold
      exact hexec.trans (congrArg _ hhold)
    · rw [Bool.eq_false_iff, Ne, free_iff]
      exact fun h => List.cons_ne_nil _ _ h.2

/-- The operations of the channels, one after the other: if none holds, the lines of the word end where they do. -/
theorem visitChannels_ends (w : Half) (cs : List Nat) : ∀ (c : Nat) {s : State}, s.cfg.wf = true → memWf s.mem = true →
    s.free .lw = true → (∀ x ∈ c :: cs, x < s.cfg.nCh) →
    ∃ t, visitChannels w (c :: cs) s = .next t ∧ (t.lw.todo = [] → VisitsTo w (c :: cs) s t) := by
  induction cs with
  | nil =>
    intro c s hw hm hf hcs
    have hc := hcs c (List.mem_cons_self ..)
    obtain ⟨u, he, hgo, hu⟩ := visit_channel hw hm hf hc w
    refine ⟨u, visitChannels_cons hc hf he [], fun hidle => ?_⟩
    obtain hbusy | ⟨-, hto⟩ := hu
    · have ha : agentLive u .lw = true := (hgo.live .lw).trans (live_of_free hf)
      exact absurd ((free_iff u .lw).2 ⟨ha, hidle⟩) (by simp [hbusy])
    · exact hto
  | cons c' cs ih =>
    intro c s hw hm hf hcs
    have hc := hcs c (List.mem_cons_self ..)
    obtain ⟨u, he, hgo, hu⟩ := visit_channel hw hm hf hc w
    have hrest : ∀ x ∈ c' :: cs, x < u.cfg.nCh := fun x hx => by
      rw [hgo.1]; exact hcs x (List.mem_cons_of_mem _ hx)
    rw [visitChannels_cons hc hf he]
    obtain hbusy | ⟨hfree, hto⟩ := hu
    · refine ⟨u, visitChannels_busy hbusy w hrest, fun hidle => ?_⟩
      have ha : agentLive u .lw = true := (hgo.live .lw).trans (live_of_free hf)
      exact absurd ((free_iff u .lw).2 ⟨ha, hidle⟩) (by simp [hbusy])
    · obtain ⟨t, ht, hend⟩ := ih c' (s := u) (by rw [hgo.1]; exact hw) (hgo.2.1 hm) hfree hrest
      exact ⟨t, ht, fun hidle => hto.cons hgo.1 (hend hidle)⟩

/-! ### Every RX ring empty -/

/-- Nothing but answers went out: the registers of the channels, the mailbox and the record may differ. -/
def State.answered (s t : State) : Prop :=
  t = { s with chans := t.chans, mbxOut := t.mbxOut, irqOutPending := t.irqOutPending, events := t.events }

/-- With the RX rings of the channels empty the lines of a doorbell-mask word do the handshakes and nothing else. -/
theorem RunsIn.visitsEmpty (w : Half) (cs : List Nat) : ∀ {s : State}, agentLive s .lw = true →
    (∀ c ∈ cs, s.avail (rxRing c) = 0) → ∀ (acc : Value) (k : List Line),
    ∃ t v, s.answered t ∧ RunsIn .lw (visitFuel s.cfg cs) ⟨s, acc, chanLines w cs ++ k⟩ ⟨t, v, k⟩ := by
  induction cs with
  | nil => exact fun {s} _ _ acc k => ⟨s, acc, rfl, RunsIn.refl _ _⟩
  | cons c cs ih =>
    intro s ha hempty acc k
    let s1 : State := s.acked c w
    have heq := acked_eq s c w
    have ha1 : agentLive s1 .lw = true := ((StillGoing.acked s c w).live .lw).trans ha
    have havail : ∀ r, s1.avail r = s.avail r := fun r => by simp only [s1]; rw [heq]; rfl
    obtain ⟨t, v, ht, hr⟩ := ih (s := s1) ha1 (fun x hx => (havail _).trans (hempty x (List.mem_cons_of_mem _ hx)))
      (.nat 0) k
    refine ⟨t, v, ?_, ?_⟩
    · unfold State.answered at ht ⊢
      rw [ht]
      simp only [s1]
      rw [heq]
    · have hpass := RunsIn.recvStart ha1 (a := 0) ((havail _).trans (hempty c (List.mem_cons_self ..))) .unit
        (chanLines w cs ++ k)
      have hall := ((RunsIn.ackReq ha c w .unit _).trans (hpass.trans (RunsIn.recvLoopEmpty ha1 c 0 .unit _))).trans hr
      rw [show s1.cfg = s.cfg from (StillGoing.acked s c w).1] at hall
      exact (RunsIn.head (lineReady_of_live (l := .resAck c w) ha rfl) hall).mono (by rw [visitFuel_cons]; unfold recvFuel; omega)

/-- Settles O40: past N2 the word's lines are those of its channels. -/
theorem noncmdVisitsChannels : Obligations.NoncmdVisitsChannels := by
  intro s w ⟨hw, hm, _⟩ hf hon hr
  have ha := live_of_free hf
  have hfuel := noncmdFuel_eq s.cfg
  have hin := RunsIn.noncmdVisits ha .unit [] hon hr w
  rw [← chanLines_range] at hin
  refine ⟨?_, fun hempty => ?_⟩
  · obtain ⟨cs, hcs⟩ := range_nCh_cons hw
    rw [hcs] at hfuel hin ⊢
    obtain ⟨t, ht, hend⟩ := visitChannels_ends w cs 0 hw hm hf fun x hx => List.mem_range.1 (hcs ▸ hx)
    refine ⟨t, ht, fun hidle => ?_⟩
    obtain ⟨t', v, rfl, hrun⟩ := hend hidle
    rw [exec_dbNoncmd, (hin.trans (hrun s .unit [])).invoke hf (by omega)]
  · obtain ⟨t, v, ht, hrun⟩ := RunsIn.visitsEmpty w (List.range s.cfg.nCh) ha
      (fun c hc => hempty c (List.mem_range.1 hc)) .unit []
    refine ⟨t.done .lw v, ?_, rfl, ?_⟩
    · rw [exec_dbNoncmd, (hin.trans hrun).invoke hf (by omega)]
    · rw [State.answered] at ht
      rw [ht]
      exact ⟨rfl, rfl, rfl, hon⟩

end Sys2Proof.Machine
end

section
/-! SUPPORT. `DW.STEP`: what becomes of the oldest frame of `RXQ` (44_dispatch.md R251, R252). -/

namespace Sys2Proof.Machine

/-- `DW.STEP` is one step in every state: no flag and no phase gates it (R250, R254). -/
theorem exec_dwStep (s : State) : exec .dwStep s = .next (dispatchFrame s) := rfl

/-- With `RXQ` empty the worker holds. -/
theorem dispatchFrame_nil {s : State} (hq : s.rxq = []) : dispatchFrame s = s := by
  simp only [dispatchFrame, hq]

/-- A frame whose channel id has a sink is delivered to it. -/
theorem dispatchFrame_sink {s : State} {f : Frame} {q : List Frame} (hq : s.rxq = f :: q)
    (hsink : f.chid ∈ s.cfg.sinks) :
    dispatchFrame s = { s with rxq := q, events := s.events ++ [.deliver f.chid f.payload] } := by
  simp only [dispatchFrame, hq, if_pos hsink, State.emit]

/-- A frame whose channel id has none is discarded, and `NoSink` sets its flag only (R251, R262). -/
theorem dispatchFrame_noSink {s : State} {f : Frame} {q : List Frame} (hq : s.rxq = f :: q)
    (hsink : f.chid ∉ s.cfg.sinks) :
    dispatchFrame s = { s with rxq := q, errstat := s.errstat ||| 0x20 } := by
  simp only [dispatchFrame, hq, if_neg hsink, raise_noSink]

/-- Settles O43, by whether `RXQ` is empty and whether the oldest frame's channel id has a sink. -/
theorem dispatchDelivers : Obligations.DispatchDelivers := by
  intro s
  rw [exec_dwStep]
  refine ⟨fun hempty => ?empty, fun f q hq => ⟨fun hsink => ?sink, fun hsink => ?noSink⟩⟩
  case empty => rw [dispatchFrame_nil hempty]
  case sink => rw [dispatchFrame_sink hq hsink]
  case noSink => rw [dispatchFrame_noSink hq hsink]

end Sys2Proof.Machine
end

section
/-! SUPPORT. The rights of the agents as an invariant of the machine (60_exceptions.md R270, R279). -/

namespace Sys2Proof.Machine

/-- Settles O53: an agent's line leads to lines of its own column, what an agent begins with lies in it, and hardware reset
and `PEER` come with no line. -/
theorem rightsKept : Obligations.RightsKept := by
  intro s t ho he
  have hnothing : s.placed = none := ho.2.1
  exact owned_keeps.stepOwn hnothing (fun _ _ h => owned_hwReset h.1) (fun _ _ _ _ hp h => owned_peerStep hp h) he ho

end Sys2Proof.Machine
end

section
/-! SUPPORT. The steps of `PEER` (60_exceptions.md R286): which accesses are its steps, and what each leaves. -/

namespace Sys2Proof.Machine

/-! ### Which accesses are steps (20_memory.md R74) -/

theorem peerByte_inside {s : State} {off : Nat} (h : off < s.cfg.shmSize) (t : State) : peerByte s off t = .next t :=
  if_pos h

theorem peerByte_outside {s : State} {off : Nat} (h : s.cfg.shmSize ≤ off) (t : State) :
    peerByte s off t = .fault (.outsideShm off) := if_neg (Nat.not_lt.2 h)

theorem peerWord_inside {s : State} {off : Nat} (ha : off % 4 = 0) (h : off + 4 ≤ s.cfg.shmSize) (t : State) :
    peerWord s off t = .next t := by
  rw [peerWord, if_neg (not_not.2 ha), if_pos h]

theorem peerWord_outside {s : State} {off : Nat} (ha : off % 4 = 0) (h : s.cfg.shmSize < off + 4) (t : State) :
    peerWord s off t = .fault (.outsideShm off) := by
  rw [peerWord, if_neg (not_not.2 ha), if_neg (Nat.not_le.2 h)]

theorem peerWord_misaligned {s : State} {off : Nat} (ha : off % 4 ≠ 0) (t : State) :
    peerWord s off t = .refused .notAPeerStep := if_pos ha

/-- Settles O48: an access is a step by its alignment and its place in the region, and a store changes the bytes it names
(E1, E2); the mailbox steps are steps in every state (E3 to E5). -/
theorem peerSteps : Obligations.PeerSteps := by
  intro s off b v w hsane
  obtain ⟨-, hm, -, -⟩ := hsane
  refine ⟨fun hin => ⟨⟨memWrite s.mem off b, ?_, ?_, ?_⟩, ?_⟩, fun hin ha => ⟨⟨memWrite32 s.mem off v, ?_, ?_, ?_⟩, ?_⟩,
    fun hout => ⟨?_, ?_⟩, fun hout ha => ⟨?_, ?_⟩, fun ha => ⟨?_, ?_⟩, rfl, rfl, rfl⟩
  · exact peerByte_inside hin _
  · exact memRead_memWrite_same hm off b
  · exact fun a ha => memRead_memWrite_other hm ha b
  · exact peerByte_inside hin _
  · exact peerWord_inside ha hin _
  · exact memRead32_memWrite32_same hm off v
  · exact fun a houtside => memRead_memWrite32_outside hm v (by unfold inWord at houtside; omega)
  · exact peerWord_inside ha hin _
  · exact peerByte_outside hout _
  · exact peerByte_outside hout _
  · exact peerWord_outside ha hout _
  · exact peerWord_outside ha hout _
  · exact peerWord_misaligned ha _
  · exact peerWord_misaligned ha _

end Sys2Proof.Machine
end

section
/-! SUPPORT. The refusals of the REQ port (60_exceptions.md R267): the first test that applies gives the code, and a refused
request leaves nothing but its response. -/

namespace Sys2Proof.Machine

/-! ### What a refused request leaves -/

theorem exec_ldStart_refused {s : State} {code : RespCode} (h : refuseStart s = some code) :
    exec .ldStart s = .next (s.respond none 1 code (.num 0)) := by
  simp only [exec, execLdStart, requestStart, h]

theorem exec_ldSave_refused {s : State} {code : RespCode} (h : refuseSave s = some code) :
    exec .ldSave s = .next (s.respond none 3 code (.num 0)) := by
  simp only [exec, execLdSave, requestSave, h]

theorem exec_chSend_refused {s : State} {c : Nat} {chid : Byte} {payload : List Byte} {code : RespCode}
    (h : refuseSend s c payload.length = some code) :
    exec (.chSend c chid payload) s = .next (s.respond none 2 code (.num 0)) := by
  simp only [exec, execChSend, requestSend, h]

/-- A reserved `req_op` is no request (30_encoding.md R120). -/
theorem decodeRequest_reserved {r : Request} (h : 4 ≤ r.op.toNat) : decodeRequest r = .reject .badRequest := by
  have hne : ∀ n : BitVec 4, n.toNat < 4 → r.op ≠ n := fun n hn he => by rw [he] at h; omega
  rw [decodeRequest, if_neg (hne 0 (by decide)), if_neg (hne 1 (by decide)), if_neg (hne 2 (by decide)),
    if_neg (hne 3 (by decide))]

theorem runWord_reserved {r : Request} (h : 4 ≤ r.op.toNat) (s : State) :
    runWord (.req r) s = .next (s.respond none r.op .badRequest (.num 0)) := by
  simp only [runWord, decode, decodeRequest_reserved h, rejectFetch]

/-! ### The tests in their order -/

section
variable {s : State}

theorem refuseStart_halted (hh : s.halted = true) : refuseStart s = some .halted := by simp [refuseStart, hh]

theorem refuseStart_started (hh : s.halted = false) (hst : s.started = true) : refuseStart s = some .badState := by
  simp [refuseStart, hh, hst]

theorem refuseSave_notStarted (hst : s.started = false) : refuseSave s = some .notStarted := by simp [refuseSave, hst]

theorem refuseSave_halted (hst : s.started = true) (hh : s.halted = true) : refuseSave s = some .halted := by
  simp [refuseSave, hst, hh]

theorem refuseSave_notOnline (hst : s.started = true) (hh : s.halted = false) (hl : s.lstate ≠ .online) :
    refuseSave s = some .badState := by
  simp [refuseSave, hst, hh, hl]

variable {c len : Nat}

theorem refuseSend_notStarted (hst : s.started = false) : refuseSend s c len = some .notStarted := by
  simp [refuseSend, hst]

theorem refuseSend_halted (hst : s.started = true) (hh : s.halted = true) : refuseSend s c len = some .halted := by
  simp [refuseSend, hst, hh]

variable (hst : s.started = true) (hh : s.halted = false)
include hst hh

theorem refuseSend_badChannel (hc : s.cfg.nCh ≤ c) : refuseSend s c len = some .badChannel := by
  simp [refuseSend, hst, hh, hc]

theorem refuseSend_tooLong (hc : c < s.cfg.nCh) (hlen : 65535 < 12 + len) : refuseSend s c len = some .tooLong := by
  have hfit : lenFits len = false := decide_eq_false (Nat.not_le.2 hlen)
  simp [refuseSend, hst, hh, hc, hfit]

theorem refuseSend_linkDown (hc : c < s.cfg.nCh) (hlen : 12 + len ≤ 65535) (hl : s.lstate ≠ .online) :
    refuseSend s c len = some .linkDown := by
  have hfit : lenFits len = true := decide_eq_true hlen
  simp [refuseSend, hst, hh, hc, hfit, hl]

end

/-- Settles O25, test by test in the order of R267. -/
theorem requestRefusals : Obligations.RequestRefusals := by
  intro s
  refine ⟨fun r hr => runWord_reserved hr s, ⟨_, exec_ldStatus s⟩,
    fun hh => exec_ldStart_refused (refuseStart_halted hh),
    fun hh hst => exec_ldStart_refused (refuseStart_started hh hst),
    fun hst => exec_ldSave_refused (refuseSave_notStarted hst),
    fun hst hh => exec_ldSave_refused (refuseSave_halted hst hh),
    fun hst hh hl => exec_ldSave_refused (refuseSave_notOnline hst hh hl), fun c chid payload => ⟨?_, ?_, ?_⟩⟩
  · exact fun hst => exec_chSend_refused (refuseSend_notStarted hst)
  · exact fun hst hh => exec_chSend_refused (refuseSend_halted hst hh)
  · exact fun hst hh =>
      ⟨fun hc => exec_chSend_refused (refuseSend_badChannel hst hh hc),
        fun hc hlen => exec_chSend_refused (refuseSend_tooLong hst hh hc hlen),
        fun hc hlen hl => exec_chSend_refused (refuseSend_linkDown hst hh hc hlen hl)⟩

end Sys2Proof.Machine
end

section
/-! SUPPORT. `LD.CRASH` run on its own (60_exceptions.md R266; log 3). -/

namespace Sys2Proof.Machine

theorem exec_ldCrash {s : State} {c : Nat} (hc : c < s.cfg.nCh) (cause : CrashCause) :
    exec (.ldCrash cause c) s = .next (invoke .call 1 [.crash cause c] s) := if_neg (Nat.not_le.2 hc)

/-- The crash path is one line. -/
theorem RunsIn.crash {a : Agent} {s : State} (ha : agentLive s a = true) (cause : CrashCause) (c : Nat) (acc : Value)
    (k : List Line) : RunsIn a 1 ⟨s, acc, .crash cause c :: k⟩ ⟨crashPath s cause c, .unit, k⟩ :=
  RunsIn.head (lineReady_of_live ha rfl) (RunsIn.refl _ _)

/-- Settles O37: one line, the crash path. -/
theorem crashPathActs : Obligations.CrashPathActs := by
  intro s cause c hc hf
  rw [exec_ldCrash hc, (RunsIn.crash (live_of_free hf) cause c .unit []).invoke hf (Nat.le_refl 1), crashPath_eq]
  rfl

end Sys2Proof.Machine
end

section
/-! SUPPORT. What the rights bound (60_exceptions.md R270): a relation between states that one line of an agent keeps, at any
line of a kind its lines never leave, is kept however long the agent runs; and the relations that the columns of the
interrupt context, the dispatch worker and `HOST` give. -/

namespace Sys2Proof.Machine

/-! ### The move of an agent -/

/-- At lines of kind `L` agent `a` relates the state before to the state after by `R`, and its lines stay of that kind. -/
structure Confined (a : Agent) (L : Cfg → Line → Prop) (R : State → State → Prop) : Prop where
  refl : ∀ s, R s s
  trans : ∀ s t u, R s t → R t u → R s u
  phase : ∀ s th v, R s { s.setThread a th with ret := v }
  line : ∀ s acc l k, s.cfg.wf = true → memWf s.mem = true → lineReady a l s = true → L s.cfg l →
    R s (lineStep a l acc k s).st
  todo : ∀ s acc l k, s.cfg.wf = true → lineReady a l s = true → L s.cfg l → (∀ x ∈ k, L s.cfg x) →
    ∀ x ∈ (lineStep a l acc k s).todo, L s.cfg x

namespace Confined

variable {a : Agent} {L : Cfg → Line → Prop} {R : State → State → Prop}

theorem runs (K : Confined a L R) (n : Nat) {s : State} (acc : Value) {todo : List Line} (hw : s.cfg.wf = true)
    (hm : memWf s.mem = true) (hL : ∀ l ∈ todo, L s.cfg l) : R s (runLines n a ⟨s, acc, todo⟩).st := by
  induction n generalizing s acc todo with
  | zero => exact K.refl s
  | succ n ih =>
    cases todo with
    | nil => rw [runLines_nil]; exact K.refl s
    | cons l k =>
      cases hr : lineReady a l s with
      | false => rw [runLines_held hr]; exact K.refl s
      | true =>
        have hl : L s.cfg l := hL l (List.mem_cons_self ..)
        have hk : ∀ x ∈ k, L s.cfg x := fun x hx => hL x (List.mem_cons_of_mem _ hx)
        have on := Onward.line a l acc k s
        rw [runLines_ready hr]
        refine K.trans _ _ _ (K.line s acc l k hw hm hr hl) (ih _ ?_ (on.wf hm) ?_)
        · rw [on.cfg]; exact hw
        · rw [on.cfg]; exact K.todo s acc l k hw hr hl hk

theorem settles (K : Confined a L R) (o : Out) : R o.st (settle a o) := by
  obtain ⟨s, acc, todo⟩ := o
  cases todo with
  | nil => exact K.phase s .idle acc
  | cons l k => exact K.phase s ⟨acc, l :: k⟩ (s.setThread a ⟨acc, l :: k⟩).ret

/-- However long the agent runs. -/
theorem advance (K : Confined a L R) (ha : a ≠ .dw) (n : Nat) {s : State} (hw : s.cfg.wf = true)
    (hm : memWf s.mem = true) (hthread : ∀ l ∈ (s.thread a).todo, L s.cfg l) (hwake : ∀ l ∈ wakeLines s a, L s.cfg l) :
    R s (advanceAgent n a s) := by
  by_cases hidle : (s.thread a).todo = []
  · rw [advanceAgent_idle ha hidle]
    split_ifs
    · exact K.trans _ _ _ (K.runs n .unit hw hm hwake) (K.settles _)
    · exact K.refl s
  · rw [advanceAgent_busy hidle]
    exact K.trans _ _ _ (K.runs n _ hw hm hthread) (K.settles _)

/-- The same for a relation that the agent's whole column keeps. -/
theorem advanceOwned (K : Confined a (fun cfg l => lineOk cfg a l) R) (ha : a ≠ .dw) (n : Nat)
    {s : State} (ho : s.owned) (hm : memWf s.mem = true) : R s (advanceAgent n a s) :=
  K.advance ha n ho.1 hm (owned_thread ho a) fun _ hl => (wakeLines_begins (List.ne_nil_of_mem hl)).ok hl

end Confined

/-! ### Outputs and flags -/

theorem outputsOk_of_eq {a : Agent} {s t : State} (h : t.events = s.events) : outputsOk a s t :=
  ⟨[], by rw [h, List.append_nil], by simp⟩

theorem outputsOk_add {a : Agent} {s t : State} {e : Event} (h : t.events = s.events ++ [e]) (he : outputOk a e) :
    outputsOk a s t :=
  ⟨[e], h, by simpa using he⟩

theorem outputsOk_trans {a : Agent} {s t u : State} (h : outputsOk a s t) (h' : outputsOk a t u) : outputsOk a s u := by
  obtain ⟨es, he, hes⟩ := h
  obtain ⟨es', he', hes'⟩ := h'
  exact ⟨es ++ es', by rw [he', he, List.append_assoc], fun e hm => (List.mem_append.1 hm).elim (hes e) (hes' e)⟩

/-- A condition puts out at most a crash notification (60_exceptions.md R261). -/
theorem outputsOk_raise {a : Agent} (ha : ∀ cause c, outputOk a (.crashNotify cause c)) (s : State) (e : Condition) :
    outputsOk a s (raise s e) :=
  ⟨_, raise_events s e, by cases e.crash <;> simp [ha]⟩

/-- The flag of a condition lies outside the bits of `m`. -/
def Condition.spares (e : Condition) (m : BitVec 8) : Bool :=
  match e.bit with
  | some n => (1#8 <<< n) &&& m == 0
  | none => true

theorem or_and_spared {e b m : BitVec 8} (h : b &&& m = 0) : (e ||| b) &&& m = e &&& m := by
  rw [BitVec.and_comm, BitVec.and_or_distrib_left, BitVec.and_comm m b, h, BitVec.and_comm m e]
  exact BitVec.or_zero

theorem setFlag_spares {k : Condition} {m : BitVec 8} (h : k.spares m = true) (e : BitVec 8) :
    setFlag e k &&& m = e &&& m := by
  unfold Condition.spares at h
  unfold setFlag
  cases hb : k.bit with
  | none => rfl
  | some n =>
    rw [hb] at h
    exact or_and_spared (by simpa using h)

/-! ### The interrupt context -/

/-- What the interrupt context changes (43_link_device.md R212, R213). -/
structure IsrColumn (s t : State) : Prop where
  frame : t = { s with
    irqInPending := t.irqInPending, wq := t.wq, errstat := t.errstat, isr := t.isr, ret := t.ret }
  flags : t.errstat &&& 0xEF = s.errstat &&& 0xEF
  wq : s.wq <+: t.wq
  irq : t.irqInPending = true → s.irqInPending = true

theorem IsrColumn.trans {s t u : State} (h : IsrColumn s t) (h' : IsrColumn t u) : IsrColumn s u where
  frame := by
    calc u = { t with irqInPending := u.irqInPending, wq := u.wq, errstat := u.errstat, isr := u.isr, ret := u.ret } :=
          h'.frame
      _ = _ := by rw [h.frame]
  flags := h'.flags.trans h.flags
  wq := h.wq.trans h'.wq
  irq := h.irq ∘ h'.irq

theorem lineOk_isr {cfg : Cfg} {l : Line} (h : lineOk cfg .isr l) :
    l = .isrClear ∨ l = .isrGet ∨ ∃ w, l = .isrPush w := by
  cases l <;> simp [lineOk] at h ⊢

theorem isrColumn_push (w : Half) (k : List Line) (s : State) : IsrColumn s (lineIsrPush w k s).st := by
  unfold lineIsrPush
  split_ifs
  · exact ⟨rfl, rfl, List.prefix_append _ _, id⟩
  · rw [raise_wqOverflow]
    exact ⟨rfl, or_and_spared (by decide), List.prefix_refl _, id⟩

theorem isr_confined : Confined .isr (fun cfg l => lineOk cfg .isr l) IsrColumn where
  refl := fun _ => ⟨rfl, rfl, List.prefix_refl _, id⟩
  trans := fun _ _ _ => .trans
  phase := fun _ _ _ => ⟨rfl, rfl, List.prefix_refl _, id⟩
  line := fun s acc l k _ _ _ hl => by
    obtain rfl | rfl | ⟨w, rfl⟩ := lineOk_isr hl
    · exact ⟨rfl, rfl, List.prefix_refl _, by simp [lineStep, lineIsrClear]⟩
    · exact ⟨rfl, rfl, List.prefix_refl _, id⟩
    · exact isrColumn_push w k s
  todo := fun _ _ _ _ hw hr hl hk => lineStep_ok hw hr hl hk

/-! ### The dispatch worker -/

/-- What the dispatch worker changes (44_dispatch.md R251, R254). -/
structure DwColumn (s t : State) : Prop where
  frame : t = { s with rxq := t.rxq, errstat := t.errstat, events := t.events }
  flags : t.errstat &&& 0xDF = s.errstat &&& 0xDF
  rxq : t.rxq <:+ s.rxq
  outputs : outputsOk .dw s t

theorem dwColumn_dispatchFrame (s : State) : DwColumn s (dispatchFrame s) := by
  cases hq : s.rxq with
  | nil => rw [dispatchFrame_nil hq]; exact ⟨rfl, rfl, List.suffix_refl _, outputsOk_of_eq rfl⟩
  | cons f q =>
    have hpop : q <:+ s.rxq := hq ▸ List.suffix_cons f q
    by_cases hsink : f.chid ∈ s.cfg.sinks
    · rw [dispatchFrame_sink hq hsink]; exact ⟨rfl, rfl, hpop, outputsOk_add rfl ⟨_, _, rfl⟩⟩
    · rw [dispatchFrame_noSink hq hsink]; exact ⟨rfl, or_and_spared (by decide), hpop, outputsOk_of_eq rfl⟩

/-! ### `HOST` -/

/-- What the lines of `HOST` change; that `lstate` is not among it is log 9's reading. -/
structure HostColumn (s t : State) : Prop where
  frame : t = { s with mem := t.mem, started := t.started, host := t.host, ret := t.ret, events := t.events }
  started : s.started = true → t.started = true
  outputs : outputsOk .host s t

theorem HostColumn.trans {s t u : State} (h : HostColumn s t) (h' : HostColumn t u) : HostColumn s u where
  frame := by
    calc u = { t with mem := u.mem, started := u.started, host := u.host, ret := u.ret, events := u.events } := h'.frame
      _ = _ := by rw [h.frame]
  started := h'.started ∘ h.started
  outputs := outputsOk_trans h.outputs h'.outputs

theorem lineOk_host {cfg : Cfg} {l : Line} (h : lineOk cfg .host l) :
    (∃ off b, l = .store8 off b) ∨ (∃ off v, l = .store32 off v) ∨ l = .fence ∨ l = .startDone ∨ l = .startReturn
    ∨ l = .saveDone := by
  cases l <;> simp [lineOk] at h ⊢

theorem host_confined : Confined .host (fun cfg l => lineOk cfg .host l) HostColumn where
  refl := fun _ => ⟨rfl, id, outputsOk_of_eq rfl⟩
  trans := fun _ _ _ => .trans
  phase := fun _ _ _ => ⟨rfl, id, outputsOk_of_eq rfl⟩
  line := fun s acc l k _ _ _ hl => by
    obtain ⟨off, b, rfl⟩ | ⟨off, v, rfl⟩ | rfl | rfl | rfl | rfl := lineOk_host hl
    · exact ⟨rfl, id, outputsOk_of_eq rfl⟩
    · exact ⟨rfl, id, outputsOk_of_eq rfl⟩
    · exact ⟨rfl, id, outputsOk_of_eq rfl⟩
    · exact ⟨rfl, fun _ => rfl, outputsOk_of_eq rfl⟩
    · exact ⟨rfl, id, outputsOk_add rfl (.inl rfl)⟩
    · exact ⟨rfl, id, outputsOk_add rfl (.inr rfl)⟩
  todo := fun _ _ _ _ hw hr hl hk => lineStep_ok hw hr hl hk

end Sys2Proof.Machine
end

section
/-! SUPPORT. The column of the link worker (60_exceptions.md R270; 43_link_device.md R216 to R222): what one of its lines may
do to the state, said once, and the relation that follows. -/

namespace Sys2Proof.Machine

/-! ### Conditions and registers, field by field -/

/-- Raising a condition changes the link state, the two registers of errors and the record of outputs only. -/
theorem raise_frame (s : State) (e : Condition) :
    raise s e = { s with
      lstate := (raise s e).lstate, halted := (raise s e).halted, errstat := (raise s e).errstat
      events := (raise s e).events } := by
  unfold raise
  cases e.crash <;> rfl

/-- What a write to the registers of one channel leaves of them stays as it was in every channel. -/
theorem chan_setChan_field {α : Type} (f : ChanRegs → α) {s : State} {c : Nat} {q : ChanRegs} (h : f q = f (s.chan c))
    (c' : Nat) : f ((s.setChan c q).chan c') = f (s.chan c') := by
  by_cases hc : s.chans.length ≤ c
  · rw [setChan_beyond hc]
  · by_cases he : c' = c
    · subst he; rw [chan_setChan_same (by omega), h]
    · rw [chan_setChan_other he]

theorem chan_congr {s t : State} (h : t.chans = s.chans) (c : Nat) : t.chan c = s.chan c := by
  rw [State.chan, State.chan, h]

/-! ### The column -/

theorem outputOk_crash_lw (cause : CrashCause) (c : Nat) : outputOk .lw (.crashNotify cause c) := .inr ⟨cause, c, rfl⟩

/-- What the link worker changes (R270; 43_link_device.md R218 to R222). -/
structure LwColumn (s t : State) : Prop where
  frame : t = { s with
    mem := t.mem, lstate := t.lstate, halted := t.halted, errstat := t.errstat, chans := t.chans, wq := t.wq, rxq := t.rxq
    mbxOut := t.mbxOut, irqOutPending := t.irqOutPending, lw := t.lw, ret := t.ret, events := t.events }
  flags : t.errstat &&& 0xB0 = s.errstat &&& 0xB0
  wq : t.wq <:+ s.wq
  rxq : s.rxq <+: t.rxq
  outputs : outputsOk .lw s t
  length : t.chans.length = s.chans.length
  regs : ∀ c, (t.chan c).fseq = (s.chan c).fseq ∧ (t.chan c).cseq = (s.chan c).cseq
    ∧ (t.chan c).txlock = (s.chan c).txlock
  shm : ∀ a, a < offTxh 0 ∨ s.cfg.offRsvd ≤ a → memRead t.mem a = memRead s.mem a

namespace LwColumn

theorem refl (s : State) : LwColumn s s where
  frame := rfl
  flags := rfl
  wq := List.suffix_refl _
  rxq := List.prefix_refl _
  outputs := outputsOk_of_eq rfl
  length := rfl
  regs := fun _ => ⟨rfl, rfl, rfl⟩
  shm := fun _ _ => rfl

theorem trans {s t u : State} (h : LwColumn s t) (h' : LwColumn t u) : LwColumn s u where
  frame := by
    calc u = { t with
          mem := u.mem, lstate := u.lstate, halted := u.halted, errstat := u.errstat, chans := u.chans, wq := u.wq
          rxq := u.rxq, mbxOut := u.mbxOut, irqOutPending := u.irqOutPending, lw := u.lw, ret := u.ret
          events := u.events } := h'.frame
      _ = _ := by rw [h.frame]
  flags := h'.flags.trans h.flags
  wq := h'.wq.trans h.wq
  rxq := h.rxq.trans h'.rxq
  outputs := outputsOk_trans h.outputs h'.outputs
  length := h'.length.trans h.length
  regs := fun c =>
    ⟨(h'.regs c).1.trans (h.regs c).1, (h'.regs c).2.1.trans (h.regs c).2.1, (h'.regs c).2.2.trans (h.regs c).2.2⟩
  shm := fun a ha => by
    have hcfg : t.cfg = s.cfg := by rw [h.frame]
    rw [h'.shm a (hcfg ▸ ha), h.shm a ha]

end LwColumn

/-- What one line of the link worker may do to the state. -/
inductive LwDoes (s : State) : State → Prop
  | stays : LwDoes s s
  | stores (off : Nat) (v : Word) : offTxh 0 ≤ off → off + 4 ≤ s.cfg.offRsvd → LwDoes s (s.store32 off v)
  | rings (w : Half) : LwDoes s (doorbellOut s w)
  | raises (e : Condition) : e.spares 0xB0 = true → LwDoes s (raise s e)
  | decrements (c : Nat) (n : BitVec 32) : LwDoes s (s.setChan c { s.chan c with pendingAck := n })
  | pops (w : Half) (q : List Half) : s.wq = w :: q → LwDoes s { s with wq := q }
  | pushes (f : Frame) : LwDoes s { s with rxq := s.rxq ++ [f] }
  | comesOnline : LwDoes s { s with lstate := .online }

/-- The words the link worker stores are index words, which lie between the sentinels and the reserved block. -/
theorem lineOk_lw_store32 {cfg : Cfg} {off : Nat} {v : Word} (h : lineOk cfg .lw (.store32 off v)) :
    offTxh 0 ≤ off ∧ off + 4 ≤ cfg.offRsvd := by
  have hindex : indexOffset cfg off := by
    obtain ⟨c, hc, hoff, -⟩ | ⟨h, -⟩ := h
    · exact ⟨c, hc, .inr (.inr (.inr hoff))⟩
    · exact h
  obtain ⟨c, hc, hoff⟩ := hindex
  simp only [offTxh, offTxt, offRxh, offRxt, Cfg.offRsvd] at hoff ⊢
  omega

/-- One line of the link worker's column does one of these. -/
theorem lineStep_lw_does {s : State} {l : Line} (acc : Value) (k : List Line) (hl : lineOk s.cfg .lw l) :
    LwDoes s (lineStep .lw l acc k s).st := by
  cases l
  case store32 off v => exact .stores off v (lineOk_lw_store32 hl).1 (lineOk_lw_store32 hl).2
  case doorbell w => exact .rings w
  case rqRead r len => simp only [lineStep, lineRqRead]; split_ifs <;> exact .stays
  case rqPeek r off len => simp only [lineStep, lineRqPeek]; split_ifs <;> exact .stays
  case ringCorrupt r => exact .raises (.ringCorrupt r) rfl
  case recvAvail c =>
    simp only [lineStep, lineRecvAvail]
    split
    · split_ifs
      · exact .raises (.ringCorrupt (rxRing c)) rfl
      · exact .stays
    · exact .stays
  case recvLoop c m n =>
    simp only [lineStep, lineRecvLoop]
    split_ifs
    · exact .stays
    · exact .raises (.badLength c) rfl
    · exact .stays
  case recvMagic c m n =>
    simp only [lineStep, lineRecvMagic]
    split_ifs
    · exact .raises (.badMagic c) rfl
    · exact .stays
  case recvLength c m n =>
    simp only [lineStep, lineRecvLength]
    split
    · exact .stays
    · exact .raises (.badLength c) rfl
  case recvSize c d m n =>
    simp only [lineStep, lineRecvSize]
    split_ifs
    · exact .raises (.badLength c) rfl
    · exact .stays
  case recvPush d => exact .pushes _
  case frameRxTest c d =>
    simp only [lineStep, lineFrameRxTest]
    split_ifs
    · exact .raises (.ringCorrupt (rxRing c)) rfl
    · exact .stays
  case frameRxSize c d =>
    simp only [lineStep, lineFrameRxSize]
    split
    · split_ifs
      · exact .raises (.badLength c) rfl
      · exact .stays
    · exact .stays
  case ackReq c w => simp only [lineStep, lineAckReq]; split_ifs <;> exact .stays
  case ackDec c => exact .decrements c _
  case work =>
    simp only [lineStep, lineWork]
    split
    · exact .stays
    next w q hq => exact .pops w q hq
  case noncmd w => simp only [lineStep, lineNoncmd]; split_ifs <;> exact .stays
  case noncmdReady w =>
    simp only [lineStep, lineNoncmdReady]
    split_ifs
    · exact .stays
    · exact .raises (.peerNotReady 0) rfl
  case phoneStart => simp only [lineStep, linePhoneStart]; split_ifs <;> exact .stays
  case setOnline =>
    simp only [lineStep, lineSetOnline]
    split_ifs
    · exact .stays
    · exact .comesOnline
  case phoneRing =>
    simp only [lineStep, linePhoneRing]
    split_ifs
    · exact .stays
    · exact .rings _
  case crashExit => simp only [lineStep, lineCrashExit]; split_ifs <;> exact .stays
  case crashAct => exact .raises .crashCmd rfl
  case load8 | fence | availHead | availTail | readyMagic | readyAccess | recvDecode | recvHold | resAck => exact .stays
  all_goals exact absurd hl (by simp [lineOk])

/-- Whatever it does of these lies in its column. -/
theorem LwDoes.column {s t : State} (hm : memWf s.mem = true) (h : LwDoes s t) : LwColumn s t := by
  have same := LwColumn.refl s
  cases h with
  | stays => exact same
  | stores off v hlo hhi =>
    exact { same with
      frame := rfl
      shm := fun a ha => memRead_memWrite32_outside hm v (by omega) }
  | rings w => exact { same with frame := rfl, outputs := outputsOk_add rfl (.inl ⟨w, rfl⟩) }
  | raises e he =>
    have hregs := chan_congr (raise_chans s e)
    exact {
      frame := raise_frame s e ▸ rfl
      flags := by rw [raise_errstat, setFlag_spares he]
      wq := by rw [raise_wq]
      rxq := by rw [raise_rxq]
      outputs := outputsOk_raise outputOk_crash_lw s e
      length := by rw [raise_chans]
      regs := fun c => by rw [hregs c]; exact ⟨rfl, rfl, rfl⟩
      shm := fun a _ => by rw [raise_mem] }
  | decrements c n =>
    exact { same with
      frame := rfl
      length := List.length_set ..
      regs := fun c' => ⟨chan_setChan_field ChanRegs.fseq (by rfl) c', chan_setChan_field ChanRegs.cseq (by rfl) c',
        chan_setChan_field ChanRegs.txlock (by rfl) c'⟩ }
  | pops w q hq => exact { same with frame := rfl, wq := hq ▸ List.suffix_cons w q }
  | pushes f => exact { same with frame := rfl, rxq := List.prefix_append _ _ }
  | comesOnline => exact { same with frame := rfl }

theorem lw_confined : Confined .lw (fun cfg l => lineOk cfg .lw l) LwColumn where
  refl := LwColumn.refl
  trans := fun _ _ _ => .trans
  phase := fun s _ _ => { LwColumn.refl s with frame := rfl }
  line := fun _ acc _ k _ hm _ hl => (lineStep_lw_does acc k hl).column hm
  todo := fun _ _ _ _ hw hr hl hk => lineStep_ok hw hr hl hk

end Sys2Proof.Machine
end

section
/-! SUPPORT. The column of a sender (60_exceptions.md R270, R278; 42_channel.md R182 to R190): its lines belong to one channel,
and what one of them may do to the state is said once, by that channel. -/

namespace Sys2Proof.Machine

/-! ### The lines of a sender, by their channel -/

/-- A line of a sender of channel `c`: one of the primitives it invokes, or one of `CH.SEND` itself. -/
def onChannel (cfg : Cfg) (c : Nat) (l : Line) : Prop := sendInner cfg c l = true ∨ ∃ past, sendMark l = some (c, past)

/-- A phase of channel `c` is made of its lines. -/
theorem onChannel_of_sendPhase {cfg : Cfg} {c : Nat} {past : Bool} {todo : List Line} (h : sendPhase cfg c past todo) :
    ∀ l ∈ todo, onChannel cfg c l := by
  obtain ⟨pre, m, rfl, hmark, hinner, -⟩ := h
  intro l hl
  rcases List.mem_append.1 hl with hl | hl
  · exact .inl (hinner l hl)
  · rw [List.mem_singleton.1 hl]; exact .inr ⟨past, hmark⟩

theorem eq_txRing {r : RingId} (h : r.dir = .tx) : r = txRing r.c := by
  obtain ⟨d, c⟩ := r
  exact congrArg (RingId.mk · c) h

/-- Every line in a sender's column is one of some channel the engine has. -/
theorem onChannel_of_lineOk {cfg : Cfg} (hw : cfg.wf = true) {j : Nat} {l : Line} (h : lineOk cfg (.snd j) l) :
    ∃ c, c < cfg.nCh ∧ onChannel cfg c l := by
  have any : sendInner cfg 0 l = true → ∃ c, c < cfg.nCh ∧ onChannel cfg c l := fun hl => ⟨0, Cfg.nCh_pos hw, .inl hl⟩
  cases l
  case store8 off b =>
    obtain ⟨c, hc, hlo, hhi⟩ := h
    exact ⟨c, hc, .inl (by simp [sendInner, hlo, hhi])⟩
  case store32 off v =>
    obtain ⟨c, hc, hoff, -⟩ := h
    exact ⟨c, hc, .inl (by simp [sendInner, hoff])⟩
  case fence | doorbell | readyMagic | readyAccess => exact any rfl
  case spaceHead r => exact ⟨r.c, h.2.2, .inl (beq_iff_eq.2 (eq_txRing h.2.1))⟩
  case spaceTail r _ => exact ⟨r.c, h.2.2, .inl (beq_iff_eq.2 (eq_txRing h.2.1))⟩
  case rqWrite r _ => exact ⟨r.c, h.2.2, .inl (beq_iff_eq.2 (eq_txRing h.2.1))⟩
  case ringCorrupt r =>
    obtain ⟨hc, ⟨hlw, -⟩ | ⟨-, hd⟩⟩ := h
    · cases hlw
    · exact ⟨r.c, hc, .inl (beq_iff_eq.2 (eq_txRing hd))⟩
  case sendLock c _ _ => exact ⟨c, h.2, .inr ⟨_, rfl⟩⟩
  case sendReady c _ _ => exact ⟨c, h.2, .inr ⟨_, rfl⟩⟩
  case sendTest c _ _ => exact ⟨c, h.2, .inr ⟨_, rfl⟩⟩
  case sendFit c _ _ => exact ⟨c, h.2, .inr ⟨_, rfl⟩⟩
  case sendPark c _ _ => exact ⟨c, h.2, .inr ⟨_, rfl⟩⟩
  case sendCommit c _ _ => exact ⟨c, h.2, .inr ⟨_, rfl⟩⟩
  case sendEncode c _ _ => exact ⟨c, h.2, .inr ⟨_, rfl⟩⟩
  case sendUnlock c _ => exact ⟨c, h.2, .inr ⟨_, rfl⟩⟩
  case sendReturn c _ => exact ⟨c, h.2, .inr ⟨_, rfl⟩⟩
  all_goals exact absurd h (by simp [lineOk])

/-- What one line of sender `k`, a line of channel `c`, may do to the state. -/
inductive SndDoes (k c : Nat) (s : State) : State → Prop
  | stays : SndDoes k c s s
  | byte (off : Nat) (b : Byte) : s.cfg.baseTx c ≤ off → off < s.cfg.baseTx c + (s.cfg.chan c).capTx →
      SndDoes k c s (s.store8 off b)
  | head (v : Word) : SndDoes k c s (s.store32 (offTxh c) v)
  | rings (w : Half) : SndDoes k c s (doorbellOut s w)
  | regs (q : ChanRegs) : q.pendingAck = (s.chan c).pendingAck → SndDoes k c s (s.setChan c q)
  | aborts (e : Condition) (code : RespCode) : e.spares 0xF6 = true →
      SndDoes k c s (sendAbort s (.snd k) c e code).st
  | answers (code : RespCode) (v : RespValue) : SndDoes k c s (s.respond (some k) 2 code v)

/-- Sender `k` does one of these, and goes on with lines of channel `c` or with what was left. -/
def SndGoes (k c : Nat) (rest : List Line) (s : State) (o : Out) : Prop :=
  SndDoes k c s o.st ∧ ∀ x ∈ o.todo, onChannel s.cfg c x ∨ x ∈ rest

theorem SndGoes.mk_pre {k c : Nat} {rest : List Line} {s t : State} (pre : List Line) (acc : Value)
    (h : SndDoes k c s t) (hpre : ∀ x ∈ pre, onChannel s.cfg c x) : SndGoes k c rest s ⟨t, acc, pre ++ rest⟩ :=
  ⟨h, fun x hx => (List.mem_append.1 hx).imp_left (hpre x)⟩

theorem SndGoes.on {k c : Nat} {rest : List Line} {s t : State} (acc : Value) (h : SndDoes k c s t) :
    SndGoes k c rest s ⟨t, acc, rest⟩ := .mk_pre [] acc h (by simp)

theorem SndGoes.ends {k c : Nat} {rest : List Line} {s : State} (e : Condition) (code : RespCode)
    (he : e.spares 0xF6 = true) : SndGoes k c rest s (sendAbort s (.snd k) c e code) :=
  ⟨.aborts e code he, by simp [sendAbort]⟩

section
variable {s : State} {k c : Nat} {l : Line} (acc : Value) (rest : List Line)

/-- A line of a primitive. -/
theorem lineStep_snd_inner (hr : lineEnabled l s = true) (hl : sendInner s.cfg c l = true) :
    SndGoes k c rest s (lineStep (.snd k) l acc rest s) := by
  cases l
  case readyMagic => exact .mk_pre [_] _ .stays (by simp [onChannel, sendInner])
  case readyAccess | fence => exact .on _ .stays
  case doorbell w => exact .on _ (.rings w)
  case spaceHead r =>
    obtain rfl : r = txRing c := by simpa [sendInner] using hl
    exact .mk_pre [_] _ .stays (by simp [onChannel, sendInner])
  case spaceTail r h => exact .on _ .stays
  case store8 off b =>
    obtain ⟨hlo, hhi⟩ : s.cfg.baseTx c ≤ off ∧ off < s.cfg.baseTx c + (s.cfg.chan c).capTx := by
      simpa [sendInner] using hl
    exact .on _ (.byte off b hlo hhi)
  case store32 off v =>
    obtain rfl : off = offTxh c := by simpa [sendInner] using hl
    exact .on _ (.head v)
  case ringCorrupt r =>
    obtain rfl : r = txRing c := by simpa [sendInner] using hl
    exact .ends _ _ rfl
  case rqWrite r src =>
    obtain rfl : r = txRing c := by simpa [sendInner] using hl
    simp only [lineStep, lineRqWrite]
    split_ifs with hnil hcorrupt
    · exact .on _ .stays
    · exact .mk_pre [_] _ .stays (by simp [onChannel, sendInner])
    · have hlen : src.length < s.cfg.capOf (txRing c) := by simpa [lineEnabled] using hr
      have hstores := SndGoes.mk_pre (k := k) (rest := rest) _ .unit (.stays (s := s)) fun x hx =>
        .inl (sendInner_write (x := x) (by simpa using hcorrupt) hlen hx)
      simpa using hstores
  all_goals cases hl

/-- A line of `CH.SEND` itself (R182). -/
theorem lineStep_snd_marked {past : Bool} (hl : sendMark l = some (c, past)) :
    SndGoes k c rest s (lineStep (.snd k) l acc rest s) := by
  have marked : ∀ {x : Line} {b : Bool}, sendMark x = some (c, b) → ∀ y ∈ [x], onChannel s.cfg c y :=
    fun hx y hy => by rw [List.mem_singleton.1 hy]; exact .inr ⟨_, hx⟩
  have polls : ∀ {x : Line} {b : Bool}, sendMark x = some (c, b) →
      SndGoes k c rest s ⟨s, .unit, [.spaceHead (txRing c), x] ++ rest⟩ := fun hx => by
    refine .mk_pre _ _ .stays fun y hy => ?_
    rcases List.mem_cons.1 hy with rfl | hy
    · exact .inl (by simp [sendInner])
    · exact marked hx y hy
  cases l <;> simp only [sendMark, Option.some.injEq, Prod.mk.injEq, reduceCtorEq] at hl
  all_goals obtain ⟨rfl, -⟩ := hl
  case sendLock chid payload =>
    exact .mk_pre [_, _] _ (.regs _ rfl) (by simp [onChannel, sendInner, sendMark])
  case sendReady chid payload =>
    simp only [lineStep, lineSendReady]
    split_ifs
    · exact polls rfl
    · exact .ends _ _ rfl
  case sendTest chid payload =>
    simp only [lineStep, lineSendTest]
    split_ifs
    · exact .ends _ _ rfl
    · exact .mk_pre [_] _ .stays (marked rfl)
  case sendFit chid payload =>
    simp only [lineStep, lineSendFit, raise_txNoSpace]
    split
    · split_ifs <;> exact .mk_pre [_] _ .stays (marked rfl)
    · exact .mk_pre [_] _ .stays (marked rfl)
  case sendPark chid payload => exact polls rfl
  case sendCommit chid payload => exact .mk_pre [_] _ (.regs _ rfl) (marked rfl)
  case sendEncode chid payload =>
    exact .mk_pre [_, _, _, _, _] _ .stays (by simp [onChannel, sendInner, sendMark])
  case sendUnlock len => exact .mk_pre [_] _ (.regs _ rfl) (marked rfl)
  case sendReturn len => exact .on _ (.answers _ _)

/-- One line of a sender. -/
theorem lineStep_snd_goes (hr : lineReady (.snd k) l s = true) (hl : onChannel s.cfg c l) :
    SndGoes k c rest s (lineStep (.snd k) l acc rest s) := by
  have hen : lineEnabled l s = true := by
    simp only [lineReady, Bool.and_eq_true] at hr; exact hr.2
  obtain hinner | ⟨past, hmark⟩ := hl
  · exact lineStep_snd_inner acc rest hen hinner
  · exact lineStep_snd_marked acc rest hmark

end

/-! ### The column -/

theorem outputOk_crash_snd (k : Nat) (cause : CrashCause) (c : Nat) : outputOk (.snd k) (.crashNotify cause c) :=
  .inr (.inl ⟨cause, c, rfl⟩)

/-- What sender `k` changes (R270; 42_channel.md R182 to R190). -/
structure SndColumn (k : Nat) (s t : State) : Prop where
  frame : t = { s with
    mem := t.mem, lstate := t.lstate, halted := t.halted, errstat := t.errstat, chans := t.chans, mbxOut := t.mbxOut
    irqOutPending := t.irqOutPending, snds := t.snds, ret := t.ret, events := t.events }
  flags : t.errstat &&& 0xF6 = s.errstat &&& 0xF6
  outputs : outputsOk (.snd k) s t
  length : t.chans.length = s.chans.length
  pendingAck : ∀ c, (t.chan c).pendingAck = (s.chan c).pendingAck
  shm : ∀ a, ¬ txByte s.cfg a → (∀ c, c < s.cfg.nCh → ¬ inWord (offTxh c) a) → memRead t.mem a = memRead s.mem a

namespace SndColumn

theorem refl (k : Nat) (s : State) : SndColumn k s s where
  frame := rfl
  flags := rfl
  outputs := outputsOk_of_eq rfl
  length := rfl
  pendingAck := fun _ => rfl
  shm := fun _ _ _ => rfl

theorem trans {k : Nat} {s t u : State} (h : SndColumn k s t) (h' : SndColumn k t u) : SndColumn k s u where
  frame := by
    calc u = { t with
          mem := u.mem, lstate := u.lstate, halted := u.halted, errstat := u.errstat, chans := u.chans
          mbxOut := u.mbxOut, irqOutPending := u.irqOutPending, snds := u.snds, ret := u.ret
          events := u.events } := h'.frame
      _ = _ := by rw [h.frame]
  flags := h'.flags.trans h.flags
  outputs := outputsOk_trans h.outputs h'.outputs
  length := h'.length.trans h.length
  pendingAck := fun c => (h'.pendingAck c).trans (h.pendingAck c)
  shm := fun a hb hh => by
    have hcfg : t.cfg = s.cfg := by rw [h.frame]
    rw [h'.shm a (hcfg ▸ hb) (hcfg ▸ hh), h.shm a hb hh]

/-- Raising a condition of a sender. -/
theorem raise {k : Nat} (s : State) {e : Condition} (he : e.spares 0xF6 = true) : SndColumn k s (raise s e) where
  frame := raise_frame s e ▸ rfl
  flags := by rw [raise_errstat, setFlag_spares he]
  outputs := outputsOk_raise (outputOk_crash_snd k) s e
  length := by rw [raise_chans]
  pendingAck := fun c => by rw [chan_congr (raise_chans s e) c]
  shm := fun a _ _ => by rw [raise_mem]

/-- Writing a channel's sequence registers or its lock. -/
theorem regs {k c : Nat} (s : State) {q : ChanRegs} (hq : q.pendingAck = (s.chan c).pendingAck) :
    SndColumn k s (s.setChan c q) :=
  { refl k s with
    frame := rfl
    length := List.length_set ..
    pendingAck := chan_setChan_field ChanRegs.pendingAck hq }

/-- Answering its own request. -/
theorem answers {k : Nat} (s : State) (code : RespCode) (v : RespValue) :
    SndColumn k s (s.respond (some k) 2 code v) :=
  { refl k s with frame := rfl, outputs := outputsOk_add rfl (.inr (.inr ⟨code, v, rfl⟩)) }

end SndColumn

/-- Whatever a sender does of these lies in its column. -/
theorem SndDoes.column {k c : Nat} {s t : State} (hm : memWf s.mem = true) (hc : c < s.cfg.nCh) (h : SndDoes k c s t) :
    SndColumn k s t := by
  have same := SndColumn.refl k s
  cases h with
  | stays => exact same
  | byte off b hlo hhi =>
    exact { same with
      frame := rfl
      shm := fun a hb _ => memRead_memWrite_other hm (fun he => hb ⟨c, hc, by omega, by omega⟩) b }
  | head v =>
    exact { same with
      frame := rfl
      shm := fun a _ hh => memRead_memWrite32_outside hm v (by have := hh c hc; unfold inWord at this; omega) }
  | rings w => exact { same with frame := rfl, outputs := outputsOk_add rfl (.inl ⟨w, rfl⟩) }
  | regs q hq => exact .regs s hq
  | aborts e code he =>
    have hfree : SndColumn k s (s.setLock c .free) := .regs s rfl
    exact (hfree.trans (.raise _ he)).trans (.answers _ _ _)
  | answers code v => exact .answers s code v

theorem snd_confined (k : Nat) : Confined (.snd k) (fun cfg l => lineOk cfg (.snd k) l) (SndColumn k) where
  refl := SndColumn.refl k
  trans := fun _ _ _ => .trans
  phase := fun s _ _ => { SndColumn.refl k s with frame := rfl }
  line := fun _ acc _ rest hw hm hr hl => by
    obtain ⟨c, hc, hon⟩ := onChannel_of_lineOk hw hl
    exact (lineStep_snd_goes acc rest hr hon).1.column hm hc
  todo := fun _ _ _ _ hw hr hl hk => lineStep_ok hw hr hl hk

/-- What a sender in a phase of channel `c` changes of the registers and of SHM (R278). -/
structure ChannelColumn (c : Nat) (s t : State) : Prop where
  cfg : t.cfg = s.cfg
  regs : ∀ c', c' ≠ c → t.chan c' = s.chan c'
  shm : ∀ a, (a < s.cfg.baseTx c ∨ s.cfg.baseTx c + (s.cfg.chan c).capTx ≤ a) → ¬ inWord (offTxh c) a →
    memRead t.mem a = memRead s.mem a

theorem ChannelColumn.of_eq {c : Nat} {s t : State} (hcfg : t.cfg = s.cfg) (hmem : t.mem = s.mem)
    (hregs : ∀ c', c' ≠ c → t.chan c' = s.chan c') : ChannelColumn c s t :=
  ⟨hcfg, hregs, fun _ _ _ => by rw [hmem]⟩

theorem ChannelColumn.trans {c : Nat} {s t u : State} (h : ChannelColumn c s t) (h' : ChannelColumn c t u) :
    ChannelColumn c s u where
  cfg := h'.cfg.trans h.cfg
  regs := fun c' hc' => (h'.regs c' hc').trans (h.regs c' hc')
  shm := fun a hb hh => by rw [h'.shm a (h.cfg ▸ hb) hh, h.shm a hb hh]

theorem SndDoes.channelColumn {k c : Nat} {s t : State} (hm : memWf s.mem = true) (h : SndDoes k c s t) :
    ChannelColumn c s t := by
  cases h with
  | stays => exact .of_eq rfl rfl fun _ _ => rfl
  | byte off b hlo hhi =>
    exact ⟨rfl, fun _ _ => rfl, fun a ha _ => memRead_memWrite_other hm (by omega) b⟩
  | head v =>
    exact ⟨rfl, fun _ _ => rfl, fun a _ ha => memRead_memWrite32_outside hm v (by unfold inWord at ha; omega)⟩
  | rings w => exact .of_eq rfl rfl fun _ _ => rfl
  | regs q _ => exact .of_eq rfl rfl fun _ hc' => chan_setChan_other hc' s q
  | aborts e code _ =>
    have hchans : (sendAbort s (.snd k) c e code).st.chans = (s.setLock c .free).chans := by simp [sendAbort]
    exact .of_eq (by simp [sendAbort]) (by simp [sendAbort]) fun c' hc' =>
      (chan_congr hchans c').trans (chan_setChan_other hc' s _)
  | answers code v => exact .of_eq rfl rfl fun _ _ => rfl

theorem channel_confined (k c : Nat) : Confined (.snd k) (fun cfg l => onChannel cfg c l) (ChannelColumn c) where
  refl := fun _ => .of_eq rfl rfl fun _ _ => rfl
  trans := fun _ _ _ => .trans
  phase := fun _ _ _ => .of_eq rfl rfl fun _ _ => rfl
  line := fun _ acc _ rest _ hm hr hl => (lineStep_snd_goes acc rest hr hl).1.channelColumn hm
  todo := fun _ acc _ rest _ hr hl hk x hx => ((lineStep_snd_goes acc rest hr hl).2 x hx).elim id (hk x)

end Sys2Proof.Machine
end

section
/-! SUPPORT. The columns together (60_exceptions.md R270; 43_link_device.md R213; 44_dispatch.md R254). -/

namespace Sys2Proof.Machine

/-- Settles O54: for each agent a relation that its lines keep, closed under running on. -/
theorem agentsStayInColumn : Obligations.AgentsStayInColumn := by
  intro s n ho hm
  refine ⟨?isr, ?dw, ?snd, ?lw, ?host⟩
  case isr =>
    rintro t rfl
    have h := isr_confined.advanceOwned (by simp) n ho hm
    exact ⟨h.frame, h.flags, h.wq, h.irq⟩
  case dw =>
    rintro t rfl
    have h := dwColumn_dispatchFrame s
    exact ⟨h.frame, h.flags, h.rxq, h.outputs⟩
  case snd =>
    rintro t k rfl
    have h := (snd_confined k).advanceOwned (by simp) n ho hm
    refine ⟨h.frame, h.flags, h.outputs, h.length, h.pendingAck, h.shm, fun c past hphase => ?_⟩
    have hc := (channel_confined k c).advance (by simp) n ho.1 hm (onChannel_of_sendPhase hphase) (by simp [wakeLines])
    exact ⟨hc.regs, hc.shm⟩
  case lw =>
    rintro t rfl
    have h := lw_confined.advanceOwned (by simp) n ho hm
    exact ⟨h.frame, h.flags, h.wq, h.rxq, h.outputs, h.length, h.regs, h.shm⟩
  case host =>
    rintro t rfl
    have h := host_confined.advanceOwned (by simp) n ho hm
    exact ⟨h.frame, h.started, h.outputs⟩

end Sys2Proof.Machine
end

section
/-! SUPPORT. Hardware reset and the time before the start (70_reset_and_hazards.md R300 to R302): what reset leaves, and that
the engine stays so until `LD.START` sets `started`. -/

namespace Sys2Proof.Machine

/-! ### Hardware reset (R300, R301; 10_state.md R50) -/

/-- Every channel register is at its reset value, and so reads one the engine does not have. -/
@[simp] theorem chan_hwReset (s : State) (c : Nat) : (hwReset s).chan c = .reset := by
  simp only [State.chan, hwReset_chans, List.getD_eq_getElem?_getD, List.getElem?_replicate]
  split_ifs <;> rfl

/-- No operation outlives hardware reset. -/
@[simp] theorem thread_hwReset (s : State) (a : Agent) : (hwReset s).thread a = .idle := by cases a <;> rfl

/-- Settles O44: the step is `hwReset`, whose fields are those of a launch with SHM and the mailbox as they were. -/
theorem hardwareReset : Obligations.HardwareReset := by
  intro s rest hn hs
  refine ⟨hwReset { s with sched := rest }, step_choice hn hs, rfl, rfl, rfl, rfl, List.length_replicate,
    fun c => ?_, rfl, rfl, thread_hwReset _, rfl, rfl, rfl, rfl, rfl, rfl, rfl, rfl⟩
  rw [chan_hwReset]
  exact ⟨rfl, rfl, rfl, rfl⟩

/-! ### Who moves before the start (10_state.md R32) -/

/-- `preStart` claims nothing of an engine that is started. -/
theorem preStart_of_started {s : State} (h : s.started = true) : s.preStart := fun hn => absurd h (by simp [hn])

/-- `HALTED` cannot come before the start (60_exceptions.md R267). -/
theorem preStart_started_of_halted {s : State} (h : s.preStart) (hh : s.halted = true) : s.started = true := by
  by_contra hst
  obtain ⟨-, hrun, -⟩ := h (by simpa using hst)
  exact absurd hh (by simp [hrun])

/-- An agent other than `HOST` and `DW` that may step stands in an engine that is started. -/
theorem started_of_agentLive {s : State} {a : Agent} (hd : a ≠ .dw) (hh : a ≠ .host) (h : agentLive s a = true) :
    s.started = true := by
  by_contra hst
  have hstopped : s.stopped := by simp [State.stopped, hst]
  exact absurd h (by simp [agentLive_stopped hstopped hd hh])

/-- A send is admitted only after the start (42_channel.md R182 A1). -/
theorem refuseSend_started {s : State} {c len : Nat} (h : refuseSend s c len = none) : s.started = true := by
  by_contra hst
  exact absurd h (by simp [refuseSend_notStarted (by simpa using hst : s.started = false)])

/-! ### The invariant -/

/-- What begins is an operation of `HOST`, or of an agent that may step only after the start. -/
theorem preStart_begins {s : State} {a : Agent} {prog : List Line} (hf : s.free a = true) (hb : Begins s a prog)
    (h : s.preStart) : (s.setThread a ⟨.unit, prog⟩).preStart := by
  by_cases hh : a = .host
  · subst hh
    exact h
  · have hst := started_of_agentLive hb.not_dw hh ((free_iff s a).1 hf).1
    exact preStart_of_started ((Onward.setThread s a _).started hst)

/-- `HOST` stores to SHM, answers, and sets `started`: no line of its column touches another private register. -/
theorem preStart_lineStep_host {s : State} {l : Line} (acc : Value) (k : List Line) (hl : lineOk s.cfg .host l)
    (h : s.preStart) : (lineStep .host l acc k s).st.preStart := by
  obtain ⟨off, b, rfl⟩ | ⟨off, v, rfl⟩ | rfl | rfl | rfl | rfl := lineOk_host hl
  · exact h
  · exact h
  · exact h
  · exact preStart_of_started rfl
  · exact h
  · exact h

theorem preStart_settle_host {o : Out} (h : o.st.preStart) : (settle .host o).preStart := by
  obtain ⟨s, acc, todo⟩ := o
  cases todo <;> exact h

/-- A line is run by `HOST`, or in an engine that is started and stays so. -/
theorem preStart_line {a : Agent} {l : Line} {acc : Value} {k : List Line} {s : State} (hd : a ≠ .dw)
    (hr : lineReady a l s = true) (hl : lineOk s.cfg a l) (h : s.preStart) :
    (settle a (lineStep a l acc k s)).preStart := by
  by_cases hh : a = .host
  · subst hh
    exact preStart_settle_host (preStart_lineStep_host acc k hl h)
  · have hlive : agentLive s a = true := by
      simp only [lineReady, Bool.and_eq_true] at hr
      exact hr.1
    have on := (Onward.line a l acc k s).trans (.settle a _)
    exact preStart_of_started (on.started (started_of_agentLive hd hh hlive))

/-- Before the start `DW` finds its queue empty. -/
theorem preStart_dispatchFrame {s : State} (h : s.preStart) : (dispatchFrame s).preStart := by
  by_cases hst : s.started = true
  · exact preStart_of_started ((Onward.dispatch s).started hst)
  · obtain ⟨-, -, -, -, hrxq, -⟩ := h (by simpa using hst)
    rwa [dispatchFrame_nil hrxq]

theorem preStart_keeps : KeepsOwned State.preStart where
  sched := fun _ _ h => h
  ret := fun _ _ h => h
  respond := fun _ _ _ _ _ h => h
  begins := fun _ _ _ hf hb => preStart_begins hf hb
  send := fun _ _ _ _ hr _ => preStart_of_started (refuseSend_started hr)
  skip := fun _ h => h
  line := fun _ l _ _ _ hd _ hr _ hok => preStart_line hd hr (hok l (List.mem_cons_self ..))
  dispatch := fun _ => preStart_dispatchFrame
  save := fun _ hr _ _ => preStart_of_started (refuseSave_none hr).1
  reset := fun s _ _ => preStart_hwReset s
  peer := fun _ _ _ he h => by rw [(peerStep_private he).1]; exact h

/-- Settles O57: only `HOST` moves before the start, and what it does leaves the engine as reset left it, or starts it. -/
theorem nothingBeforeStart : Obligations.NothingBeforeStart := by
  intro s t ho hs he
  have ht : t.preStart := (preStart_keeps.step ho he hs).2
  exact ⟨ht, preStart_started_of_halted ht⟩

end Sys2Proof.Machine
end
